-- ==== Sys2Proof/Word.lean ====
section
/-!
DEFINITION. The word types of the spec and the widths of a card-bus cycle.
Rules: R10, R11 (00_scope.md), R51 (20_memory.md), R70 (30_encoding.md).
-/

namespace Sys2Proof

/-- A byte: a stream byte, a host byte, an 8-bit register (R10). -/
abbrev Byte := BitVec 8

/-- A 16-bit value: a response value, a data-port value (R41, R57). -/
abbrev Half := BitVec 16

/-- A 32-bit value: a window value, a card-bus or host address (R51). -/
abbrev Word := BitVec 32

/-- A 128-bit request descriptor `d[127:0]` (R70). -/
abbrev Desc := BitVec 128

/-- The widths of a card-bus cycle: `n` in 1, 2, 4 bytes (R11). -/
inductive Width where
  | w8
  | w16
  | w32
  deriving DecidableEq, Repr

/-- How many bytes a cycle of this width moves (R11). -/
def Width.bytes : Width → Nat
  | .w8 => 1
  | .w16 => 2
  | .w32 => 4

/-- `trunc_N(v)` at the width of a cycle, kept in 32 bits, zero-extended (R10, R11). -/
def Width.trunc : Width → Word → Word
  | .w8, v => (v.setWidth 8).setWidth 32
  | .w16, v => (v.setWidth 16).setWidth 32
  | .w32, v => v

end Sys2Proof
end

