-- ==== Sys2Proof/Config.lean ====
section
/-!
DEFINITION. The configuration record of R7 (00_scope.md), its default values, and the free values
that the spec leaves to the environment (opaque constants with no body).
-/

namespace Sys2Proof

/-- Where an EEPROM line write takes its base byte from: parameter `EE_RMW_SOURCE` (R7, R122). -/
inductive RmwSource where
  | shadow
  | bus
  deriving DecidableEq, Repr

/-- The configuration record of R7 (00_scope.md). `REG_COUNT` is the constant `regCount`, since R21
gives `reg_offset` exactly 32 entries. Times are in microseconds; no rule reads them (R162).
DESIGN CHOICE, safe (log 14): the record is carried in `State`, where no step writes it (R47). -/
structure Config where
  /-- `BOARD_BASE`, OPEN: the board's base address on the host bus. -/
  boardBase : Word
  /-- `REG_BASE` -/
  regBase : Half
  /-- `REG_STRIDE` -/
  regStride : Nat
  /-- `DATA32_BASE` -/
  data32Base : Half
  /-- `DATA32_SIZE` -/
  data32Size : Half
  /-- `RD_WIN_OFF` -/
  rdWinOff : Half
  /-- `WR_WIN_OFF` -/
  wrWinOff : Half
  /-- `WIN_SIZE` -/
  winSize : Nat
  /-- `WORD16` -/
  word16 : Bool
  /-- `HOST_BIG_ENDIAN` -/
  hostBigEndian : Bool
  /-- `HDR_SIZE` -/
  hdrSize : Nat
  /-- `T_TX` in microseconds -/
  tTx : Nat
  /-- `T_RESET` in microseconds -/
  tReset : Nat
  /-- `T_EE` in microseconds -/
  tEe : Nat
  /-- `EE_RMW_SOURCE` -/
  eeRmwSource : RmwSource
  /-- `TX_START_PG` (R9: recorded, read by no rule) -/
  txStartPg : Byte
  /-- `RX_START_PG` (R9) -/
  rxStartPg : Byte
  /-- `RX_STOP_PG` (R9) -/
  rxStopPg : Byte
  deriving DecidableEq, Repr

/-- `REG_COUNT` = 32 (R7, R21, R23). -/
abbrev regCount : Nat := 32

namespace Config

/-- The free value behind the OPEN parameter `BOARD_BASE`: a multiple of 4 (R8) is four times this.
DESIGN CHOICE, safe (log 14): no body, so no proof can see the base address of the reset state. -/
opaque boardSlot : BitVec 30

/-- FREE VALUE: the downstream environment's answer to a card-bus read whose answer is not listed
in `env.busTape` (R68). Safe (log 7). -/
opaque busAnswer : Nat → Word

/-- FREE VALUE: how many `Expired` draws of a wait not listed in `env.expiredTape` answer false before the
first that answers true (R45). Safe (log 8). -/
opaque expiredAfter : Nat → Nat

/-- FREE VALUE: the level of `reinit_done` at a poll not listed in `env.reinitTape` (R110).
Safe (log 9). -/
opaque reinitAnswer : Nat → Bool

/-- FREE VALUE: a byte drawn from the host-memory port (the pad byte of R107, a raced byte of R63),
not listed in `env.hostTape`. Safe (log 12, 13). -/
opaque hostDraw : Nat → Byte

/-- FREE VALUE: header byte `k` of a GETHDR whose `HDR_SIZE` has no such byte (R8 admits a size below 4, R104
takes it to be 4). DESIGN CHOICE (log 15). -/
opaque absentHeaderByte : Nat → Byte

/-- The default values of R7, for a board at `boardBase`. -/
def defaultAt (boardBase : Word) : Config where
  boardBase := boardBase
  regBase := 0x0800
  regStride := 4
  data32Base := 0x8000
  data32Size := 0x2000
  rdWinOff := 0x0880
  wrWinOff := 0x0C80
  winSize := 128
  word16 := true
  hostBigEndian := true
  hdrSize := 4
  tTx := 20000
  tReset := 20000
  tEe := 10
  eeRmwSource := .shadow
  txStartPg := 0x40
  rxStartPg := 0x4C
  rxStopPg := 0x80

/-- The configuration of the reset state: the defaults of R7, `BOARD_BASE` free (log 14). -/
def default : Config := defaultAt (boardSlot ++ 0#2)

/-- The two ring presets of R7 (start of transmit, start and end of receive), by `WORD16` (R9). -/
def ringPreset (word16 : Bool) : Byte × Byte × Byte :=
  if word16 then (0x40, 0x4C, 0x80) else (0x20, 0x2C, 0x40)

/-- The same configuration with the other word width and its ring preset (R7, R9). -/
def withWord16 (c : Config) (word16 : Bool) : Config :=
  { c with
    word16 := word16
    txStartPg := (ringPreset word16).1
    rxStartPg := (ringPreset word16).2.1
    rxStopPg := (ringPreset word16).2.2 }

/-- `WW`: the write window's address (R55, R88). -/
def writeWindow (c : Config) : Word :=
  c.boardBase + c.data32Base.setWidth 32 + c.wrWinOff.setWidth 32

/-- `RW`: the read window's address (R55, R88). -/
def readWindow (c : Config) : Word :=
  c.boardBase + c.data32Base.setWidth 32 + c.rdWinOff.setWidth 32

/-- `CH`: the number of 32-bit cycles in a full chunk (R88). -/
def chunkCycles (c : Config) : Nat := c.winSize / 4

end Config

end Sys2Proof
end

