-- ==== Sys2Proof/Syntax.lean ====
section
/-!
DEFINITION. The requests, one constructor per row of spec/opcode_table.json (R74, 30_encoding.md), and
the textual form of R77 as a term.
-/

namespace Sys2Proof

/-- The two request ports (R20, R36, 10_state.md). -/
inductive Port where
  | task
  | irq
  deriving DecidableEq, Repr

/-- A request, operands as R71, R72 and R77 name them. Every operand has its field's width (R73), so
every term can be encoded. -/
inductive Instr where
  /-- RD8 idx (R84) -/
  | rd8 (idx : Byte)
  /-- RD16 idx (R85) -/
  | rd16 (idx : Byte)
  /-- WR8 idx, val8 (R86) -/
  | wr8 (idx : Byte) (val : Byte)
  /-- WR16 idx, val16 (R87) -/
  | wr16 (idx : Byte) (val : Half)
  /-- WBLK haddr, len (R95) -/
  | wblk (haddr : Word) (len : Half)
  /-- RBLK haddr, len (R96) -/
  | rblk (haddr : Word) (len : Half)
  /-- GETHDR haddr, page (R104) -/
  | gethdr (haddr : Word) (page : Byte)
  /-- BIN haddr, len, roff (R105) -/
  | bin (haddr : Word) (len : Half) (roff : Half)
  /-- BOUT haddr, len, page (R108) -/
  | bout (haddr : Word) (len : Half) (page : Byte)
  /-- RESET (R112) -/
  | reset
  /-- MDC lv (R117) -/
  | mdc (lv : Bool)
  /-- MDIR out (R118) -/
  | mdir (lv : Bool)
  /-- MDO lv (R119) -/
  | mdo (lv : Bool)
  /-- MDI (R120) -/
  | mdi
  /-- EERD (R121) -/
  | eerd
  /-- EEWR cs, clk, di (R122) -/
  | eewr (cs clk di : Bool)
  /-- MDIORD phy, reg (R127) -/
  | mdiord (phyad : BitVec 5) (regad : BitVec 5)
  /-- MDIOWR phy, reg, val16 (R126) -/
  | mdiowr (phyad : BitVec 5) (regad : BitVec 5) (val : Half)
  deriving DecidableEq, Repr

/-- An operand of the textual form: a number, or a register's name (R77). -/
inductive AsmOperand where
  | num (n : Nat)
  | name (s : String)
  deriving DecidableEq, Repr

/-- A line `[port:] MNEMONIC operands` of R77, its tokens told apart. -/
structure AsmLine where
  port : Option Port
  mnemonic : String
  operands : List AsmOperand
  deriving DecidableEq, Repr

end Sys2Proof
end

