-- ==== Sys2Proof/WellFormed.lean ====
section
/-!
DEFINITION. What can be ill-formed: a configuration (R8, 00_scope.md) and a line of text (R77, R78,
30_encoding.md). A term of `Instr` cannot: each operand has its field's width (R73).
-/

namespace Sys2Proof

/-! ### Configurations (R8) -/

namespace Config

/-- "`WIN_SIZE` is a positive multiple of 4" (R8). -/
def winSizeOk (c : Config) : Bool := 0 < c.winSize && c.winSize % 4 == 0

/-- "`RD_WIN_OFF + WIN_SIZE` [is] at most `DATA32_SIZE`" (R8). -/
def rdWindowFits (c : Config) : Bool := c.rdWinOff.toNat + c.winSize ≤ c.data32Size.toNat

/-- "`WR_WIN_OFF + WIN_SIZE` [is] at most `DATA32_SIZE`" (R8). -/
def wrWindowFits (c : Config) : Bool := c.wrWinOff.toNat + c.winSize ≤ c.data32Size.toNat

/-- "`REG_BASE + REG_STRIDE*(REG_COUNT-1) + 1` is at most `DATA32_BASE`" (R8). -/
def registersBelowData32 (c : Config) : Bool :=
  c.regBase.toNat + c.regStride * (regCount - 1) + 1 ≤ c.data32Base.toNat

/-- "`BOARD_BASE` is a multiple of 4" (R8). -/
def boardAligned (c : Config) : Bool := c.boardBase.toNat % 4 == 0

/-- Every constraint of R8. -/
def wellFormed (c : Config) : Bool :=
  c.winSizeOk && c.rdWindowFits && c.wrWindowFits && c.registersBelowData32 && c.boardAligned

/-- The offsets are multiples of 4 and registers are 4 bytes apart, as R54, R55 and R80 take for
granted and R8 does not list. DEDUCED, safe (log 15): a premise of alignment statements only. -/
def aligned (c : Config) : Bool :=
  c.regBase.toNat % 4 == 0 && c.regStride == 4 && c.data32Base.toNat % 4 == 0
    && c.rdWinOff.toNat % 4 == 0 && c.wrWinOff.toNat % 4 == 0

end Config

/-! ### Lines of text (R77, R78) -/

/-- The names a register operand may have, with its index (R29, R77). -/
def registerNames : List (String × Nat) :=
  [("CMD", 0x00), ("ISR", 0x07), ("RSARLO", 0x08), ("RSARHI", 0x09), ("RCNTLO", 0x0A),
   ("RCNTHI", 0x0B), ("DATAPORT", 0x10), ("MEMR", 0x14), ("RESET", 0x1F)]

/-- What a position of a line takes: a number of at most so many bits, or a register as well. -/
structure OperandShape where
  bits : Nat
  isRegister : Bool
  deriving DecidableEq, Repr

/-- A plain number of `bits` bits. -/
def OperandShape.field (bits : Nat) : OperandShape := ⟨bits, false⟩

/-- A register operand: an 8-bit index or a name. -/
def OperandShape.register : OperandShape := ⟨8, true⟩

/-- The operand order of R77 for each mnemonic, and of R78 for each pseudo-instruction. -/
def operandShapes : List (String × List OperandShape) :=
  [("RD8", [.register]), ("RD16", [.register]),
   ("WR8", [.register, .field 8]), ("WR16", [.register, .field 16]),
   ("WBLK", [.field 32, .field 16]), ("RBLK", [.field 32, .field 16]),
   ("GETHDR", [.field 32, .field 8]), ("BIN", [.field 32, .field 16, .field 16]),
   ("BOUT", [.field 32, .field 16, .field 8]), ("RESET", []),
   ("MDC", [.field 1]), ("MDIR", [.field 1]), ("MDO", [.field 1]), ("MDI", []),
   ("EERD", []), ("EEWR", [.field 1, .field 1, .field 1]),
   ("MDIORD", [.field 5, .field 5]), ("MDIOWR", [.field 5, .field 5, .field 16])]
  ++ [("CMDW", [.field 8]), ("ACK", [.field 8]), ("RDISR", []), ("MBIT", [.field 1]), ("MGET", [])]

/-- Looks a name up in a list of names. -/
def lookupName {α : Type} (name : String) : List (String × α) → Option α
  | [] => none
  | (n, v) :: rest => if n = name then some v else lookupName name rest

/-- The number an operand stands for at a position of this shape; none if it does not fit its field
or is no name of a register there (R77). -/
def AsmOperand.value (shape : OperandShape) : AsmOperand → Option Nat
  | .num n => if n < 2 ^ shape.bits then some n else none
  | .name s => if shape.isRegister then lookupName s registerNames else none

/-- The operands' numbers against the shapes: none if one is missing, extra or does not fit (R77). -/
def operandValues : List OperandShape → List AsmOperand → Option (List Nat)
  | [], [] => some []
  | s :: ss, o :: os =>
    match o.value s, operandValues ss os with
    | some v, some vs => some (v :: vs)
    | _, _ => none
  | _, _ => none

namespace AsmLine

/-- The mnemonic is one of R77 or R78. -/
def knownMnemonic (l : AsmLine) : Bool := (lookupName l.mnemonic operandShapes).isSome

/-- No operand is missing and none is extra (R77). -/
def operandCountOk (l : AsmLine) : Bool :=
  match lookupName l.mnemonic operandShapes with
  | some shapes => shapes.length == l.operands.length
  | none => false

/-- Every operand fits its field (R77). -/
def operandsFit (l : AsmLine) : Bool :=
  match lookupName l.mnemonic operandShapes with
  | some shapes => (operandValues shapes l.operands).isSome
  | none => false

/-- What an assembler of R77 does not refuse. -/
def wellFormed (l : AsmLine) : Bool := l.knownMnemonic && l.operandCountOk && l.operandsFit

end AsmLine

end Sys2Proof
end

