-- ==== Sys2Proof/Decode.lean ====
section
/-!
DEFINITION. Decoding and encoding of request descriptors (30_encoding.md R70-R75), then assembling of
textual lines and pseudo-instructions (R77, R78).
-/

namespace Sys2Proof

/-! ### Fields of a descriptor (R71) -/

/-- `OP` = `d[7:0]`. -/
def opOf (d : Desc) : Byte := d.extractLsb' 0 8

/-- `IDX` = `d[15:8]`. -/
def idxOf (d : Desc) : Byte := d.extractLsb' 8 8

/-- `PAGE` = `d[23:16]`. -/
def pageOf (d : Desc) : Byte := d.extractLsb' 16 8

/-- `PHYAD` = `d[20:16]`. -/
def phyadOf (d : Desc) : BitVec 5 := d.extractLsb' 16 5

/-- `REGAD` = `d[28:24]`. -/
def regadOf (d : Desc) : BitVec 5 := d.extractLsb' 24 5

/-- `LEN` = `d[47:32]`. -/
def lenOf (d : Desc) : Half := d.extractLsb' 32 16

/-- `VAL` and `ROFF` = `d[63:48]`. -/
def valOf (d : Desc) : Half := d.extractLsb' 48 16

/-- `VAL[7:0]` = `d[55:48]`, the value of WR8. -/
def val8Of (d : Desc) : Byte := d.extractLsb' 48 8

/-- One bit of `d`: `LV` and `DI` at 48, `CLK` at 49, `CS` at 50. -/
def lineOf (bit : Nat) (d : Desc) : Bool := d.getLsbD bit

/-- `HADDR` = `d[95:64]`. -/
def haddrOf (d : Desc) : Word := d.extractLsb' 64 32

/-- A descriptor as four 32-bit words `w3_w2_w1_w0`, `w0 = d[31:0]` (R70). -/
def descOfWords (w3 w2 w1 w0 : Word) : Desc := w3 ++ w2 ++ w1 ++ w0

/-- The words `[w3, w2, w1, w0]` in which a descriptor crosses a 32-bit interface (R70). -/
def wordsOfDesc (d : Desc) : List Word :=
  [d.extractLsb' 96 32, d.extractLsb' 64 32, d.extractLsb' 32 32, d.extractLsb' 0 32]

/-! ### The opcode table (R72, R74) -/

/-- A row of spec/opcode_table.json. `mask` covers `OP` and every reserved bit of the format; `matched`
has `OP` set and every reserved bit 0 (R74). `build` reads the format's fields (R72). -/
structure Row where
  mnemonic : String
  format : String
  matched : Desc
  mask : Desc
  build : Desc → Instr

/-- Register-width adapter, 40_bus_adaptation.md. -/
def adapterRows : List Row :=
  [⟨"RD8", "REGR",
    0x00000000000000000000000000000001, 0xFFFFFFFFFFFFFFFFFFFFFFFFFFFF00FF,
    fun d => .rd8 (idxOf d)⟩,
   ⟨"RD16", "REGR",
    0x00000000000000000000000000000002, 0xFFFFFFFFFFFFFFFFFFFFFFFFFFFF00FF,
    fun d => .rd16 (idxOf d)⟩,
   ⟨"WR8", "REGW8",
    0x00000000000000000000000000000003, 0xFFFFFFFFFFFFFFFFFF00FFFFFFFF00FF,
    fun d => .wr8 (idxOf d) (val8Of d)⟩,
   ⟨"WR16", "REGW16",
    0x00000000000000000000000000000004, 0xFFFFFFFFFFFFFFFF0000FFFFFFFF00FF,
    fun d => .wr16 (idxOf d) (valOf d)⟩]

/-- Block-FIFO bridge, 41_block_fifo_bridge.md. -/
def bridgeRows : List Row :=
  [⟨"WBLK", "B",
    0x00000000000000000000000000000010, 0xFFFFFFFF00000000FFFF0000FFFFFFFF,
    fun d => .wblk (haddrOf d) (lenOf d)⟩,
   ⟨"RBLK", "B",
    0x00000000000000000000000000000011, 0xFFFFFFFF00000000FFFF0000FFFFFFFF,
    fun d => .rblk (haddrOf d) (lenOf d)⟩]

/-- Remote-DMA sequencer, 42_remote_dma.md. -/
def remoteDmaRows : List Row :=
  [⟨"GETHDR", "DH",
    0x00000000000000000000000000000020, 0xFFFFFFFF00000000FFFFFFFFFF00FFFF,
    fun d => .gethdr (haddrOf d) (pageOf d)⟩,
   ⟨"BIN", "DI",
    0x00000000000000000000000000000021, 0xFFFFFFFF0000000000000000FFFFFFFF,
    fun d => .bin (haddrOf d) (lenOf d) (valOf d)⟩,
   ⟨"BOUT", "DO",
    0x00000000000000000000000000000022, 0xFFFFFFFF00000000FFFF0000FF00FFFF,
    fun d => .bout (haddrOf d) (lenOf d) (pageOf d)⟩,
   ⟨"RESET", "N",
    0x00000000000000000000000000000023, 0xFFFFFFFFFFFFFFFFFFFFFFFFFFFFFFFF,
    fun _ => .reset⟩]

/-- Management interface, 43_mgmt_interface.md. -/
def mgmtRows : List Row :=
  [⟨"MDC", "L",
    0x00000000000000000000000000000030, 0xFFFFFFFFFFFFFFFFFFFEFFFFFFFFFFFF,
    fun d => .mdc (lineOf 48 d)⟩,
   ⟨"MDIR", "L",
    0x00000000000000000000000000000031, 0xFFFFFFFFFFFFFFFFFFFEFFFFFFFFFFFF,
    fun d => .mdir (lineOf 48 d)⟩,
   ⟨"MDO", "L",
    0x00000000000000000000000000000032, 0xFFFFFFFFFFFFFFFFFFFEFFFFFFFFFFFF,
    fun d => .mdo (lineOf 48 d)⟩,
   ⟨"MDI", "N",
    0x00000000000000000000000000000033, 0xFFFFFFFFFFFFFFFFFFFFFFFFFFFFFFFF,
    fun _ => .mdi⟩,
   ⟨"EERD", "N",
    0x00000000000000000000000000000034, 0xFFFFFFFFFFFFFFFFFFFFFFFFFFFFFFFF,
    fun _ => .eerd⟩,
   ⟨"EEWR", "E",
    0x00000000000000000000000000000035, 0xFFFFFFFFFFFFFFFFFFF8FFFFFFFFFFFF,
    fun d => .eewr (lineOf 50 d) (lineOf 49 d) (lineOf 48 d)⟩,
   ⟨"MDIORD", "MR",
    0x00000000000000000000000000000038, 0xFFFFFFFFFFFFFFFFFFFFFFFFE0E0FFFF,
    fun d => .mdiord (phyadOf d) (regadOf d)⟩,
   ⟨"MDIOWR", "MW",
    0x00000000000000000000000000000039, 0xFFFFFFFFFFFFFFFF0000FFFFE0E0FFFF,
    fun d => .mdiowr (phyadOf d) (regadOf d) (valOf d)⟩]

/-- The 18 rows of the opcode table. -/
def opcodeTable : List Row := adapterRows ++ bridgeRows ++ remoteDmaRows ++ mgmtRows

/-- The row's `OP` value. -/
def Row.op (r : Row) : Byte := opOf r.matched

/-- A descriptor selects the row with `(d & mask) == match` (R74). -/
def Row.selects (r : Row) (d : Desc) : Bool := d &&& r.mask == r.matched

/-! ### Decoding (R75) -/

/-- The two reasons of R75 for a refusal. -/
inductive DecodeError where
  /-- `d[7:0]` is not one of the 18 `OP` values. -/
  | unknownOp
  /-- A reserved bit of the row's format is 1. -/
  | reservedBits
  deriving DecidableEq, Repr

/-- The row whose `OP` is the descriptor's. -/
def rowOf (d : Desc) : Option Row := opcodeTable.find? (fun r => r.op == opOf d)

/-- Decoding, total on every descriptor, in the order of R75: unknown `OP`, then reserved bits. -/
def decode (d : Desc) : Except DecodeError Instr :=
  match rowOf d with
  | none => .error .unknownOp
  | some r => if r.selects d then .ok (r.build d) else .error .reservedBits

/-- The instruction read from the `nbits` bits `w` of a table row, the bits above them zero; a row of
this table has 128 bits, bit 0 the least significant of `d` (R70). -/
def decodeTableWord (nbits w : Nat) : Option Instr :=
  match decode (BitVec.ofNat 128 (w % 2 ^ nbits)) with
  | .ok i => some i
  | .error _ => none

/-! ### Encoding (R71, R72, R74) -/

/-- One line bit as a field of one bit. -/
def lineField (b : Bool) : BitVec 1 := BitVec.ofBool b

/-- The `OP` value of a request (R74). -/
def Instr.op : Instr → Byte
  | .rd8 _ => 0x01
  | .rd16 _ => 0x02
  | .wr8 _ _ => 0x03
  | .wr16 _ _ => 0x04
  | .wblk _ _ => 0x10
  | .rblk _ _ => 0x11
  | .gethdr _ _ => 0x20
  | .bin _ _ _ => 0x21
  | .bout _ _ _ => 0x22
  | .reset => 0x23
  | .mdc _ => 0x30
  | .mdir _ => 0x31
  | .mdo _ => 0x32
  | .mdi => 0x33
  | .eerd => 0x34
  | .eewr _ _ _ => 0x35
  | .mdiord _ _ => 0x38
  | .mdiowr _ _ _ => 0x39

/-- The descriptor of a request: its fields from bit 127 down to bit 0, reserved bits zero (R71, R72). -/
def encode : Instr → Desc
  | .rd8 idx => 0#112 ++ idx ++ 0x01#8
  | .rd16 idx => 0#112 ++ idx ++ 0x02#8
  | .wr8 idx val => 0#72 ++ val ++ 0#32 ++ idx ++ 0x03#8
  | .wr16 idx val => 0#64 ++ val ++ 0#32 ++ idx ++ 0x04#8
  | .wblk haddr len => 0#32 ++ haddr ++ 0#16 ++ len ++ 0#24 ++ 0x10#8
  | .rblk haddr len => 0#32 ++ haddr ++ 0#16 ++ len ++ 0#24 ++ 0x11#8
  | .gethdr haddr page => 0#32 ++ haddr ++ 0#40 ++ page ++ 0#8 ++ 0x20#8
  | .bin haddr len roff => 0#32 ++ haddr ++ roff ++ len ++ 0#24 ++ 0x21#8
  | .bout haddr len page => 0#32 ++ haddr ++ 0#16 ++ len ++ 0#8 ++ page ++ 0#8 ++ 0x22#8
  | .reset => 0#120 ++ 0x23#8
  | .mdc lv => 0#79 ++ lineField lv ++ 0#40 ++ 0x30#8
  | .mdir lv => 0#79 ++ lineField lv ++ 0#40 ++ 0x31#8
  | .mdo lv => 0#79 ++ lineField lv ++ 0#40 ++ 0x32#8
  | .mdi => 0#120 ++ 0x33#8
  | .eerd => 0#120 ++ 0x34#8
  | .eewr cs clk di => 0#77 ++ lineField cs ++ lineField clk ++ lineField di ++ 0#40 ++ 0x35#8
  | .mdiord phyad regad => 0#99 ++ regad ++ 0#3 ++ phyad ++ 0#8 ++ 0x38#8
  | .mdiowr phyad regad val => 0#64 ++ val ++ 0#19 ++ regad ++ 0#3 ++ phyad ++ 0#8 ++ 0x39#8

/-! ### Assembling (R77, R78) -/

/-- What a line of R77 or R78 stands for, its operands already numbers that fit. A pseudo-instruction
of several requests expands to that many separate requests (R78). -/
def expandLine (mnemonic : String) (v : List Nat) : List Instr :=
  let n := fun k => v.getD k 0
  let byte := fun k => BitVec.ofNat 8 (n k)
  let half := fun k => BitVec.ofNat 16 (n k)
  let word := fun k => BitVec.ofNat 32 (n k)
  let five := fun k => BitVec.ofNat 5 (n k)
  let line := fun k => n k == 1
  match mnemonic with
  | "RD8" => [.rd8 (byte 0)]
  | "RD16" => [.rd16 (byte 0)]
  | "WR8" => [.wr8 (byte 0) (byte 1)]
  | "WR16" => [.wr16 (byte 0) (half 1)]
  | "WBLK" => [.wblk (word 0) (half 1)]
  | "RBLK" => [.rblk (word 0) (half 1)]
  | "GETHDR" => [.gethdr (word 0) (byte 1)]
  | "BIN" => [.bin (word 0) (half 1) (half 2)]
  | "BOUT" => [.bout (word 0) (half 1) (byte 2)]
  | "RESET" => [.reset]
  | "MDC" => [.mdc (line 0)]
  | "MDIR" => [.mdir (line 0)]
  | "MDO" => [.mdo (line 0)]
  | "MDI" => [.mdi]
  | "EERD" => [.eerd]
  | "EEWR" => [.eewr (line 0) (line 1) (line 2)]
  | "MDIORD" => [.mdiord (five 0) (five 1)]
  | "MDIOWR" => [.mdiowr (five 0) (five 1) (half 2)]
  | "CMDW" => [.wr8 0x00 (byte 0)]
  | "ACK" => [.wr8 0x07 (byte 0)]
  | "RDISR" => [.rd8 0x07]
  | "MBIT" => [.mdo (line 0), .mdc true, .mdc false]
  | "MGET" => [.mdc true, .mdc false, .mdi]
  | _ => []

/-- Assembles a line: its port (TASK if none is written) and its requests; none where R77 refuses it. -/
def assemble (l : AsmLine) : Option (Port × List Instr) :=
  match lookupName l.mnemonic operandShapes with
  | none => none
  | some shapes =>
    match operandValues shapes l.operands with
    | none => none
    | some v => some (l.port.getD .task, expandLine l.mnemonic v)

/-! ### Reading a line of text (R77) -/

/-- The value of a digit; a hexadecimal letter counts in either case (log 29). -/
def digitValue (c : Char) : Option Nat :=
  let n := c.toNat
  if 48 ≤ n && n ≤ 57 then some (n - 48)
  else if 65 ≤ n && n ≤ 70 then some (n - 55)
  else if 97 ≤ n && n ≤ 102 then some (n - 87)
  else none

/-- The numeral after the digits read so far, each digit below the base. -/
def digitsValue (base acc : Nat) : List Char → Option Nat
  | [] => some acc
  | c :: cs =>
    match digitValue c with
    | some d => if d < base then digitsValue base (base * acc + d) cs else none
    | none => none

/-- An operand's characters: a decimal or `0x` hexadecimal number, else a name. -/
def readOperand : List Char → Option AsmOperand
  | [] => none
  | ['0', 'x'] => none
  | '0' :: 'x' :: cs => (digitsValue 16 0 cs).map .num
  | c :: cs => if c.isDigit then (digitsValue 10 0 (c :: cs)).map .num else some (.name (String.ofList (c :: cs)))

/-- Drops the blanks around a piece of a line. -/
def trimBlanks (cs : List Char) : List Char :=
  let blank := fun c : Char => c == ' ' || c == '\t'
  (((cs.dropWhile blank).reverse).dropWhile blank).reverse

/-- The pieces of a line between the commas. -/
def splitCommas : List Char → List (List Char)
  | [] => [[]]
  | c :: cs =>
    if c == ',' then [] :: splitCommas cs
    else
      match splitCommas cs with
      | [] => [[c]]
      | piece :: rest => (c :: piece) :: rest

/-- The operands of a list of pieces; none if one is empty or no numeral. -/
def readOperands : List (List Char) → Option (List AsmOperand)
  | [] => some []
  | piece :: rest =>
    match readOperand (trimBlanks piece), readOperands rest with
    | some o, some os => some (o :: os)
    | _, _ => none

/-- `MNEMONIC operands`, the port told apart. -/
def readRequest (port : Option Port) (cs : List Char) : Option AsmLine :=
  let blank := fun c : Char => c == ' ' || c == '\t'
  let body := trimBlanks cs
  let mnemonic := String.ofList (body.takeWhile (fun c => !blank c))
  let rest := trimBlanks (body.dropWhile (fun c => !blank c))
  if rest.isEmpty then some ⟨port, mnemonic, []⟩
  else (readOperands (splitCommas rest)).map (fun os => ⟨port, mnemonic, os⟩)

/-- `[port:] MNEMONIC operands`: `port` is `task` or `irq`, any other is refused (R77). -/
def readLine (cs : List Char) : Option AsmLine :=
  match cs.dropWhile (fun c => c != ':') with
  | [] => readRequest none cs
  | _ :: rest =>
    let port := trimBlanks (cs.takeWhile (fun c => c != ':'))
    if port = ['t', 'a', 's', 'k'] then readRequest (some .task) rest
    else if port = ['i', 'r', 'q'] then readRequest (some .irq) rest
    else none

/-- A line of characters assembled: none where an assembler of R77 refuses it. -/
def assembleText (cs : List Char) : Option (Port × List Instr) :=
  match readLine cs with
  | none => none
  | some l => assemble l

end Sys2Proof
end

