-- ==== Sys2Proof/Machine/State.lean ====
section
/-!
DEFINITION. The state of the block (R21, 10_state.md), of its interfaces (R20) and of its environment
(R17), as plain data; the reasons a step can stop; the state after reset (R50).
-/

namespace Sys2Proof.Machine

open Sys2Proof

/-! ### Codes and records (R41, R42, R129) -/

/-- Every outcome code of R129 (60_exceptions.md). -/
inductive Code where
  | none
  | unknownOp
  | reservedBits
  | regRange
  | countOverflow
  | mgmtReentry
  | hostRange
  | dmaConflict
  | timeoutTx
  | timeoutReset
  | reinit
  deriving DecidableEq, Repr

/-- The status of a response (R41). -/
inductive Status where
  | ok
  | conflict
  | fault
  | refused
  deriving DecidableEq, Repr

/-- The information recorded with a fault (R129). -/
inductive Info where
  /-- `IDX`, with `REG_RANGE`. -/
  | index (idx : Byte)
  /-- `LEN`, with `COUNT_OVERFLOW`. -/
  | length (len : Half)
  /-- `OP`, with `MGMT_REENTRY`. -/
  | opcode (op : Byte)
  /-- (`HADDR`, `L'`), with `HOST_RANGE`. -/
  | range (haddr : Word) (count : Nat)
  deriving DecidableEq, Repr

/-- A response `(status, code, value)` (R41). -/
structure Response where
  status : Status
  code : Code
  value : Half
  deriving DecidableEq, Repr

/-- An event `(kind, port, info)` of the log (R42). -/
inductive Event where
  /-- `CONFLICT`, info (opcode, `dmaing` value). -/
  | conflict (p : Port) (op : Byte) (dmaing : Byte)
  | timeoutTx (p : Port)
  | timeoutReset (p : Port)
  | reinit (p : Port)
  /-- `FAULT`, info (code, info). -/
  | fault (p : Port) (code : Code) (info : Info)
  /-- `REFUSED`, info (reason, descriptor). -/
  | refused (p : Port) (reason : DecodeError) (desc : Desc)
  deriving DecidableEq, Repr

/-! ### A request in progress (R37, R38, R39) -/

/-- The frame phase `mg_phase` (R27, R125). -/
inductive MgPhase where
  | idle
  | pre
  | st
  | op
  | phy
  | reg
  | ta
  | data
  | tail
  | flush
  deriving DecidableEq, Repr

/-- The transaction state `xstate` (R37, R113). -/
inductive XState where
  | idle
  | armed
  | transferring
  | acknowledged
  deriving DecidableEq, Repr

/-- The kinds of bounded wait: `TX` of BOUT, `RST` of the reset poll (R44). -/
inductive WaitKind where
  | tx
  | rst
  deriving DecidableEq, Repr

/-- A wait instance: its kind, and how many more of its `Expired` draws answer false, none before its
first draw (R44). A sequence of draws that is monotone and in which some draw is true is such a count
(R45 properties 2 and 3; log 8). -/
structure Wait where
  kind : WaitKind
  left : Option Nat
  deriving DecidableEq, Repr

/-- The kinds of bridge transfer of R90 and R91: a window cycle, the 16-bit and the 8-bit remainder. -/
inductive BUnit where
  | win
  | half
  | byte
  deriving DecidableEq, Repr

/-- The writes of the arming sequence (R102, R108), in order; only BOUT has `clearIsr`. -/
inductive ArmPos where
  | idle0
  | clearIsr
  | cntLo
  | cntHi
  | adrLo
  | adrHi
  | start
  deriving DecidableEq, Repr

/-- The three writes of `SendBit` (R124). -/
inductive SendEdge where
  | set
  | high
  | low
  deriving DecidableEq, Repr

/-- The two writes and the read of `GetBit` (R124). -/
inductive GetEdge where
  | high
  | low
  | sample
  deriving DecidableEq, Repr

/-- Where a frame takes bits from the line (R125). -/
inductive GetStage where
  | ta
  | data
  | tail
  | flush
  deriving DecidableEq, Repr

/-- `pos`: the next micro-step of the request's pseudocode (R37, R39). -/
inductive Pos where
  /-- The first micro-step: operand checks (R76), `MgEnter` (R115), or RESET's read (R112). -/
  | start
  /-- The one card-bus cycle of RD8, RD16, WR8, WR16, MDC, MDIR, MDO, MDI, EERD. -/
  | cycle
  /-- `base <- RegRd8(MEMR)` of EEWR under BUS (R122). -/
  | eeRead
  /-- `RegWr8(MEMR, b)` of EEWR (R122). -/
  | eeWrite
  /-- `EeHold()` (R123). -/
  | eeHold
  /-- `BusyAcquire` (R99). -/
  | acquire
  /-- A write of the arming sequence (R102). -/
  | arm (a : ArmPos)
  /-- The host access of a bridge transfer (R90, R91). -/
  | host (u : BUnit)
  /-- The card-bus cycle of a bridge transfer (R90, R91). -/
  | bus (u : BUnit)
  /-- The `ISR` read of `TxWait` (R109). -/
  | txPoll
  /-- The `Expired` draw of `TxWait` (R109). -/
  | txDraw
  /-- `v <- RegRd8(RESET)` of `ResetProc` (R111). -/
  | rstRead
  /-- `RegWr8(RESET, v)` of `ResetProc`. -/
  | rstWrite
  /-- `dmaing <- 0x00` of `ResetProc`. -/
  | rstClear
  /-- The `ISR` read of `ResetProc`. -/
  | rstPoll
  /-- The `Expired` draw of `ResetProc`. -/
  | rstDraw
  /-- `RegWr8(ISR, ISR_RST)` of `ResetProc`. -/
  | rstAck
  /-- `log REINIT` and `assert reinit_req` (R110). -/
  | reinitReq
  /-- `wait until reinit_done` (R110). -/
  | reinitWait
  /-- The step to ACKNOWLEDGED (R113). -/
  | ack
  /-- The busy release (R101). -/
  | release
  /-- `HostWrite(HADDR + 2, [h[3], h[2]])` of GETHDR (R104). -/
  | swap
  /-- `mg_data <- VAL` of MDIOWR (R126). -/
  | mdLoad
  /-- The push that sets the direction to output (R126, R127). -/
  | mdOut
  /-- `SendBit` of frame bit `n` (R124, R125). -/
  | send (n : Nat) (e : SendEdge)
  /-- The push that sets the direction to input (R126, R127). -/
  | mdIn
  /-- `GetBit` number `n` of a stage (R124, R125). -/
  | get (g : GetStage) (n : Nat) (e : GetEdge)
  /-- `respond`, with `MgLeave` where the rule has it (R115). -/
  | respond
  deriving DecidableEq, Repr

/-- The bridge's locals: `rem`, `p` and `k` of R90 and R91. -/
structure Xfer where
  rem : Nat
  ptr : Nat
  k : Nat
  deriving DecidableEq, Repr

/-- `locals` of a request in progress (R37). -/
structure Locals where
  /-- The value last read: `v`, `s`, `base`. -/
  value : Word := 0
  /-- `B`: the bytes of the bridge transfer in flight. -/
  bytes : List Byte := []
  /-- `h`: the header bytes GETHDR keeps (R104). -/
  header : List Byte := []
  xfer : Xfer := ⟨0, 0, 0⟩
  /-- The active wait. -/
  wait : Option Wait := none
  /-- `TxWait` timed out (R108). -/
  txTimedOut : Bool := false
  /-- The poll of `ResetProc` timed out (R112). -/
  rstTimedOut : Bool := false
  /-- `ta` of MDIORD (R127). -/
  ta : Bool := false
  /-- Host addresses of its buffer that another agent has touched in breach of R63 (log 13). -/
  raced : List Nat := []
  deriving DecidableEq, Repr

/-- `active(desc, pos, xstate, locals)` (R37). -/
structure Active where
  desc : Desc
  pos : Pos
  xstate : XState
  locals : Locals
  deriving DecidableEq, Repr

/-- `port[p]` (R37). -/
inductive PortState where
  | idle
  | active (a : Active)
  deriving DecidableEq, Repr

/-! ### The environment (R17) and the outputs (R20): the model's own fields -/

/-- Host memory: (address, byte) pairs, addresses strictly rising and below 2^32, no byte equal to what
an unlisted address reads as (R51; log 10). -/
abbrev Memory := List Host.Cell

/-- The reference simulator `SimFIFO` (R69, 20_memory.md), with the extra behaviour that
95_test_vectors.md section 0 names (log 24). -/
structure SimFifo where
  /-- `Q`, front first. -/
  queue : List Byte
  /-- `R[0..31]`. -/
  regs : Vector Byte 32
  isr : Byte
  /-- The coming samples of MEMR's input bits 2 and 6. -/
  lines : List (Bool × Bool)
  /-- The pending-RDC mark. -/
  pendingRdc : Bool
  /-- Bytes appended since the mark was set. -/
  appended : Nat
  /-- Whether RDC is ever set ("the simulator never sets RDC", V42.8). -/
  completes : Bool
  /-- Whether a `RESET` read sets RST ("reset never completes", V42.13). -/
  resets : Bool
  deriving DecidableEq, Repr

/-- A card-bus cycle: `MemRead(addr, n)` with its answer, or `MemWrite(addr, n, v)` (R11). -/
inductive BusCycle where
  | read (addr : Word) (w : Width) (v : Word)
  | write (addr : Word) (w : Width) (v : Word)
  deriving DecidableEq, Repr

/-- A move at a micro-step boundary (R136), or an action of the environment there. -/
inductive Move where
  /-- The running request takes its next micro-step. -/
  | micro
  /-- A requester presents a descriptor (R36). -/
  | present (p : Port) (d : Desc)
  /-- A presented request is accepted (R36, R75). -/
  | accept (p : Port)
  /-- `EXT_SET_DMAING(v)` (R25). -/
  | extSetDmaing (v : Byte)
  /-- Another host agent writes host memory (R63). -/
  | hostStore (a : Nat) (bytes : List Byte)
  /-- Another host agent reads `n` bytes of host memory (R63). -/
  | hostLoad (a n : Nat)
  /-- RST is asserted (R147). -/
  | rst
  deriving DecidableEq, Repr

/-- The environment: what its agents will do and answer. Every list's entries are used front first;
past its end the answers are free values (log 1, 7, 8, 9, 12, 13, 30). -/
structure Env where
  moves : List Move
  presentedTask : Option Desc
  presentedIrq : Option Desc
  busTape : List Word
  /-- For each wait to come that draws: how many draws answer false before the first true one. -/
  expiredTape : List Nat
  reinitTape : List Bool
  hostTape : List Byte
  /-- How many free values have been drawn. -/
  drawn : Nat
  /-- The simulator that answers card-bus reads; none means the oracle of R68. -/
  nic : Option SimFifo
  deriving DecidableEq, Repr

/-- What the block has sent out, oldest first (R20; log 23). -/
structure Outputs where
  /-- The cycle trace (R62). -/
  cycles : List BusCycle
  /-- The responses delivered, each with its port (R41). -/
  responses : List (Port × Response)
  /-- The `reinit_req` line (R110). -/
  reinitReq : Bool
  /-- What other host agents have read: address and bytes (R63). -/
  agentReads : List (Nat × List Byte)
  deriving DecidableEq, Repr

/-! ### The state (R21) -/

/-- The block's architectural state (R21), with the configuration (R47), host memory (R51), the
environment and the outputs. -/
structure State where
  /-- The configuration (R7, R47). -/
  cfg : Config
  /-- `reg_offset` (R23). -/
  regOffset : Vector Half 32
  /-- `dmaing` (R24). -/
  dmaing : Byte
  /-- `memr_shadow` (R26). -/
  memrShadow : Byte
  /-- `mg_phase` (R27). -/
  mgPhase : MgPhase
  /-- `mg_bitpos` (R27). -/
  mgBitpos : BitVec 5
  /-- `mg_data` (R27). -/
  mgData : Half
  /-- `mg_owner` (R28). -/
  mgOwner : Option Port
  /-- `port[TASK]` (R37). -/
  portTask : PortState
  /-- `port[IRQ]` (R37). -/
  portIrq : PortState
  /-- `preempted` (R36). -/
  preempted : Bool
  /-- `fault` (R43). -/
  fault : Option (Code × Info)
  /-- `refused` (R43). -/
  refused : Bool
  /-- `log` (R42), oldest first. -/
  log : List Event
  /-- Host memory (R51). -/
  mem : Memory
  /-- The environment (R17). -/
  env : Env
  /-- The outputs (R20). -/
  out : Outputs
  deriving DecidableEq, Repr

/-! ### Why a step can stop -/

/-- Why the machine stops with a fault. -/
inductive Fault where
  /-- Raised by `step` when the block is stuck: `fault` is set and the next move is not RST (R43, R130).
  Safe: it is the spec's own stuck state (log 6). -/
  | stuck (code : Code) (info : Info)
  /-- Raised by a meaning when no request is running; `step` calls none then. Safe: no run reaches it
  (log 26). -/
  | noRequest
  /-- Raised by a meaning when `pos` is no position of its pseudocode. Safe: no run reaches it, since
  `pos` moves only as the pseudocode says (R39; log 26). -/
  | noPosition
  deriving DecidableEq, Repr

/-- Why the model gives no meaning. -/
inductive Refusal where
  /-- An instruction of the opcode table that has no meaning yet; raised by `exec`. Safe. -/
  | notModelled (mnemonic : String)
  /-- Raised at configuration time when a constraint of R8 is broken ("A configuration that breaks a
  constraint is refused at configuration time"). Safe: it is the spec's own refusal. -/
  | badConfiguration
  deriving DecidableEq, Repr

/-! ### Reset (R50, R147) -/

/-- `reg_offset` as configuration builds it: entry `i` is `REG_BASE + REG_STRIDE*i` (R23, R50). -/
def offsetTable (c : Config) : Vector Half 32 :=
  Vector.ofFn fun i => c.regBase + BitVec.ofNat 16 (c.regStride * i.val)

/-- An environment with nothing planned and the oracle behind the card bus (log 30). -/
def Env.quiet : Env where
  moves := []
  presentedTask := none
  presentedIrq := none
  busTape := []
  expiredTape := []
  reinitTape := []
  hostTape := []
  drawn := 0
  nic := none

/-- Nothing sent yet (log 23). -/
def Outputs.empty : Outputs where
  cycles := []
  responses := []
  reinitReq := false
  agentReads := []

/-- The state right after RST of a block configured with `c` (R50): nothing listed in host memory. -/
def State.resetWith (c : Config) : State where
  cfg := c
  regOffset := offsetTable c
  dmaing := 0x00
  memrShadow := 0x00
  mgPhase := .idle
  mgBitpos := 0
  mgData := 0x0000
  mgOwner := none
  portTask := .idle
  portIrq := .idle
  preempted := false
  fault := none
  refused := false
  log := []
  mem := []
  env := .quiet
  out := .empty

/-- The machine right after reset, at the default configuration (R7, R50). -/
def State.reset : State := State.resetWith Config.default

end Sys2Proof.Machine
end

