-- ==== Sys2Proof/Machine/Flags.lean ====
section
/-!
DEFINITION. The flag computations of the block: `dmaing` (R24, R25), the line bits of `memr_shadow` (R26,
R35), the `CMD` and `ISR` values (R30, R31, R98), and the codes of R129.
-/

namespace Sys2Proof.Machine

open Sys2Proof

/-! ### `dmaing` (R24, R25, R99, R101) -/

/-- "A request treats the engine as busy when the whole register is nonzero" (R24, R99). -/
def engineBusy (dmaing : Byte) : Bool := dmaing != 0x00

/-- `dmaing | 0x01` (R99). -/
def setBusy (dmaing : Byte) : Byte := dmaing ||| 0x01

/-- `dmaing & ~0x01` (R101). -/
def clearBusy (dmaing : Byte) : Byte := dmaing &&& ~~~0x01

/-- `EXT_SET_DMAING(v)`: `dmaing[7:1] <- v[7:1]`, bit 0 unchanged (R25). -/
def setExt (dmaing v : Byte) : Byte := (v &&& 0xFE) ||| (dmaing &&& 0x01)

/-! ### The MEMR line bits (R35) -/

/-- Sets or clears the bits of a mask. -/
def setLine (mask : Byte) (level : Bool) (b : Byte) : Byte :=
  if level then b ||| mask else b &&& ~~~mask

/-- `MDC`, mask 0x01: the clock (R117, R124). -/
def setClock (level : Bool) (b : Byte) : Byte := setLine 0x01 level b

/-- `MDIR`, mask 0x02: 1 is input, 0 is output (R35, R118). -/
def setInput (input : Bool) (b : Byte) : Byte := setLine 0x02 input b

/-- `MDO`, mask 0x08: data out (R119, R124). -/
def setData (level : Bool) (b : Byte) : Byte := setLine 0x08 level b

/-- `MDI`, bit 2 of a MEMR read (R120). -/
def mdiBit (v : Byte) : Bool := v.getLsbD 2

/-- EEWR's byte: clears `EEI`, `EECLK` and `EECS` of the base, then sets those asked for (R122). -/
def eepromByte (cs clk di : Bool) (base : Byte) : Byte :=
  (base &&& ~~~(0x20 ||| 0x80 ||| 0x10)) ||| (if di then 0x20 else 0) ||| (if clk then 0x80 else 0)
    ||| (if cs then 0x10 else 0)

/-- EERD's value: `{12'b0, v[4], v[7], v[6], v[5]}` = {cs, clk, do, di} (R121). -/
def eepromLines (v : Byte) : Half :=
  0#12 ++ BitVec.ofBool (v.getLsbD 4) ++ BitVec.ofBool (v.getLsbD 7) ++ BitVec.ofBool (v.getLsbD 6)
    ++ BitVec.ofBool (v.getLsbD 5)

/-! ### `CMD` and `ISR` (R30, R31, R98) -/

/-- `CMD_IDLE0` = `NODMA|PAGE0|START` (R98). -/
def cmdIdle0 : Byte := 0x20 ||| 0x00 ||| 0x02

/-- `CMD_RREAD` = `RREAD|START` (R98). -/
def cmdRread : Byte := 0x08 ||| 0x02

/-- `CMD_RWRITE` = `RWRITE|START` (R98). -/
def cmdRwrite : Byte := 0x10 ||| 0x02

/-- `ISR_RDC`, bit 6 (R31). -/
def isrRdc : Byte := 0x40

/-- `ISR_RST`, bit 7 (R31). -/
def isrRst : Byte := 0x80

/-- `(s & m) != 0` (R109, R111). -/
def anyBit (s m : Byte) : Bool := s &&& m != 0x00

/-! ### Codes (R129) -/

/-- The 8-bit code (R129). -/
def codeBits : Code → Byte
  | .none => 0x00
  | .unknownOp => 0x01
  | .reservedBits => 0x02
  | .regRange => 0x03
  | .countOverflow => 0x04
  | .mgmtReentry => 0x05
  | .hostRange => 0x06
  | .dmaConflict => 0x10
  | .timeoutTx => 0x20
  | .timeoutReset => 0x21
  | .reinit => 0x30

/-- The 2-bit status: OK=0, CONFLICT=1, FAULT=2, REFUSED=3 (R41). -/
def statusBits : Status → BitVec 2
  | .ok => 0
  | .conflict => 1
  | .fault => 2
  | .refused => 3

/-- The code of a refusal's reason (R75, R129). -/
def refusalCode : DecodeError → Code
  | .unknownOp => .unknownOp
  | .reservedBits => .reservedBits

/-- BOUT's code: `TIMEOUT_TX` if `TxWait` timed out, whatever the reset poll did (R108, R129). -/
def boutCode (l : Locals) : Code := if l.txTimedOut then .timeoutTx else .none

/-- RESET's code: `TIMEOUT_RESET` if the poll timed out (R112). -/
def resetCode (l : Locals) : Code := if l.rstTimedOut then .timeoutReset else .none

end Sys2Proof.Machine
end

