-- ==== Sys2Proof/Machine/Operands.lean ====
section
/-!
DEFINITION. Operand forms: register indices and addresses (R29, R80, R81), byte lanes (R57, R88), counts
and host ranges (R94, R106), the bridge's loop (R90, R91), and the bits of a management frame (R125).
-/

namespace Sys2Proof.Machine

open Sys2Proof

/-! ### Registers (R29, R80, R81) -/

/-- The NIC registers the block itself addresses (R29). -/
def nicCmd : Fin 32 := 0x00
/-- `ISR` (R29). -/
def nicIsr : Fin 32 := 0x07
/-- `RSARLO` (R29). -/
def nicRsarLo : Fin 32 := 0x08
/-- `RSARHI` (R29). -/
def nicRsarHi : Fin 32 := 0x09
/-- `RCNTLO` (R29). -/
def nicRcntLo : Fin 32 := 0x0A
/-- `RCNTHI` (R29). -/
def nicRcntHi : Fin 32 := 0x0B
/-- `DATAPORT` (R29, R33). -/
def nicDataport : Fin 32 := 0x10
/-- `MEMR` (R29, R35). -/
def nicMemr : Fin 32 := 0x14
/-- `RESET` (R29, R34). -/
def nicReset : Fin 32 := 0x1F

/-- The logical register an `IDX` names; none when `IDX` >= 32 (R81). -/
def regIndex (idx : Byte) : Option (Fin 32) :=
  if h : idx.toNat < 32 then some ⟨idx.toNat, h⟩ else none

/-- `Reg(i) = BOARD_BASE + reg_offset[i]` (R80). DEDUCED: 32-bit addition (log 16). -/
def State.regAddr (s : State) (i : Fin 32) : Word :=
  s.cfg.boardBase + (s.regOffset[i]).setWidth 32

/-! ### Byte lanes (R12, R57, R88) -/

/-- The bytes of a list from `k` on; bytes past its end read as 0 and are never used by a caller. -/
def byteAt (b : List Byte) (k : Nat) : Byte := b.getD k 0

/-- `lane32(B)` (R88). -/
def lane32 (bigEndian : Bool) (b : List Byte) : Word :=
  if bigEndian then byteAt b 0 ++ byteAt b 1 ++ byteAt b 2 ++ byteAt b 3
  else byteAt b 3 ++ byteAt b 2 ++ byteAt b 1 ++ byteAt b 0

/-- `lane16(B)` (R88). -/
def lane16 (bigEndian : Bool) (b : List Byte) : Half :=
  if bigEndian then byteAt b 0 ++ byteAt b 1 else byteAt b 1 ++ byteAt b 0

/-- `unlane32(v)`: the bytes in stream order (R88). -/
def unlane32 (bigEndian : Bool) (v : Word) : List Byte :=
  if bigEndian then
    [v.extractLsb' 24 8, v.extractLsb' 16 8, v.extractLsb' 8 8, v.extractLsb' 0 8]
  else [v.extractLsb' 0 8, v.extractLsb' 8 8, v.extractLsb' 16 8, v.extractLsb' 24 8]

/-- `unlane16(v)` (R88). -/
def unlane16 (bigEndian : Bool) (v : Half) : List Byte :=
  if bigEndian then [v.extractLsb' 8 8, v.extractLsb' 0 8]
  else [v.extractLsb' 0 8, v.extractLsb' 8 8]

/-- The bytes a transfer moves: 4, 2 or 1 (R90, R91). -/
def BUnit.size : BUnit → Nat
  | .win => 4
  | .half => 2
  | .byte => 1

/-- The width of a transfer's cycle (R55, R90, R91). -/
def BUnit.width : BUnit → Width
  | .win => .w32
  | .half => .w16
  | .byte => .w8

/-- The value of a cycle that carries these bytes (R57). -/
def BUnit.lane (u : BUnit) (bigEndian : Bool) (b : List Byte) : Word :=
  match u with
  | .win => lane32 bigEndian b
  | .half => (lane16 bigEndian b).setWidth 32
  | .byte => (byteAt b 0).setWidth 32

/-- The bytes a cycle of this value carries, in stream order (R57). -/
def BUnit.unlane (u : BUnit) (bigEndian : Bool) (v : Word) : List Byte :=
  match u with
  | .win => unlane32 bigEndian v
  | .half => unlane16 bigEndian (v.setWidth 16)
  | .byte => [v.setWidth 8]

/-! ### Counts and host ranges (R94, R106) -/

/-- `L'`: `LEN + 1` if `WORD16` = 1 and `LEN` is odd, else `LEN` (R106). -/
def roundedCount (c : Config) (len : Half) : Nat :=
  if c.word16 && len.getLsbD 0 then len.toNat + 1 else len.toNat

/-- The host address of the padding byte, one past the caller's buffer (R107). -/
def padAddress (c : Config) (haddr : Word) (len : Half) : Option Nat :=
  if c.word16 && len.getLsbD 0 then some (haddr.toNat + len.toNat) else none

/-- `HADDR + L' <= 2^32` (R94). -/
def hostFits (haddr : Word) (count : Nat) : Bool := haddr.toNat + count ≤ 2 ^ 32

/-! ### The bridge's loop (R90, R91) -/

/-- The bridge's locals on entry: `rem <- L ; p <- a`. -/
def Xfer.begin (a count : Nat) : Xfer := ⟨count, a, 0⟩

/-- After step 2: the 2-byte remainder, else the 1-byte remainder, else done. -/
def Xfer.tail (x : Xfer) : Xfer × Option BUnit :=
  if x.rem / 2 % 2 = 1 then (x, some .half)
  else if x.rem % 2 = 1 then (x, some .byte)
  else (x, none)

/-- The next transfer at a loop head of step 1 or step 2: a window cycle while step 1's loop runs or
step 2 has cycles left, else `p <- p + n4` and the remainders. -/
def Xfer.select (winSize : Nat) (x : Xfer) : Xfer × Option BUnit :=
  if winSize < x.rem ∨ x.k < x.rem / 4 then (x, some .win)
  else Xfer.tail { x with ptr := x.ptr + x.rem / 4 * 4 }

/-- After a window cycle: the loop counter, and at the end of a chunk `p <- p + WIN_SIZE` and
`rem <- rem - WIN_SIZE`. -/
def Xfer.afterWindow (winSize : Nat) (x : Xfer) : Xfer :=
  if winSize < x.rem ∧ x.k + 1 = winSize / 4 then ⟨x.rem - winSize, x.ptr + winSize, 0⟩
  else { x with k := x.k + 1 }

/-- The locals after a transfer, and the next transfer. -/
def Xfer.advance (winSize : Nat) (x : Xfer) : BUnit → Xfer × Option BUnit
  | .win => Xfer.select winSize (x.afterWindow winSize)
  | .half =>
    if x.rem % 2 = 1 then ({ x with ptr := x.ptr + 2 }, some .byte)
    else ({ x with ptr := x.ptr + 2 }, none)
  | .byte => (x, none)

/-- The host address of a transfer: `p + 4*k` in the window loops, `p` in the remainders. -/
def Xfer.hostAddr (x : Xfer) : BUnit → Nat
  | .win => x.ptr + 4 * x.k
  | .half => x.ptr
  | .byte => x.ptr

/-- The card-bus address of a transfer: `window + 4*k`, or the data port. -/
def State.unitAddr (s : State) (window : Word) (x : Xfer) : BUnit → Word
  | .win => window + BitVec.ofNat 32 (4 * x.k)
  | .half => s.regAddr nicDataport
  | .byte => s.regAddr nicDataport

/-! ### Management frames (R125, R126, R127) -/

/-- The bits of a frame the block sends, by frame position 0 to 63, MSB first (R125): preamble, start,
opcode, `PHYAD`, `REGAD`, turnaround, data. -/
def frameBit (read : Bool) (phyad regad : BitVec 5) (data : Half) (n : Nat) : Bool :=
  if n < 32 then true
  else if n < 34 then n == 33
  else if n < 36 then (n == 34) == read
  else if n < 41 then phyad.getLsbD (4 - (n - 36))
  else if n < 46 then regad.getLsbD (4 - (n - 41))
  else if n < 48 then n == 46
  else data.getLsbD (15 - (n - 48))

/-- The phase of a frame position (R125). -/
def framePhase (n : Nat) : MgPhase :=
  if n < 32 then .pre
  else if n < 34 then .st
  else if n < 36 then .op
  else if n < 41 then .phy
  else if n < 46 then .reg
  else if n < 48 then .ta
  else .data

/-- `mg_bitpos` at a frame position: the counter of the loops of R126 and R127; outside them there is
no assignment and it keeps its value (DEDUCED, log 17). -/
def frameBitpos (old : BitVec 5) (n : Nat) : BitVec 5 :=
  if n < 32 then BitVec.ofNat 5 n
  else if n < 36 then old
  else if n < 41 then BitVec.ofNat 5 (n - 36)
  else if n < 46 then BitVec.ofNat 5 (n - 41)
  else if n < 48 then old
  else BitVec.ofNat 5 (n - 48)

/-- The phase of a stage of `GetBit`s (R125). -/
def stagePhase : GetStage → MgPhase
  | .ta => .ta
  | .data => .data
  | .tail => .tail
  | .flush => .flush

/-- `mg_bitpos` in a stage: counted in DATA and FLUSH only (R127; log 17). -/
def stageBitpos (old : BitVec 5) (n : Nat) : GetStage → BitVec 5
  | .data => BitVec.ofNat 5 n
  | .flush => BitVec.ofNat 5 n
  | .ta => old
  | .tail => old

/-- `mg_data` when bit `n` of a stage begins: DATA starts with `mg_data <- 0` (R127; log 18). -/
def stageData (old : Half) (n : Nat) : GetStage → Half
  | .data => if n = 0 then 0 else old
  | .ta => old
  | .tail => old
  | .flush => old

/-- `mg_data <- trunc_16((mg_data << 1) | bit)` (R127). -/
def shiftIn (data : Half) (bit : Bool) : Half := (data <<< 1) ||| (BitVec.ofBool bit).setWidth 16

end Sys2Proof.Machine
end

