-- ==== Sys2Proof/Machine/SimFifo.lean ====
section
/-!
DEFINITION. The reference simulator `SimFIFO` of R69 (20_memory.md), one environment that may stand behind
the card bus, for tests; it claims nothing about the NIC (R68, R69; log 24).
-/

namespace Sys2Proof.Machine

open Sys2Proof

/-- Where a card-bus address lies in the board's map (R52). -/
inductive BusTarget where
  | register (i : Fin 32)
  | window
  | elsewhere
  deriving DecidableEq, Repr

/-- The logical register whose physical offset this is, exactly (R23, R80). -/
def registerAt (c : Config) (off : Nat) : Option (Fin 32) :=
  let index := (off - c.regBase.toNat) / c.regStride
  if h : index < 32 then
    if off = c.regBase.toNat + c.regStride * index then some ⟨index, h⟩ else none
  else none

/-- Whether an offset lies in the window that begins `winOff` into the 32-bit region (R52). -/
def inWindow (c : Config) (winOff : Half) (off : Nat) : Bool :=
  c.data32Base.toNat + winOff.toNat ≤ off && off < c.data32Base.toNat + winOff.toNat + c.winSize

/-- The board's map of R52, an address being `BOARD_BASE` plus an offset. -/
def busTarget (c : Config) (addr : Word) : BusTarget :=
  let off := (addr - c.boardBase).toNat
  match registerAt c off with
  | some i => .register i
  | none =>
    if inWindow c c.rdWinOff off || inWindow c c.wrWinOff off then .window else .elsewhere

/-- The bytes a cycle of this width and value carries, in stream order (R57). -/
def streamBytes (bigEndian : Bool) (w : Width) (v : Word) : List Byte :=
  match w with
  | .w8 => BUnit.byte.unlane bigEndian v
  | .w16 => BUnit.half.unlane bigEndian v
  | .w32 => BUnit.win.unlane bigEndian v

/-- The value of a cycle of this width that carries these bytes (R57). -/
def streamValue (bigEndian : Bool) (w : Width) (b : List Byte) : Word :=
  match w with
  | .w8 => BUnit.byte.lane bigEndian b
  | .w16 => BUnit.half.lane bigEndian b
  | .w32 => BUnit.win.lane bigEndian b

namespace SimFifo

/-- A simulator with an empty queue, `R[*]` = 0 and ISR = 0 (95_test_vectors.md section 0). -/
def empty : SimFifo where
  queue := []
  regs := Vector.replicate 32 0
  isr := 0
  lines := []
  pendingRdc := false
  appended := 0
  completes := true
  resets := true

/-- The byte count programmed into `RCNTHI`, `RCNTLO`. -/
def programmed (f : SimFifo) : Nat := (f.regs[nicRcntHi] ++ f.regs[nicRcntLo]).toNat

/-- Sets RDC once the mark is set and as many bytes as were programmed have been appended. `RCNT` is read
when the counts are compared, and setting RDC clears the mark: DESIGN CHOICE (log 24). -/
def settle (f : SimFifo) : SimFifo :=
  if f.pendingRdc && f.programmed ≤ f.appended && f.completes then
    { f with isr := f.isr ||| isrRdc, pendingRdc := false }
  else f

/-- Appends stream bytes to `Q`. -/
def push (f : SimFifo) (b : List Byte) : SimFifo :=
  { f with queue := f.queue ++ b, appended := f.appended + b.length }.settle

/-- Removes `n` bytes from the front of `Q`; an empty `Q` gives 0x00 bytes. A read of more bytes than are left
in `Q` gets those, then 0x00 bytes, and empties `Q`: DESIGN CHOICE, R69 speaks of an empty `Q` only (log 24). -/
def pop (f : SimFifo) (n : Nat) : List Byte × SimFifo :=
  ((List.range n).map (fun k => f.queue.getD k 0), { f with queue := f.queue.drop n })

/-- Stores a byte into `R[i]`. -/
def store (f : SimFifo) (i : Fin 32) (v : Byte) : SimFifo := { f with regs := f.regs.set i v }

/-- A MEMR read: the last value written, with bits 2 and 6 replaced by the next listed samples. Once the
listed samples are used up, or when none is listed, both bits read as 0: DESIGN CHOICE, no source says what
they read as then (log 24). -/
def readLines (f : SimFifo) : Byte × SimFifo :=
  let sample := f.lines.headD (false, false)
  (setLine 0x40 sample.2 (setLine 0x04 sample.1 f.regs[nicMemr]), { f with lines := f.lines.tail })

/-- A register read (R69). A 16-bit read of an 8-bit register answers its byte zero-extended, bits 15:8
being 0: DESIGN CHOICE, the spec does not say (R85, 93_implementation_defined.md item 8; log 24). -/
def readRegister (c : Config) (f : SimFifo) (i : Fin 32) (w : Width) : Word × SimFifo :=
  if i = nicDataport then
    let r := f.pop w.bytes
    (streamValue c.hostBigEndian w r.1, r.2)
  else if i = nicIsr then (f.isr.setWidth 32, f)
  else if i = nicMemr then (f.readLines.1.setWidth 32, f.readLines.2)
  else if i = nicReset then
    ((f.regs[i]).setWidth 32, if f.resets then { f with isr := f.isr ||| isrRst } else f)
  else ((f.regs[i]).setWidth 32, f)

/-- A register write (R69): `ISR` clears the bits written as 1, `CMD` with `RD` = 010 sets the mark. A
16-bit write to an 8-bit register acts with its low byte, and a mark set again counts from 0 again: DESIGN
CHOICE (log 24). -/
def writeRegister (c : Config) (f : SimFifo) (i : Fin 32) (w : Width) (v : Word) : SimFifo :=
  if i = nicDataport then f.push (streamBytes c.hostBigEndian w v)
  else if i = nicIsr then { f with isr := f.isr &&& ~~~(v.setWidth 8) }
  else if i = nicCmd ∧ v.extractLsb' 3 3 = 0b010#3 then
    { f.store i (v.setWidth 8) with pendingRdc := true, appended := 0 }.settle
  else f.store i (v.setWidth 8)

/-- The simulator's answer to a `MemRead` (R69). A window access of either direction moves stream bytes, and
a read outside the map answers 0: DESIGN CHOICE (log 24). -/
def read (c : Config) (f : SimFifo) (addr : Word) (w : Width) : Word × SimFifo :=
  match busTarget c addr with
  | .register i => f.readRegister c i w
  | .window =>
    let r := f.pop w.bytes
    (streamValue c.hostBigEndian w r.1, r.2)
  | .elsewhere => (0, f)

/-- The simulator's reaction to a `MemWrite` (R69). A write outside the map has no effect: DESIGN CHOICE
(log 24). -/
def write (c : Config) (f : SimFifo) (addr : Word) (w : Width) (v : Word) : SimFifo :=
  match busTarget c addr with
  | .register i => f.writeRegister c i w v
  | .window => f.push (streamBytes c.hostBigEndian w v)
  | .elsewhere => f

end SimFifo

end Sys2Proof.Machine
end

