-- ==== Sys2Proof/Machine/Ops.lean ====
section
/-!
DEFINITION. The shared operations: host memory (R51, R63), draws (R45, R68, R107), card-bus cycles (R11,
R82), the ports (R36, R37), ending a request (R41), raising a fault (R130), refusing (R131), RST (R147).
-/

namespace Sys2Proof.Machine

open Sys2Proof

/-- The outcome of a step of this machine. -/
abbrev Result := Host.Outcome State Fault Refusal

/-! ### Host memory (R51, R56) -/

/-- What a host byte that nothing has written reads as. DESIGN CHOICE, unsafe (log 10). -/
def unlistedByte : Byte := 0x00

/-- An address as the host-memory port drives it: 32 bits (R51; log 11). -/
def hostKey (a : Nat) : Nat := a % 2 ^ 32

/-- Reads one byte by its key. -/
def Memory.find (k : Nat) : Memory → Byte
  | [] => unlistedByte
  | (a, b) :: rest => if a = k then b else Memory.find k rest

/-- A list with this byte at a key not above any of `rest`'s, or without it if it reads so unlisted. -/
def Memory.put (k : Nat) (v : Byte) (rest : Memory) : Memory :=
  if v = unlistedByte then rest else (k, v) :: rest

/-- Writes one byte by its key, keeping the canonical form. -/
def Memory.insert (k : Nat) (v : Byte) : Memory → Memory
  | [] => Memory.put k v []
  | (a, b) :: rest =>
    if a < k then (a, b) :: Memory.insert k v rest
    else if a = k then Memory.put k v rest
    else Memory.put k v ((a, b) :: rest)

/-- Every entry of a list lies at or above `lo`, addresses strictly rising and below 2^32, and no byte is
the unlisted one. -/
def Memory.sortedFrom (lo : Nat) : Memory → Bool
  | [] => true
  | (a, b) :: rest => lo ≤ a && a < 2 ^ 32 && b != unlistedByte && Memory.sortedFrom (a + 1) rest

/-- The canonical form of host memory. -/
def Memory.wf (m : Memory) : Bool := Memory.sortedFrom 0 m

/-- Reads the host byte at an address. -/
def Memory.read (m : Memory) (a : Nat) : Byte := Memory.find (hostKey a) m

/-- Writes the host byte at an address. -/
def Memory.write (m : Memory) (a : Nat) (v : Byte) : Memory := Memory.insert (hostKey a) v m

/-- `HostRead(a, n)`: a byte list in ascending address order (R11). -/
def Memory.readBytes (m : Memory) (a n : Nat) : List Byte := (List.range n).map fun k => m.read (a + k)

/-- `HostWrite(a, bytes)`: ascending addresses from `a` (R11). -/
def Memory.writeBytes (m : Memory) (a : Nat) : List Byte → Memory
  | [] => m
  | b :: rest => Memory.writeBytes (m.write a b) (a + 1) rest

/-! ### Updates of one element of the state -/

/-- Writes `dmaing`. -/
def State.withDmaing (s : State) (v : Byte) : State := { s with dmaing := v }

/-- Writes `memr_shadow`. -/
def State.withShadow (s : State) (v : Byte) : State := { s with memrShadow := v }

/-- Writes `mg_phase`. -/
def State.withMgPhase (s : State) (v : MgPhase) : State := { s with mgPhase := v }

/-- Writes `mg_bitpos`. -/
def State.withMgBitpos (s : State) (v : BitVec 5) : State := { s with mgBitpos := v }

/-- Writes `mg_data`. -/
def State.withMgData (s : State) (v : Half) : State := { s with mgData := v }

/-- Writes `mg_owner`. -/
def State.withMgOwner (s : State) (v : Option Port) : State := { s with mgOwner := v }

/-- Writes `preempted`. -/
def State.withPreempted (s : State) (v : Bool) : State := { s with preempted := v }

/-- Writes `fault`. -/
def State.withFault (s : State) (v : Option (Code × Info)) : State := { s with fault := v }

/-- Writes `refused`. -/
def State.withRefused (s : State) (v : Bool) : State := { s with refused := v }

/-- Writes host memory. -/
def State.withMem (s : State) (v : Memory) : State := { s with mem := v }

/-- `log E(info)`: appends an event (R42). -/
def State.logEvent (s : State) (e : Event) : State := { s with log := s.log ++ [e] }

/-- Changes the environment. -/
def State.withEnv (s : State) (v : Env) : State := { s with env := v }

/-- Gives another host agent what it has read (R63). -/
def State.answerAgent (s : State) (a : Nat) (bytes : List Byte) : State :=
  { s with out := { s.out with agentReads := s.out.agentReads ++ [(a, bytes)] } }

/-- Drives the `reinit_req` line (R110). -/
def State.withReinitReq (s : State) (v : Bool) : State := { s with out := { s.out with reinitReq := v } }

/-- Appends a cycle to the trace (R62). -/
def State.record (s : State) (c : BusCycle) : State :=
  { s with out := { s.out with cycles := s.out.cycles ++ [c] } }

/-- Delivers a response on a port (R41). -/
def State.deliver (s : State) (p : Port) (r : Response) : State :=
  { s with out := { s.out with responses := s.out.responses ++ [(p, r)] } }

/-- Writes `port[p]` (R37). -/
def State.setPort (s : State) (p : Port) (x : PortState) : State :=
  match p with
  | .task => { s with portTask := x }
  | .irq => { s with portIrq := x }

/-! ### Draws from the environment -/

/-- The time base settles, at a wait's first draw, how many of its draws answer false (R45; log 8). -/
def State.drawExpiry (s : State) : Nat × State :=
  match s.env.expiredTape with
  | n :: rest => (n, s.withEnv { s.env with expiredTape := rest })
  | [] => (Config.expiredAfter s.env.drawn, s.withEnv { s.env with drawn := s.env.drawn + 1 })

/-- The level of `reinit_done` at one poll (R110). -/
def State.drawReinit (s : State) : Bool × State :=
  match s.env.reinitTape with
  | e :: rest => (e, s.withEnv { s.env with reinitTape := rest })
  | [] => (Config.reinitAnswer s.env.drawn, s.withEnv { s.env with drawn := s.env.drawn + 1 })

/-- One byte drawn from the host-memory port (R63, R107). -/
def State.drawHost (s : State) : Byte × State :=
  match s.env.hostTape with
  | b :: rest => (b, s.withEnv { s.env with hostTape := rest })
  | [] => (Config.hostDraw s.env.drawn, s.withEnv { s.env with drawn := s.env.drawn + 1 })

/-- The bytes of a host access from `a` on as the block moves them: one at a raced address may have any
value (R63; log 13). -/
def State.moved (s : State) (raced : List Nat) (a : Nat) : List Byte → List Byte × State
  | [] => ([], s)
  | b :: rest =>
    if raced.contains (hostKey a) then
      (s.drawHost.1 :: (s.drawHost.2.moved raced (a + 1) rest).1, (s.drawHost.2.moved raced (a + 1) rest).2)
    else (b :: (s.moved raced (a + 1) rest).1, (s.moved raced (a + 1) rest).2)

/-- The downstream environment's answer to a `MemRead`, at the cycle's width (R68, R69). -/
def State.drawBus (s : State) (addr : Word) (w : Width) : Word × State :=
  match s.env.nic with
  | some f =>
    (w.trunc (f.read s.cfg addr w).1, s.withEnv { s.env with nic := some (f.read s.cfg addr w).2 })
  | none =>
    match s.env.busTape with
    | v :: rest => (w.trunc v, s.withEnv { s.env with busTape := rest })
    | [] =>
      (w.trunc (Config.busAnswer s.env.drawn), s.withEnv { s.env with drawn := s.env.drawn + 1 })

/-- How many draws of a wait, the coming one included, answer false (R45). -/
def State.waitLeft (s : State) (w : Option Wait) : Nat × State :=
  match w with
  | some ⟨_, some n⟩ => (n, s)
  | some ⟨_, none⟩ => s.drawExpiry
  | none => s.drawExpiry

/-- `Expired(w)`: a Bool, monotone per instance, true from some draw on (R45). -/
def State.drawWait (s : State) (w : Option Wait) : Bool × State :=
  ((s.waitLeft w).1 == 0, (s.waitLeft w).2)

/-- A wait after a draw that `left` draws still answered false to (R45). -/
def Wait.after (left : Nat) (w : Wait) : Wait := { w with left := some (left - 1) }

/-! ### Card-bus cycles (R11, R62, R82). `RegRd16` and `RegWr16` are `memRead` and `memWrite` at `regAddr i`,
16 bits wide. -/

/-- `MemRead(addr, n)`: one cycle, answered by the environment (R11, R68). -/
def State.memRead (s : State) (addr : Word) (w : Width) : Word × State :=
  ((s.drawBus addr w).1, (s.drawBus addr w).2.record (.read addr w (s.drawBus addr w).1))

/-- The downstream environment takes a write (R69); an oracle keeps nothing. -/
def State.deliverWrite (s : State) (addr : Word) (w : Width) (v : Word) : State :=
  match s.env.nic with
  | some f => s.withEnv { s.env with nic := some (f.write s.cfg addr w v) }
  | none => s

/-- `MemWrite(addr, n, v)`: one cycle (R11). -/
def State.memWrite (s : State) (addr : Word) (w : Width) (v : Word) : State :=
  (s.deliverWrite addr w (w.trunc v)).record (.write addr w (w.trunc v))

/-- `RegRd8(i)` (R82). -/
def State.regRd8 (s : State) (i : Fin 32) : Byte × State :=
  ((s.memRead (s.regAddr i) .w8).1.setWidth 8, (s.memRead (s.regAddr i) .w8).2)

/-- `RegWr8(i, v)` (R82). -/
def State.regWr8 (s : State) (i : Fin 32) (v : Byte) : State :=
  s.memWrite (s.regAddr i) .w8 (v.setWidth 32)

/-- `Push()` of a new shadow: the modification and the 8-bit MEMR write, one micro-step (R116). -/
def State.push (s : State) (shadow : Byte) : State :=
  (s.withShadow shadow).regWr8 nicMemr shadow

/-! ### Ports (R36, R37, R39) -/

/-- `port[p]` (R37). -/
def State.port (s : State) : Port → PortState
  | .task => s.portTask
  | .irq => s.portIrq

/-- A request just accepted: `pos` at its first micro-step, `xstate` IDLE (R37, R39). -/
def Active.fresh (d : Desc) : Active := ⟨d, .start, .idle, {}⟩

/-- The request whose micro-step is next: the IRQ request if one is in progress, else the TASK request
unless it is suspended (R36). -/
def State.running (s : State) : Option (Port × Active) :=
  match s.portIrq with
  | .active a => some (.irq, a)
  | .idle =>
    if s.preempted then none
    else
      match s.portTask with
      | .active a => some (.task, a)
      | .idle => none

/-- A meaning's micro-step on the running request (R40). -/
def State.micro (s : State) (f : Port → Active → Result) : Result :=
  match s.running with
  | some (p, a) => f p a
  | none => .fault .noRequest

/-- Advances the request to a position (R39). -/
def State.goto (s : State) (p : Port) (a : Active) (pos : Pos) : State :=
  s.setPort p (.active { a with pos := pos })

/-- Advances the request with new locals. -/
def State.gotoWith (s : State) (p : Port) (a : Active) (pos : Pos) (l : Locals) : State :=
  s.setPort p (.active { a with pos := pos, locals := l })

/-- Advances the request with a new `xstate` (R113). -/
def State.gotoX (s : State) (p : Port) (a : Active) (pos : Pos) (x : XState) : State :=
  s.setPort p (.active { a with pos := pos, xstate := x })

/-! ### Log, responses, faults, refusals (R41, R42, R130, R131) -/

/-- The port becomes idle; when it is the IRQ port, a suspended TASK request resumes (R36, R39). -/
def State.endRequest (s : State) : Port → State
  | .task => s.setPort .task .idle
  | .irq => (s.setPort .irq .idle).withPreempted false

/-- `respond(status, value)` with its code (R41). -/
def State.respond (s : State) (p : Port) (st : Status) (c : Code) (v : Half) : State :=
  (s.deliver p ⟨st, c, v⟩).endRequest p

/-- `raise F(info)`: records the fault, logs it and responds; the block is stuck afterwards (R130). This is
the block's only exception entry (R137). -/
def State.raise (s : State) (p : Port) (c : Code) (i : Info) : State :=
  ((s.withFault (some (c, i))).logEvent (.fault p c i)).respond p .fault c 0

/-- `refuse R(d)`: the mark, the log entry and the response; nothing else (R131). -/
def State.refuse (s : State) (p : Port) (e : DecodeError) (d : Desc) : State :=
  ((s.withRefused true).logEvent (.refused p e d)).deliver p ⟨.refused, refusalCode e, 0⟩

/-- RST: every state element at its value of R50, `reg_offset` rebuilt from the configuration, requests
in progress dropped without a response, no cycle (R147). This is the only exit from a fault (R138).
What is outside the block stays (DEDUCED, log 22). -/
def State.rst (s : State) : State :=
  { State.resetWith s.cfg with
    mem := s.mem
    env := s.env
    out := { s.out with reinitReq := false } }

/-! ### Steps shared by the requests -/

/-- The first micro-step of RD8, RD16, WR8 and WR16: `REG_RANGE` when `IDX` >= 32 (R76, R81). -/
def State.checkIndex (s : State) (p : Port) (a : Active) (idx : Byte) : State :=
  match regIndex idx with
  | some _ => s.goto p a .cycle
  | none => s.raise p .regRange (.index idx)

/-- The first micro-step of a request that moves `count` host bytes: `HOST_RANGE` when the range would
pass 2^32 (R76, R94). -/
def State.checkRange (s : State) (p : Port) (haddr : Word) (count : Nat) (next : State) : State :=
  if hostFits haddr count then next else s.raise p .hostRange (.range haddr count)

/-- `BusyAcquire`, and the conflict path when the engine is busy, in one micro-step (R99, R100; log 5). -/
def State.busyAcquire (s : State) (p : Port) (a : Active) (op : Byte) : State :=
  if engineBusy s.dmaing then
    (s.logEvent (.conflict p op s.dmaing)).respond p .conflict .dmaConflict 0
  else (s.withDmaing (setBusy s.dmaing)).gotoX p a (.arm .idle0) .armed

/-- Busy release: clears bit 0, `xstate` IDLE (R101). -/
def State.busyRelease (s : State) (p : Port) (a : Active) (pos : Pos) : State :=
  (s.withDmaing (clearBusy s.dmaing)).gotoX p a pos .idle

/-- `MgEnter()`: `MGMT_REENTRY` when the IRQ port meets an owner TASK, else the port owns the interface
(R115, R133). -/
def State.mgEnter (s : State) (p : Port) (a : Active) (op : Byte) (next : Pos) : State :=
  if p = .irq ∧ s.mgOwner = some .task then s.raise p .mgmtReentry (.opcode op)
  else (s.withMgOwner (some p)).goto p a next

/-- `MgLeave()` (R115). -/
def State.mgLeave (s : State) : State :=
  (((s.withMgPhase .idle).withMgBitpos 0).withMgData 0x0000).withMgOwner none

/-- `MgLeave() ; respond(OK, v)`, one micro-step (R115). -/
def State.mgRespond (s : State) (p : Port) (v : Half) : State := s.mgLeave.respond p .ok .none v

/-- `TxWait`'s draw, or `ResetProc`'s: its answer, the state after it, and the locals with the wait. -/
def State.drawFor (s : State) (l : Locals) : Bool × State × Locals :=
  ((s.drawWait l.wait).1, (s.drawWait l.wait).2,
    { l with wait := l.wait.map (Wait.after (s.waitLeft l.wait).1) })

end Sys2Proof.Machine
end

