-- ==== Sys2Proof/Machine/Adapter.lean ====
section
/-!
DEFINITION. The register-width adapter: RD8, RD16, WR8, WR16 (40_bus_adaptation.md R80-R87).
Each request is three micro-steps: the index check, the one cycle, the response.
-/

namespace Sys2Proof.Machine

open Sys2Proof

/-- The one read cycle of RD8 or RD16 at `Reg(IDX)`; `v` is kept in the locals. -/
def readCycle (idx : Byte) (w : Width) (p : Port) (a : Active) (s : State) : Result :=
  match regIndex idx with
  | some i =>
    .next ((s.memRead (s.regAddr i) w).2.gotoWith p a .respond
      { a.locals with value := (s.memRead (s.regAddr i) w).1 })
  | none => .fault .noPosition

/-- The one write cycle of WR8 or WR16 at `Reg(IDX)`. -/
def writeCycle (idx : Byte) (w : Width) (v : Word) (p : Port) (a : Active) (s : State) : Result :=
  match regIndex idx with
  | some i => .next ((s.memWrite (s.regAddr i) w v).goto p a .respond)
  | none => .fault .noPosition

/-- RD8 reads one 8-bit NIC register (R84). -/
def execRd8 (idx : Byte) (s : State) : Result :=
  s.micro fun p a =>
    match a.pos with
    | .start => .next (s.checkIndex p a idx)
    | .cycle => readCycle idx .w8 p a s
    | .respond => .next (s.respond p .ok .none (a.locals.value.setWidth 16))
    | _ => .fault .noPosition

/-- RD16 reads one 16-bit NIC register (R85). -/
def execRd16 (idx : Byte) (s : State) : Result :=
  s.micro fun p a =>
    match a.pos with
    | .start => .next (s.checkIndex p a idx)
    | .cycle => readCycle idx .w16 p a s
    | .respond => .next (s.respond p .ok .none (a.locals.value.setWidth 16))
    | _ => .fault .noPosition

/-- WR8 writes one 8-bit NIC register (R86). -/
def execWr8 (idx val : Byte) (s : State) : Result :=
  s.micro fun p a =>
    match a.pos with
    | .start => .next (s.checkIndex p a idx)
    | .cycle => writeCycle idx .w8 (val.setWidth 32) p a s
    | .respond => .next (s.respond p .ok .none 0)
    | _ => .fault .noPosition

/-- WR16 writes one 16-bit NIC register (R87). -/
def execWr16 (idx : Byte) (val : Half) (s : State) : Result :=
  s.micro fun p a =>
    match a.pos with
    | .start => .next (s.checkIndex p a idx)
    | .cycle => writeCycle idx .w16 (val.setWidth 32) p a s
    | .respond => .next (s.respond p .ok .none 0)
    | _ => .fault .noPosition

end Sys2Proof.Machine
end

