-- ==== Sys2Proof/Machine/Mgmt.lean ====
section
/-!
DEFINITION. The bit-banged management interface: MDC, MDIR, MDO, MDI, EERD, EEWR, MDIORD, MDIOWR
(43_mgmt_interface.md R115-R128).
-/

namespace Sys2Proof.Machine

open Sys2Proof

/-! ### Line primitives (R117-R123) -/

/-- A modification of the shadow and its push, then the response. -/
def pushCycle (shadow : Byte) (p : Port) (a : Active) (s : State) : Result :=
  .next ((s.push shadow).goto p a .respond)

/-- The one MEMR read of MDI and EERD; the shadow is not updated (R120, R121). -/
def memrCycle (p : Port) (a : Active) (s : State) : Result :=
  .next ((s.regRd8 nicMemr).2.gotoWith p a .respond
    { a.locals with value := (s.regRd8 nicMemr).1.setWidth 32 })

/-- MDC: set clock (R117). -/
def execMdc (lv : Bool) (s : State) : Result :=
  s.micro fun p a =>
    match a.pos with
    | .start => .next (s.mgEnter p a 0x30 .cycle)
    | .cycle => pushCycle (setClock lv s.memrShadow) p a s
    | .respond => .next (s.mgRespond p 0)
    | _ => .fault .noPosition

/-- MDIR: set direction; 1 is output, which clears bit 1 (R118). -/
def execMdir (lv : Bool) (s : State) : Result :=
  s.micro fun p a =>
    match a.pos with
    | .start => .next (s.mgEnter p a 0x31 .cycle)
    | .cycle => pushCycle (setInput (!lv) s.memrShadow) p a s
    | .respond => .next (s.mgRespond p 0)
    | _ => .fault .noPosition

/-- MDO: set data (R119). -/
def execMdo (lv : Bool) (s : State) : Result :=
  s.micro fun p a =>
    match a.pos with
    | .start => .next (s.mgEnter p a 0x32 .cycle)
    | .cycle => pushCycle (setData lv s.memrShadow) p a s
    | .respond => .next (s.mgRespond p 0)
    | _ => .fault .noPosition

/-- MDI: get data (R120). -/
def execMdi (s : State) : Result :=
  s.micro fun p a =>
    match a.pos with
    | .start => .next (s.mgEnter p a 0x33 .cycle)
    | .cycle => memrCycle p a s
    | .respond =>
      .next (s.mgRespond p ((BitVec.ofBool (mdiBit (a.locals.value.setWidth 8))).setWidth 16))
    | _ => .fault .noPosition

/-- EERD: reads the four EEPROM line levels (R121). -/
def execEerd (s : State) : Result :=
  s.micro fun p a =>
    match a.pos with
    | .start => .next (s.mgEnter p a 0x34 .cycle)
    | .cycle => memrCycle p a s
    | .respond => .next (s.mgRespond p (eepromLines (a.locals.value.setWidth 8)))
    | _ => .fault .noPosition

/-- EEWR's write: under SHADOW the base is the shadow, which is updated; under BUS it is the byte just
read, and the shadow is unchanged (R122). -/
def eeWrite (cs clk di : Bool) (p : Port) (a : Active) (s : State) : Result :=
  match s.cfg.eeRmwSource with
  | .shadow => .next ((s.push (eepromByte cs clk di s.memrShadow)).goto p a .eeHold)
  | .bus =>
    .next ((s.regWr8 nicMemr (eepromByte cs clk di (a.locals.value.setWidth 8))).goto p a .eeHold)

/-- `base <- RegRd8(MEMR)` of EEWR under BUS (R122). -/
def eeRead (p : Port) (a : Active) (s : State) : Result :=
  .next ((s.regRd8 nicMemr).2.gotoWith p a .eeWrite
    { a.locals with value := (s.regRd8 nicMemr).1.setWidth 32 })

/-- Where EEWR takes its base from (R122). -/
def eeFirst (c : Config) : Pos :=
  match c.eeRmwSource with
  | .shadow => .eeWrite
  | .bus => .eeRead

/-- EEWR: drives the three EEPROM output lines, then holds (R122, R123). -/
def execEewr (cs clk di : Bool) (s : State) : Result :=
  s.micro fun p a =>
    match a.pos with
    | .start => .next (s.mgEnter p a 0x35 (eeFirst s.cfg))
    | .eeRead => eeRead p a s
    | .eeWrite => eeWrite cs clk di p a s
    | .eeHold => .next (s.goto p a .respond)
    | .respond => .next (s.mgRespond p 0)
    | _ => .fault .noPosition

/-! ### Frames (R124-R127) -/

/-- One of the three writes of `SendBit(b)` for frame bit `n` of a frame whose last sent bit is `last`,
then `after` (R124). The first write's micro-step also sets `mg_phase` and `mg_bitpos` (R126). -/
def sendBit (bit : Bool) (n last : Nat) (after : Pos) (e : SendEdge) (p : Port) (a : Active)
    (s : State) : Result :=
  match e with
  | .set =>
    .next ((((s.withMgPhase (framePhase n)).withMgBitpos (frameBitpos s.mgBitpos n)).push
      (setData bit s.memrShadow)).goto p a (.send n .high))
  | .high => .next ((s.push (setClock true s.memrShadow)).goto p a (.send n .low))
  | .low =>
    .next ((s.push (setClock false s.memrShadow)).goto p a
      (if n < last then .send (n + 1) .set else after))

/-- One of the two writes of `GetBit` number `n` of a stage (R124). The first write's micro-step also sets
`mg_phase`, `mg_bitpos` and, when DATA begins, `mg_data` (R127). -/
def getBitClock (g : GetStage) (n : Nat) (high : Bool) (p : Port) (a : Active) (s : State) : Result :=
  if high then
    .next (((((s.withMgPhase (stagePhase g)).withMgBitpos (stageBitpos s.mgBitpos n g)).withMgData
      (stageData s.mgData n g)).push (setClock true s.memrShadow)).goto p a (.get g n .low))
  else .next ((s.push (setClock false s.memrShadow)).goto p a (.get g n .sample))

/-- The push that drives the direction to output (R126, R127). -/
def frameOutput (p : Port) (a : Active) (s : State) : Result :=
  .next ((s.push (setInput false s.memrShadow)).goto p a (.send 0 .set))

/-- The push that drives the direction to input, with the phase it opens (R126, R127). -/
def frameInput (g : GetStage) (p : Port) (a : Active) (s : State) : Result :=
  .next (((s.withMgPhase (stagePhase g)).push (setInput true s.memrShadow)).goto
    p a (.get g 0 .high))

/-- MDIOWR writes a PHY register (R126). -/
def execMdiowr (phyad regad : BitVec 5) (val : Half) (s : State) : Result :=
  s.micro fun p a =>
    match a.pos with
    | .start => .next (s.mgEnter p a 0x39 .mdLoad)
    | .mdLoad => .next ((s.withMgData val).goto p a .mdOut)
    | .mdOut => frameOutput p a s
    | .send n e => sendBit (frameBit false phyad regad s.mgData n) n 63 .mdIn e p a s
    | .mdIn => frameInput .tail p a s
    | .get .tail n .high => getBitClock .tail n true p a s
    | .get .tail n .low => getBitClock .tail n false p a s
    | .get .tail _ .sample => .next ((s.regRd8 nicMemr).2.goto p a .respond)
    | .respond => .next (s.mgRespond p 0)
    | _ => .fault .noPosition

/-- MDIORD's sample of bit `n` of a stage: `ta` decides between DATA and FLUSH; a data bit is shifted
into `mg_data`; the others are discarded (R127). -/
def readSample (g : GetStage) (n : Nat) (p : Port) (a : Active) (s : State) : Result :=
  let bit := mdiBit (s.regRd8 nicMemr).1
  let s' := (s.regRd8 nicMemr).2
  match g with
  | .ta =>
    .next (s'.gotoWith p a (if bit then .get .flush 0 .high else .get .data 0 .high)
      { a.locals with ta := bit })
  | .data =>
    .next ((s'.withMgData (shiftIn s.mgData bit)).goto p a
      (if n < 15 then .get .data (n + 1) .high else .get .tail 0 .high))
  | .tail => .next (s'.goto p a .respond)
  | .flush => .next (s'.goto p a (if n < 31 then .get .flush (n + 1) .high else .respond))

/-- MDIORD reads a PHY register (R127). -/
def execMdiord (phyad regad : BitVec 5) (s : State) : Result :=
  s.micro fun p a =>
    match a.pos with
    | .start => .next (s.mgEnter p a 0x38 .mdOut)
    | .mdOut => frameOutput p a s
    | .send n e => sendBit (frameBit true phyad regad 0 n) n 45 .mdIn e p a s
    | .mdIn => frameInput .ta p a s
    | .get g n .high => getBitClock g n true p a s
    | .get g n .low => getBitClock g n false p a s
    | .get g n .sample => readSample g n p a s
    | .respond => .next (s.mgRespond p (if a.locals.ta then 0xFFFF else s.mgData))
    | _ => .fault .noPosition

end Sys2Proof.Machine
end

