-- ==== Sys2Proof/Machine/Bridge.lean ====
section
/-!
DEFINITION. The block-FIFO bridge: the procedures `Wblk` and `Rblk` and the requests WBLK and RBLK
(41_block_fifo_bridge.md R88-R97). A transfer is two micro-steps: a host access and a card-bus cycle
(R63, R90, R91). A byte that another agent has raced for is a draw when the block moves it (R63; log 13).
-/

namespace Sys2Proof.Machine

open Sys2Proof

/-- Moves a request on after the bridge's loop has chosen: the chosen transfer's position, or what comes
after the bridge. -/
def bridgeTo (at_ : BUnit → Pos) (done : Active → Active) (a : Active)
    (x : Xfer × Option BUnit) : Active :=
  let a' := { a with locals := { a.locals with xfer := x.1 } }
  match x.2 with
  | some u => { a' with pos := at_ u }
  | none => done a'

/-- Entry into `Wblk(addr, count)`: the first transfer begins with its host read (R90). -/
def enterWblk (c : Config) (addr count : Nat) (done : Active → Active) (a : Active) : Active :=
  bridgeTo .host done a (Xfer.select c.winSize (Xfer.begin addr count))

/-- Entry into `Rblk(addr, count)`: the first transfer begins with its card-bus read (R91). -/
def enterRblk (c : Config) (addr count : Nat) (done : Active → Active) (a : Active) : Active :=
  bridgeTo .bus done a (Xfer.select c.winSize (Xfer.begin addr count))

/-- `HostRead(addr, n)`; the byte at `pad`, if it is among them, is a draw (R107; log 12). -/
def State.hostRead (s : State) (pad : Option Nat) (addr n : Nat) : List Byte × State :=
  match pad with
  | none => (s.mem.readBytes addr n, s)
  | some q =>
    if addr ≤ q ∧ q < addr + n then
      ((s.mem.readBytes addr n).set (q - addr) s.drawHost.1, s.drawHost.2)
    else (s.mem.readBytes addr n, s)

/-- `HostWrite(addr, bytes)`. -/
def State.hostWrite (s : State) (addr : Nat) (bytes : List Byte) : State :=
  s.withMem (s.mem.writeBytes addr bytes)

/-- A host read of `Wblk`: `B <- HostRead(...)` (R90). -/
def wblkHost (pad : Option Nat) (u : BUnit) (p : Port) (a : Active) (s : State) : Result :=
  let r := s.hostRead pad (a.locals.xfer.hostAddr u) u.size
  .next (r.2.gotoWith p a (.bus u) { a.locals with bytes := r.1 })

/-- A card-bus write of `Wblk`: the window, or the data port (R90). -/
def wblkBus (done : Active → Active) (u : BUnit) (p : Port) (a : Active) (s : State) : Result :=
  let r := s.moved a.locals.raced (a.locals.xfer.hostAddr u) a.locals.bytes
  let s' := r.2.memWrite (s.unitAddr s.cfg.writeWindow a.locals.xfer u) u.width
    (u.lane s.cfg.hostBigEndian r.1)
  .next (s'.setPort p (.active
    (bridgeTo .host done a (a.locals.xfer.advance s.cfg.winSize u))))

/-- A card-bus read of `Rblk` (R91). `keep` is whether the bytes are kept as `h` (R104). -/
def rblkBus (keep : Bool) (u : BUnit) (p : Port) (a : Active) (s : State) : Result :=
  let r := s.memRead (s.unitAddr s.cfg.readWindow a.locals.xfer u) u.width
  let b := u.unlane s.cfg.hostBigEndian r.1
  .next (r.2.gotoWith p a (.host u)
    { a.locals with bytes := b, header := if keep then a.locals.header ++ b else a.locals.header })

/-- A host write of `Rblk` (R91). In the buffer of the other port's request it is no race: DESIGN CHOICE, R63
speaks of other agents and not of the block's own two requests (log 31). -/
def rblkHost (done : Active → Active) (u : BUnit) (p : Port) (a : Active) (s : State) : Result :=
  let r := s.moved a.locals.raced (a.locals.xfer.hostAddr u) a.locals.bytes
  let s' := r.2.hostWrite (a.locals.xfer.hostAddr u) r.1
  .next (s'.setPort p (.active
    (bridgeTo .bus done a (a.locals.xfer.advance s.cfg.winSize u))))

/-- What comes after the bridge in WBLK and RBLK: the response. -/
def thenRespond (a : Active) : Active := { a with pos := .respond }

/-- WBLK copies a host buffer into the stream (R95). -/
def execWblk (haddr : Word) (len : Half) (s : State) : Result :=
  s.micro fun p a =>
    match a.pos with
    | .start =>
      .next (s.checkRange p haddr len.toNat
        (s.setPort p (.active (enterWblk s.cfg haddr.toNat len.toNat thenRespond a))))
    | .host u => wblkHost none u p a s
    | .bus u => wblkBus thenRespond u p a s
    | .respond => .next (s.respond p .ok .none 0)
    | _ => .fault .noPosition

/-- RBLK copies stream bytes into a host buffer (R96). -/
def execRblk (haddr : Word) (len : Half) (s : State) : Result :=
  s.micro fun p a =>
    match a.pos with
    | .start =>
      .next (s.checkRange p haddr len.toNat
        (s.setPort p (.active (enterRblk s.cfg haddr.toNat len.toNat thenRespond a))))
    | .bus u => rblkBus false u p a s
    | .host u => rblkHost thenRespond u p a s
    | .respond => .next (s.respond p .ok .none 0)
    | _ => .fault .noPosition

end Sys2Proof.Machine
end

