-- ==== Sys2Proof/Machine/RemoteDma.lean ====
section
/-!
DEFINITION. The remote-DMA packet-transfer sequencer: GETHDR, BIN, BOUT, RESET (42_remote_dma.md
R98-R114).
-/

namespace Sys2Proof.Machine

open Sys2Proof

/-! ### Arming (R102) -/

/-- What a request programs: count, address, start command, and whether it clears `RDC` first (R102). -/
structure Arming where
  count : Half
  address : Half
  command : Byte
  clearsRdc : Bool
  deriving DecidableEq, Repr

/-- One write of the arming sequence and the position after it; the start command's micro-step also sets
`xstate` to TRANSFERRING and goes on to the bridge as `begin` says (R102, R113). -/
def armStep (m : Arming) (begin : Active → Active) (w : ArmPos) (p : Port) (a : Active)
    (s : State) : Result :=
  match w with
  | .idle0 =>
    .next ((s.regWr8 nicCmd cmdIdle0).goto p a (.arm (if m.clearsRdc then .clearIsr else .cntLo)))
  | .clearIsr =>
    if m.clearsRdc then .next ((s.regWr8 nicIsr isrRdc).goto p a (.arm .cntLo))
    else .fault .noPosition
  | .cntLo => .next ((s.regWr8 nicRcntLo (m.count.extractLsb' 0 8)).goto p a (.arm .cntHi))
  | .cntHi => .next ((s.regWr8 nicRcntHi (m.count.extractLsb' 8 8)).goto p a (.arm .adrLo))
  | .adrLo => .next ((s.regWr8 nicRsarLo (m.address.extractLsb' 0 8)).goto p a (.arm .adrHi))
  | .adrHi => .next ((s.regWr8 nicRsarHi (m.address.extractLsb' 8 8)).goto p a (.arm .start))
  | .start =>
    .next ((s.regWr8 nicCmd m.command).setPort p
      (.active (begin { a with xstate := .transferring })))

/-- After the bridge of GETHDR and BIN: the step to ACKNOWLEDGED. -/
def thenAck (a : Active) : Active := { a with pos := .ack }

/-- After the bridge of BOUT: `w <- new wait(TX, T_TX)`, then the first poll (R109). -/
def thenTxWait (a : Active) : Active :=
  { a with pos := .txPoll, locals := { a.locals with wait := some ⟨.tx, none⟩ } }

/-! ### GETHDR (R104) and BIN (R105) -/

/-- GETHDR programs the header size and the ring page boundary (R104). -/
def gethdrArming (c : Config) (page : Byte) : Arming :=
  ⟨0x00#8 ++ BitVec.ofNat 8 c.hdrSize, page ++ 0x00#8, cmdRread, false⟩

/-- `h[k]`. With an `HDR_SIZE` below 4, which R8 admits, `h` has no byte 3: the missing byte is a free value.
DESIGN CHOICE (log 15). -/
def headerByte (h : List Byte) (k : Nat) : Byte := h.getD k (Config.absentHeaderByte k)

/-- `count <- {h[3], h[2]}` (R58, R103, R104). -/
def headerCount (h : List Byte) : Half := headerByte h 3 ++ headerByte h 2

/-- `HostWrite(HADDR + 2, [h[3], h[2]])`: host bytes 2 and 3 in host byte order (R58, R104). With
an `HDR_SIZE` below 4 these lie past the range that R94 checks, and past 2^32 they wrap: DESIGN CHOICE, the
spec does not say (log 15). -/
def headerSwap (haddr : Word) (p : Port) (a : Active) (s : State) : Result :=
  let r := s.moved a.locals.raced (haddr.toNat + 2)
    [headerByte a.locals.header 3, headerByte a.locals.header 2]
  .next ((r.2.hostWrite (haddr.toNat + 2) r.1).goto p a .respond)

/-- GETHDR: header fetch (R104). -/
def execGethdr (haddr : Word) (page : Byte) (s : State) : Result :=
  s.micro fun p a =>
    match a.pos with
    | .start => .next (s.checkRange p haddr s.cfg.hdrSize (s.goto p a .acquire))
    | .acquire => .next (s.busyAcquire p a 0x20)
    | .arm w =>
      armStep (gethdrArming s.cfg page) (enterRblk s.cfg haddr.toNat s.cfg.hdrSize thenAck) w p a s
    | .bus u => rblkBus true u p a s
    | .host u => rblkHost thenAck u p a s
    | .ack => .next ((s.regWr8 nicIsr isrRdc).gotoX p a .release .acknowledged)
    | .release => .next (s.busyRelease p a (if s.cfg.hostBigEndian then .swap else .respond))
    | .swap => headerSwap haddr p a s
    | .respond => .next (s.respond p .ok .none (headerCount a.locals.header))
    | _ => .fault .noPosition

/-- BIN programs the count and the ring offset (R105). -/
def binArming (len roff : Half) : Arming := ⟨len, roff, cmdRread, false⟩

/-- BIN: block input (R105). The step to ACKNOWLEDGED has no cycle. -/
def execBin (haddr : Word) (len roff : Half) (s : State) : Result :=
  s.micro fun p a =>
    match a.pos with
    | .start => .next (s.checkRange p haddr len.toNat (s.goto p a .acquire))
    | .acquire => .next (s.busyAcquire p a 0x21)
    | .arm w => armStep (binArming len roff) (enterRblk s.cfg haddr.toNat len.toNat thenAck) w p a s
    | .bus u => rblkBus false u p a s
    | .host u => rblkHost thenAck u p a s
    | .ack => .next (s.gotoX p a .release .acknowledged)
    | .release => .next (s.busyRelease p a .respond)
    | .respond => .next (s.respond p .ok .none 0)
    | _ => .fault .noPosition

/-! ### ResetProc (R111) and RESET (R112) -/

/-- The micro-steps of `ResetProc()` (R111), going on as `done` says. A read is tested in its own
micro-step, a draw logs the timeout in its own (log 4, 19). -/
def resetProc (done : Active → Active) (pos : Pos) (p : Port) (a : Active) (s : State) : Result :=
  match pos with
  | .rstRead =>
    .next ((s.regRd8 nicReset).2.gotoWith p a .rstWrite
      { a.locals with value := (s.regRd8 nicReset).1.setWidth 32 })
  | .rstWrite => .next ((s.regWr8 nicReset (a.locals.value.setWidth 8)).goto p a .rstClear)
  | .rstClear =>
    .next ((s.withDmaing 0x00).gotoWith p a .rstPoll
      { a.locals with wait := some ⟨.rst, none⟩ })
  | .rstPoll =>
    .next ((s.regRd8 nicIsr).2.gotoWith p a
      (if anyBit (s.regRd8 nicIsr).1 isrRst then .rstAck else .rstDraw)
      { a.locals with value := (s.regRd8 nicIsr).1.setWidth 32 })
  | .rstDraw =>
    let d := s.drawFor a.locals
    if d.1 then
      .next ((d.2.1.logEvent (.timeoutReset p)).gotoWith p a .rstAck { d.2.2 with rstTimedOut := true })
    else .next (d.2.1.gotoWith p a .rstPoll d.2.2)
  | .rstAck => .next ((s.regWr8 nicIsr isrRst).setPort p (.active (done a)))
  | _ => .fault .noPosition

/-- RESET: resets the NIC, zeroes `dmaing`, polls, acknowledges (R112). It makes no check, so its first
micro-step is `ResetProc`'s read. -/
def execReset (s : State) : Result :=
  s.micro fun p a =>
    match a.pos with
    | .start => resetProc thenRespond .rstRead p a s
    | .rstWrite => resetProc thenRespond .rstWrite p a s
    | .rstClear => resetProc thenRespond .rstClear p a s
    | .rstPoll => resetProc thenRespond .rstPoll p a s
    | .rstDraw => resetProc thenRespond .rstDraw p a s
    | .rstAck => resetProc thenRespond .rstAck p a s
    | .respond => .next (s.respond p .ok (resetCode a.locals) 0)
    | _ => .fault .noPosition

/-! ### BOUT (R106-R110) -/

/-- BOUT programs the rounded count and the destination page, and clears `RDC` first (R106, R108). -/
def boutArming (c : Config) (len : Half) (page : Byte) : Arming :=
  ⟨BitVec.ofNat 16 (roundedCount c len), page ++ 0x00#8, cmdRwrite, true⟩

/-- BOUT's first micro-step: `COUNT_OVERFLOW`, then `HOST_RANGE` (R106, R108, R135). -/
def boutCheck (haddr : Word) (len : Half) (p : Port) (a : Active) (s : State) : State :=
  if 0xFFFF < roundedCount s.cfg len then s.raise p .countOverflow (.length len)
  else s.checkRange p haddr (roundedCount s.cfg len) (s.goto p a .acquire)

/-- `TxWait`'s `ISR` read: a set `RDC` wins over the time (R109). -/
def txPoll (p : Port) (a : Active) (s : State) : Result :=
  .next ((s.regRd8 nicIsr).2.gotoWith p a
    (if anyBit (s.regRd8 nicIsr).1 isrRdc then .ack else .txDraw)
    { a.locals with value := (s.regRd8 nicIsr).1.setWidth 32 })

/-- `TxWait`'s draw: on expiry `log TIMEOUT_TX` and `ResetProc()`, else poll again (R109). -/
def txDraw (p : Port) (a : Active) (s : State) : Result :=
  let d := s.drawFor a.locals
  if d.1 then
    .next ((d.2.1.logEvent (.timeoutTx p)).gotoWith p a .rstRead { d.2.2 with txTimedOut := true })
  else .next (d.2.1.gotoWith p a .txPoll d.2.2)

/-- `log REINIT` and `assert reinit_req` (R110), in one micro-step: DEDUCED (log 19). -/
def reinitRequest (p : Port) (a : Active) (s : State) : Result :=
  .next (((s.logEvent (.reinit p)).withReinitReq true).goto p a .reinitWait)

/-- `wait until reinit_done ; deassert reinit_req`: a poll that finds it low changes no state of the
block (R110; log 9). No request is accepted between two polls (`State.mayAccept`; log 32). -/
def reinitPoll (p : Port) (a : Active) (s : State) : Result :=
  let d := s.drawReinit
  if d.1 then .next ((d.2.withReinitReq false).goto p a .ack)
  else .next d.2

/-- After the reset of BOUT's recovery: `Reinit()` (R109). -/
def thenReinit (a : Active) : Active := { a with pos := .reinitReq }

/-- BOUT: block output (R108). -/
def execBout (haddr : Word) (len : Half) (page : Byte) (s : State) : Result :=
  s.micro fun p a =>
    match a.pos with
    | .start => .next (boutCheck haddr len p a s)
    | .acquire => .next (s.busyAcquire p a 0x22)
    | .arm w =>
      armStep (boutArming s.cfg len page)
        (enterWblk s.cfg haddr.toNat (roundedCount s.cfg len) thenTxWait) w p a s
    | .host u => wblkHost (padAddress s.cfg haddr len) u p a s
    | .bus u => wblkBus thenTxWait u p a s
    | .txPoll => txPoll p a s
    | .txDraw => txDraw p a s
    | .rstRead => resetProc thenReinit .rstRead p a s
    | .rstWrite => resetProc thenReinit .rstWrite p a s
    | .rstClear => resetProc thenReinit .rstClear p a s
    | .rstPoll => resetProc thenReinit .rstPoll p a s
    | .rstDraw => resetProc thenReinit .rstDraw p a s
    | .rstAck => resetProc thenReinit .rstAck p a s
    | .reinitReq => reinitRequest p a s
    | .reinitWait => reinitPoll p a s
    | .ack => .next ((s.regWr8 nicIsr isrRdc).gotoX p a .release .acknowledged)
    | .release => .next (s.busyRelease p a .respond)
    | .respond => .next (s.respond p .ok (boutCode a.locals) 0)
    | _ => .fault .noPosition

end Sys2Proof.Machine
end

