-- ==== Sys2Proof/Machine/Dispatch.lean ====
section
/-!
DEFINITION. The meaning of each request: one arm per constructor of Instr. A meaning is one micro-step of
the request in progress (R39, R40, 10_state.md).
-/

namespace Sys2Proof.Machine

open Sys2Proof

def exec (i : Instr) (s : State) : Host.Outcome State Fault Refusal :=
  match i with
  | .rd8 idx => Sys2Proof.Machine.execRd8 idx s
  | .rd16 idx => Sys2Proof.Machine.execRd16 idx s
  | .wr8 idx val => Sys2Proof.Machine.execWr8 idx val s
  | .wr16 idx val => Sys2Proof.Machine.execWr16 idx val s
  | .wblk haddr len => Sys2Proof.Machine.execWblk haddr len s
  | .rblk haddr len => Sys2Proof.Machine.execRblk haddr len s
  | .gethdr haddr page => Sys2Proof.Machine.execGethdr haddr page s
  | .bin haddr len roff => Sys2Proof.Machine.execBin haddr len roff s
  | .bout haddr len page => Sys2Proof.Machine.execBout haddr len page s
  | .reset => Sys2Proof.Machine.execReset s
  | .mdc lv => Sys2Proof.Machine.execMdc lv s
  | .mdir lv => Sys2Proof.Machine.execMdir lv s
  | .mdo lv => Sys2Proof.Machine.execMdo lv s
  | .mdi => Sys2Proof.Machine.execMdi s
  | .eerd => Sys2Proof.Machine.execEerd s
  | .eewr cs clk di => Sys2Proof.Machine.execEewr cs clk di s
  | .mdiord phyad regad => Sys2Proof.Machine.execMdiord phyad regad s
  | .mdiowr phyad regad val => Sys2Proof.Machine.execMdiowr phyad regad val s

end Sys2Proof.Machine
end

