-- ==== Sys2Proof/Machine/Ports.lean ====
section
/-!
DEFINITION. Acceptance, decoding and refusal at the request ports (R36, R75, R131), the actions of the
environment (R25, R63), and configuration (R8, R151).
-/

namespace Sys2Proof.Machine

open Sys2Proof

/-- The descriptor a requester presents (R36). -/
def State.presented (s : State) : Port → Option Desc
  | .task => s.env.presentedTask
  | .irq => s.env.presentedIrq

/-- Sets what a requester presents. -/
def State.setPresented (s : State) (p : Port) (d : Option Desc) : State :=
  match p with
  | .task => s.withEnv { s.env with presentedTask := d }
  | .irq => s.withEnv { s.env with presentedIrq := d }

/-- Whether a port's BOUT waits for `reinit_done` (R110). -/
def PortState.waitsForReinit : PortState → Bool
  | .idle => false
  | .active a => a.pos == .reinitWait

/-- Whether a port may accept: IRQ when it has no request in progress, TASK when neither port has
(R36 items 1, 2, 3, 6; R136). While a TASK BOUT waits for `reinit_done` IRQ accepts none either: then "the
block issues no cycle and changes no state" (R110), so the wait has no boundary for R36 item 3. DEDUCED
(log 32). -/
def State.mayAccept (s : State) : Port → Bool
  | .irq => s.portIrq == .idle && !s.portTask.waitsForReinit
  | .task => s.portTask == .idle && s.portIrq == .idle

/-- A requester presents its next descriptor only after it has received the previous response (R36 item
1): otherwise the action is dropped (log 21). -/
def State.present (s : State) (p : Port) (d : Desc) : State :=
  if s.port p = .idle ∧ s.presented p = none then s.setPresented p (some d) else s

/-- Latches a descriptor that decodes; an IRQ request suspends a TASK request in progress (R36, R37). -/
def State.latch (s : State) (p : Port) (d : Desc) : State :=
  match p with
  | .task => s.setPort .task (.active (.fresh d))
  | .irq => (s.setPort .irq (.active (.fresh d))).withPreempted (s.portTask != .idle)

/-- Acceptance of a presented request: decoding (R75), then a refusal (R131) or the latch (R37). An
acceptance that is not enabled is dropped (log 21). -/
def State.accept (s : State) (p : Port) : State :=
  match s.presented p with
  | none => s
  | some d =>
    if s.mayAccept p then
      match decode d with
      | .ok _ => (s.setPresented p none).latch p d
      | .error e => (s.setPresented p none).refuse p e d
    else s

/-- `EXT_SET_DMAING(v)` (R25). -/
def State.extSetDmaing (s : State) (v : Byte) : State := s.withDmaing (setExt s.dmaing v)

/-- The host bytes a request moves: start and count (R94). They are what R63 calls its buffer. The padding
byte of a rounded BOUT, one past the caller's buffer (R107), is counted in: DESIGN CHOICE, R63 does not say
(log 13). -/
def hostBuffer (c : Config) : Instr → Option (Nat × Nat)
  | .wblk haddr len => some (haddr.toNat, len.toNat)
  | .rblk haddr len => some (haddr.toNat, len.toNat)
  | .gethdr haddr _ => some (haddr.toNat, c.hdrSize)
  | .bin haddr len _ => some (haddr.toNat, len.toNat)
  | .bout haddr len _ => some (haddr.toNat, roundedCount c len)
  | .rd8 _ => none
  | .rd16 _ => none
  | .wr8 _ _ => none
  | .wr16 _ _ => none
  | .reset => none
  | .mdc _ => none
  | .mdir _ => none
  | .mdo _ => none
  | .mdi => none
  | .eerd => none
  | .eewr _ _ _ => none
  | .mdiord _ _ => none
  | .mdiowr _ _ _ => none

/-- GETHDR, BIN and RBLK: the requests that write host memory (R91, R104). -/
def storesToHost : Instr → Bool
  | .rblk _ _ => true
  | .gethdr _ _ => true
  | .bin _ _ _ => true
  | _ => false

/-- Whether a host address lies in the buffer of a port's request in progress (R63). -/
def inBuffer (c : Config) (k : Nat) : PortState → Bool
  | .idle => false
  | .active a =>
    match decode a.desc with
    | .error _ => false
    | .ok i =>
      match hostBuffer c i with
      | some (lo, n) => lo ≤ k && k < lo + n
      | none => false

/-- Whether another agent's access to a host byte breaks the duty a port's requester owes: a write in the
buffer of a request in progress, or a read in the buffer of an RBLK, BIN or GETHDR in progress (R63). -/
def races (c : Config) (isRead : Bool) (k : Nat) (x : PortState) : Bool :=
  inBuffer c k x &&
    match x with
    | .idle => false
    | .active a =>
      match decode a.desc with
      | .error _ => false
      | .ok i => !isRead || storesToHost i

/-- A port whose request's buffer has been raced for at a host address. -/
def PortState.touched (k : Nat) : PortState → PortState
  | .idle => .idle
  | .active a => .active { a with locals := { a.locals with raced := a.locals.raced.insert k } }

/-- A port after another agent's access to a host byte. -/
def PortState.afterAccess (c : Config) (isRead : Bool) (k : Nat) (x : PortState) : PortState :=
  if races c isRead k x then x.touched k else x

/-- A host byte touched by a race: any value now, and any value when the request moves it (R63; log 13). -/
def State.raceByte (s : State) (isRead : Bool) (a : Nat) : Byte × State :=
  let m := (s.setPort .task (s.portTask.afterAccess s.cfg isRead (hostKey a))).setPort .irq
    (s.portIrq.afterAccess s.cfg isRead (hostKey a))
  (m.drawHost.1, m.drawHost.2.hostWrite a [m.drawHost.1])

/-- Whether an access of another agent is a race with either port's request (R63). -/
def State.isRaced (s : State) (isRead : Bool) (a : Nat) : Bool :=
  races s.cfg isRead (hostKey a) s.portTask || races s.cfg isRead (hostKey a) s.portIrq

/-- Another host agent writes bytes (R63). -/
def State.hostStore (s : State) (a : Nat) : List Byte → State
  | [] => s
  | b :: rest =>
    if s.isRaced false a then (s.raceByte false a).2.hostStore (a + 1) rest
    else (s.hostWrite a [b]).hostStore (a + 1) rest

/-- The bytes another host agent reads, and the state after (R63). -/
def State.hostBytes (s : State) (a : Nat) : Nat → List Byte × State
  | 0 => ([], s)
  | n + 1 =>
    if s.isRaced true a then
      ((s.raceByte true a).1 :: ((s.raceByte true a).2.hostBytes (a + 1) n).1,
        ((s.raceByte true a).2.hostBytes (a + 1) n).2)
    else (s.mem.read a :: (s.hostBytes (a + 1) n).1, (s.hostBytes (a + 1) n).2)

/-- Another host agent reads bytes (R63). -/
def State.hostLoad (s : State) (a n : Nat) : State := (s.hostBytes a n).2.answerAgent a (s.hostBytes a n).1

/-- Configuration: refused when a constraint of R8 is broken, else the state after RST (R8, R151). -/
def configure (c : Config) : Result :=
  if c.wellFormed then .next (State.resetWith c) else .refused .badConfiguration

end Sys2Proof.Machine
end

