-- ==== Sys2Proof/Machine/Step.lean ====
section
/-!
DEFINITION. One step of the machine: the next move at a micro-step boundary (R40, R136), and where a
program comes from (log 25).
-/

namespace Sys2Proof.Machine

open Sys2Proof

/-- The running request takes its next micro-step: its latched descriptor is decoded and the request's
meaning is run. With no running request nothing happens (log 3). A latched descriptor that does not
decode, which no acceptance leaves, is refused (log 27). -/
def State.runMicro (s : State) : Result :=
  match s.running with
  | none => .next s
  | some (p, a) =>
    match decode a.desc with
    | .ok i => exec i s
    | .error e => .next ((s.refuse p e a.desc).endRequest p)

/-- A move of the schedule (R25, R36, R63, R136, R147). -/
def State.move (s : State) : Move → Result
  | .micro => s.runMicro
  | .present p d => .next (s.present p d)
  | .accept p => .next (s.accept p)
  | .extSetDmaing v => .next (s.extSetDmaing v)
  | .hostStore a bytes => .next (s.hostStore a bytes)
  | .hostLoad a n => .next (s.hostLoad a n)
  | .rst => .next s.rst

/-- The move when the schedule is empty: a presented IRQ request is accepted, else the running request
goes on, else a presented TASK request is accepted, else nothing happens. DESIGN CHOICE (log 2). -/
def State.defaultMove (s : State) : Move :=
  if s.env.presentedIrq.isSome && s.mayAccept .irq then .accept .irq
  else if s.running.isSome then .micro
  else if s.env.presentedTask.isSome && s.mayAccept .task then .accept .task
  else .micro

/-- The next move and the state without it in the schedule. -/
def State.nextMove (s : State) : Move × State :=
  match s.env.moves with
  | m :: rest => (m, s.withEnv { s.env with moves := rest })
  | [] => (s.defaultMove, s)

/-- One step. While `fault` is set no move is enabled but RST: the block is stuck (R43, R130, R136). -/
def step (s : State) : Host.Outcome State Fault Refusal :=
  match s.fault, s.nextMove with
  | some _, (.rst, s') => .next s'.rst
  | some (c, i), _ => .fault (.stuck c i)
  | none, (m, s') => s'.move m

/-- The state in which the request whose descriptor is `w` has just been accepted on the TASK port and
takes the next micro-step (log 25). -/
def State.withFetchWord (s : State) (nbits w : Nat) : State :=
  { s with
    fault := none
    preempted := false
    portIrq := .idle
    portTask := .active (.fresh (BitVec.ofNat 128 (w % 2 ^ nbits)))
    env := { s.env with moves := .micro :: s.env.moves } }

end Sys2Proof.Machine
end

