-- ==== Sys2Proof/Safety.lean ====
section
/-!
DEFINITION. The words claims are stated in: the positions of each request's pseudocode, running a request
for a number of micro-steps, what a request may leave unchanged, the cycle lists of the spec's tables,
and the invariant of the block.
-/

namespace Sys2Proof.Machine

open Sys2Proof

/-! ### Requests and their positions -/

/-- GETHDR, BIN and BOUT: the requests under the busy discipline (R99). -/
def isDma : Instr → Bool
  | .gethdr _ _ => true
  | .bin _ _ _ => true
  | .bout _ _ _ => true
  | _ => false

/-- The eight requests of 43_mgmt_interface.md, which own the management interface (R115). -/
def isMgmt : Instr → Bool
  | .mdc _ => true
  | .mdir _ => true
  | .mdo _ => true
  | .mdi => true
  | .eerd => true
  | .eewr _ _ _ => true
  | .mdiord _ _ => true
  | .mdiowr _ _ _ => true
  | _ => false

/-- The micro-steps of `ResetProc` (R111). -/
def inResetProc : Pos → Bool
  | .rstRead => true
  | .rstWrite => true
  | .rstClear => true
  | .rstPoll => true
  | .rstDraw => true
  | .rstAck => true
  | _ => false

/-- The micro-steps of a bridge transfer (R90, R91). -/
def inBridge : Pos → Bool
  | .host _ => true
  | .bus _ => true
  | _ => false

/-- The micro-steps of a remote-DMA transaction around its bridge call (R99, R101, R102, R113); only BOUT
clears `RDC` while arming. -/
def inDma (clearsRdc : Bool) : Pos → Bool
  | .acquire => true
  | .arm w => w != .clearIsr || clearsRdc
  | .ack => true
  | .release => true
  | _ => false

/-- The micro-steps of BOUT's completion wait and recovery (R109, R110). -/
def inTxWait : Pos → Bool
  | .txPoll => true
  | .txDraw => true
  | .reinitReq => true
  | .reinitWait => true
  | pos => inResetProc pos

/-- The micro-steps of EEWR between its first and its response (R122). -/
def inEewr : Pos → Bool
  | .eeRead => true
  | .eeWrite => true
  | .eeHold => true
  | _ => false

/-- The micro-steps of a management frame (R126, R127): a write frame loads `mg_data` and takes bits in
TAIL only. -/
def inFrame (write : Bool) : Pos → Bool
  | .mdLoad => write
  | .mdOut => true
  | .send _ _ => true
  | .mdIn => true
  | .get g _ _ => g == .tail || !write
  | _ => false

/-- The positions of a request's pseudocode between its first and its last (R39). -/
def midPos : Instr → Pos → Bool
  | .rd8 idx, pos => pos == .cycle && idx.toNat < 32
  | .rd16 idx, pos => pos == .cycle && idx.toNat < 32
  | .wr8 idx _, pos => pos == .cycle && idx.toNat < 32
  | .wr16 idx _, pos => pos == .cycle && idx.toNat < 32
  | .wblk _ _, pos => inBridge pos
  | .rblk _ _, pos => inBridge pos
  | .gethdr _ _, pos => inDma false pos || inBridge pos || pos == .swap
  | .bin _ _ _, pos => inDma false pos || inBridge pos
  | .bout _ _ _, pos => inDma true pos || inBridge pos || inTxWait pos
  | .reset, pos => inResetProc pos && pos != .rstRead
  | .mdc _, pos => pos == .cycle
  | .mdir _, pos => pos == .cycle
  | .mdo _, pos => pos == .cycle
  | .mdi, pos => pos == .cycle
  | .eerd, pos => pos == .cycle
  | .eewr _ _ _, pos => inEewr pos
  | .mdiord _ _, pos => inFrame false pos
  | .mdiowr _ _ _, pos => inFrame true pos

/-- Whether a position is one of the request's pseudocode (R39). -/
def hasPos (i : Instr) (pos : Pos) : Bool := pos == .start || pos == .respond || midPos i pos

/-- The transaction state that goes with a position (R113): IDLE up to the acquire, ARMED in the arm
writes, TRANSFERRING in the bridge, the wait and the recovery, ACKNOWLEDGED until the release. -/
def xstateAt (i : Instr) (pos : Pos) : XState :=
  if isDma i then
    match pos with
    | .start | .acquire | .swap | .respond => .idle
    | .arm _ => .armed
    | .release => .acknowledged
    | _ => .transferring
  else .idle

/-! ### Running a request -/

/-- `n` micro-steps of a request, each by `exec`. -/
def execN (i : Instr) : Nat → State → Result
  | 0, s => .next s
  | n + 1, s =>
    match exec i s with
    | .next t => execN i n t
    | .fault r => .fault r
    | .refused r => .refused r

/-- The request in progress on port `p` is the running one and has just been accepted (R37, R39). -/
def AtStart (s : State) (p : Port) : Prop := ∃ d, s.running = some (p, .fresh d)

/-- Whether these answers to the polls of a status register are one whole run of a wait loop for a bit of
`mask`, when this many `Expired` draws answer false before one answers true; and if so, whether the loop
timed out (R45, R109, R111). -/
def pollRun (mask : Byte) : List Word → Nat → Option Bool
  | [], _ => none
  | v :: vs, falseDraws =>
    if anyBit (v.setWidth 8) mask then
      if vs = [] then some false else none
    else
      match falseDraws with
      | 0 => if vs = [] then some true else none
      | n + 1 => pollRun mask vs n

/-- Whether a port's request stands in the poll loop of a bounded wait it has started (R44, R109, R111). -/
def inWaitLoop : PortState → Bool
  | .idle => false
  | .active a =>
    a.locals.wait.isSome &&
      (a.pos == .txPoll || a.pos == .txDraw || a.pos == .rstPoll || a.pos == .rstDraw)

/-- The next step is an `Expired` draw for the wait of port `p`'s request (R45). -/
def State.polls (s : State) (p : Port) : Prop :=
  s.fault = none ∧ s.nextMove.1 = .micro
    ∧ ∃ a, s.nextMove.2.running = some (p, a) ∧ (a.pos = .txDraw ∨ a.pos = .rstDraw)

/-- The `n`-th coming draw of the host-memory port. -/
def State.hostDrawAt (s : State) : Nat → Byte
  | 0 => s.drawHost.1
  | n + 1 => s.drawHost.2.hostDrawAt n

/-- The byte at offset `k` of a host access from `a` on as the block moves it: where another agent has raced
for its address the next draw after those of the raced bytes before it, else the byte itself (R63). -/
def State.movedByte (s : State) (raced : List Nat) (a : Nat) (bytes : List Byte) (k : Nat) : Byte :=
  if hostKey (a + k) ∈ raced then
    s.hostDrawAt ((List.range k).countP fun j => raced.contains (hostKey (a + j)))
  else bytes.getD k 0

/-- The other request port. -/
def otherPort : Port → Port
  | .task => .irq
  | .irq => .task

/-- The end of a run: no request in progress on either port and none pending; a state with `fault` set is
never final (R18). -/
def State.ended (s : State) : Bool :=
  s.portTask == .idle && s.portIrq == .idle && s.env.presentedTask.isNone && s.env.presentedIrq.isNone
    && s.fault.isNone

/-! ### What a request leaves unchanged -/

/-- Everything in the state but the ports and `preempted`, the trace, the responses and what other agents
have read, and the answers the environment still holds. -/
structure Rest where
  cfg : Config
  regOffset : Vector Half 32
  dmaing : Byte
  memrShadow : Byte
  mgPhase : MgPhase
  mgBitpos : BitVec 5
  mgData : Half
  mgOwner : Option Port
  fault : Option (Code × Info)
  refused : Bool
  log : List Event
  mem : Memory
  reinitReq : Bool
  moves : List Move
  presentedTask : Option Desc
  presentedIrq : Option Desc
  deriving DecidableEq, Repr

/-- The `Rest` of a state. -/
def State.rest (s : State) : Rest where
  cfg := s.cfg
  regOffset := s.regOffset
  dmaing := s.dmaing
  memrShadow := s.memrShadow
  mgPhase := s.mgPhase
  mgBitpos := s.mgBitpos
  mgData := s.mgData
  mgOwner := s.mgOwner
  fault := s.fault
  refused := s.refused
  log := s.log
  mem := s.mem
  reinitReq := s.out.reinitReq
  moves := s.env.moves
  presentedTask := s.env.presentedTask
  presentedIrq := s.env.presentedIrq

/-- A `Rest` with the management shift state at its idle values, as `MgLeave` leaves it (R115). -/
def Rest.mgLeft (r : Rest) : Rest :=
  { r with mgPhase := .idle, mgBitpos := 0, mgData := 0x0000, mgOwner := none }

/-- From `s` to `t` the request on port `p` has ended with exactly these cycles and this response: the
port is idle, the other port is as it was, and an IRQ request has given way to TASK again (R36, R41). -/
structure Answered (s t : State) (p : Port) (cycles : List BusCycle) (r : Response) : Prop where
  cycles : t.out.cycles = s.out.cycles ++ cycles
  responses : t.out.responses = s.out.responses ++ [(p, r)]
  idle : t.port p = .idle
  other : t.port (otherPort p) = s.port (otherPort p)
  preempted : t.preempted = if p = .irq then false else s.preempted

/-- The response of a request that completes normally (R41). -/
def okResponse (v : Half) : Response := ⟨.ok, .none, v⟩

/-! ### Cycles -/

/-- The address of a cycle. -/
def BusCycle.addr : BusCycle → Word
  | .read a _ _ => a
  | .write a _ _ => a

/-- The width of a cycle. -/
def BusCycle.width : BusCycle → Width
  | .read _ w _ => w
  | .write _ w _ => w

/-- The value of a cycle. -/
def BusCycle.value : BusCycle → Word
  | .read _ _ v => v
  | .write _ _ v => v

/-- Whether a cycle is a read. -/
def BusCycle.isRead : BusCycle → Bool
  | .read _ _ _ => true
  | .write _ _ _ => false

/-- An 8-bit register write (R82). -/
def State.wr (s : State) (i : Fin 32) (v : Byte) : BusCycle := .write (s.regAddr i) .w8 (v.setWidth 32)

/-- An 8-bit register read with its answer (R82). -/
def State.rd (s : State) (i : Fin 32) (v : Byte) : BusCycle := .read (s.regAddr i) .w8 (v.setWidth 32)

/-- The bytes a cycle carries, in stream order (R57). -/
def BusCycle.bytes (bigEndian : Bool) (c : BusCycle) : List Byte := streamBytes bigEndian c.width c.value

/-- The shape of the cycles a bridge call of `count` bytes issues at a window: `floor(L/4)` window cycles,
cycle `k` at offset `4*(k mod CH)`, then the 16-bit and the 8-bit data-port cycle (R89, R92). -/
def bridgeShape (s : State) (window : Word) (count : Nat) : List (Word × Width) :=
  (List.range (count / 4)).map (fun k => (window + BitVec.ofNat 32 (4 * (k % s.cfg.chunkCycles)), .w32))
    ++ (if count / 2 % 2 = 1 then [(s.regAddr nicDataport, .w16)] else [])
    ++ (if count % 2 = 1 then [(s.regAddr nicDataport, .w8)] else [])

/-- How many cycles that is (R92). -/
def bridgeCycles (count : Nat) : Nat := count / 4 + count / 2 % 2 + count % 2

/-- The writes of `Wblk`, stream byte `j` being `byte j` (R57, R89, R90, R92). -/
def wblkCycles (s : State) (byte : Nat → Byte) (count : Nat) : List BusCycle :=
  (List.range (count / 4)).map (fun k =>
      .write (s.cfg.writeWindow + BitVec.ofNat 32 (4 * (k % s.cfg.chunkCycles))) .w32
        (lane32 s.cfg.hostBigEndian [byte (4 * k), byte (4 * k + 1), byte (4 * k + 2), byte (4 * k + 3)]))
    ++ (if count / 2 % 2 = 1 then
          [.write (s.regAddr nicDataport) .w16
            ((lane16 s.cfg.hostBigEndian [byte (count / 4 * 4), byte (count / 4 * 4 + 1)]).setWidth 32)]
        else [])
    ++ (if count % 2 = 1 then
          [.write (s.regAddr nicDataport) .w8 ((byte (count - 1)).setWidth 32)] else [])

/-- The writes that arm a remote DMA without the `RDC` clear of BOUT (R102). -/
def armCycles (s : State) (count address : Half) (command : Byte) : List BusCycle :=
  [s.wr nicCmd 0x22, s.wr nicRcntLo (count.extractLsb' 0 8), s.wr nicRcntHi (count.extractLsb' 8 8),
   s.wr nicRsarLo (address.extractLsb' 0 8), s.wr nicRsarHi (address.extractLsb' 8 8),
   s.wr nicCmd command]

/-- The writes that arm BOUT (R102, R108). -/
def boutArmCycles (s : State) (count : Half) (page : Byte) : List BusCycle :=
  [s.wr nicCmd 0x22, s.wr nicIsr 0x40, s.wr nicRcntLo (count.extractLsb' 0 8),
   s.wr nicRcntHi (count.extractLsb' 8 8), s.wr nicRsarLo 0x00, s.wr nicRsarHi page, s.wr nicCmd 0x12]

/-! ### Management frames (R124, R125) -/

/-- The bits of a value, most significant first. -/
def msbFirst {w : Nat} (v : BitVec w) : List Bool := (List.range w).map v.getMsbD

/-- The 64 bits of a write frame (R125). -/
def writeFrame (phyad regad : BitVec 5) (val : Half) : List Bool :=
  List.replicate 32 true ++ [false, true] ++ [false, true] ++ msbFirst phyad ++ msbFirst regad
    ++ [true, false] ++ msbFirst val

/-- The 46 bits the block sends of a read frame (R125). -/
def readFrame (phyad regad : BitVec 5) : List Bool :=
  List.replicate 32 true ++ [false, true] ++ [true, false] ++ msbFirst phyad ++ msbFirst regad

/-- `memr_shadow` with bit 3 at a level (R124). -/
def withMdo (shadow : Byte) (b : Bool) : Byte := if b then shadow ||| 0x08 else shadow &&& ~~~0x08

/-- The bytes `SendBit` pushes for each bit in turn (R124). -/
def sendBytes : Byte → List Bool → List Byte
  | _, [] => []
  | shadow, b :: rest =>
    [withMdo shadow b, withMdo shadow b ||| 0x01, withMdo shadow b &&& ~~~0x01]
      ++ sendBytes (withMdo shadow b &&& ~~~0x01) rest

/-- The shadow after sending the bits (R124). -/
def sendShadow : Byte → List Bool → Byte
  | shadow, [] => shadow
  | shadow, b :: rest => sendShadow (withMdo shadow b &&& ~~~0x01) rest

/-- The cycles of one `GetBit` (R124): clock high, clock low, sample. -/
def getCycles (s : State) (shadow : Byte) (v : Byte) : List BusCycle :=
  [s.wr nicMemr (shadow ||| 0x01), s.wr nicMemr (shadow &&& ~~~0x01), s.rd nicMemr v]

/-- The cycles of a `GetBit` for each sample; after the first the shadow's clock bit is 0 (R124). -/
def getAllCycles (s : State) (shadow : Byte) (samples : List Byte) : List BusCycle :=
  samples.flatMap (getCycles s (shadow &&& ~~~0x01))

/-- A value assembled from bits, most significant first (R127). -/
def assembleMsbFirst (bits : List Bool) : Half :=
  bits.foldl (fun v b => (v <<< 1) ||| (BitVec.ofBool b).setWidth 16) 0

/-- The rising edges of `MDC` in a list of MEMR writes, after a push whose bit 0 was `level` (R128). -/
def risingEdges (level : Bool) : List BusCycle → Nat
  | [] => 0
  | .read _ _ _ :: rest => risingEdges level rest
  | .write _ _ v :: rest => (if v.getLsbD 0 && !level then 1 else 0) + risingEdges (v.getLsbD 0) rest

/-! ### The invariant -/

/-- A window transfer's counter lies in the window (R55). -/
def windowOk (c : Config) (a : Active) : Bool :=
  match a.pos with
  | .host .win => a.locals.xfer.k < c.chunkCycles
  | .bus .win => a.locals.xfer.k < c.chunkCycles
  | _ => true

/-- A request in progress has a descriptor that decodes, stands at one of its positions, has the `xstate`
of that position, and its window counter in the window. -/
def portOk (c : Config) : PortState → Bool
  | .idle => true
  | .active a =>
    match decode a.desc with
    | .ok i => hasPos i a.pos && a.xstate == xstateAt i a.pos && windowOk c a
    | .error _ => false

/-- A management request that has passed `MgEnter` (R28, R115). -/
def holdsMgmt : PortState → Bool
  | .idle => false
  | .active a =>
    match decode a.desc with
    | .ok i => isMgmt i && a.pos != .start
    | .error _ => false

/-- A remote-DMA transaction between its acquire and its release (R113). -/
def inTransaction : PortState → Bool
  | .idle => false
  | .active a => a.xstate != .idle

/-- The invariant of the block: what every step keeps. -/
structure BlockInv (s : State) : Prop where
  /-- The configuration meets R8. -/
  cfg : s.cfg.wellFormed = true
  /-- `reg_offset` is as configuration built it (R23). -/
  table : s.regOffset = offsetTable s.cfg
  /-- Host memory is in canonical form. -/
  mem : s.mem.wf = true
  /-- Both ports are as R37 and R39 say. -/
  task : portOk s.cfg s.portTask = true
  irq : portOk s.cfg s.portIrq = true
  /-- `preempted` exactly when an IRQ request suspends a TASK request (R36). -/
  nesting : s.preempted = (s.portTask != .idle && s.portIrq != .idle)
  /-- "Bits 2 and 6 are input lines: no rule sets them in the shadow" (R26). -/
  inputs : s.memrShadow &&& 0x44 = 0
  /-- `mg_owner` is the port whose request holds the management interface (R27, R28). -/
  owner : ∀ p, holdsMgmt (s.port p) = true ↔ s.mgOwner = some p
  /-- Without an owner the shift state is at its idle values (R27). -/
  shift : s.mgOwner = none → s.mgPhase = .idle ∧ s.mgBitpos = 0 ∧ s.mgData = 0
  /-- `BUSY` is never left set: a set `BUSY` belongs to a transaction in progress (R24, R114). -/
  busy : s.dmaing.getLsbD 0 = true → inTransaction s.portTask = true ∨ inTransaction s.portIrq = true
  /-- `reinit_req` is high exactly while the running request waits for `reinit_done` (R110). -/
  reinit : s.out.reinitReq = true ↔ ∃ p a, s.running = some (p, a) ∧ a.pos = .reinitWait
  /-- No IRQ request is in progress while a TASK BOUT waits for `reinit_done` (R110; log 32). -/
  waits : s.portTask.waitsForReinit = true → s.portIrq = .idle

/-- A cycle the block may issue (R52, R54, R55): 8 or 16 bits at a register, a 32-bit read in the read
window, a 32-bit write in the write window. -/
def OnBoard (s : State) (c : BusCycle) : Prop :=
  (∃ i, c.addr = s.regAddr i ∧ c.width ≠ .w32)
    ∨ (∃ k, k < s.cfg.chunkCycles ∧ c.isRead = true ∧ c.width = .w32
        ∧ c.addr = s.cfg.readWindow + BitVec.ofNat 32 (4 * k))
    ∨ (∃ k, k < s.cfg.chunkCycles ∧ c.isRead = false ∧ c.width = .w32
        ∧ c.addr = s.cfg.writeWindow + BitVec.ofNat 32 (4 * k))

/-- The transitions of `xstate`: "`IDLE → ARMED → TRANSFERRING → ACKNOWLEDGED → IDLE`", each at its
position (R113). -/
def XStep (pos : Pos) (x y : XState) : Prop :=
  (x = y ∧ pos ≠ .arm .start ∧ pos ≠ .ack ∧ pos ≠ .release)
    ∨ (pos = .acquire ∧ x = .idle ∧ y = .armed)
    ∨ (pos = .arm .start ∧ x = .armed ∧ y = .transferring)
    ∨ (pos = .ack ∧ x = .transferring ∧ y = .acknowledged)
    ∨ (pos = .release ∧ x = .acknowledged ∧ y = .idle)

/-- At most one port is in a transaction, and then `BUSY` is set (R24, R65). -/
structure Exclusive (s : State) : Prop where
  one : ¬ (inTransaction s.portTask = true ∧ inTransaction s.portIrq = true)
  task : inTransaction s.portTask = true → s.dmaing.getLsbD 0 = true
  irq : inTransaction s.portIrq = true → s.dmaing.getLsbD 0 = true

end Sys2Proof.Machine
end

