-- ==== Sys2Proof/Certificates/Slice0/Obligations.lean ====
section
/-!
DEFINITION. The statements for the provers. Each is about every state that meets its premises, reached or
not. A request's meaning is one micro-step; `execN i n` is `n` of them, so "the request runs to its
response" is an equation `execN i n s = .next t`. `t.rest = { s.rest with ... }` is a frame: every field
of the state but the ports, the trace, the responses, what other agents have read and the environment's
answers is as it was, except those named.
-/

open Sys2Proof Sys2Proof.Machine

/-! ### Encoding (30_encoding.md) -/

/-- Decoding an encoded request gives it back, every operand at every value (R70-R74). -/
def Obligations.DecodeOfEncode : Prop := ∀ i : Instr, decode (encode i) = .ok i

/-- A descriptor that decodes is the encoding of its request: one word, one meaning (R71, R75). -/
def Obligations.EncodeOfDecode : Prop := ∀ (d : Desc) (i : Instr), decode d = .ok i → encode i = d

/-- The two refusals of decoding (R75): `UNKNOWN_OP` exactly on the listed `OP` values, and
`RESERVED_BITS` exactly when `OP` is known and `(d & mask) != match` for its row. -/
def Obligations.DecodeRefusals : Prop :=
  ∀ d : Desc,
    (decode d = .error .unknownOp ↔
      let o := (opOf d).toNat
      o = 0 ∨ (0x05 ≤ o ∧ o ≤ 0x0F) ∨ (0x12 ≤ o ∧ o ≤ 0x1F) ∨ (0x24 ≤ o ∧ o ≤ 0x2F) ∨ o = 0x36
        ∨ o = 0x37 ∨ 0x3A ≤ o)
    ∧ (decode d = .error .reservedBits ↔
      ∃ r ∈ opcodeTable, opOf d = opOf r.matched ∧ d &&& r.mask ≠ r.matched)

/-- No two rows of the opcode table match one descriptor (R74). -/
def Obligations.TableRowsDisjoint : Prop :=
  ∀ (d : Desc) (r q : Row), r ∈ opcodeTable → q ∈ opcodeTable → r.selects d = true → q.selects d = true →
    r.mnemonic = q.mnemonic

/-- The eleven encoding examples of R79, from text to words and from words to the request. -/
def Obligations.EncodingExamples : Prop :=
  let example_ (m : String) (os : List AsmOperand) (w3 w2 w1 w0 : Word) : Prop :=
    ∃ i, assemble ⟨none, m, os⟩ = some (.task, [i]) ∧ encode i = descOfWords w3 w2 w1 w0
      ∧ decode (descOfWords w3 w2 w1 w0) = .ok i
  example_ "RD8" [.name "ISR"] 0 0 0 0x00000701
    ∧ example_ "WR8" [.name "CMD", .num 0x22] 0 0 0x00220000 0x00000003
    ∧ example_ "WR16" [.name "DATAPORT", .num 0xBEEF] 0 0 0xBEEF0000 0x00001004
    ∧ example_ "WBLK" [.num 0x00100000, .num 60] 0 0x00100000 0x0000003C 0x00000010
    ∧ example_ "GETHDR" [.num 0x00200000, .num 0x4C] 0 0x00200000 0 0x004C0020
    ∧ example_ "BIN" [.num 0x00200004, .num 60, .num 0x4C04] 0 0x00200004 0x4C04003C 0x00000021
    ∧ example_ "BOUT" [.num 0x00100000, .num 61, .num 0x40] 0 0x00100000 0x0000003D 0x00400022
    ∧ example_ "RESET" [] 0 0 0 0x00000023
    ∧ example_ "MDC" [.num 1] 0 0 0x00010000 0x00000030
    ∧ example_ "EEWR" [.num 1, .num 0, .num 1] 0 0 0x00050000 0x00000035
    ∧ example_ "MDIOWR" [.num 0x10, .num 0x04, .num 0xA5A5] 0 0 0xA5A50000 0x04100039

/-! ### Ports, acceptance, reset (10_state.md, 60_exceptions.md, 70_reset_and_hazards.md) -/

/-- Acceptance of a presented request (R36, R37, R39, R75, R131). If the descriptor decodes it is latched,
`pos` at the first micro-step and `xstate` IDLE, and an IRQ request suspends a TASK request in progress;
nothing else changes. If it does not, the block sets `refused`, logs `REFUSED` and responds
(REFUSED, code, 0); there is no cycle, and no other change. -/
def Obligations.AcceptanceDecodes : Prop :=
  ∀ (s : State) (p : Port) (d : Desc), s.presented p = some d → s.mayAccept p = true →
    (∀ i, decode d = .ok i →
      (s.accept p).port p = .active ⟨d, .start, .idle, {}⟩
      ∧ (s.accept p).port (otherPort p) = s.port (otherPort p)
      ∧ (s.accept p).preempted = (if p = .irq then s.portTask != .idle else s.preempted)
      ∧ (s.accept p).out = s.out
      ∧ (s.accept p).rest = (s.setPresented p none).rest)
    ∧ (∀ e, decode d = .error e →
      (s.accept p).rest
          = { (s.setPresented p none).rest with refused := true, log := s.log ++ [.refused p e d] }
      ∧ (s.accept p).out.cycles = s.out.cycles
      ∧ (s.accept p).out.responses = s.out.responses
          ++ [(p, ⟨.refused, if e = .unknownOp then .unknownOp else .reservedBits, 0⟩)]
      ∧ (∀ q, (s.accept p).port q = s.port q) ∧ (s.accept p).preempted = s.preempted)

/-- A port that holds a request accepts none; TASK accepts none while an IRQ request is in progress
(R36 items 1, 2, 6), and IRQ none while a TASK BOUT waits for `reinit_done` (R110; DEDUCED, log 32); otherwise
a port may accept. A requester presents a descriptor on an idle port on which it has presented none: the
port's presented descriptor is then that one and nothing else changes (R36 item 1). That an acceptance or a
presentation scheduled all the same is dropped, the state as it was, is the model's choice (log 21). -/
def Obligations.BusyPortAcceptsNothing : Prop :=
  (∀ (s : State) (p : Port), (s.port p ≠ .idle ∨ (p = .task ∧ s.portIrq ≠ .idle)) → s.accept p = s)
  ∧ (∀ (s : State) (a : Active), s.portTask = .active a → a.pos = .reinitWait → s.accept .irq = s)
  ∧ (∀ s : State, (s.portTask = .idle → s.portIrq = .idle → s.mayAccept .task = true)
    ∧ (s.portIrq = .idle → (∀ a, s.portTask = .active a → a.pos ≠ .reinitWait) → s.mayAccept .irq = true))
  ∧ (∀ (s : State) (d : Desc),
    (s.portTask = .idle → s.env.presentedTask = none →
      s.present .task d = s.withEnv { s.env with presentedTask := some d })
    ∧ (s.portIrq = .idle → s.env.presentedIrq = none →
      s.present .irq d = s.withEnv { s.env with presentedIrq := some d }))
  ∧ (∀ (s : State) (p : Port) (d : Desc), (s.port p ≠ .idle ∨ s.presented p ≠ none) → s.present p d = s)
  ∧ (∀ (s : State) (p : Port) (d : Desc), s.port p = .idle → s.presented p = none →
    (s.present p d).presented p = some d)

/-- An IRQ request nests over a TASK request (R36 items 4, 5): while one is in progress a micro-step of any
request leaves the TASK request at its position with every local; when it responds and no fault is set,
`preempted` is false and the TASK request is the running one again. After a fault TASK never resumes (R138;
`StuckUntilRst`). -/
def Obligations.IrqNestsOverTask : Prop :=
  ∀ (i : Instr) (s t : State) (b : Active), s.portIrq = .active b → exec i s = .next t →
    t.portTask = s.portTask
    ∧ (∀ a, t.fault = none → t.portIrq = .idle → s.portTask = .active a →
        t.preempted = false ∧ t.running = some (.task, a))

/-- When no other move is due, the latched descriptor of the running request decodes and its request's
meaning is run: with an empty schedule, when no IRQ request can be accepted, on the state itself; with a
scheduled `micro` move, on the state without it (R39, R40, R136). A step whose move is an acceptance is
`accept`: a scheduled one on the state without it; with an empty schedule (the order is the model's, log 2)
a presented IRQ request that may be accepted first, a presented TASK request when nothing runs. The other
scheduled moves likewise. -/
def Obligations.StepRunsDecoded : Prop :=
  (∀ (s : State) (p : Port) (a : Active) (i : Instr), s.fault = none → s.running = some (p, a) →
    decode a.desc = .ok i →
    (s.env.moves = [] → (s.env.presentedIrq = none ∨ s.mayAccept .irq = false) → step s = exec i s)
    ∧ (∀ rest, s.env.moves = .micro :: rest → step s = exec i (s.withEnv { s.env with moves := rest })))
  ∧ (∀ s : State, s.fault = none → s.env.moves = [] →
    (s.env.presentedIrq ≠ none → s.mayAccept .irq = true → step s = .next (s.accept .irq))
    ∧ (s.env.presentedIrq = none → s.env.presentedTask ≠ none → s.mayAccept .task = true →
        s.running = none → step s = .next (s.accept .task)))
  ∧ (∀ (s u : State) (rest : List Move), s.fault = none →
    u = s.withEnv { s.env with moves := rest } →
    (∀ p, s.env.moves = .accept p :: rest → step s = .next (u.accept p))
    ∧ (∀ p d, s.env.moves = .present p d :: rest → step s = .next (u.present p d))
    ∧ (∀ v, s.env.moves = .extSetDmaing v :: rest → step s = .next (u.extSetDmaing v))
    ∧ (∀ a bytes, s.env.moves = .hostStore a bytes :: rest → step s = .next (u.hostStore a bytes))
    ∧ (∀ a n, s.env.moves = .hostLoad a n :: rest → step s = .next (u.hostLoad a n)))

/-- While `fault` is set the block takes no move: a step is the stuck outcome, unless the next scheduled
move is RST, which clears it (R43, R130, R147; `RstResetsTheBlock` says what else RST sets). -/
def Obligations.StuckUntilRst : Prop :=
  ∀ (s : State) (c : Code) (i : Info), s.fault = some (c, i) →
    (∀ m rest, s.env.moves = m :: rest → m ≠ .rst → step s = .fault (.stuck c i))
    ∧ (s.env.moves = [] → step s = .fault (.stuck c i))
    ∧ (∀ rest, s.env.moves = .rst :: rest → ∃ t, step s = .next t ∧ t.fault = none)

/-- RST (R147, R50): every element of the block at its reset value whatever the state was, no response and
no card-bus cycle; the block then accepts requests on both ports. Nothing else clears `fault`: a step from a
state with `fault` set that answers a next state is RST. -/
def Obligations.RstResetsTheBlock : Prop :=
  (∀ (s : State) (rest : List Move), s.env.moves = .rst :: rest →
    ∃ t, step s = .next t
      ∧ t.dmaing = 0x00 ∧ t.memrShadow = 0x00
      ∧ t.mgPhase = .idle ∧ t.mgBitpos = 0 ∧ t.mgData = 0x0000 ∧ t.mgOwner = none
      ∧ t.portTask = .idle ∧ t.portIrq = .idle ∧ t.preempted = false
      ∧ t.fault = none ∧ t.refused = false ∧ t.log = []
      ∧ (∀ k : Fin 32, t.regOffset[k] = s.cfg.regBase + BitVec.ofNat 16 (s.cfg.regStride * k.val))
      ∧ t.cfg = s.cfg
      ∧ t.out.cycles = s.out.cycles ∧ t.out.responses = s.out.responses
      ∧ (∀ p, t.mayAccept p = true))
  ∧ (∀ s t : State, s.fault ≠ none → step s = .next t → s.nextMove.1 = .rst ∧ t.fault = none)

/-- The end of a run (R18): a stuck block is never final; at the end of a run with nothing scheduled a step
changes nothing (the model's reading, log 3). -/
def Obligations.EndedRunRests : Prop :=
  (∀ s : State, s.fault ≠ none → s.ended = false)
  ∧ ∀ s : State, s.ended = true → s.env.moves = [] → step s = .next s

/-- The values of R50 in the state right after reset, at the default configuration: entry `i` of
`reg_offset` is 0x0800 + 4*i (R23). -/
def Obligations.ResetValues : Prop :=
  (∀ k : Fin 32, State.reset.regOffset[k] = 0x0800#16 + BitVec.ofNat 16 (4 * k.val))
    ∧ State.reset.dmaing = 0x00 ∧ State.reset.memrShadow = 0x00
    ∧ State.reset.mgPhase = .idle ∧ State.reset.mgBitpos = 0 ∧ State.reset.mgData = 0x0000
    ∧ State.reset.mgOwner = none
    ∧ State.reset.portTask = .idle ∧ State.reset.portIrq = .idle ∧ State.reset.preempted = false
    ∧ State.reset.fault = none ∧ State.reset.refused = false ∧ State.reset.log = []

/-- `EXT_SET_DMAING(v)` sets `dmaing[7:1]` and leaves bit 0 and everything else unchanged; a step that is
no such action leaves `dmaing[7:1]` as it was or sets it to 0 (R25). -/
def Obligations.ExtSetDmaingEffect : Prop :=
  (∀ (s : State) (v : Byte) (rest : List Move), s.fault = none →
    s.env.moves = .extSetDmaing v :: rest →
    ∃ e : Byte, step s = .next ((s.withEnv { s.env with moves := rest }).withDmaing e)
      ∧ e.getLsbD 0 = s.dmaing.getLsbD 0 ∧ ∀ k, 1 ≤ k → k < 8 → e.getLsbD k = v.getLsbD k)
  ∧ (∀ s t : State, step s = .next t → (∀ v, s.nextMove.1 ≠ .extSetDmaing v) →
      t.dmaing &&& 0xFE = s.dmaing &&& 0xFE ∨ t.dmaing &&& 0xFE = 0)

/-- A configuration that breaks a constraint of R8 is refused at configuration time; one that meets them
all gives the block after RST. -/
def Obligations.ConfigurationRefused : Prop :=
  ∀ c : Config,
    (0 < c.winSize ∧ c.winSize % 4 = 0
        ∧ c.rdWinOff.toNat + c.winSize ≤ c.data32Size.toNat
        ∧ c.wrWinOff.toNat + c.winSize ≤ c.data32Size.toNat
        ∧ c.regBase.toNat + c.regStride * 31 + 1 ≤ c.data32Base.toNat
        ∧ c.boardBase.toNat % 4 = 0 →
      configure c = .next (State.resetWith c))
    ∧ (¬ (0 < c.winSize ∧ c.winSize % 4 = 0
        ∧ c.rdWinOff.toNat + c.winSize ≤ c.data32Size.toNat
        ∧ c.wrWinOff.toNat + c.winSize ≤ c.data32Size.toNat
        ∧ c.regBase.toNat + c.regStride * 31 + 1 ≤ c.data32Base.toNat
        ∧ c.boardBase.toNat % 4 = 0) →
      configure c = .refused .badConfiguration)

/-! ### Faults and conflicts (60_exceptions.md, 42_remote_dma.md) -/

/-- `REG_RANGE` (R81, R130): on RD8, RD16, WR8 and WR16 with `IDX` >= 32 the first micro-step records the
fault with `IDX`, logs it and responds (FAULT, 0x03, 0); no cycle, nothing else. The block is then stuck:
its next step is the stuck outcome unless the next scheduled move is RST (R43). -/
def Obligations.RegRangeRaised : Prop :=
  ∀ (i : Instr) (idx : Byte) (s : State) (p : Port), 32 ≤ idx.toNat → AtStart s p →
    (i = .rd8 idx ∨ i = .rd16 idx ∨ (∃ v, i = .wr8 idx v) ∨ (∃ v, i = .wr16 idx v)) →
    ∃ t, exec i s = .next t
      ∧ Answered s t p [] ⟨.fault, .regRange, 0⟩
      ∧ t.rest = { s.rest with
          fault := some (.regRange, .index idx), log := s.log ++ [.fault p .regRange (.index idx)] }
      ∧ ∀ m rest, t.env.moves = [] ∨ t.env.moves = m :: rest ∧ m ≠ .rst →
          step t = .fault (.stuck .regRange (.index idx))

/-- `HOST_RANGE` (R94, R130): when `HADDR + L'` passes 2^32 the first micro-step raises it, whatever
`dmaing` is, before any cycle, host access or busy check. `L'` is `LEN` for WBLK, RBLK and BIN, the
rounded count for BOUT (whose `COUNT_OVERFLOW` comes first), and `HDR_SIZE` for GETHDR. -/
def Obligations.HostRangeRaised : Prop :=
  ∀ (i : Instr) (haddr : Word) (count : Nat) (s : State) (p : Port), AtStart s p →
    2 ^ 32 < haddr.toNat + count →
    ((∃ len : Half, count = len.toNat
        ∧ (i = .wblk haddr len ∨ i = .rblk haddr len ∨ ∃ roff, i = .bin haddr len roff))
      ∨ (count = s.cfg.hdrSize ∧ ∃ page, i = .gethdr haddr page)
      ∨ (∃ (len : Half) (page : Byte), count ≤ 0xFFFF
          ∧ count = (if s.cfg.word16 = true ∧ len.toNat % 2 = 1 then len.toNat + 1 else len.toNat)
          ∧ i = .bout haddr len page)) →
    ∃ t, exec i s = .next t
      ∧ Answered s t p [] ⟨.fault, .hostRange, 0⟩
      ∧ t.rest = { s.rest with
          fault := some (.hostRange, .range haddr count)
          log := s.log ++ [.fault p .hostRange (.range haddr count)] }

/-- BOUT's count (R106): `L'` is `LEN + 1` if `WORD16` = 1 and `LEN` is odd, else `LEN`; when it is 65536
the first micro-step raises `COUNT_OVERFLOW(LEN)`, before the range check, the busy check and any cycle
(R135). -/
def Obligations.CountOverflowRaised : Prop :=
  (∀ (c : Config) (len : Half),
    roundedCount c len = if c.word16 = true ∧ len.toNat % 2 = 1 then len.toNat + 1 else len.toNat)
  ∧ ∀ (haddr : Word) (page : Byte) (s : State) (p : Port), AtStart s p → s.cfg.word16 = true →
      ∃ t, exec (.bout haddr 0xFFFF page) s = .next t
        ∧ Answered s t p [] ⟨.fault, .countOverflow, 0⟩
        ∧ t.rest = { s.rest with
            fault := some (.countOverflow, .length 0xFFFF)
            log := s.log ++ [.fault p .countOverflow (.length 0xFFFF)] }

/-- `MGMT_REENTRY` (R115, R133): a management request on the IRQ port that meets `mg_owner` = TASK raises
it at its first micro-step, with its `OP`; no MEMR cycle, and the suspended TASK request stays as it was. -/
def Obligations.MgmtReentryRaised : Prop :=
  ∀ (i : Instr) (s : State), isMgmt i = true → AtStart s .irq → s.mgOwner = some .task →
    ∃ t, exec i s = .next t
      ∧ Answered s t .irq [] ⟨.fault, .mgmtReentry, 0⟩
      ∧ t.rest = { s.rest with
          fault := some (.mgmtReentry, .opcode (opOf (encode i)))
          log := s.log ++ [.fault .irq .mgmtReentry (.opcode (opOf (encode i)))] }

/-- The conflict path (R99, R100, R132): GETHDR, BIN and BOUT that pass their range checks and find
`dmaing != 0` end with one `CONFLICT` entry and the response (CONFLICT, 0x10, 0): no cycle, no host
access, `dmaing` as it was found, nothing else. That the busy test, the log entry and the response are one
micro-step, the second after acceptance, is the model's reading (log 5). -/
def Obligations.ConflictPath : Prop :=
  ∀ (i : Instr) (haddr : Word) (count : Nat) (s : State) (p : Port), AtStart s p → s.dmaing ≠ 0x00 →
    haddr.toNat + count ≤ 2 ^ 32 →
    ((count = s.cfg.hdrSize ∧ ∃ page, i = .gethdr haddr page)
      ∨ (∃ (len roff : Half), count = len.toNat ∧ i = .bin haddr len roff)
      ∨ (∃ (len : Half) (page : Byte), count ≤ 0xFFFF ∧ count = roundedCount s.cfg len
          ∧ i = .bout haddr len page)) →
    ∃ t, execN i 2 s = .next t
      ∧ Answered s t p [] ⟨.conflict, .dmaConflict, 0⟩
      ∧ t.rest = { s.rest with log := s.log ++ [.conflict p (opOf (encode i)) s.dmaing] }
      ∧ t.env = s.env

/-! ### Register-width adapter (40_bus_adaptation.md) -/

/-- `Reg(i) = BOARD_BASE + REG_BASE + 4*i`, a multiple of 4 (R80), for a table built at configuration (R23)
and offsets that are multiples of 4 (log 15). -/
def Obligations.RegisterAddresses : Prop :=
  ∀ (s : State) (i : Fin 32), s.cfg.wellFormed = true → s.cfg.aligned = true →
    s.regOffset = offsetTable s.cfg →
    s.regAddr i = s.cfg.boardBase + s.cfg.regBase.setWidth 32 + BitVec.ofNat 32 (4 * i.val)
    ∧ (s.regAddr i).toNat % 4 = 0

/-- RD8 and RD16 with `IDX` < 32 (R84, R85): one read cycle of their width at `Reg(IDX)`, the response is
(OK, the environment's answer zero-extended to 16 bits), and no state of the block changes. -/
def Obligations.RegisterReads : Prop :=
  ∀ (idx : Byte) (k : Fin 32) (s : State) (p : Port), AtStart s p → idx.toNat = k.val →
    (∃ (t : State) (v : Byte), execN (.rd8 idx) 3 s = .next t
      ∧ v.setWidth 32 = (s.drawBus (s.regAddr k) .w8).1
      ∧ Answered s t p [.read (s.regAddr k) .w8 (v.setWidth 32)] (okResponse (v.setWidth 16))
      ∧ t.rest = s.rest)
    ∧ (∃ (t : State) (v : Half), execN (.rd16 idx) 3 s = .next t
      ∧ v.setWidth 32 = (s.drawBus (s.regAddr k) .w16).1
      ∧ Answered s t p [.read (s.regAddr k) .w16 (v.setWidth 32)] (okResponse v)
      ∧ t.rest = s.rest)

/-- WR8 and WR16 with `IDX` < 32 (R86, R87): one write cycle of their width at `Reg(IDX)` carrying the
value, the response is (OK, 0), and no state of the block changes (`memr_shadow` neither, R153). -/
def Obligations.RegisterWrites : Prop :=
  ∀ (idx : Byte) (k : Fin 32) (s : State) (p : Port), AtStart s p → idx.toNat = k.val →
    (∀ v : Byte, ∃ t, execN (.wr8 idx v) 3 s = .next t
      ∧ Answered s t p [.write (s.regAddr k) .w8 (v.setWidth 32)] (okResponse 0)
      ∧ t.rest = s.rest)
    ∧ (∀ v : Half, ∃ t, execN (.wr16 idx v) 3 s = .next t
      ∧ Answered s t p [.write (s.regAddr k) .w16 (v.setWidth 32)] (okResponse 0)
      ∧ t.rest = s.rest)

/-! ### Block-FIFO bridge (41_block_fifo_bridge.md) -/

/-- WBLK (R89, R90, R92, R95): it runs to (OK, 0) with exactly the cycles of R92, window cycle `k` at
offset `4*(k mod CH)`, carrying the host bytes `[HADDR, HADDR+LEN)` in order and lanes of R57; no state of
the block changes. -/
def Obligations.WblkMovesBuffer : Prop :=
  ∀ (haddr : Word) (len : Half) (s : State) (p : Port), AtStart s p → s.cfg.winSizeOk = true →
    haddr.toNat + len.toNat ≤ 2 ^ 32 →
    ∃ t, execN (.wblk haddr len) (2 + 2 * bridgeCycles len.toNat) s = .next t
      ∧ Answered s t p (wblkCycles s (fun j => s.mem.read (haddr.toNat + j)) len.toNat) (okResponse 0)
      ∧ t.rest = s.rest

/-- RBLK (R89, R91, R92, R96): it runs to (OK, 0) with exactly the read cycles of R92; host memory
`[HADDR, HADDR+LEN)` then holds the bytes those cycles returned, in order, and every byte outside it is
as it was; nothing else changes. -/
def Obligations.RblkFillsBuffer : Prop :=
  ∀ (haddr : Word) (len : Half) (s : State) (p : Port), AtStart s p → s.cfg.winSizeOk = true →
    haddr.toNat + len.toNat ≤ 2 ^ 32 → s.mem.wf = true →
    ∃ (t : State) (cs : List BusCycle),
      execN (.rblk haddr len) (2 + 2 * bridgeCycles len.toNat) s = .next t
      ∧ Answered s t p cs (okResponse 0)
      ∧ cs.map (fun c => (c.addr, c.width)) = bridgeShape s s.cfg.readWindow len.toNat
      ∧ (∀ c ∈ cs, c.isRead = true)
      ∧ (cs.flatMap (BusCycle.bytes s.cfg.hostBigEndian)).length = len.toNat
      ∧ (∀ j, j < len.toNat → t.mem.read (haddr.toNat + j)
          = (cs.flatMap (BusCycle.bytes s.cfg.hostBigEndian)).getD j 0)
      ∧ (∀ j, j < 2 ^ 32 → j < haddr.toNat ∨ haddr.toNat + len.toNat ≤ j → t.mem.read j = s.mem.read j)
      ∧ t.rest = { s.rest with mem := t.mem }

/-- Round trip (R97): WBLK of `L` bytes, then RBLK of `L` bytes, against the reference simulator with an
empty queue: the destination holds the source's bytes, for every `L` and either byte order, and the queue
is empty again. -/
def Obligations.BridgeRoundTrip : Prop :=
  ∀ (src dst : Word) (len : Half) (s : State) (f : SimFifo),
    AtStart s .task → s.cfg.wellFormed = true → s.cfg.aligned = true →
    s.regOffset = offsetTable s.cfg → s.mem.wf = true →
    s.env.nic = some f → f.queue = [] →
    src.toNat + len.toNat ≤ 2 ^ 32 → dst.toNat + len.toNat ≤ 2 ^ 32 →
    ∃ (t u : State) (g : SimFifo),
      execN (.wblk src len) (2 + 2 * bridgeCycles len.toNat) s = .next t
      ∧ execN (.rblk dst len) (2 + 2 * bridgeCycles len.toNat)
          (t.latch .task (encode (.rblk dst len))) = .next u
      ∧ (∀ j, j < len.toNat → u.mem.read (dst.toNat + j) = s.mem.read (src.toNat + j))
      ∧ u.env.nic = some g ∧ g.queue = []

/-- The lane helpers are inverse, in stream order, for either `HOST_BIG_ENDIAN`. When it is 1 a 32-bit value
has the first stream byte in bits 31:24 and a 16-bit value has it in bits 15:8, when it is 0 both are the
mirror; an 8-bit cycle carries its byte in bits 7:0. A transfer's cycle carries these values (R57, R88). -/
def Obligations.LanesInverse : Prop :=
  (∀ (be : Bool) (b0 b1 b2 b3 : Byte), unlane32 be (lane32 be [b0, b1, b2, b3]) = [b0, b1, b2, b3])
  ∧ (∀ (be : Bool) (b0 b1 : Byte), unlane16 be (lane16 be [b0, b1]) = [b0, b1])
  ∧ (∀ (be : Bool) (v : Word), lane32 be (unlane32 be v) = v)
  ∧ (∀ (be : Bool) (v : Half), lane16 be (unlane16 be v) = v)
  ∧ (∀ b0 b1 b2 b3 : Byte, lane32 true [b0, b1, b2, b3] = b0 ++ b1 ++ b2 ++ b3
      ∧ lane32 false [b0, b1, b2, b3] = b3 ++ b2 ++ b1 ++ b0)
  ∧ (∀ b0 b1 : Byte, lane16 true [b0, b1] = b0 ++ b1 ∧ lane16 false [b0, b1] = b1 ++ b0)
  ∧ (∀ (be : Bool) (b0 b1 b2 b3 : Byte),
      BUnit.win.lane be [b0, b1, b2, b3] = (if be then b0 ++ b1 ++ b2 ++ b3 else b3 ++ b2 ++ b1 ++ b0)
      ∧ BUnit.half.lane be [b0, b1] = (if be then b0 ++ b1 else b1 ++ b0 : Half).setWidth 32
      ∧ BUnit.byte.lane be [b0] = b0.setWidth 32)

/-! ### Remote-DMA sequencer (42_remote_dma.md) -/

/-- GETHDR with a free engine (R102, R103, R104): the arm writes, one read-window cycle, the unconditional
`ISR` clear; the response is (OK, `{h[3], h[2]}`); host bytes `[HADDR, HADDR+4)` hold `h[0]`, `h[1]` and
the count in host byte order, every other byte is as it was, `dmaing` is released. -/
def Obligations.GethdrFetchesHeader : Prop :=
  ∀ (haddr : Word) (page : Byte) (s : State) (p : Port), AtStart s p → s.cfg.winSizeOk = true →
    s.cfg.hdrSize = 4 → haddr.toNat + 4 ≤ 2 ^ 32 → s.dmaing = 0x00 → s.mem.wf = true →
    ∃ (t : State) (n : Nat) (v : Word) (h0 h1 h2 h3 : Byte),
      execN (.gethdr haddr page) n s = .next t
      ∧ unlane32 s.cfg.hostBigEndian v = [h0, h1, h2, h3]
      ∧ Answered s t p
          (armCycles s 0x0004 (page ++ 0x00#8) 0x0A
            ++ [.read s.cfg.readWindow .w32 v, s.wr nicIsr 0x40])
          (okResponse (h3 ++ h2))
      ∧ (t.mem.read haddr.toNat = h0 ∧ t.mem.read (haddr.toNat + 1) = h1
          ∧ t.mem.read (haddr.toNat + 2) = (if s.cfg.hostBigEndian then h3 else h2)
          ∧ t.mem.read (haddr.toNat + 3) = (if s.cfg.hostBigEndian then h2 else h3))
      ∧ (∀ j, j < 2 ^ 32 → j < haddr.toNat ∨ haddr.toNat + 4 ≤ j → t.mem.read j = s.mem.read j)
      ∧ t.rest = { s.rest with mem := t.mem }

/-- BIN with a free engine (R102, R105): the arm writes with `LEN` and `ROFF`, then the read cycles of the
bridge, and nothing more (no `ISR` write, no poll); host memory `[HADDR, HADDR+LEN)` holds what they
returned, `dmaing` is released, nothing else changes. `LEN` = 0 still arms. -/
def Obligations.BinTransfersBlock : Prop :=
  ∀ (haddr : Word) (len roff : Half) (s : State) (p : Port), AtStart s p → s.cfg.winSizeOk = true →
    haddr.toNat + len.toNat ≤ 2 ^ 32 → s.dmaing = 0x00 → s.mem.wf = true →
    ∃ (t : State) (cs : List BusCycle),
      execN (.bin haddr len roff) (11 + 2 * bridgeCycles len.toNat) s = .next t
      ∧ Answered s t p (armCycles s len roff 0x0A ++ cs) (okResponse 0)
      ∧ cs.map (fun c => (c.addr, c.width)) = bridgeShape s s.cfg.readWindow len.toNat
      ∧ (∀ c ∈ cs, c.isRead = true)
      ∧ (∀ j, j < len.toNat → t.mem.read (haddr.toNat + j)
          = (cs.flatMap (BusCycle.bytes s.cfg.hostBigEndian)).getD j 0)
      ∧ (∀ j, j < 2 ^ 32 → j < haddr.toNat ∨ haddr.toNat + len.toNat ≤ j → t.mem.read j = s.mem.read j)
      ∧ t.rest = { s.rest with mem := t.mem }

/-- BOUT with a free engine whose completion wait sees `RDC` (R90, R102, R106-R109): the arm writes with the
rounded count and the `RDC` clear, the bridge's writes of `L'` bytes, the polls (at least one), the
acknowledge; the response is (OK, 0). The last byte of a rounded transfer is the pad draw. `dmaing` is
released and nothing else changes. -/
def Obligations.BoutTransmitsBlock : Prop :=
  ∀ (haddr : Word) (len : Half) (page : Byte) (s : State) (p : Port) (polls rest : List Word)
    (falseDraws : Nat) (more : List Nat),
    AtStart s p → s.cfg.winSizeOk = true →
    roundedCount s.cfg len ≤ 0xFFFF → haddr.toNat + roundedCount s.cfg len ≤ 2 ^ 32 →
    s.dmaing = 0x00 →
    s.env.nic = none → s.env.busTape = polls ++ rest → s.env.expiredTape = falseDraws :: more →
    pollRun 0x40 polls falseDraws = some false →
    ∃ (t : State) (n : Nat), execN (.bout haddr len page) n s = .next t
      ∧ Answered s t p
          (boutArmCycles s (BitVec.ofNat 16 (roundedCount s.cfg len)) page
            ++ wblkCycles s
                (fun j => if j = len.toNat then s.drawHost.1 else s.mem.read (haddr.toNat + j))
                (roundedCount s.cfg len)
            ++ polls.map (fun v => s.rd nicIsr (v.setWidth 8)) ++ [s.wr nicIsr 0x40])
          (okResponse 0)
      ∧ t.rest = s.rest

/-- BOUT whose completion wait expires (R109-R111, R134): after the polls it logs `TIMEOUT_TX`, resets the
NIC (read and write back `RESET`, `dmaing` to 0, poll, acknowledge, `TIMEOUT_RESET` logged if that poll
expires too), logs `REINIT` and waits for the collaborator however long it takes (a poll per micro-step, the
model's choice, log 9), acknowledges and releases; the response is (OK, TIMEOUT_TX, 0) and `BUSY` is clear.
Every draw of a wait before its last answers false (R45; log 8). `reinit_req` is low at the end whatever it was
at the start: that only one recovery is outstanding is log 32 (DEDUCED; `BlockInv` has it). -/
def Obligations.BoutRecoversFromTimeout : Prop :=
  ∀ (haddr : Word) (len : Half) (page : Byte) (s : State) (p : Port)
    (polls resetPolls rest : List Word) (v : Word) (falseDraws resetFalseDraws : Nat) (more : List Nat)
    (resetTimedOut : Bool) (waits : Nat) (later : List Bool),
    AtStart s p → s.cfg.winSizeOk = true →
    roundedCount s.cfg len ≤ 0xFFFF → haddr.toNat + roundedCount s.cfg len ≤ 2 ^ 32 →
    s.dmaing = 0x00 → s.env.nic = none →
    s.env.busTape = polls ++ v :: (resetPolls ++ rest) →
    s.env.expiredTape = falseDraws :: resetFalseDraws :: more →
    s.env.reinitTape = List.replicate waits false ++ true :: later →
    pollRun 0x40 polls falseDraws = some true →
    pollRun 0x80 resetPolls resetFalseDraws = some resetTimedOut →
    ∃ (t : State) (n : Nat), execN (.bout haddr len page) n s = .next t
      ∧ Answered s t p
          (boutArmCycles s (BitVec.ofNat 16 (roundedCount s.cfg len)) page
            ++ wblkCycles s
                (fun j => if j = len.toNat then s.drawHost.1 else s.mem.read (haddr.toNat + j))
                (roundedCount s.cfg len)
            ++ polls.map (fun v => s.rd nicIsr (v.setWidth 8))
            ++ [s.rd nicReset (v.setWidth 8), s.wr nicReset (v.setWidth 8)]
            ++ resetPolls.map (fun v => s.rd nicIsr (v.setWidth 8))
            ++ [s.wr nicIsr 0x80, s.wr nicIsr 0x40])
          ⟨.ok, .timeoutTx, 0⟩
      ∧ t.rest = { s.rest with
          dmaing := 0x00
          reinitReq := false
          log := s.log ++ [.timeoutTx p] ++ (if resetTimedOut then [.timeoutReset p] else [])
            ++ [.reinit p] }

/-- RESET (R111, R112, R149): read `RESET`, write the value back, `dmaing` to 0 without any busy check,
poll `ISR` bit 7, write `ISR` 0x80; the response is (OK, TIMEOUT_RESET if the poll expired, 0), a timeout
is logged, and nothing else changes: `memr_shadow` keeps its value. -/
def Obligations.ResetPulsesAndPolls : Prop :=
  ∀ (s : State) (p : Port) (v : Word) (polls rest : List Word) (falseDraws : Nat) (more : List Nat)
    (timedOut : Bool),
    AtStart s p → s.env.nic = none → s.env.busTape = v :: (polls ++ rest) →
    s.env.expiredTape = falseDraws :: more → pollRun 0x80 polls falseDraws = some timedOut →
    ∃ (t : State) (n : Nat), execN .reset n s = .next t
      ∧ Answered s t p
          ([s.rd nicReset (v.setWidth 8), s.wr nicReset (v.setWidth 8)]
            ++ polls.map (fun v => s.rd nicIsr (v.setWidth 8)) ++ [s.wr nicIsr 0x80])
          ⟨.ok, if timedOut then .timeoutReset else .none, 0⟩
      ∧ t.rest = { s.rest with
          dmaing := 0x00, log := s.log ++ (if timedOut then [.timeoutReset p] else []) }

/-- Busy acquire and release (R99, R101): GETHDR, BIN and BOUT at their acquire with `dmaing` = 0 set bit 0
and go to ARMED in one micro-step with no cycle; at their release they clear bit 0 only and go to IDLE. -/
def Obligations.BusyAcquireAndRelease : Prop :=
  ∀ (i : Instr) (s : State) (p : Port) (a : Active), isDma i = true → s.running = some (p, a) →
    (a.pos = .acquire → s.dmaing = 0x00 →
      exec i s = .next ((s.withDmaing 0x01).setPort p
        (.active { a with pos := .arm .idle0, xstate := .armed })))
    ∧ (a.pos = .release →
      ∃ next, exec i s = .next ((s.withDmaing (s.dmaing &&& ~~~0x01)).setPort p
        (.active { a with pos := next, xstate := .idle })))

/-- One iteration of `TxWait` (R109), whatever the environment answers: an `ISR` read; a set `RDC` ends the
wait whatever the budget; else a draw, which on true logs `TIMEOUT_TX` and starts the reset, and on false
polls again. That the log entry is made in the micro-step of the draw is the model's reading (log 19). -/
def Obligations.TxWaitIteration : Prop :=
  ∀ (haddr : Word) (len : Half) (page : Byte) (s : State) (p : Port) (a : Active),
    s.running = some (p, a) →
    (a.pos = .txPoll →
      ∃ (t : State) (v : Byte) (b : Active), exec (.bout haddr len page) s = .next t
        ∧ t.out.cycles = s.out.cycles ++ [s.rd nicIsr v]
        ∧ t.port p = .active b ∧ t.rest = s.rest
        ∧ (v.getLsbD 6 = true → b.pos = .ack) ∧ (v.getLsbD 6 = false → b.pos = .txDraw))
    ∧ (a.pos = .txDraw →
      ∃ (t : State) (b : Active), exec (.bout haddr len page) s = .next t
        ∧ t.out = s.out ∧ t.port p = .active b
        ∧ ((s.drawWait a.locals.wait).1 = true →
            b.pos = .rstRead ∧ t.rest = { s.rest with log := s.log ++ [.timeoutTx p] })
        ∧ ((s.drawWait a.locals.wait).1 = false → b.pos = .txPoll ∧ t.rest = s.rest))

/-- BOUT's handshake with the collaborator (R110). It logs `REINIT` and raises `reinit_req`, and changes nothing
else; that the two are one micro-step is the model's reading (log 19). While BOUT then waits it issues no
cycle and changes no state; when the completion comes it lowers `reinit_req` and goes on to the acknowledge.
That the wait is a poll per micro-step is the model's
choice (log 9). During the wait no move but RST issues a cycle, answers, or changes the block: no request is
accepted (DEDUCED, log 32), and only `EXT_SET_DMAING`, a move of the host agents, writes `dmaing`. (A state in
which both ports are in a recovery does not meet `BlockInv`; log 32.) -/
def Obligations.ReinitWaits : Prop :=
  (∀ (haddr : Word) (len : Half) (page : Byte) (s : State) (p : Port) (a : Active),
    s.running = some (p, a) → a.pos = .reinitReq ∨ a.pos = .reinitWait →
    ∃ t, exec (.bout haddr len page) s = .next t ∧ t.out.cycles = s.out.cycles
      ∧ t.out.responses = s.out.responses ∧ t.preempted = s.preempted
      ∧ t.port (otherPort p) = s.port (otherPort p)
      ∧ (a.pos = .reinitReq →
          t.rest = { s.rest with log := s.log ++ [.reinit p], reinitReq := true } ∧ t.env = s.env
            ∧ t.port p = .active { a with pos := .reinitWait })
      ∧ (a.pos = .reinitWait → s.drawReinit.1 = false → t.rest = s.rest ∧ t.port p = .active a)
      ∧ (a.pos = .reinitWait → s.drawReinit.1 = true →
          t.rest = { s.rest with reinitReq := false } ∧ t.port p = .active { a with pos := .ack }))
  ∧ (∀ (haddr : Word) (len : Half) (page : Byte) (s t : State) (p : Port) (a : Active),
    s.running = some (p, a) → decode a.desc = .ok (.bout haddr len page) → a.pos = .reinitWait →
    step s = .next t → s.nextMove.1 ≠ .rst → s.drawReinit.1 = false →
    (∃ b, t.running = some (p, b) ∧ b.desc = a.desc ∧ b.pos = .reinitWait ∧ b.xstate = a.xstate)
      ∧ t.preempted = s.preempted ∧ t.out.cycles = s.out.cycles ∧ t.out.responses = s.out.responses
      ∧ t.out.reinitReq = s.out.reinitReq ∧ t.regOffset = s.regOffset ∧ t.memrShadow = s.memrShadow
      ∧ t.mgPhase = s.mgPhase ∧ t.mgBitpos = s.mgBitpos ∧ t.mgData = s.mgData ∧ t.mgOwner = s.mgOwner
      ∧ t.fault = s.fault ∧ t.refused = s.refused ∧ t.log = s.log
      ∧ ((∀ v, s.nextMove.1 ≠ .extSetDmaing v) → t.dmaing = s.dmaing))

/-! ### Management interface (43_mgmt_interface.md) -/

/-- `MgEnter` (R28, R115): the first micro-step of each of the eight management requests, unless it is the
re-entry of R133, makes the port the owner, advances the request and changes nothing else; there is no
cycle. -/
def Obligations.MgEnterTakesOwnership : Prop :=
  ∀ (i : Instr) (s : State) (p : Port), isMgmt i = true → AtStart s p →
    ¬ (p = .irq ∧ s.mgOwner = some .task) →
    ∃ (t : State) (b : Active), exec i s = .next t ∧ t.port p = .active b ∧ b.pos ≠ .start
      ∧ (∀ a, s.running = some (p, a) → b = { a with pos := b.pos })
      ∧ t.preempted = s.preempted ∧ t.port (otherPort p) = s.port (otherPort p) ∧ t.out = s.out ∧ t.env = s.env
      ∧ t.rest = { s.rest with mgOwner := some p }

/-- The shift state in a frame (R27, R125-R127). The micro-step that pushes frame bit `n` sets `mg_phase` to the
field of that bit, and `mg_bitpos` to its index where R126 and R127 count (PRE, PHY, REG, DATA; elsewhere it
keeps its value, the model's reading in log 17); MDIOWR loads `mg_data` first; the data samples of MDIORD
enter `mg_data` at bit 0, which starts from 0. The push that turns the direction to input opens TAIL in
MDIOWR and TA in MDIORD; a bit taken in TA or TAIL keeps `mg_bitpos` (log 17), bit `n` of FLUSH makes it `n`.
The later writes and the sample of a bit change neither, and only a DATA sample changes `mg_data`. That the load is a micro-step of its own and the clear is
made with the first cycle of DATA is the model's reading (log 18). -/
def Obligations.FrameShiftState : Prop :=
  (∀ (write : Bool) (phyad regad : BitVec 5) (val : Half) (n : Nat) (s : State) (p : Port) (a : Active),
    s.running = some (p, a) → a.pos = .send n .set → n < (if write then 64 else 46) →
    ∃ t, exec (if write then .mdiowr phyad regad val else .mdiord phyad regad) s = .next t
      ∧ (n < 32 → t.mgPhase = .pre ∧ t.mgBitpos.toNat = n)
      ∧ (32 ≤ n ∧ n < 34 → t.mgPhase = .st ∧ t.mgBitpos = s.mgBitpos)
      ∧ (34 ≤ n ∧ n < 36 → t.mgPhase = .op ∧ t.mgBitpos = s.mgBitpos)
      ∧ (36 ≤ n ∧ n < 41 → t.mgPhase = .phy ∧ t.mgBitpos.toNat = n - 36)
      ∧ (41 ≤ n ∧ n < 46 → t.mgPhase = .reg ∧ t.mgBitpos.toNat = n - 41)
      ∧ (46 ≤ n ∧ n < 48 → t.mgPhase = .ta ∧ t.mgBitpos = s.mgBitpos)
      ∧ (48 ≤ n → t.mgPhase = .data ∧ t.mgBitpos.toNat = n - 48)
      ∧ t.mgData = s.mgData ∧ t.mgOwner = s.mgOwner)
  ∧ (∀ (phyad regad : BitVec 5) (val : Half) (s : State) (p : Port) (a : Active),
    s.running = some (p, a) → a.pos = .mdLoad →
    ∃ t, exec (.mdiowr phyad regad val) s = .next t ∧ t.rest = { s.rest with mgData := val }
      ∧ t.out = s.out)
  ∧ (∀ (phyad regad : BitVec 5) (n : Nat) (s : State) (p : Port) (a : Active),
    s.running = some (p, a) → n < 16 →
    (a.pos = .get .data n .high →
      ∃ t, exec (.mdiord phyad regad) s = .next t ∧ t.mgPhase = .data ∧ t.mgBitpos.toNat = n
        ∧ t.mgData = if n = 0 then 0 else s.mgData)
    ∧ (a.pos = .get .data n .sample →
      ∃ (t : State) (v : Byte), exec (.mdiord phyad regad) s = .next t
        ∧ t.out.cycles = s.out.cycles ++ [s.rd nicMemr v]
        ∧ t.mgData.getLsbD 0 = v.getLsbD 2
        ∧ ∀ k, k < 15 → t.mgData.getLsbD (k + 1) = s.mgData.getLsbD k))
  ∧ (∀ (write : Bool) (phyad regad : BitVec 5) (val : Half) (s : State) (p : Port) (a : Active),
    s.running = some (p, a) →
    (a.pos = .mdIn ∨ (∃ n, a.pos = .get .tail n .high)
        ∨ (∃ n e, e ≠ .set ∧ a.pos = .send n e) ∨ (∃ n e, e ≠ .high ∧ a.pos = .get .tail n e)) →
    ∃ t, exec (if write then .mdiowr phyad regad val else .mdiord phyad regad) s = .next t
      ∧ (a.pos = .mdIn → t.mgPhase = if write then .tail else .ta)
      ∧ (∀ n, a.pos = .get .tail n .high → t.mgPhase = .tail)
      ∧ (∀ n e, e ≠ .set → a.pos = .send n e → t.mgPhase = s.mgPhase)
      ∧ (∀ n e, e ≠ .high → a.pos = .get .tail n e → t.mgPhase = s.mgPhase)
      ∧ t.mgBitpos = s.mgBitpos ∧ t.mgData = s.mgData ∧ t.mgOwner = s.mgOwner)
  ∧ (∀ (phyad regad : BitVec 5) (n : Nat) (s : State) (p : Port) (a : Active),
    s.running = some (p, a) →
    (a.pos = .get .ta n .high →
      ∃ t, exec (.mdiord phyad regad) s = .next t ∧ t.mgPhase = .ta ∧ t.mgBitpos = s.mgBitpos
        ∧ t.mgData = s.mgData ∧ t.mgOwner = s.mgOwner)
    ∧ (a.pos = .get .flush n .high → n < 32 →
      ∃ t, exec (.mdiord phyad regad) s = .next t ∧ t.mgPhase = .flush ∧ t.mgBitpos.toNat = n
        ∧ t.mgData = s.mgData ∧ t.mgOwner = s.mgOwner)
    ∧ (∀ g e, a.pos = .get g n e → e ≠ .high →
      ∃ t, exec (.mdiord phyad regad) s = .next t ∧ t.mgPhase = s.mgPhase ∧ t.mgBitpos = s.mgBitpos
        ∧ t.mgOwner = s.mgOwner ∧ (g ≠ .data ∨ e = .low → t.mgData = s.mgData)))

/-- MDC, MDIR and MDO (R116-R119): one MEMR write of the whole modified shadow, the response (OK, 0), and
only the shadow changes. MDIR's polarity is inverted: 1 clears bit 1. -/
def Obligations.LinePrimitives : Prop :=
  ∀ (lv : Bool) (s : State) (p : Port), AtStart s p → ¬ (p = .irq ∧ s.mgOwner = some .task) →
    (∀ b, b = (if lv then s.memrShadow ||| 0x01 else s.memrShadow &&& ~~~0x01) →
      ∃ t, execN (.mdc lv) 3 s = .next t ∧ Answered s t p [s.wr nicMemr b] (okResponse 0)
        ∧ t.rest = { s.rest.mgLeft with memrShadow := b })
    ∧ (∀ b, b = (if lv then s.memrShadow &&& ~~~0x02 else s.memrShadow ||| 0x02) →
      ∃ t, execN (.mdir lv) 3 s = .next t ∧ Answered s t p [s.wr nicMemr b] (okResponse 0)
        ∧ t.rest = { s.rest.mgLeft with memrShadow := b })
    ∧ (∀ b, b = (if lv then s.memrShadow ||| 0x08 else s.memrShadow &&& ~~~0x08) →
      ∃ t, execN (.mdo lv) 3 s = .next t ∧ Answered s t p [s.wr nicMemr b] (okResponse 0)
        ∧ t.rest = { s.rest.mgLeft with memrShadow := b })

/-- MDI and EERD (R120, R121): one MEMR read `v`; MDI responds with bit 2, EERD with
`{v[4], v[7], v[6], v[5]}`; the shadow is not updated. -/
def Obligations.LineReads : Prop :=
  ∀ (s : State) (p : Port), AtStart s p → ¬ (p = .irq ∧ s.mgOwner = some .task) →
    (∃ (t : State) (v : Byte), execN .mdi 3 s = .next t
      ∧ v.setWidth 32 = (s.drawBus (s.regAddr nicMemr) .w8).1
      ∧ Answered s t p [s.rd nicMemr v] (okResponse (if v.getLsbD 2 then 1 else 0))
      ∧ t.rest = s.rest.mgLeft)
    ∧ (∃ (t : State) (v : Byte) (r : Half), execN .eerd 3 s = .next t
      ∧ v.setWidth 32 = (s.drawBus (s.regAddr nicMemr) .w8).1
      ∧ r.toNat = 8 * (v.getLsbD 4).toNat + 4 * (v.getLsbD 7).toNat + 2 * (v.getLsbD 6).toNat
          + (v.getLsbD 5).toNat
      ∧ Answered s t p [s.rd nicMemr v] (okResponse r)
      ∧ t.rest = s.rest.mgLeft)

/-- EEWR (R122, R123): bits 5, 7 and 4 become `DI`, `CLK` and `CS` of the base byte, its other bits stay.
Under SHADOW the base is the shadow and is updated; under BUS it is a fresh MEMR read and the shadow is
unchanged. The hold is a micro-step without effect. -/
def Obligations.EepromWrite : Prop :=
  ∀ (cs clk di : Bool) (s : State) (p : Port), AtStart s p → ¬ (p = .irq ∧ s.mgOwner = some .task) →
    (s.cfg.eeRmwSource = .shadow →
      ∃ (t : State) (b : Byte), execN (.eewr cs clk di) 4 s = .next t
        ∧ b.getLsbD 4 = cs ∧ b.getLsbD 5 = di ∧ b.getLsbD 7 = clk
        ∧ b &&& 0x4F = s.memrShadow &&& 0x4F
        ∧ Answered s t p [s.wr nicMemr b] (okResponse 0)
        ∧ t.rest = { s.rest.mgLeft with memrShadow := b })
    ∧ (s.cfg.eeRmwSource = .bus →
      ∃ (t : State) (v b : Byte), execN (.eewr cs clk di) 5 s = .next t
        ∧ v.setWidth 32 = (s.drawBus (s.regAddr nicMemr) .w8).1
        ∧ b.getLsbD 4 = cs ∧ b.getLsbD 5 = di ∧ b.getLsbD 7 = clk ∧ b &&& 0x4F = v &&& 0x4F
        ∧ Answered s t p [s.rd nicMemr v, s.wr nicMemr b] (okResponse 0)
        ∧ t.rest = s.rest.mgLeft)

/-- MDIOWR (R124-R126): the direction push, 64 `SendBit`s of the write frame MSB first, the input push and
one discarded `GetBit`: 196 MEMR writes and one read. The response is (OK, 0); only the shadow changes,
bit 1 set and bit 0 clear at the end. The count of 200 micro-steps has the load of `mg_data` as one of its
own, the model's reading (log 18). -/
def Obligations.MdiowrSendsFrame : Prop :=
  ∀ (phyad regad : BitVec 5) (val : Half) (s : State) (p : Port), AtStart s p →
    ¬ (p = .irq ∧ s.mgOwner = some .task) →
    ∀ out last, out = s.memrShadow &&& ~~~0x02 →
      last = sendShadow out (writeFrame phyad regad val) ||| 0x02 →
      ∃ (t : State) (v : Byte), execN (.mdiowr phyad regad val) 200 s = .next t
        ∧ Answered s t p
            (s.wr nicMemr out :: (sendBytes out (writeFrame phyad regad val)).map (s.wr nicMemr)
              ++ [s.wr nicMemr last] ++ getCycles s last v)
            (okResponse 0)
        ∧ t.rest = { s.rest.mgLeft with memrShadow := last &&& ~~~0x01 }

/-- MDIORD whose turnaround samples 0 (R124, R125, R127): the direction push, 46 `SendBit`s, the input
push, then 18 `GetBit`s; the response is (OK, the 16 data samples MSB first). The count of 196 micro-steps has
the clear of `mg_data` in the first cycle of DATA, the model's reading (log 18). -/
def Obligations.MdiordReadsRegister : Prop :=
  ∀ (phyad regad : BitVec 5) (s : State) (p : Port) (ta tail : Word) (data rest : List Word),
    AtStart s p → ¬ (p = .irq ∧ s.mgOwner = some .task) →
    s.env.nic = none → data.length = 16 → s.env.busTape = ta :: (data ++ tail :: rest) →
    ta.getLsbD 2 = false →
    ∀ out last, out = s.memrShadow &&& ~~~0x02 → last = sendShadow out (readFrame phyad regad) ||| 0x02 →
      ∃ t, execN (.mdiord phyad regad) 196 s = .next t
        ∧ Answered s t p
            (s.wr nicMemr out :: (sendBytes out (readFrame phyad regad)).map (s.wr nicMemr)
              ++ [s.wr nicMemr last]
              ++ getAllCycles s last ((ta :: (data ++ [tail])).map (BitVec.setWidth 8)))
            (okResponse (assembleMsbFirst (data.map (fun v => v.getLsbD 2))))
        ∧ t.rest = { s.rest.mgLeft with memrShadow := last &&& ~~~0x01 }

/-- MDIORD whose turnaround samples 1 (R127): 32 further `GetBit`s are clocked and discarded, and the
response is (OK, 0xFFFF): no fault. -/
def Obligations.MdiordTurnaroundFailure : Prop :=
  ∀ (phyad regad : BitVec 5) (s : State) (p : Port) (ta : Word) (flush rest : List Word),
    AtStart s p → ¬ (p = .irq ∧ s.mgOwner = some .task) →
    s.env.nic = none → flush.length = 32 → s.env.busTape = ta :: (flush ++ rest) →
    ta.getLsbD 2 = true →
    ∀ out last, out = s.memrShadow &&& ~~~0x02 → last = sendShadow out (readFrame phyad regad) ||| 0x02 →
      ∃ t, execN (.mdiord phyad regad) 241 s = .next t
        ∧ Answered s t p
            (s.wr nicMemr out :: (sendBytes out (readFrame phyad regad)).map (s.wr nicMemr)
              ++ [s.wr nicMemr last] ++ getAllCycles s last ((ta :: flush).map (BitVec.setWidth 8)))
            (okResponse 0xFFFF)
        ∧ t.rest = { s.rest.mgLeft with memrShadow := last &&& ~~~0x01 }

/-- Clock pulses (R128), counted in the cycles each management request appends to the trace. From a shadow
whose clock bit is clear MDIOWR makes 65 rising edges, 16 of them in its data phase (90_conflicts.md C4), and
MDIORD 64, or 79 when its first sample, the turnaround, is 1. MDC makes one exactly when it sets a clear bit,
MDIR, MDO, MDI and EERD none, EEWR none under SHADOW, and under BUS one exactly when it reads bit 0 as 1 over
a clear bit. (The micro-steps before MDIOWR's data phase count the load of `mg_data`, log 18.) -/
def Obligations.ClockPulses : Prop :=
  ∀ (s : State) (p : Port), AtStart s p → ¬ (p = .irq ∧ s.mgOwner = some .task) →
    (∀ (phyad regad : BitVec 5) (val : Half), s.memrShadow.getLsbD 0 = false →
      ∃ (t a b : State) (cs data : List BusCycle),
        execN (.mdiowr phyad regad val) 200 s = .next t ∧ t.port p = .idle
        ∧ t.out.cycles = s.out.cycles ++ cs ∧ risingEdges false cs = 65
        ∧ execN (.mdiowr phyad regad val) 147 s = .next a
        ∧ (∀ k, k < 48 → ∃ c, execN (.mdiowr phyad regad val) (k + 1) a = .next c ∧ c.mgPhase = .data)
        ∧ execN (.mdiowr phyad regad val) 48 a = .next b
        ∧ (∃ c, exec (.mdiowr phyad regad val) b = .next c ∧ c.mgPhase = .tail)
        ∧ b.out.cycles = a.out.cycles ++ data ∧ risingEdges false data = 16)
    ∧ (∀ phyad regad : BitVec 5, s.memrShadow.getLsbD 0 = false →
      ∃ (n : Nat) (t : State) (cs samples : List BusCycle) (ta : BusCycle),
        execN (.mdiord phyad regad) n s = .next t ∧ t.port p = .idle
        ∧ t.out.cycles = s.out.cycles ++ cs ∧ cs.filter BusCycle.isRead = ta :: samples
        ∧ risingEdges false cs = if ta.value.getLsbD 2 then 79 else 64)
    ∧ (∀ lv : Bool, ∃ (t : State) (cs : List BusCycle),
        execN (.mdc lv) 3 s = .next t ∧ t.port p = .idle ∧ t.out.cycles = s.out.cycles ++ cs
        ∧ risingEdges (s.memrShadow.getLsbD 0) cs
            = if lv = true ∧ s.memrShadow.getLsbD 0 = false then 1 else 0)
    ∧ (∀ i : Instr, (∃ lv, i = .mdir lv ∨ i = .mdo lv) ∨ i = .mdi ∨ i = .eerd →
        ∃ (t : State) (cs : List BusCycle),
          execN i 3 s = .next t ∧ t.port p = .idle ∧ t.out.cycles = s.out.cycles ++ cs
          ∧ risingEdges (s.memrShadow.getLsbD 0) cs = 0)
    ∧ (∀ chip clk di : Bool, ∃ (n : Nat) (t : State) (cs : List BusCycle),
        execN (.eewr chip clk di) n s = .next t ∧ t.port p = .idle ∧ t.out.cycles = s.out.cycles ++ cs
        ∧ (s.cfg.eeRmwSource = .shadow → risingEdges (s.memrShadow.getLsbD 0) cs = 0)
        ∧ (s.cfg.eeRmwSource = .bus → ∃ (v : Byte) (b : BusCycle), cs = [s.rd nicMemr v, b]
            ∧ risingEdges (s.memrShadow.getLsbD 0) cs
              = if v.getLsbD 0 = true ∧ s.memrShadow.getLsbD 0 = false then 1 else 0))

/-! ### Rules of the whole machine -/

/-- Every meaning answers a next state at every position of its pseudocode, whatever the operands, the
locals and the environment (R39, R40, R93). -/
def Obligations.EveryPositionSteps : Prop :=
  ∀ (i : Instr) (s : State) (p : Port) (a : Active), s.running = some (p, a) →
    hasPos i a.pos = true → ∃ t, exec i s = .next t

/-- The invariant holds after reset, and after RST of every configuration that meets R8. -/
def Obligations.ResetMeetsInvariant : Prop :=
  BlockInv State.reset ∧ ∀ c : Config, c.wellFormed = true → BlockInv (State.resetWith c)

/-- Every step keeps the invariant, whichever move it is and whatever the environment answers. -/
def Obligations.StepKeepsInvariant : Prop :=
  ∀ s t : State, BlockInv s → step s = .next t → BlockInv t

/-- From a state that meets the invariant a step answers a next state unless `fault` is set: no meaning
meets a position that is not its own (R39, R43). -/
def Obligations.LiveBlockSteps : Prop :=
  ∀ s : State, BlockInv s → s.fault = none → ∃ t, step s = .next t

/-- The busy flag excludes (R24, R65): a step, whichever move it is, keeps "at most one port is in a
transaction, and then `BUSY` is set", except the micro-step of `ResetProc` that zeroes `dmaing` (R154). -/
def Obligations.TransactionsExclude : Prop :=
  ∀ s t : State, BlockInv s → Exclusive s → step s = .next t →
    (s.nextMove.1 = .micro → ∀ p a, s.running = some (p, a) → a.pos ≠ .rstClear) → Exclusive t

/-- A micro-step keeps the descriptor its request has latched (R37, R66), so the next one decodes the same
request. `xstate` moves only as R113 says, at the positions it names; a request ends with `xstate` IDLE; the
other port's request does not move. -/
def Obligations.XStateMoves : Prop :=
  ∀ (i : Instr) (s t : State) (p : Port) (a : Active), s.running = some (p, a) →
    decode a.desc = .ok i → portOk s.cfg (.active a) = true → exec i s = .next t →
    (∀ b, t.port p = .active b → b.desc = a.desc ∧ XStep a.pos a.xstate b.xstate)
    ∧ (t.port p = .idle → a.xstate = .idle)
    ∧ t.port (otherPort p) = s.port (otherPort p)

/-- Who writes `dmaing` (R24, R114): only GETHDR, BIN and BOUT set bit 0, and only from 0x00; only they
clear bit 0; only RESET and BOUT's recovery write the whole register to 0, at the micro-step of `ResetProc`
that does so (R111). -/
def Obligations.DmaingWriters : Prop :=
  ∀ (i : Instr) (s t : State), exec i s = .next t →
    t.dmaing = s.dmaing
    ∨ (isDma i = true ∧ s.dmaing = 0x00 ∧ t.dmaing = 0x01)
    ∨ (isDma i = true ∧ t.dmaing = s.dmaing &&& ~~~0x01)
    ∨ ((i = .reset ∨ ∃ haddr len page, i = .bout haddr len page) ∧ t.dmaing = 0x00
        ∧ ∃ p a, s.running = some (p, a) ∧ a.pos = .rstClear)

/-- A step issues at most one card-bus cycle and delivers at most one response; it never takes one back
(R40, R61, R62). -/
def Obligations.OneCyclePerStep : Prop :=
  ∀ s t : State, step s = .next t →
    (t.out.cycles = s.out.cycles ∨ ∃ c, t.out.cycles = s.out.cycles ++ [c])
    ∧ (t.out.responses = s.out.responses ∨ ∃ r, t.out.responses = s.out.responses ++ [r])

/-- "The block issues no cycle outside the register range and the two windows" (R52), each at its width
(R54, R55), and with aligned offsets every cycle is at a multiple of 4 (R56). -/
def Obligations.CyclesOnTheBoard : Prop :=
  ∀ (s t : State) (c : BusCycle), BlockInv s → step s = .next t → t.out.cycles = s.out.cycles ++ [c] →
    OnBoard s c ∧ (s.cfg.aligned = true → c.addr.toNat % 4 = 0)

/-- The cycles of each request (R59): RD8 and WR8 issue 8-bit cycles, RD16 and WR16 16-bit ones; the eight
management requests 8-bit cycles at `MEMR`; RESET 8-bit cycles; WBLK only writes and RBLK only reads; GETHDR,
BIN and BOUT 8-bit register cycles, plus the bridge's cycles at its own positions. -/
def Obligations.AccessWidths : Prop :=
  ∀ (i : Instr) (s t : State) (p : Port) (a : Active) (c : BusCycle), s.running = some (p, a) →
    exec i s = .next t → t.out.cycles = s.out.cycles ++ [c] →
    ((∃ idx, i = .rd8 idx) ∨ (∃ idx v, i = .wr8 idx v) ∨ i = .reset → c.width = .w8)
    ∧ ((∃ idx, i = .rd16 idx) ∨ (∃ idx v, i = .wr16 idx v) → c.width = .w16)
    ∧ (isMgmt i = true → c.addr = s.regAddr nicMemr ∧ c.width = .w8)
    ∧ (∀ haddr len, i = .wblk haddr len → c.isRead = false ∧ ∃ u, a.pos = .bus u ∧ c.width = u.width)
    ∧ (∀ haddr len, i = .rblk haddr len → c.isRead = true ∧ ∃ u, a.pos = .bus u ∧ c.width = u.width)
    ∧ (isDma i = true → c.width = .w8 ∧ (∃ k, c.addr = s.regAddr k)
        ∨ ∃ u, a.pos = .bus u ∧ c.width = u.width)

/-- The frame of host memory: only RBLK, GETHDR and BIN write it; at a host access they write exactly the
bytes from the transfer's host address on; GETHDR's rewrite writes `[HADDR+2, HADDR+4)`; at every other
position they write none (R63, R91, R104). -/
def Obligations.HostMemoryFrame : Prop :=
  ∀ (i : Instr) (s t : State) (p : Port) (a : Active), s.running = some (p, a) → exec i s = .next t →
    (storesToHost i = false → t.mem = s.mem)
    ∧ (∀ u, a.pos = .host u → a.locals.xfer.hostAddr u + a.locals.bytes.length ≤ 2 ^ 32 →
        ∀ j, j < 2 ^ 32 →
          j < a.locals.xfer.hostAddr u ∨ a.locals.xfer.hostAddr u + a.locals.bytes.length ≤ j →
          t.mem.read j = s.mem.read j)
    ∧ (∀ haddr page, i = .gethdr haddr page → a.pos = .swap → haddr.toNat + 4 ≤ 2 ^ 32 →
        ∀ j, j < 2 ^ 32 → j < haddr.toNat + 2 ∨ haddr.toNat + 4 ≤ j → t.mem.read j = s.mem.read j)
    ∧ ((∀ u, a.pos ≠ .host u) → a.pos ≠ .swap → t.mem = s.mem)

/-- The frame of the block's registers (R22, R26, R47, R49): no micro-step writes the configuration,
`reg_offset` or `refused`; only management requests write the shadow and the shift state, MDI and EERD
not the shadow; only the DMA requests and RESET write `dmaing`; only BOUT drives `reinit_req`; a fault is
set at a first micro-step only. -/
def Obligations.RegisterFrame : Prop :=
  ∀ (i : Instr) (s t : State) (p : Port) (a : Active), s.running = some (p, a) → exec i s = .next t →
    t.cfg = s.cfg ∧ t.regOffset = s.regOffset ∧ t.refused = s.refused
    ∧ t.env.moves = s.env.moves ∧ (∀ q, t.presented q = s.presented q)
    ∧ (isMgmt i = false →
        t.memrShadow = s.memrShadow ∧ t.mgPhase = s.mgPhase ∧ t.mgBitpos = s.mgBitpos
        ∧ t.mgData = s.mgData ∧ t.mgOwner = s.mgOwner)
    ∧ (i = .mdi ∨ i = .eerd → t.memrShadow = s.memrShadow)
    ∧ (isDma i = false → i ≠ .reset → t.dmaing = s.dmaing)
    ∧ ((∀ haddr len page, i ≠ .bout haddr len page) → t.out.reinitReq = s.out.reinitReq)
    ∧ (a.pos ≠ .start → t.fault = s.fault)

/-- Every response is one of R41 and R129's table: an OK response has code NONE, TIMEOUT_TX or TIMEOUT_RESET, a
CONFLICT has DMA_CONFLICT, a FAULT has REG_RANGE, COUNT_OVERFLOW, MGMT_REENTRY or HOST_RANGE, a REFUSED has
UNKNOWN_OP or RESERVED_BITS, each with its 8-bit code; a response that is not OK carries the value 0. -/
def Obligations.ResponsesMatchTable : Prop :=
  (∀ (s t : State) (p : Port) (r : Response), step s = .next t →
    t.out.responses = s.out.responses ++ [(p, r)] →
    (r.status = .ok ∧ (r.code = .none ∨ r.code = .timeoutTx ∨ r.code = .timeoutReset)
      ∨ r.status = .conflict ∧ r.code = .dmaConflict ∧ r.value = 0
      ∨ r.status = .fault ∧ r.value = 0 ∧ (r.code = .regRange ∨ r.code = .countOverflow
          ∨ r.code = .mgmtReentry ∨ r.code = .hostRange)
      ∨ r.status = .refused ∧ r.value = 0 ∧ (r.code = .unknownOp ∨ r.code = .reservedBits)))
  ∧ ([Code.none, .unknownOp, .reservedBits, .regRange, .countOverflow, .mgmtReentry, .hostRange,
      .dmaConflict, .timeoutTx, .timeoutReset, .reinit].map codeBits
      = [0x00, 0x01, 0x02, 0x03, 0x04, 0x05, 0x06, 0x10, 0x20, 0x21, 0x30])

/-- The log only grows, `refused` is never cleared and nothing sent is taken back, in every step but RST
(R42, R43). -/
def Obligations.HistoryOnlyGrows : Prop :=
  ∀ s t : State, step s = .next t → s.nextMove.1 ≠ .rst →
    s.log <+: t.log ∧ (s.refused = true → t.refused = true)
    ∧ s.out.cycles <+: t.out.cycles ∧ s.out.responses <+: t.out.responses

/-- Races with another host agent (R63; that they are draws of the host-memory port, the model's choice,
log 13). A byte it writes in the buffer of a request in progress becomes a draw, and the request remembers
its address; any other byte it writes has the value written. A byte it reads in the buffer of an RBLK, BIN or
GETHDR in progress is a draw too; any other byte it reads is the memory's. When the request moves bytes, onto
the card bus, into host memory or in GETHDR's rewrite, each remembered one is a draw, the next one in address
order, and each other one is moved as it is (`movedByte`). -/
def Obligations.RacedBytesAreDraws : Prop :=
  (∀ (s : State) (a : Nat) (b : Byte), a < 2 ^ 32 → s.mem.wf = true →
    (inBuffer s.cfg a s.portTask = true ∨ inBuffer s.cfg a s.portIrq = true →
      (s.hostStore a [b]).mem.read a = s.drawHost.1)
    ∧ (inBuffer s.cfg a s.portTask = false ∧ inBuffer s.cfg a s.portIrq = false →
      (s.hostStore a [b]).mem.read a = b)
    ∧ (∀ j, j < 2 ^ 32 → j ≠ a → (s.hostStore a [b]).mem.read j = s.mem.read j)
    ∧ (∀ p act, s.port p = .active act → inBuffer s.cfg a (s.port p) = true →
        ∃ l, (s.hostStore a [b]).port p = .active { act with locals := l } ∧ a ∈ l.raced
          ∧ l = { act.locals with raced := l.raced }))
  ∧ (∀ (s : State) (a : Nat), a < 2 ^ 32 → s.mem.wf = true →
    ((∃ p act i, s.port p = .active act ∧ decode act.desc = .ok i ∧ storesToHost i = true
        ∧ inBuffer s.cfg a (s.port p) = true) →
      (s.hostLoad a 1).out.agentReads = s.out.agentReads ++ [(a, [s.drawHost.1])]
      ∧ (s.hostLoad a 1).mem.read a = s.drawHost.1)
    ∧ ((∀ p act i, s.port p = .active act → decode act.desc = .ok i → storesToHost i = true →
        inBuffer s.cfg a (s.port p) = false) →
      (s.hostLoad a 1).out.agentReads = s.out.agentReads ++ [(a, [s.mem.read a])]
      ∧ (s.hostLoad a 1).rest = s.rest))
  ∧ (∀ (i : Instr) (s t : State) (p : Port) (a : Active) (u : BUnit),
    s.running = some (p, a) → exec i s = .next t →
    (a.pos = .bus u → a.locals.bytes.length = u.size →
      ((∃ haddr len, i = .wblk haddr len) ∨ ∃ haddr len page, i = .bout haddr len page) →
      ∃ c, t.out.cycles = s.out.cycles ++ [c]
        ∧ c.bytes s.cfg.hostBigEndian
          = (List.range u.size).map
              (s.movedByte a.locals.raced (a.locals.xfer.hostAddr u) a.locals.bytes))
    ∧ (a.pos = .host u → storesToHost i = true → s.mem.wf = true →
      a.locals.xfer.hostAddr u + a.locals.bytes.length ≤ 2 ^ 32 →
      ∀ k, k < a.locals.bytes.length →
        t.mem.read (a.locals.xfer.hostAddr u + k)
          = s.movedByte a.locals.raced (a.locals.xfer.hostAddr u) a.locals.bytes k)
    ∧ (∀ haddr page, i = .gethdr haddr page → a.pos = .swap → s.mem.wf = true →
      haddr.toNat + 4 ≤ 2 ^ 32 →
      ∀ k, k < 2 → t.mem.read (haddr.toNat + 2 + k)
        = s.movedByte a.locals.raced (haddr.toNat + 2)
            [headerByte a.locals.header 3, headerByte a.locals.header 2] k))

/-- The draws of a bounded wait (R45; the count of false draws, log 8). A wait with `n` false draws left
answers true exactly when `n` is 0, and then has `n - 1` left; at its first draw the time base settles the
count. So a wait that has answered true answers true ever after, whatever the state; and in every execution
a request whose wait loop is never left polls only finitely often: some draw is true. RESET therefore always
responds, and BOUT responds or comes to wait for the collaborator (R109-R112). -/
def Obligations.ExpiredMonotoneAndFair : Prop :=
  (∀ (s : State) (l : Locals) (k : WaitKind),
    (∀ n, l.wait = some ⟨k, some n⟩ →
      (s.drawFor l).1 = decide (n = 0) ∧ (s.drawFor l).2.2 = { l with wait := some ⟨k, some (n - 1)⟩ })
    ∧ (l.wait = some ⟨k, none⟩ → ∃ n,
      (s.drawFor l).1 = decide (n = 0) ∧ (s.drawFor l).2.2 = { l with wait := some ⟨k, some (n - 1)⟩ }
      ∧ ∀ m more, s.env.expiredTape = m :: more → n = m))
  ∧ (∀ (s t : State) (l : Locals), l.wait ≠ none → (s.drawFor l).1 = true →
    (t.drawFor (s.drawFor l).2.2).1 = true)
  ∧ (∀ (run : Nat → State) (p : Port), (∀ k, step (run k) = .next (run (k + 1))) →
    ∀ n, (∀ k, n ≤ k → inWaitLoop ((run k).port p) = true) → ∃ m, ∀ k, m ≤ k → ¬ (run k).polls p)
  ∧ (∀ (s : State) (p : Port), AtStart s p →
    ∃ n t, execN .reset n s = .next t ∧ t.port p = .idle)
  ∧ (∀ (haddr : Word) (len : Half) (page : Byte) (s : State) (p : Port), AtStart s p →
    s.cfg.winSizeOk = true →
    ∃ n t, execN (.bout haddr len page) n s = .next t
      ∧ (t.port p = .idle ∨ ∃ a, t.port p = .active a ∧ a.pos = .reinitWait))
end

