-- ==== Sys2Proof/Laws/State.lean ====
section
/-!
SUPPORT. One lemma per field per update of the state, and how each update meets `setPort`, `running` and
`rest`.
-/

namespace Sys2Proof.Machine

open Sys2Proof

variable (s : State)

/-! ### `withDmaing` -/

@[simp] theorem withDmaing_cfg (v : Byte) : (s.withDmaing v).cfg = s.cfg := rfl
@[simp] theorem withDmaing_regOffset (v : Byte) : (s.withDmaing v).regOffset = s.regOffset := rfl
@[simp] theorem withDmaing_dmaing (v : Byte) : (s.withDmaing v).dmaing = v := rfl
@[simp] theorem withDmaing_memrShadow (v : Byte) : (s.withDmaing v).memrShadow = s.memrShadow := rfl
@[simp] theorem withDmaing_mgPhase (v : Byte) : (s.withDmaing v).mgPhase = s.mgPhase := rfl
@[simp] theorem withDmaing_mgBitpos (v : Byte) : (s.withDmaing v).mgBitpos = s.mgBitpos := rfl
@[simp] theorem withDmaing_mgData (v : Byte) : (s.withDmaing v).mgData = s.mgData := rfl
@[simp] theorem withDmaing_mgOwner (v : Byte) : (s.withDmaing v).mgOwner = s.mgOwner := rfl
@[simp] theorem withDmaing_portTask (v : Byte) : (s.withDmaing v).portTask = s.portTask := rfl
@[simp] theorem withDmaing_portIrq (v : Byte) : (s.withDmaing v).portIrq = s.portIrq := rfl
@[simp] theorem withDmaing_preempted (v : Byte) : (s.withDmaing v).preempted = s.preempted := rfl
@[simp] theorem withDmaing_fault (v : Byte) : (s.withDmaing v).fault = s.fault := rfl
@[simp] theorem withDmaing_refused (v : Byte) : (s.withDmaing v).refused = s.refused := rfl
@[simp] theorem withDmaing_log (v : Byte) : (s.withDmaing v).log = s.log := rfl
@[simp] theorem withDmaing_mem (v : Byte) : (s.withDmaing v).mem = s.mem := rfl
@[simp] theorem withDmaing_env (v : Byte) : (s.withDmaing v).env = s.env := rfl
@[simp] theorem withDmaing_out (v : Byte) : (s.withDmaing v).out = s.out := rfl

/-! ### `withShadow` -/

@[simp] theorem withShadow_cfg (v : Byte) : (s.withShadow v).cfg = s.cfg := rfl
@[simp] theorem withShadow_regOffset (v : Byte) : (s.withShadow v).regOffset = s.regOffset := rfl
@[simp] theorem withShadow_dmaing (v : Byte) : (s.withShadow v).dmaing = s.dmaing := rfl
@[simp] theorem withShadow_memrShadow (v : Byte) : (s.withShadow v).memrShadow = v := rfl
@[simp] theorem withShadow_mgPhase (v : Byte) : (s.withShadow v).mgPhase = s.mgPhase := rfl
@[simp] theorem withShadow_mgBitpos (v : Byte) : (s.withShadow v).mgBitpos = s.mgBitpos := rfl
@[simp] theorem withShadow_mgData (v : Byte) : (s.withShadow v).mgData = s.mgData := rfl
@[simp] theorem withShadow_mgOwner (v : Byte) : (s.withShadow v).mgOwner = s.mgOwner := rfl
@[simp] theorem withShadow_portTask (v : Byte) : (s.withShadow v).portTask = s.portTask := rfl
@[simp] theorem withShadow_portIrq (v : Byte) : (s.withShadow v).portIrq = s.portIrq := rfl
@[simp] theorem withShadow_preempted (v : Byte) : (s.withShadow v).preempted = s.preempted := rfl
@[simp] theorem withShadow_fault (v : Byte) : (s.withShadow v).fault = s.fault := rfl
@[simp] theorem withShadow_refused (v : Byte) : (s.withShadow v).refused = s.refused := rfl
@[simp] theorem withShadow_log (v : Byte) : (s.withShadow v).log = s.log := rfl
@[simp] theorem withShadow_mem (v : Byte) : (s.withShadow v).mem = s.mem := rfl
@[simp] theorem withShadow_env (v : Byte) : (s.withShadow v).env = s.env := rfl
@[simp] theorem withShadow_out (v : Byte) : (s.withShadow v).out = s.out := rfl

/-! ### `withMgPhase` -/

@[simp] theorem withMgPhase_cfg (v : MgPhase) : (s.withMgPhase v).cfg = s.cfg := rfl
@[simp] theorem withMgPhase_regOffset (v : MgPhase) : (s.withMgPhase v).regOffset = s.regOffset := rfl
@[simp] theorem withMgPhase_dmaing (v : MgPhase) : (s.withMgPhase v).dmaing = s.dmaing := rfl
@[simp] theorem withMgPhase_memrShadow (v : MgPhase) : (s.withMgPhase v).memrShadow = s.memrShadow := rfl
@[simp] theorem withMgPhase_mgPhase (v : MgPhase) : (s.withMgPhase v).mgPhase = v := rfl
@[simp] theorem withMgPhase_mgBitpos (v : MgPhase) : (s.withMgPhase v).mgBitpos = s.mgBitpos := rfl
@[simp] theorem withMgPhase_mgData (v : MgPhase) : (s.withMgPhase v).mgData = s.mgData := rfl
@[simp] theorem withMgPhase_mgOwner (v : MgPhase) : (s.withMgPhase v).mgOwner = s.mgOwner := rfl
@[simp] theorem withMgPhase_portTask (v : MgPhase) : (s.withMgPhase v).portTask = s.portTask := rfl
@[simp] theorem withMgPhase_portIrq (v : MgPhase) : (s.withMgPhase v).portIrq = s.portIrq := rfl
@[simp] theorem withMgPhase_preempted (v : MgPhase) : (s.withMgPhase v).preempted = s.preempted := rfl
@[simp] theorem withMgPhase_fault (v : MgPhase) : (s.withMgPhase v).fault = s.fault := rfl
@[simp] theorem withMgPhase_refused (v : MgPhase) : (s.withMgPhase v).refused = s.refused := rfl
@[simp] theorem withMgPhase_log (v : MgPhase) : (s.withMgPhase v).log = s.log := rfl
@[simp] theorem withMgPhase_mem (v : MgPhase) : (s.withMgPhase v).mem = s.mem := rfl
@[simp] theorem withMgPhase_env (v : MgPhase) : (s.withMgPhase v).env = s.env := rfl
@[simp] theorem withMgPhase_out (v : MgPhase) : (s.withMgPhase v).out = s.out := rfl

/-! ### `withMgBitpos` -/

@[simp] theorem withMgBitpos_cfg (v : BitVec 5) : (s.withMgBitpos v).cfg = s.cfg := rfl
@[simp] theorem withMgBitpos_regOffset (v : BitVec 5) : (s.withMgBitpos v).regOffset = s.regOffset := rfl
@[simp] theorem withMgBitpos_dmaing (v : BitVec 5) : (s.withMgBitpos v).dmaing = s.dmaing := rfl
@[simp] theorem withMgBitpos_memrShadow (v : BitVec 5) : (s.withMgBitpos v).memrShadow = s.memrShadow := rfl
@[simp] theorem withMgBitpos_mgPhase (v : BitVec 5) : (s.withMgBitpos v).mgPhase = s.mgPhase := rfl
@[simp] theorem withMgBitpos_mgBitpos (v : BitVec 5) : (s.withMgBitpos v).mgBitpos = v := rfl
@[simp] theorem withMgBitpos_mgData (v : BitVec 5) : (s.withMgBitpos v).mgData = s.mgData := rfl
@[simp] theorem withMgBitpos_mgOwner (v : BitVec 5) : (s.withMgBitpos v).mgOwner = s.mgOwner := rfl
@[simp] theorem withMgBitpos_portTask (v : BitVec 5) : (s.withMgBitpos v).portTask = s.portTask := rfl
@[simp] theorem withMgBitpos_portIrq (v : BitVec 5) : (s.withMgBitpos v).portIrq = s.portIrq := rfl
@[simp] theorem withMgBitpos_preempted (v : BitVec 5) : (s.withMgBitpos v).preempted = s.preempted := rfl
@[simp] theorem withMgBitpos_fault (v : BitVec 5) : (s.withMgBitpos v).fault = s.fault := rfl
@[simp] theorem withMgBitpos_refused (v : BitVec 5) : (s.withMgBitpos v).refused = s.refused := rfl
@[simp] theorem withMgBitpos_log (v : BitVec 5) : (s.withMgBitpos v).log = s.log := rfl
@[simp] theorem withMgBitpos_mem (v : BitVec 5) : (s.withMgBitpos v).mem = s.mem := rfl
@[simp] theorem withMgBitpos_env (v : BitVec 5) : (s.withMgBitpos v).env = s.env := rfl
@[simp] theorem withMgBitpos_out (v : BitVec 5) : (s.withMgBitpos v).out = s.out := rfl

/-! ### `withMgData` -/

@[simp] theorem withMgData_cfg (v : Half) : (s.withMgData v).cfg = s.cfg := rfl
@[simp] theorem withMgData_regOffset (v : Half) : (s.withMgData v).regOffset = s.regOffset := rfl
@[simp] theorem withMgData_dmaing (v : Half) : (s.withMgData v).dmaing = s.dmaing := rfl
@[simp] theorem withMgData_memrShadow (v : Half) : (s.withMgData v).memrShadow = s.memrShadow := rfl
@[simp] theorem withMgData_mgPhase (v : Half) : (s.withMgData v).mgPhase = s.mgPhase := rfl
@[simp] theorem withMgData_mgBitpos (v : Half) : (s.withMgData v).mgBitpos = s.mgBitpos := rfl
@[simp] theorem withMgData_mgData (v : Half) : (s.withMgData v).mgData = v := rfl
@[simp] theorem withMgData_mgOwner (v : Half) : (s.withMgData v).mgOwner = s.mgOwner := rfl
@[simp] theorem withMgData_portTask (v : Half) : (s.withMgData v).portTask = s.portTask := rfl
@[simp] theorem withMgData_portIrq (v : Half) : (s.withMgData v).portIrq = s.portIrq := rfl
@[simp] theorem withMgData_preempted (v : Half) : (s.withMgData v).preempted = s.preempted := rfl
@[simp] theorem withMgData_fault (v : Half) : (s.withMgData v).fault = s.fault := rfl
@[simp] theorem withMgData_refused (v : Half) : (s.withMgData v).refused = s.refused := rfl
@[simp] theorem withMgData_log (v : Half) : (s.withMgData v).log = s.log := rfl
@[simp] theorem withMgData_mem (v : Half) : (s.withMgData v).mem = s.mem := rfl
@[simp] theorem withMgData_env (v : Half) : (s.withMgData v).env = s.env := rfl
@[simp] theorem withMgData_out (v : Half) : (s.withMgData v).out = s.out := rfl

/-! ### `withMgOwner` -/

@[simp] theorem withMgOwner_cfg (v : Option Port) : (s.withMgOwner v).cfg = s.cfg := rfl
@[simp] theorem withMgOwner_regOffset (v : Option Port) : (s.withMgOwner v).regOffset = s.regOffset := rfl
@[simp] theorem withMgOwner_dmaing (v : Option Port) : (s.withMgOwner v).dmaing = s.dmaing := rfl
@[simp] theorem withMgOwner_memrShadow (v : Option Port) : (s.withMgOwner v).memrShadow = s.memrShadow := rfl
@[simp] theorem withMgOwner_mgPhase (v : Option Port) : (s.withMgOwner v).mgPhase = s.mgPhase := rfl
@[simp] theorem withMgOwner_mgBitpos (v : Option Port) : (s.withMgOwner v).mgBitpos = s.mgBitpos := rfl
@[simp] theorem withMgOwner_mgData (v : Option Port) : (s.withMgOwner v).mgData = s.mgData := rfl
@[simp] theorem withMgOwner_mgOwner (v : Option Port) : (s.withMgOwner v).mgOwner = v := rfl
@[simp] theorem withMgOwner_portTask (v : Option Port) : (s.withMgOwner v).portTask = s.portTask := rfl
@[simp] theorem withMgOwner_portIrq (v : Option Port) : (s.withMgOwner v).portIrq = s.portIrq := rfl
@[simp] theorem withMgOwner_preempted (v : Option Port) : (s.withMgOwner v).preempted = s.preempted := rfl
@[simp] theorem withMgOwner_fault (v : Option Port) : (s.withMgOwner v).fault = s.fault := rfl
@[simp] theorem withMgOwner_refused (v : Option Port) : (s.withMgOwner v).refused = s.refused := rfl
@[simp] theorem withMgOwner_log (v : Option Port) : (s.withMgOwner v).log = s.log := rfl
@[simp] theorem withMgOwner_mem (v : Option Port) : (s.withMgOwner v).mem = s.mem := rfl
@[simp] theorem withMgOwner_env (v : Option Port) : (s.withMgOwner v).env = s.env := rfl
@[simp] theorem withMgOwner_out (v : Option Port) : (s.withMgOwner v).out = s.out := rfl

/-! ### `withPreempted` -/

@[simp] theorem withPreempted_cfg (v : Bool) : (s.withPreempted v).cfg = s.cfg := rfl
@[simp] theorem withPreempted_regOffset (v : Bool) : (s.withPreempted v).regOffset = s.regOffset := rfl
@[simp] theorem withPreempted_dmaing (v : Bool) : (s.withPreempted v).dmaing = s.dmaing := rfl
@[simp] theorem withPreempted_memrShadow (v : Bool) : (s.withPreempted v).memrShadow = s.memrShadow := rfl
@[simp] theorem withPreempted_mgPhase (v : Bool) : (s.withPreempted v).mgPhase = s.mgPhase := rfl
@[simp] theorem withPreempted_mgBitpos (v : Bool) : (s.withPreempted v).mgBitpos = s.mgBitpos := rfl
@[simp] theorem withPreempted_mgData (v : Bool) : (s.withPreempted v).mgData = s.mgData := rfl
@[simp] theorem withPreempted_mgOwner (v : Bool) : (s.withPreempted v).mgOwner = s.mgOwner := rfl
@[simp] theorem withPreempted_portTask (v : Bool) : (s.withPreempted v).portTask = s.portTask := rfl
@[simp] theorem withPreempted_portIrq (v : Bool) : (s.withPreempted v).portIrq = s.portIrq := rfl
@[simp] theorem withPreempted_preempted (v : Bool) : (s.withPreempted v).preempted = v := rfl
@[simp] theorem withPreempted_fault (v : Bool) : (s.withPreempted v).fault = s.fault := rfl
@[simp] theorem withPreempted_refused (v : Bool) : (s.withPreempted v).refused = s.refused := rfl
@[simp] theorem withPreempted_log (v : Bool) : (s.withPreempted v).log = s.log := rfl
@[simp] theorem withPreempted_mem (v : Bool) : (s.withPreempted v).mem = s.mem := rfl
@[simp] theorem withPreempted_env (v : Bool) : (s.withPreempted v).env = s.env := rfl
@[simp] theorem withPreempted_out (v : Bool) : (s.withPreempted v).out = s.out := rfl

/-! ### `withFault` -/

@[simp] theorem withFault_cfg (v : Option (Code × Info)) : (s.withFault v).cfg = s.cfg := rfl
@[simp] theorem withFault_regOffset (v : Option (Code × Info)) : (s.withFault v).regOffset = s.regOffset := rfl
@[simp] theorem withFault_dmaing (v : Option (Code × Info)) : (s.withFault v).dmaing = s.dmaing := rfl
@[simp] theorem withFault_memrShadow (v : Option (Code × Info)) : (s.withFault v).memrShadow = s.memrShadow := rfl
@[simp] theorem withFault_mgPhase (v : Option (Code × Info)) : (s.withFault v).mgPhase = s.mgPhase := rfl
@[simp] theorem withFault_mgBitpos (v : Option (Code × Info)) : (s.withFault v).mgBitpos = s.mgBitpos := rfl
@[simp] theorem withFault_mgData (v : Option (Code × Info)) : (s.withFault v).mgData = s.mgData := rfl
@[simp] theorem withFault_mgOwner (v : Option (Code × Info)) : (s.withFault v).mgOwner = s.mgOwner := rfl
@[simp] theorem withFault_portTask (v : Option (Code × Info)) : (s.withFault v).portTask = s.portTask := rfl
@[simp] theorem withFault_portIrq (v : Option (Code × Info)) : (s.withFault v).portIrq = s.portIrq := rfl
@[simp] theorem withFault_preempted (v : Option (Code × Info)) : (s.withFault v).preempted = s.preempted := rfl
@[simp] theorem withFault_fault (v : Option (Code × Info)) : (s.withFault v).fault = v := rfl
@[simp] theorem withFault_refused (v : Option (Code × Info)) : (s.withFault v).refused = s.refused := rfl
@[simp] theorem withFault_log (v : Option (Code × Info)) : (s.withFault v).log = s.log := rfl
@[simp] theorem withFault_mem (v : Option (Code × Info)) : (s.withFault v).mem = s.mem := rfl
@[simp] theorem withFault_env (v : Option (Code × Info)) : (s.withFault v).env = s.env := rfl
@[simp] theorem withFault_out (v : Option (Code × Info)) : (s.withFault v).out = s.out := rfl

/-! ### `withRefused` -/

@[simp] theorem withRefused_cfg (v : Bool) : (s.withRefused v).cfg = s.cfg := rfl
@[simp] theorem withRefused_regOffset (v : Bool) : (s.withRefused v).regOffset = s.regOffset := rfl
@[simp] theorem withRefused_dmaing (v : Bool) : (s.withRefused v).dmaing = s.dmaing := rfl
@[simp] theorem withRefused_memrShadow (v : Bool) : (s.withRefused v).memrShadow = s.memrShadow := rfl
@[simp] theorem withRefused_mgPhase (v : Bool) : (s.withRefused v).mgPhase = s.mgPhase := rfl
@[simp] theorem withRefused_mgBitpos (v : Bool) : (s.withRefused v).mgBitpos = s.mgBitpos := rfl
@[simp] theorem withRefused_mgData (v : Bool) : (s.withRefused v).mgData = s.mgData := rfl
@[simp] theorem withRefused_mgOwner (v : Bool) : (s.withRefused v).mgOwner = s.mgOwner := rfl
@[simp] theorem withRefused_portTask (v : Bool) : (s.withRefused v).portTask = s.portTask := rfl
@[simp] theorem withRefused_portIrq (v : Bool) : (s.withRefused v).portIrq = s.portIrq := rfl
@[simp] theorem withRefused_preempted (v : Bool) : (s.withRefused v).preempted = s.preempted := rfl
@[simp] theorem withRefused_fault (v : Bool) : (s.withRefused v).fault = s.fault := rfl
@[simp] theorem withRefused_refused (v : Bool) : (s.withRefused v).refused = v := rfl
@[simp] theorem withRefused_log (v : Bool) : (s.withRefused v).log = s.log := rfl
@[simp] theorem withRefused_mem (v : Bool) : (s.withRefused v).mem = s.mem := rfl
@[simp] theorem withRefused_env (v : Bool) : (s.withRefused v).env = s.env := rfl
@[simp] theorem withRefused_out (v : Bool) : (s.withRefused v).out = s.out := rfl

/-! ### `answerAgent` -/

@[simp] theorem answerAgent_cfg (a : Nat) (b : List Byte) : (s.answerAgent a b).cfg = s.cfg := rfl
@[simp] theorem answerAgent_regOffset (a : Nat) (b : List Byte) : (s.answerAgent a b).regOffset = s.regOffset := rfl
@[simp] theorem answerAgent_dmaing (a : Nat) (b : List Byte) : (s.answerAgent a b).dmaing = s.dmaing := rfl
@[simp] theorem answerAgent_memrShadow (a : Nat) (b : List Byte) : (s.answerAgent a b).memrShadow = s.memrShadow := rfl
@[simp] theorem answerAgent_mgPhase (a : Nat) (b : List Byte) : (s.answerAgent a b).mgPhase = s.mgPhase := rfl
@[simp] theorem answerAgent_mgBitpos (a : Nat) (b : List Byte) : (s.answerAgent a b).mgBitpos = s.mgBitpos := rfl
@[simp] theorem answerAgent_mgData (a : Nat) (b : List Byte) : (s.answerAgent a b).mgData = s.mgData := rfl
@[simp] theorem answerAgent_mgOwner (a : Nat) (b : List Byte) : (s.answerAgent a b).mgOwner = s.mgOwner := rfl
@[simp] theorem answerAgent_portTask (a : Nat) (b : List Byte) : (s.answerAgent a b).portTask = s.portTask := rfl
@[simp] theorem answerAgent_portIrq (a : Nat) (b : List Byte) : (s.answerAgent a b).portIrq = s.portIrq := rfl
@[simp] theorem answerAgent_preempted (a : Nat) (b : List Byte) : (s.answerAgent a b).preempted = s.preempted := rfl
@[simp] theorem answerAgent_fault (a : Nat) (b : List Byte) : (s.answerAgent a b).fault = s.fault := rfl
@[simp] theorem answerAgent_refused (a : Nat) (b : List Byte) : (s.answerAgent a b).refused = s.refused := rfl
@[simp] theorem answerAgent_log (a : Nat) (b : List Byte) : (s.answerAgent a b).log = s.log := rfl
@[simp] theorem answerAgent_mem (a : Nat) (b : List Byte) : (s.answerAgent a b).mem = s.mem := rfl
@[simp] theorem answerAgent_env (a : Nat) (b : List Byte) : (s.answerAgent a b).env = s.env := rfl
@[simp] theorem answerAgent_agentReads (a : Nat) (b : List Byte) :
    (s.answerAgent a b).out.agentReads = s.out.agentReads ++ [(a, b)] := rfl
@[simp] theorem answerAgent_rest (a : Nat) (b : List Byte) : (s.answerAgent a b).rest = s.rest := rfl

/-! ### `withMem` -/

@[simp] theorem withMem_cfg (v : Memory) : (s.withMem v).cfg = s.cfg := rfl
@[simp] theorem withMem_regOffset (v : Memory) : (s.withMem v).regOffset = s.regOffset := rfl
@[simp] theorem withMem_dmaing (v : Memory) : (s.withMem v).dmaing = s.dmaing := rfl
@[simp] theorem withMem_memrShadow (v : Memory) : (s.withMem v).memrShadow = s.memrShadow := rfl
@[simp] theorem withMem_mgPhase (v : Memory) : (s.withMem v).mgPhase = s.mgPhase := rfl
@[simp] theorem withMem_mgBitpos (v : Memory) : (s.withMem v).mgBitpos = s.mgBitpos := rfl
@[simp] theorem withMem_mgData (v : Memory) : (s.withMem v).mgData = s.mgData := rfl
@[simp] theorem withMem_mgOwner (v : Memory) : (s.withMem v).mgOwner = s.mgOwner := rfl
@[simp] theorem withMem_portTask (v : Memory) : (s.withMem v).portTask = s.portTask := rfl
@[simp] theorem withMem_portIrq (v : Memory) : (s.withMem v).portIrq = s.portIrq := rfl
@[simp] theorem withMem_preempted (v : Memory) : (s.withMem v).preempted = s.preempted := rfl
@[simp] theorem withMem_fault (v : Memory) : (s.withMem v).fault = s.fault := rfl
@[simp] theorem withMem_refused (v : Memory) : (s.withMem v).refused = s.refused := rfl
@[simp] theorem withMem_log (v : Memory) : (s.withMem v).log = s.log := rfl
@[simp] theorem withMem_mem (v : Memory) : (s.withMem v).mem = v := rfl
@[simp] theorem withMem_env (v : Memory) : (s.withMem v).env = s.env := rfl
@[simp] theorem withMem_out (v : Memory) : (s.withMem v).out = s.out := rfl

/-! ### `logEvent` -/

@[simp] theorem logEvent_cfg (e : Event) : (s.logEvent e).cfg = s.cfg := rfl
@[simp] theorem logEvent_regOffset (e : Event) : (s.logEvent e).regOffset = s.regOffset := rfl
@[simp] theorem logEvent_dmaing (e : Event) : (s.logEvent e).dmaing = s.dmaing := rfl
@[simp] theorem logEvent_memrShadow (e : Event) : (s.logEvent e).memrShadow = s.memrShadow := rfl
@[simp] theorem logEvent_mgPhase (e : Event) : (s.logEvent e).mgPhase = s.mgPhase := rfl
@[simp] theorem logEvent_mgBitpos (e : Event) : (s.logEvent e).mgBitpos = s.mgBitpos := rfl
@[simp] theorem logEvent_mgData (e : Event) : (s.logEvent e).mgData = s.mgData := rfl
@[simp] theorem logEvent_mgOwner (e : Event) : (s.logEvent e).mgOwner = s.mgOwner := rfl
@[simp] theorem logEvent_portTask (e : Event) : (s.logEvent e).portTask = s.portTask := rfl
@[simp] theorem logEvent_portIrq (e : Event) : (s.logEvent e).portIrq = s.portIrq := rfl
@[simp] theorem logEvent_preempted (e : Event) : (s.logEvent e).preempted = s.preempted := rfl
@[simp] theorem logEvent_fault (e : Event) : (s.logEvent e).fault = s.fault := rfl
@[simp] theorem logEvent_refused (e : Event) : (s.logEvent e).refused = s.refused := rfl
@[simp] theorem logEvent_log (e : Event) : (s.logEvent e).log = s.log ++ [e] := rfl
@[simp] theorem logEvent_mem (e : Event) : (s.logEvent e).mem = s.mem := rfl
@[simp] theorem logEvent_env (e : Event) : (s.logEvent e).env = s.env := rfl
@[simp] theorem logEvent_out (e : Event) : (s.logEvent e).out = s.out := rfl

/-! ### `withEnv` -/

@[simp] theorem withEnv_cfg (v : Env) : (s.withEnv v).cfg = s.cfg := rfl
@[simp] theorem withEnv_regOffset (v : Env) : (s.withEnv v).regOffset = s.regOffset := rfl
@[simp] theorem withEnv_dmaing (v : Env) : (s.withEnv v).dmaing = s.dmaing := rfl
@[simp] theorem withEnv_memrShadow (v : Env) : (s.withEnv v).memrShadow = s.memrShadow := rfl
@[simp] theorem withEnv_mgPhase (v : Env) : (s.withEnv v).mgPhase = s.mgPhase := rfl
@[simp] theorem withEnv_mgBitpos (v : Env) : (s.withEnv v).mgBitpos = s.mgBitpos := rfl
@[simp] theorem withEnv_mgData (v : Env) : (s.withEnv v).mgData = s.mgData := rfl
@[simp] theorem withEnv_mgOwner (v : Env) : (s.withEnv v).mgOwner = s.mgOwner := rfl
@[simp] theorem withEnv_portTask (v : Env) : (s.withEnv v).portTask = s.portTask := rfl
@[simp] theorem withEnv_portIrq (v : Env) : (s.withEnv v).portIrq = s.portIrq := rfl
@[simp] theorem withEnv_preempted (v : Env) : (s.withEnv v).preempted = s.preempted := rfl
@[simp] theorem withEnv_fault (v : Env) : (s.withEnv v).fault = s.fault := rfl
@[simp] theorem withEnv_refused (v : Env) : (s.withEnv v).refused = s.refused := rfl
@[simp] theorem withEnv_log (v : Env) : (s.withEnv v).log = s.log := rfl
@[simp] theorem withEnv_mem (v : Env) : (s.withEnv v).mem = s.mem := rfl
@[simp] theorem withEnv_env (v : Env) : (s.withEnv v).env = v := rfl
@[simp] theorem withEnv_out (v : Env) : (s.withEnv v).out = s.out := rfl

/-! ### `withReinitReq` -/

@[simp] theorem withReinitReq_cfg (v : Bool) : (s.withReinitReq v).cfg = s.cfg := rfl
@[simp] theorem withReinitReq_regOffset (v : Bool) : (s.withReinitReq v).regOffset = s.regOffset := rfl
@[simp] theorem withReinitReq_dmaing (v : Bool) : (s.withReinitReq v).dmaing = s.dmaing := rfl
@[simp] theorem withReinitReq_memrShadow (v : Bool) : (s.withReinitReq v).memrShadow = s.memrShadow := rfl
@[simp] theorem withReinitReq_mgPhase (v : Bool) : (s.withReinitReq v).mgPhase = s.mgPhase := rfl
@[simp] theorem withReinitReq_mgBitpos (v : Bool) : (s.withReinitReq v).mgBitpos = s.mgBitpos := rfl
@[simp] theorem withReinitReq_mgData (v : Bool) : (s.withReinitReq v).mgData = s.mgData := rfl
@[simp] theorem withReinitReq_mgOwner (v : Bool) : (s.withReinitReq v).mgOwner = s.mgOwner := rfl
@[simp] theorem withReinitReq_portTask (v : Bool) : (s.withReinitReq v).portTask = s.portTask := rfl
@[simp] theorem withReinitReq_portIrq (v : Bool) : (s.withReinitReq v).portIrq = s.portIrq := rfl
@[simp] theorem withReinitReq_preempted (v : Bool) : (s.withReinitReq v).preempted = s.preempted := rfl
@[simp] theorem withReinitReq_fault (v : Bool) : (s.withReinitReq v).fault = s.fault := rfl
@[simp] theorem withReinitReq_refused (v : Bool) : (s.withReinitReq v).refused = s.refused := rfl
@[simp] theorem withReinitReq_log (v : Bool) : (s.withReinitReq v).log = s.log := rfl
@[simp] theorem withReinitReq_mem (v : Bool) : (s.withReinitReq v).mem = s.mem := rfl
@[simp] theorem withReinitReq_env (v : Bool) : (s.withReinitReq v).env = s.env := rfl
@[simp] theorem withReinitReq_out (v : Bool) : (s.withReinitReq v).out = { s.out with reinitReq := v } := rfl

/-! ### `record` -/

@[simp] theorem record_cfg (c : BusCycle) : (s.record c).cfg = s.cfg := rfl
@[simp] theorem record_regOffset (c : BusCycle) : (s.record c).regOffset = s.regOffset := rfl
@[simp] theorem record_dmaing (c : BusCycle) : (s.record c).dmaing = s.dmaing := rfl
@[simp] theorem record_memrShadow (c : BusCycle) : (s.record c).memrShadow = s.memrShadow := rfl
@[simp] theorem record_mgPhase (c : BusCycle) : (s.record c).mgPhase = s.mgPhase := rfl
@[simp] theorem record_mgBitpos (c : BusCycle) : (s.record c).mgBitpos = s.mgBitpos := rfl
@[simp] theorem record_mgData (c : BusCycle) : (s.record c).mgData = s.mgData := rfl
@[simp] theorem record_mgOwner (c : BusCycle) : (s.record c).mgOwner = s.mgOwner := rfl
@[simp] theorem record_portTask (c : BusCycle) : (s.record c).portTask = s.portTask := rfl
@[simp] theorem record_portIrq (c : BusCycle) : (s.record c).portIrq = s.portIrq := rfl
@[simp] theorem record_preempted (c : BusCycle) : (s.record c).preempted = s.preempted := rfl
@[simp] theorem record_fault (c : BusCycle) : (s.record c).fault = s.fault := rfl
@[simp] theorem record_refused (c : BusCycle) : (s.record c).refused = s.refused := rfl
@[simp] theorem record_log (c : BusCycle) : (s.record c).log = s.log := rfl
@[simp] theorem record_mem (c : BusCycle) : (s.record c).mem = s.mem := rfl
@[simp] theorem record_env (c : BusCycle) : (s.record c).env = s.env := rfl
@[simp] theorem record_out (c : BusCycle) : (s.record c).out = { s.out with cycles := s.out.cycles ++ [c] } := rfl

/-! ### `deliver` -/

@[simp] theorem deliver_cfg (p : Port) (r : Response) : (s.deliver p r).cfg = s.cfg := rfl
@[simp] theorem deliver_regOffset (p : Port) (r : Response) : (s.deliver p r).regOffset = s.regOffset := rfl
@[simp] theorem deliver_dmaing (p : Port) (r : Response) : (s.deliver p r).dmaing = s.dmaing := rfl
@[simp] theorem deliver_memrShadow (p : Port) (r : Response) : (s.deliver p r).memrShadow = s.memrShadow := rfl
@[simp] theorem deliver_mgPhase (p : Port) (r : Response) : (s.deliver p r).mgPhase = s.mgPhase := rfl
@[simp] theorem deliver_mgBitpos (p : Port) (r : Response) : (s.deliver p r).mgBitpos = s.mgBitpos := rfl
@[simp] theorem deliver_mgData (p : Port) (r : Response) : (s.deliver p r).mgData = s.mgData := rfl
@[simp] theorem deliver_mgOwner (p : Port) (r : Response) : (s.deliver p r).mgOwner = s.mgOwner := rfl
@[simp] theorem deliver_portTask (p : Port) (r : Response) : (s.deliver p r).portTask = s.portTask := rfl
@[simp] theorem deliver_portIrq (p : Port) (r : Response) : (s.deliver p r).portIrq = s.portIrq := rfl
@[simp] theorem deliver_preempted (p : Port) (r : Response) : (s.deliver p r).preempted = s.preempted := rfl
@[simp] theorem deliver_fault (p : Port) (r : Response) : (s.deliver p r).fault = s.fault := rfl
@[simp] theorem deliver_refused (p : Port) (r : Response) : (s.deliver p r).refused = s.refused := rfl
@[simp] theorem deliver_log (p : Port) (r : Response) : (s.deliver p r).log = s.log := rfl
@[simp] theorem deliver_mem (p : Port) (r : Response) : (s.deliver p r).mem = s.mem := rfl
@[simp] theorem deliver_env (p : Port) (r : Response) : (s.deliver p r).env = s.env := rfl
@[simp] theorem deliver_out (p : Port) (r : Response) : (s.deliver p r).out = { s.out with responses := s.out.responses ++ [(p, r)] } := rfl

/-! ### `setPort` -/

@[simp] theorem setPort_cfg (p : Port) (x : PortState) : (s.setPort p x).cfg = s.cfg := by
  cases p <;> rfl
@[simp] theorem setPort_regOffset (p : Port) (x : PortState) : (s.setPort p x).regOffset = s.regOffset := by
  cases p <;> rfl
@[simp] theorem setPort_dmaing (p : Port) (x : PortState) : (s.setPort p x).dmaing = s.dmaing := by
  cases p <;> rfl
@[simp] theorem setPort_memrShadow (p : Port) (x : PortState) : (s.setPort p x).memrShadow = s.memrShadow := by
  cases p <;> rfl
@[simp] theorem setPort_mgPhase (p : Port) (x : PortState) : (s.setPort p x).mgPhase = s.mgPhase := by
  cases p <;> rfl
@[simp] theorem setPort_mgBitpos (p : Port) (x : PortState) : (s.setPort p x).mgBitpos = s.mgBitpos := by
  cases p <;> rfl
@[simp] theorem setPort_mgData (p : Port) (x : PortState) : (s.setPort p x).mgData = s.mgData := by
  cases p <;> rfl
@[simp] theorem setPort_mgOwner (p : Port) (x : PortState) : (s.setPort p x).mgOwner = s.mgOwner := by
  cases p <;> rfl
@[simp] theorem setPort_preempted (p : Port) (x : PortState) : (s.setPort p x).preempted = s.preempted := by
  cases p <;> rfl
@[simp] theorem setPort_fault (p : Port) (x : PortState) : (s.setPort p x).fault = s.fault := by
  cases p <;> rfl
@[simp] theorem setPort_refused (p : Port) (x : PortState) : (s.setPort p x).refused = s.refused := by
  cases p <;> rfl
@[simp] theorem setPort_log (p : Port) (x : PortState) : (s.setPort p x).log = s.log := by
  cases p <;> rfl
@[simp] theorem setPort_mem (p : Port) (x : PortState) : (s.setPort p x).mem = s.mem := by
  cases p <;> rfl
@[simp] theorem setPort_env (p : Port) (x : PortState) : (s.setPort p x).env = s.env := by
  cases p <;> rfl
@[simp] theorem setPort_out (p : Port) (x : PortState) : (s.setPort p x).out = s.out := by
  cases p <;> rfl

@[simp] theorem setPort_task_portTask (x : PortState) : (s.setPort .task x).portTask = x := rfl
@[simp] theorem setPort_task_portIrq (x : PortState) : (s.setPort .task x).portIrq = s.portIrq := rfl
@[simp] theorem setPort_irq_portIrq (x : PortState) : (s.setPort .irq x).portIrq = x := rfl
@[simp] theorem setPort_irq_portTask (x : PortState) : (s.setPort .irq x).portTask = s.portTask := rfl

@[simp] theorem port_setPort_same (p : Port) (x : PortState) : (s.setPort p x).port p = x := by
  cases p <;> rfl

@[simp] theorem port_setPort_other (p : Port) (x : PortState) :
    (s.setPort p x).port (otherPort p) = s.port (otherPort p) := by
  cases p <;> rfl

@[simp] theorem setPort_setPort (p : Port) (x y : PortState) :
    (s.setPort p x).setPort p y = s.setPort p y := by
  cases p <;> rfl

/-! ### Updates commute with `setPort`, which is kept outermost -/

@[simp] theorem setPort_withDmaing (p : Port) (x : PortState) (v : Byte) :
    (s.setPort p x).withDmaing v = (s.withDmaing v).setPort p x := by
  cases p <;> rfl
@[simp] theorem setPort_withShadow (p : Port) (x : PortState) (v : Byte) :
    (s.setPort p x).withShadow v = (s.withShadow v).setPort p x := by
  cases p <;> rfl
@[simp] theorem setPort_withMgPhase (p : Port) (x : PortState) (v : MgPhase) :
    (s.setPort p x).withMgPhase v = (s.withMgPhase v).setPort p x := by
  cases p <;> rfl
@[simp] theorem setPort_withMgBitpos (p : Port) (x : PortState) (v : BitVec 5) :
    (s.setPort p x).withMgBitpos v = (s.withMgBitpos v).setPort p x := by
  cases p <;> rfl
@[simp] theorem setPort_withMgData (p : Port) (x : PortState) (v : Half) :
    (s.setPort p x).withMgData v = (s.withMgData v).setPort p x := by
  cases p <;> rfl
@[simp] theorem setPort_withMgOwner (p : Port) (x : PortState) (v : Option Port) :
    (s.setPort p x).withMgOwner v = (s.withMgOwner v).setPort p x := by
  cases p <;> rfl
@[simp] theorem setPort_withPreempted (p : Port) (x : PortState) (v : Bool) :
    (s.setPort p x).withPreempted v = (s.withPreempted v).setPort p x := by
  cases p <;> rfl
@[simp] theorem setPort_withFault (p : Port) (x : PortState) (v : Option (Code × Info)) :
    (s.setPort p x).withFault v = (s.withFault v).setPort p x := by
  cases p <;> rfl
@[simp] theorem setPort_withRefused (p : Port) (x : PortState) (v : Bool) :
    (s.setPort p x).withRefused v = (s.withRefused v).setPort p x := by
  cases p <;> rfl
@[simp] theorem setPort_withMem (p : Port) (x : PortState) (v : Memory) :
    (s.setPort p x).withMem v = (s.withMem v).setPort p x := by
  cases p <;> rfl
@[simp] theorem setPort_logEvent (p : Port) (x : PortState) (e : Event) :
    (s.setPort p x).logEvent e = (s.logEvent e).setPort p x := by
  cases p <;> rfl
@[simp] theorem setPort_withEnv (p : Port) (x : PortState) (v : Env) :
    (s.setPort p x).withEnv v = (s.withEnv v).setPort p x := by
  cases p <;> rfl
@[simp] theorem setPort_withReinitReq (p : Port) (x : PortState) (v : Bool) :
    (s.setPort p x).withReinitReq v = (s.withReinitReq v).setPort p x := by
  cases p <;> rfl
@[simp] theorem setPort_record (p : Port) (x : PortState) (c : BusCycle) :
    (s.setPort p x).record c = (s.record c).setPort p x := by
  cases p <;> rfl
@[simp] theorem setPort_deliver (p : Port) (x : PortState) (q : Port) (r : Response) :
    (s.setPort p x).deliver q r = (s.deliver q r).setPort p x := by
  cases p <;> rfl

/-! ### `port` of an update -/

@[simp] theorem port_withDmaing (p : Port) (v : Byte) : (s.withDmaing v).port p = s.port p := by
  cases p <;> rfl
@[simp] theorem port_withShadow (p : Port) (v : Byte) : (s.withShadow v).port p = s.port p := by
  cases p <;> rfl
@[simp] theorem port_withMgPhase (p : Port) (v : MgPhase) : (s.withMgPhase v).port p = s.port p := by
  cases p <;> rfl
@[simp] theorem port_withMgBitpos (p : Port) (v : BitVec 5) : (s.withMgBitpos v).port p = s.port p := by
  cases p <;> rfl
@[simp] theorem port_withMgData (p : Port) (v : Half) : (s.withMgData v).port p = s.port p := by
  cases p <;> rfl
@[simp] theorem port_withMgOwner (p : Port) (v : Option Port) : (s.withMgOwner v).port p = s.port p := by
  cases p <;> rfl
@[simp] theorem port_withPreempted (p : Port) (v : Bool) : (s.withPreempted v).port p = s.port p := by
  cases p <;> rfl
@[simp] theorem port_withFault (p : Port) (v : Option (Code × Info)) : (s.withFault v).port p = s.port p := by
  cases p <;> rfl
@[simp] theorem port_withRefused (p : Port) (v : Bool) : (s.withRefused v).port p = s.port p := by
  cases p <;> rfl
@[simp] theorem port_withMem (p : Port) (v : Memory) : (s.withMem v).port p = s.port p := by
  cases p <;> rfl
@[simp] theorem port_logEvent (p : Port) (e : Event) : (s.logEvent e).port p = s.port p := by
  cases p <;> rfl
@[simp] theorem port_withEnv (p : Port) (v : Env) : (s.withEnv v).port p = s.port p := by
  cases p <;> rfl
@[simp] theorem port_withReinitReq (p : Port) (v : Bool) : (s.withReinitReq v).port p = s.port p := by
  cases p <;> rfl
@[simp] theorem port_record (p : Port) (c : BusCycle) : (s.record c).port p = s.port p := by
  cases p <;> rfl
@[simp] theorem port_deliver (p : Port) (q : Port) (r : Response) : (s.deliver q r).port p = s.port p := by
  cases p <;> rfl

/-! ### `rest` of an update -/

@[simp] theorem rest_withDmaing (v : Byte) :
    (s.withDmaing v).rest = { s.rest with dmaing := v } := rfl
@[simp] theorem rest_withShadow (v : Byte) :
    (s.withShadow v).rest = { s.rest with memrShadow := v } := rfl
@[simp] theorem rest_withMgPhase (v : MgPhase) :
    (s.withMgPhase v).rest = { s.rest with mgPhase := v } := rfl
@[simp] theorem rest_withMgBitpos (v : BitVec 5) :
    (s.withMgBitpos v).rest = { s.rest with mgBitpos := v } := rfl
@[simp] theorem rest_withMgData (v : Half) :
    (s.withMgData v).rest = { s.rest with mgData := v } := rfl
@[simp] theorem rest_withMgOwner (v : Option Port) :
    (s.withMgOwner v).rest = { s.rest with mgOwner := v } := rfl
@[simp] theorem rest_withPreempted (v : Bool) :
    (s.withPreempted v).rest = s.rest := rfl
@[simp] theorem rest_withFault (v : Option (Code × Info)) :
    (s.withFault v).rest = { s.rest with fault := v } := rfl
@[simp] theorem rest_withRefused (v : Bool) :
    (s.withRefused v).rest = { s.rest with refused := v } := rfl
@[simp] theorem rest_withMem (v : Memory) :
    (s.withMem v).rest = { s.rest with mem := v } := rfl
@[simp] theorem rest_logEvent (e : Event) :
    (s.logEvent e).rest = { s.rest with log := s.log ++ [e] } := rfl
@[simp] theorem rest_withEnv (v : Env) :
    (s.withEnv v).rest = { s.rest with
      moves := v.moves, presentedTask := v.presentedTask, presentedIrq := v.presentedIrq } := rfl
@[simp] theorem rest_withReinitReq (v : Bool) :
    (s.withReinitReq v).rest = { s.rest with reinitReq := v } := rfl
@[simp] theorem rest_record (c : BusCycle) :
    (s.record c).rest = s.rest := rfl
@[simp] theorem rest_deliver (p : Port) (r : Response) :
    (s.deliver p r).rest = s.rest := rfl
@[simp] theorem rest_setPort (p : Port) (x : PortState) : (s.setPort p x).rest = s.rest := by
  cases p <;> rfl

theorem rest_cfg : s.rest.cfg = s.cfg := rfl
theorem rest_regOffset : s.rest.regOffset = s.regOffset := rfl
theorem rest_dmaing : s.rest.dmaing = s.dmaing := rfl
theorem rest_memrShadow : s.rest.memrShadow = s.memrShadow := rfl
theorem rest_mgPhase : s.rest.mgPhase = s.mgPhase := rfl
theorem rest_mgBitpos : s.rest.mgBitpos = s.mgBitpos := rfl
theorem rest_mgData : s.rest.mgData = s.mgData := rfl
theorem rest_mgOwner : s.rest.mgOwner = s.mgOwner := rfl
theorem rest_fault : s.rest.fault = s.fault := rfl
theorem rest_refused : s.rest.refused = s.refused := rfl
theorem rest_log : s.rest.log = s.log := rfl
theorem rest_mem : s.rest.mem = s.mem := rfl

/-! ### The running request -/

/-- Port `p` may take micro-steps once it holds a request: IRQ always, TASK unless an IRQ request is in
progress or has suspended it (R36). -/
def Ready (s : State) : Port → Prop
  | .irq => True
  | .task => s.portIrq = .idle ∧ s.preempted = false

/-- A running request stands on its own port, which is ready; the state is itself with that port set. -/
theorem running_spec {s : State} {p : Port} {a : Active} (h : s.running = some (p, a)) :
    Ready s p ∧ s.port p = .active a ∧ s = s.setPort p (.active a) := by
  obtain ⟨_, _, _, _, _, _, _, _, portTask, portIrq, preempted, _, _, _, _, _, _⟩ := s
  cases portIrq with
  | active b =>
    simp [State.running] at h
    obtain ⟨rfl, rfl⟩ := h
    exact ⟨trivial, rfl, rfl⟩
  | idle =>
    cases preempted <;> cases portTask <;> simp [State.running] at h
    obtain ⟨rfl, rfl⟩ := h
    exact ⟨⟨rfl, rfl⟩, rfl, rfl⟩

theorem running_setPort {s : State} {p : Port} {a : Active} (h : Ready s p) :
    (s.setPort p (.active a)).running = some (p, a) := by
  cases p with
  | irq => rfl
  | task => simp [State.running, h.1, h.2]

theorem ready_congr {s t : State} {p : Port} (hi : t.portIrq = s.portIrq)
    (hp : t.preempted = s.preempted) : Ready t p = Ready s p := by
  cases p with
  | irq => rfl
  | task => simp [Ready, hi, hp]

@[simp] theorem ready_setPort (p : Port) (x : PortState) : Ready (s.setPort p x) p = Ready s p := by
  cases p <;> rfl

@[simp] theorem ready_withDmaing (p : Port) (v : Byte) : Ready (s.withDmaing v) p = Ready s p := by
  cases p <;> rfl
@[simp] theorem ready_withShadow (p : Port) (v : Byte) : Ready (s.withShadow v) p = Ready s p := by
  cases p <;> rfl
@[simp] theorem ready_withMgPhase (p : Port) (v : MgPhase) : Ready (s.withMgPhase v) p = Ready s p := by
  cases p <;> rfl
@[simp] theorem ready_withMgBitpos (p : Port) (v : BitVec 5) : Ready (s.withMgBitpos v) p = Ready s p := by
  cases p <;> rfl
@[simp] theorem ready_withMgData (p : Port) (v : Half) : Ready (s.withMgData v) p = Ready s p := by
  cases p <;> rfl
@[simp] theorem ready_withMgOwner (p : Port) (v : Option Port) : Ready (s.withMgOwner v) p = Ready s p := by
  cases p <;> rfl
@[simp] theorem ready_withFault (p : Port) (v : Option (Code × Info)) : Ready (s.withFault v) p = Ready s p := by
  cases p <;> rfl
@[simp] theorem ready_withRefused (p : Port) (v : Bool) : Ready (s.withRefused v) p = Ready s p := by
  cases p <;> rfl
@[simp] theorem ready_withMem (p : Port) (v : Memory) : Ready (s.withMem v) p = Ready s p := by
  cases p <;> rfl
@[simp] theorem ready_logEvent (p : Port) (e : Event) : Ready (s.logEvent e) p = Ready s p := by
  cases p <;> rfl
@[simp] theorem ready_withEnv (p : Port) (v : Env) : Ready (s.withEnv v) p = Ready s p := by
  cases p <;> rfl
@[simp] theorem ready_withReinitReq (p : Port) (v : Bool) : Ready (s.withReinitReq v) p = Ready s p := by
  cases p <;> rfl
@[simp] theorem ready_record (p : Port) (c : BusCycle) : Ready (s.record c) p = Ready s p := by
  cases p <;> rfl
@[simp] theorem ready_deliver (p : Port) (q : Port) (r : Response) : Ready (s.deliver q r) p = Ready s p := by
  cases p <;> rfl

/-- A meaning's micro-step on a state whose ready port holds a request. -/
theorem micro_setPort {s : State} {p : Port} {a : Active} (h : Ready s p) (f : Port → Active → Result) :
    (s.setPort p (.active a)).micro f = f p a := by
  simp [State.micro, running_setPort h]

theorem goto_eq (p : Port) (a : Active) (pos : Pos) :
    s.goto p a pos = s.setPort p (.active { a with pos := pos }) := rfl

theorem gotoWith_eq (p : Port) (a : Active) (pos : Pos) (l : Locals) :
    s.gotoWith p a pos l = s.setPort p (.active { a with pos := pos, locals := l }) := rfl

theorem gotoX_eq (p : Port) (a : Active) (pos : Pos) (x : XState) :
    s.gotoX p a pos x = s.setPort p (.active { a with pos := pos, xstate := x }) := rfl

/-! ### Ending a request -/

@[simp] theorem endRequest_setPort (p : Port) (x : PortState) :
    (s.setPort p x).endRequest p = s.endRequest p := by
  cases p <;> rfl

@[simp] theorem respond_setPort (p : Port) (x : PortState) (st : Status) (c : Code) (v : Half) :
    (s.setPort p x).respond p st c v = s.respond p st c v := by
  simp [State.respond]

@[simp] theorem rest_endRequest (p : Port) : (s.endRequest p).rest = s.rest := by cases p <;> rfl

@[simp] theorem rest_respond (p : Port) (st : Status) (c : Code) (v : Half) :
    (s.respond p st c v).rest = s.rest := by
  simp [State.respond]

@[simp] theorem endRequest_out (p : Port) : (s.endRequest p).out = s.out := by cases p <;> rfl

@[simp] theorem endRequest_env (p : Port) : (s.endRequest p).env = s.env := by cases p <;> rfl

@[simp] theorem respond_env (p : Port) (st : Status) (c : Code) (v : Half) :
    (s.respond p st c v).env = s.env := by
  simp [State.respond]

/-- What `respond` does: one response, the port idle, the other port as it was (R36, R41). -/
theorem respond_answers {s t : State} {p : Port} {cs : List BusCycle} (st : Status) (c : Code) (v : Half)
    (hc : t.out.cycles = s.out.cycles ++ cs) (hr : t.out.responses = s.out.responses)
    (ho : t.port (otherPort p) = s.port (otherPort p)) (hp : t.preempted = s.preempted) :
    Answered s (t.respond p st c v) p cs ⟨st, c, v⟩ := by
  constructor
  · simp [State.respond, hc]
  · simp [State.respond, hr]
  · cases p <;> rfl
  · cases p <;> simpa [State.respond, State.endRequest] using ho
  · cases p <;> simp [State.respond, State.endRequest, hp]

end Sys2Proof.Machine
end

