-- ==== Sys2Proof/Laws/Ops.lean ====
section
/-!
SUPPORT. What each shared operation can do, said once: draws, card-bus cycles, register accesses, the
push. Each leaves every field of the block as it was, but for what its lemma says.
-/

namespace Sys2Proof.Machine

open Sys2Proof

variable (s : State)

/-! ### `drawExpiry` -/

@[simp] theorem drawExpiry_cfg : (s.drawExpiry).2.cfg = s.cfg := by
  unfold State.drawExpiry; split <;> rfl
@[simp] theorem drawExpiry_regOffset : (s.drawExpiry).2.regOffset = s.regOffset := by
  unfold State.drawExpiry; split <;> rfl
@[simp] theorem drawExpiry_dmaing : (s.drawExpiry).2.dmaing = s.dmaing := by
  unfold State.drawExpiry; split <;> rfl
@[simp] theorem drawExpiry_memrShadow : (s.drawExpiry).2.memrShadow = s.memrShadow := by
  unfold State.drawExpiry; split <;> rfl
@[simp] theorem drawExpiry_mgPhase : (s.drawExpiry).2.mgPhase = s.mgPhase := by
  unfold State.drawExpiry; split <;> rfl
@[simp] theorem drawExpiry_mgBitpos : (s.drawExpiry).2.mgBitpos = s.mgBitpos := by
  unfold State.drawExpiry; split <;> rfl
@[simp] theorem drawExpiry_mgData : (s.drawExpiry).2.mgData = s.mgData := by
  unfold State.drawExpiry; split <;> rfl
@[simp] theorem drawExpiry_mgOwner : (s.drawExpiry).2.mgOwner = s.mgOwner := by
  unfold State.drawExpiry; split <;> rfl
@[simp] theorem drawExpiry_portTask : (s.drawExpiry).2.portTask = s.portTask := by
  unfold State.drawExpiry; split <;> rfl
@[simp] theorem drawExpiry_portIrq : (s.drawExpiry).2.portIrq = s.portIrq := by
  unfold State.drawExpiry; split <;> rfl
@[simp] theorem drawExpiry_preempted : (s.drawExpiry).2.preempted = s.preempted := by
  unfold State.drawExpiry; split <;> rfl
@[simp] theorem drawExpiry_fault : (s.drawExpiry).2.fault = s.fault := by
  unfold State.drawExpiry; split <;> rfl
@[simp] theorem drawExpiry_refused : (s.drawExpiry).2.refused = s.refused := by
  unfold State.drawExpiry; split <;> rfl
@[simp] theorem drawExpiry_log : (s.drawExpiry).2.log = s.log := by
  unfold State.drawExpiry; split <;> rfl
@[simp] theorem drawExpiry_mem : (s.drawExpiry).2.mem = s.mem := by
  unfold State.drawExpiry; split <;> rfl
@[simp] theorem drawExpiry_port (p : Port) : (s.drawExpiry).2.port p = s.port p := by
  cases p <;> simp [State.port]
@[simp] theorem ready_drawExpiry (p : Port) : Ready (s.drawExpiry).2 p = Ready s p := by
  cases p <;> simp [Ready]
@[simp] theorem drawExpiry_out : s.drawExpiry.2.out = s.out := by
  unfold State.drawExpiry; split <;> rfl
@[simp] theorem drawExpiry_rest : s.drawExpiry.2.rest = s.rest := by
  unfold State.drawExpiry; split <;> rfl
@[simp] theorem drawExpiry_setPort (p : Port) (x : PortState) :
    (s.setPort p x).drawExpiry = (s.drawExpiry.1, s.drawExpiry.2.setPort p x) := by
  unfold State.drawExpiry; simp only [setPort_env]; split <;> simp

/-! ### `drawReinit` -/

@[simp] theorem drawReinit_cfg : (s.drawReinit).2.cfg = s.cfg := by
  unfold State.drawReinit; split <;> rfl
@[simp] theorem drawReinit_regOffset : (s.drawReinit).2.regOffset = s.regOffset := by
  unfold State.drawReinit; split <;> rfl
@[simp] theorem drawReinit_dmaing : (s.drawReinit).2.dmaing = s.dmaing := by
  unfold State.drawReinit; split <;> rfl
@[simp] theorem drawReinit_memrShadow : (s.drawReinit).2.memrShadow = s.memrShadow := by
  unfold State.drawReinit; split <;> rfl
@[simp] theorem drawReinit_mgPhase : (s.drawReinit).2.mgPhase = s.mgPhase := by
  unfold State.drawReinit; split <;> rfl
@[simp] theorem drawReinit_mgBitpos : (s.drawReinit).2.mgBitpos = s.mgBitpos := by
  unfold State.drawReinit; split <;> rfl
@[simp] theorem drawReinit_mgData : (s.drawReinit).2.mgData = s.mgData := by
  unfold State.drawReinit; split <;> rfl
@[simp] theorem drawReinit_mgOwner : (s.drawReinit).2.mgOwner = s.mgOwner := by
  unfold State.drawReinit; split <;> rfl
@[simp] theorem drawReinit_portTask : (s.drawReinit).2.portTask = s.portTask := by
  unfold State.drawReinit; split <;> rfl
@[simp] theorem drawReinit_portIrq : (s.drawReinit).2.portIrq = s.portIrq := by
  unfold State.drawReinit; split <;> rfl
@[simp] theorem drawReinit_preempted : (s.drawReinit).2.preempted = s.preempted := by
  unfold State.drawReinit; split <;> rfl
@[simp] theorem drawReinit_fault : (s.drawReinit).2.fault = s.fault := by
  unfold State.drawReinit; split <;> rfl
@[simp] theorem drawReinit_refused : (s.drawReinit).2.refused = s.refused := by
  unfold State.drawReinit; split <;> rfl
@[simp] theorem drawReinit_log : (s.drawReinit).2.log = s.log := by
  unfold State.drawReinit; split <;> rfl
@[simp] theorem drawReinit_mem : (s.drawReinit).2.mem = s.mem := by
  unfold State.drawReinit; split <;> rfl
@[simp] theorem drawReinit_port (p : Port) : (s.drawReinit).2.port p = s.port p := by
  cases p <;> simp [State.port]
@[simp] theorem ready_drawReinit (p : Port) : Ready (s.drawReinit).2 p = Ready s p := by
  cases p <;> simp [Ready]
@[simp] theorem drawReinit_out : s.drawReinit.2.out = s.out := by
  unfold State.drawReinit; split <;> rfl
@[simp] theorem drawReinit_rest : s.drawReinit.2.rest = s.rest := by
  unfold State.drawReinit; split <;> rfl
@[simp] theorem drawReinit_setPort (p : Port) (x : PortState) :
    (s.setPort p x).drawReinit = (s.drawReinit.1, s.drawReinit.2.setPort p x) := by
  unfold State.drawReinit; simp only [setPort_env]; split <;> simp

/-! ### `drawHost` -/

@[simp] theorem drawHost_cfg : (s.drawHost).2.cfg = s.cfg := by
  unfold State.drawHost; split <;> rfl
@[simp] theorem drawHost_regOffset : (s.drawHost).2.regOffset = s.regOffset := by
  unfold State.drawHost; split <;> rfl
@[simp] theorem drawHost_dmaing : (s.drawHost).2.dmaing = s.dmaing := by
  unfold State.drawHost; split <;> rfl
@[simp] theorem drawHost_memrShadow : (s.drawHost).2.memrShadow = s.memrShadow := by
  unfold State.drawHost; split <;> rfl
@[simp] theorem drawHost_mgPhase : (s.drawHost).2.mgPhase = s.mgPhase := by
  unfold State.drawHost; split <;> rfl
@[simp] theorem drawHost_mgBitpos : (s.drawHost).2.mgBitpos = s.mgBitpos := by
  unfold State.drawHost; split <;> rfl
@[simp] theorem drawHost_mgData : (s.drawHost).2.mgData = s.mgData := by
  unfold State.drawHost; split <;> rfl
@[simp] theorem drawHost_mgOwner : (s.drawHost).2.mgOwner = s.mgOwner := by
  unfold State.drawHost; split <;> rfl
@[simp] theorem drawHost_portTask : (s.drawHost).2.portTask = s.portTask := by
  unfold State.drawHost; split <;> rfl
@[simp] theorem drawHost_portIrq : (s.drawHost).2.portIrq = s.portIrq := by
  unfold State.drawHost; split <;> rfl
@[simp] theorem drawHost_preempted : (s.drawHost).2.preempted = s.preempted := by
  unfold State.drawHost; split <;> rfl
@[simp] theorem drawHost_fault : (s.drawHost).2.fault = s.fault := by
  unfold State.drawHost; split <;> rfl
@[simp] theorem drawHost_refused : (s.drawHost).2.refused = s.refused := by
  unfold State.drawHost; split <;> rfl
@[simp] theorem drawHost_log : (s.drawHost).2.log = s.log := by
  unfold State.drawHost; split <;> rfl
@[simp] theorem drawHost_mem : (s.drawHost).2.mem = s.mem := by
  unfold State.drawHost; split <;> rfl
@[simp] theorem drawHost_port (p : Port) : (s.drawHost).2.port p = s.port p := by
  cases p <;> simp [State.port]
@[simp] theorem ready_drawHost (p : Port) : Ready (s.drawHost).2 p = Ready s p := by
  cases p <;> simp [Ready]
@[simp] theorem drawHost_out : s.drawHost.2.out = s.out := by
  unfold State.drawHost; split <;> rfl
@[simp] theorem drawHost_rest : s.drawHost.2.rest = s.rest := by
  unfold State.drawHost; split <;> rfl
@[simp] theorem drawHost_setPort (p : Port) (x : PortState) :
    (s.setPort p x).drawHost = (s.drawHost.1, s.drawHost.2.setPort p x) := by
  unfold State.drawHost; simp only [setPort_env]; split <;> simp

/-! ### `drawWait` -/

@[simp] theorem drawWait_cfg (w : Option Wait) : (s.drawWait w).2.cfg = s.cfg := by
  unfold State.drawWait State.waitLeft; split <;> simp
@[simp] theorem drawWait_regOffset (w : Option Wait) : (s.drawWait w).2.regOffset = s.regOffset := by
  unfold State.drawWait State.waitLeft; split <;> simp
@[simp] theorem drawWait_dmaing (w : Option Wait) : (s.drawWait w).2.dmaing = s.dmaing := by
  unfold State.drawWait State.waitLeft; split <;> simp
@[simp] theorem drawWait_memrShadow (w : Option Wait) : (s.drawWait w).2.memrShadow = s.memrShadow := by
  unfold State.drawWait State.waitLeft; split <;> simp
@[simp] theorem drawWait_mgPhase (w : Option Wait) : (s.drawWait w).2.mgPhase = s.mgPhase := by
  unfold State.drawWait State.waitLeft; split <;> simp
@[simp] theorem drawWait_mgBitpos (w : Option Wait) : (s.drawWait w).2.mgBitpos = s.mgBitpos := by
  unfold State.drawWait State.waitLeft; split <;> simp
@[simp] theorem drawWait_mgData (w : Option Wait) : (s.drawWait w).2.mgData = s.mgData := by
  unfold State.drawWait State.waitLeft; split <;> simp
@[simp] theorem drawWait_mgOwner (w : Option Wait) : (s.drawWait w).2.mgOwner = s.mgOwner := by
  unfold State.drawWait State.waitLeft; split <;> simp
@[simp] theorem drawWait_portTask (w : Option Wait) : (s.drawWait w).2.portTask = s.portTask := by
  unfold State.drawWait State.waitLeft; split <;> simp
@[simp] theorem drawWait_portIrq (w : Option Wait) : (s.drawWait w).2.portIrq = s.portIrq := by
  unfold State.drawWait State.waitLeft; split <;> simp
@[simp] theorem drawWait_preempted (w : Option Wait) : (s.drawWait w).2.preempted = s.preempted := by
  unfold State.drawWait State.waitLeft; split <;> simp
@[simp] theorem drawWait_fault (w : Option Wait) : (s.drawWait w).2.fault = s.fault := by
  unfold State.drawWait State.waitLeft; split <;> simp
@[simp] theorem drawWait_refused (w : Option Wait) : (s.drawWait w).2.refused = s.refused := by
  unfold State.drawWait State.waitLeft; split <;> simp
@[simp] theorem drawWait_log (w : Option Wait) : (s.drawWait w).2.log = s.log := by
  unfold State.drawWait State.waitLeft; split <;> simp
@[simp] theorem drawWait_mem (w : Option Wait) : (s.drawWait w).2.mem = s.mem := by
  unfold State.drawWait State.waitLeft; split <;> simp
@[simp] theorem drawWait_port (w : Option Wait) (p : Port) : (s.drawWait w).2.port p = s.port p := by
  cases p <;> simp [State.port]
@[simp] theorem ready_drawWait (w : Option Wait) (p : Port) : Ready (s.drawWait w).2 p = Ready s p := by
  cases p <;> simp [Ready]
@[simp] theorem drawWait_out (w : Option Wait) : (s.drawWait w).2.out = s.out := by
  unfold State.drawWait State.waitLeft; split <;> simp
@[simp] theorem drawWait_rest (w : Option Wait) : (s.drawWait w).2.rest = s.rest := by
  unfold State.drawWait State.waitLeft; split <;> simp
@[simp] theorem drawWait_setPort (p : Port) (x : PortState) (w : Option Wait) :
    (s.setPort p x).drawWait w = ((s.drawWait w).1, (s.drawWait w).2.setPort p x) := by
  unfold State.drawWait State.waitLeft; split <;> simp

/-! ### `drawFor` (R45) -/

/-- A draw of a wait with `n` false draws left. -/
theorem drawFor_left {l : Locals} {k : WaitKind} {n : Nat} (h : l.wait = some ⟨k, some n⟩) :
    s.drawFor l = (n == 0, s, { l with wait := some ⟨k, some (n - 1)⟩ }) := by
  simp [State.drawFor, State.drawWait, State.waitLeft, h, Wait.after]

/-- The first draw of a wait. -/
theorem drawFor_first {l : Locals} {k : WaitKind} (h : l.wait = some ⟨k, none⟩) :
    s.drawFor l = (s.drawExpiry.1 == 0, s.drawExpiry.2,
      { l with wait := some ⟨k, some (s.drawExpiry.1 - 1)⟩ }) := by
  simp [State.drawFor, State.drawWait, State.waitLeft, h, Wait.after]

/-! ### `moved` (R63) -/

/-- Moving bytes changes only how many draws of the host-memory port are left. -/
theorem moved_snd (raced : List Nat) (a : Nat) (bs : List Byte) :
    ∃ tape n, (s.moved raced a bs).2 = s.withEnv { s.env with hostTape := tape, drawn := n } := by
  induction bs generalizing s a with
  | nil => exact ⟨_, _, rfl⟩
  | cons b rest ih =>
    simp only [State.moved]
    split
    · obtain ⟨tape, n, h⟩ := ih s.drawHost.2 (a + 1)
      rw [h]
      unfold State.drawHost
      split <;> exact ⟨_, _, rfl⟩
    · exact ih s (a + 1)

/-- Which bytes are moved: draws at raced addresses, the others as they are. -/
theorem moved_fst (raced : List Nat) (a : Nat) (bs : List Byte) :
    (s.moved raced a bs).1 = (List.range bs.length).map (s.movedByte raced a bs) := by
  induction bs generalizing s a with
  | nil => rfl
  | cons b rest ih =>
    rw [List.length_cons, List.range_succ_eq_map, List.map_cons, List.map_map]
    have hk : ∀ k, a + 1 + k = a + (k + 1) := by omega
    simp only [State.moved]
    split
    · next h =>
      have h' : hostKey a ∈ raced := by simpa using h
      refine List.cons_eq_cons.mpr ⟨?_, (ih _ _).trans ?_⟩
      · simp [State.movedByte, State.hostDrawAt, h']
      · refine List.map_congr_left fun k _ => ?_
        simp [State.movedByte, List.range_succ_eq_map, List.countP_map, Function.comp_def, hk, h',
          State.hostDrawAt]
    · next h =>
      have h' : hostKey a ∉ raced := by simpa using h
      refine List.cons_eq_cons.mpr ⟨?_, (ih _ _).trans ?_⟩
      · simp [State.movedByte, h']
      · refine List.map_congr_left fun k _ => ?_
        simp [State.movedByte, List.range_succ_eq_map, List.countP_map, Function.comp_def, hk, h']

/-- Bytes for which no agent has raced are moved as they are. -/
theorem moved_of_not_raced {raced : List Nat} {a : Nat} {bs : List Byte}
    (h : ∀ k, k < bs.length → hostKey (a + k) ∉ raced) : s.moved raced a bs = (bs, s) := by
  induction bs generalizing a with
  | nil => rfl
  | cons b rest ih =>
    have h0 := h 0 (by simp)
    have hr : s.moved raced (a + 1) rest = (rest, s) := ih fun k hk => by
      have := h (k + 1) (by simpa using hk)
      rwa [show a + 1 + k = a + (k + 1) by omega]
    simp only [State.moved, hr]
    rw [if_neg (by simpa using h0)]

@[simp] theorem moved_nil (a : Nat) (bs : List Byte) : s.moved [] a bs = (bs, s) :=
  moved_of_not_raced s (by simp)

@[simp] theorem length_moved (raced : List Nat) (a : Nat) (bs : List Byte) :
    (s.moved raced a bs).1.length = bs.length := by
  induction bs generalizing s a with
  | nil => rfl
  | cons b rest ih =>
    simp only [State.moved]
    split <;> simp [ih]

@[simp] theorem moved_cfg (raced : List Nat) (a : Nat) (bs : List Byte) :
    (s.moved raced a bs).2.cfg = s.cfg := by
  obtain ⟨_, _, h⟩ := moved_snd s raced a bs; rw [h]; rfl
@[simp] theorem moved_regOffset (raced : List Nat) (a : Nat) (bs : List Byte) :
    (s.moved raced a bs).2.regOffset = s.regOffset := by
  obtain ⟨_, _, h⟩ := moved_snd s raced a bs; rw [h]; rfl
@[simp] theorem moved_dmaing (raced : List Nat) (a : Nat) (bs : List Byte) :
    (s.moved raced a bs).2.dmaing = s.dmaing := by
  obtain ⟨_, _, h⟩ := moved_snd s raced a bs; rw [h]; rfl
@[simp] theorem moved_memrShadow (raced : List Nat) (a : Nat) (bs : List Byte) :
    (s.moved raced a bs).2.memrShadow = s.memrShadow := by
  obtain ⟨_, _, h⟩ := moved_snd s raced a bs; rw [h]; rfl
@[simp] theorem moved_mgPhase (raced : List Nat) (a : Nat) (bs : List Byte) :
    (s.moved raced a bs).2.mgPhase = s.mgPhase := by
  obtain ⟨_, _, h⟩ := moved_snd s raced a bs; rw [h]; rfl
@[simp] theorem moved_mgBitpos (raced : List Nat) (a : Nat) (bs : List Byte) :
    (s.moved raced a bs).2.mgBitpos = s.mgBitpos := by
  obtain ⟨_, _, h⟩ := moved_snd s raced a bs; rw [h]; rfl
@[simp] theorem moved_mgData (raced : List Nat) (a : Nat) (bs : List Byte) :
    (s.moved raced a bs).2.mgData = s.mgData := by
  obtain ⟨_, _, h⟩ := moved_snd s raced a bs; rw [h]; rfl
@[simp] theorem moved_mgOwner (raced : List Nat) (a : Nat) (bs : List Byte) :
    (s.moved raced a bs).2.mgOwner = s.mgOwner := by
  obtain ⟨_, _, h⟩ := moved_snd s raced a bs; rw [h]; rfl
@[simp] theorem moved_portTask (raced : List Nat) (a : Nat) (bs : List Byte) :
    (s.moved raced a bs).2.portTask = s.portTask := by
  obtain ⟨_, _, h⟩ := moved_snd s raced a bs; rw [h]; rfl
@[simp] theorem moved_portIrq (raced : List Nat) (a : Nat) (bs : List Byte) :
    (s.moved raced a bs).2.portIrq = s.portIrq := by
  obtain ⟨_, _, h⟩ := moved_snd s raced a bs; rw [h]; rfl
@[simp] theorem moved_preempted (raced : List Nat) (a : Nat) (bs : List Byte) :
    (s.moved raced a bs).2.preempted = s.preempted := by
  obtain ⟨_, _, h⟩ := moved_snd s raced a bs; rw [h]; rfl
@[simp] theorem moved_fault (raced : List Nat) (a : Nat) (bs : List Byte) :
    (s.moved raced a bs).2.fault = s.fault := by
  obtain ⟨_, _, h⟩ := moved_snd s raced a bs; rw [h]; rfl
@[simp] theorem moved_refused (raced : List Nat) (a : Nat) (bs : List Byte) :
    (s.moved raced a bs).2.refused = s.refused := by
  obtain ⟨_, _, h⟩ := moved_snd s raced a bs; rw [h]; rfl
@[simp] theorem moved_log (raced : List Nat) (a : Nat) (bs : List Byte) :
    (s.moved raced a bs).2.log = s.log := by
  obtain ⟨_, _, h⟩ := moved_snd s raced a bs; rw [h]; rfl
@[simp] theorem moved_mem (raced : List Nat) (a : Nat) (bs : List Byte) :
    (s.moved raced a bs).2.mem = s.mem := by
  obtain ⟨_, _, h⟩ := moved_snd s raced a bs; rw [h]; rfl
@[simp] theorem moved_out (raced : List Nat) (a : Nat) (bs : List Byte) :
    (s.moved raced a bs).2.out = s.out := by
  obtain ⟨_, _, h⟩ := moved_snd s raced a bs; rw [h]; rfl
@[simp] theorem moved_rest (raced : List Nat) (a : Nat) (bs : List Byte) :
    (s.moved raced a bs).2.rest = s.rest := by
  obtain ⟨_, _, h⟩ := moved_snd s raced a bs; rw [h]; rfl
@[simp] theorem moved_port (raced : List Nat) (a : Nat) (bs : List Byte) (p : Port) :
    (s.moved raced a bs).2.port p = s.port p := by
  cases p <;> simp [State.port]
@[simp] theorem regAddr_moved (raced : List Nat) (a : Nat) (bs : List Byte) (i : Fin 32) :
    (s.moved raced a bs).2.regAddr i = s.regAddr i := by
  simp [State.regAddr]

/-! ### `drawBus` -/

@[simp] theorem drawBus_cfg (addr : Word) (w : Width) : (s.drawBus addr w).2.cfg = s.cfg := by
  unfold State.drawBus; (split <;> try split) <;> rfl
@[simp] theorem drawBus_regOffset (addr : Word) (w : Width) : (s.drawBus addr w).2.regOffset = s.regOffset := by
  unfold State.drawBus; (split <;> try split) <;> rfl
@[simp] theorem drawBus_dmaing (addr : Word) (w : Width) : (s.drawBus addr w).2.dmaing = s.dmaing := by
  unfold State.drawBus; (split <;> try split) <;> rfl
@[simp] theorem drawBus_memrShadow (addr : Word) (w : Width) : (s.drawBus addr w).2.memrShadow = s.memrShadow := by
  unfold State.drawBus; (split <;> try split) <;> rfl
@[simp] theorem drawBus_mgPhase (addr : Word) (w : Width) : (s.drawBus addr w).2.mgPhase = s.mgPhase := by
  unfold State.drawBus; (split <;> try split) <;> rfl
@[simp] theorem drawBus_mgBitpos (addr : Word) (w : Width) : (s.drawBus addr w).2.mgBitpos = s.mgBitpos := by
  unfold State.drawBus; (split <;> try split) <;> rfl
@[simp] theorem drawBus_mgData (addr : Word) (w : Width) : (s.drawBus addr w).2.mgData = s.mgData := by
  unfold State.drawBus; (split <;> try split) <;> rfl
@[simp] theorem drawBus_mgOwner (addr : Word) (w : Width) : (s.drawBus addr w).2.mgOwner = s.mgOwner := by
  unfold State.drawBus; (split <;> try split) <;> rfl
@[simp] theorem drawBus_portTask (addr : Word) (w : Width) : (s.drawBus addr w).2.portTask = s.portTask := by
  unfold State.drawBus; (split <;> try split) <;> rfl
@[simp] theorem drawBus_portIrq (addr : Word) (w : Width) : (s.drawBus addr w).2.portIrq = s.portIrq := by
  unfold State.drawBus; (split <;> try split) <;> rfl
@[simp] theorem drawBus_preempted (addr : Word) (w : Width) : (s.drawBus addr w).2.preempted = s.preempted := by
  unfold State.drawBus; (split <;> try split) <;> rfl
@[simp] theorem drawBus_fault (addr : Word) (w : Width) : (s.drawBus addr w).2.fault = s.fault := by
  unfold State.drawBus; (split <;> try split) <;> rfl
@[simp] theorem drawBus_refused (addr : Word) (w : Width) : (s.drawBus addr w).2.refused = s.refused := by
  unfold State.drawBus; (split <;> try split) <;> rfl
@[simp] theorem drawBus_log (addr : Word) (w : Width) : (s.drawBus addr w).2.log = s.log := by
  unfold State.drawBus; (split <;> try split) <;> rfl
@[simp] theorem drawBus_mem (addr : Word) (w : Width) : (s.drawBus addr w).2.mem = s.mem := by
  unfold State.drawBus; (split <;> try split) <;> rfl
@[simp] theorem drawBus_port (addr : Word) (w : Width) (p : Port) : (s.drawBus addr w).2.port p = s.port p := by
  cases p <;> simp [State.port]
@[simp] theorem ready_drawBus (addr : Word) (w : Width) (p : Port) : Ready (s.drawBus addr w).2 p = Ready s p := by
  cases p <;> simp [Ready]
@[simp] theorem drawBus_out (addr : Word) (w : Width) : (s.drawBus addr w).2.out = s.out := by
  unfold State.drawBus; (split <;> try split) <;> rfl
@[simp] theorem drawBus_rest (addr : Word) (w : Width) : (s.drawBus addr w).2.rest = s.rest := by
  unfold State.drawBus; (split <;> try split) <;> rfl
@[simp] theorem drawBus_setPort (p : Port) (x : PortState) (addr : Word) (w : Width) :
    (s.setPort p x).drawBus addr w = ((s.drawBus addr w).1, (s.drawBus addr w).2.setPort p x) := by
  unfold State.drawBus; simp only [setPort_env, setPort_cfg]; (split <;> try split) <;> simp

/-! ### `deliverWrite` -/

@[simp] theorem deliverWrite_cfg (addr : Word) (w : Width) (v : Word) : (s.deliverWrite addr w v).cfg = s.cfg := by
  unfold State.deliverWrite; split <;> rfl
@[simp] theorem deliverWrite_regOffset (addr : Word) (w : Width) (v : Word) : (s.deliverWrite addr w v).regOffset = s.regOffset := by
  unfold State.deliverWrite; split <;> rfl
@[simp] theorem deliverWrite_dmaing (addr : Word) (w : Width) (v : Word) : (s.deliverWrite addr w v).dmaing = s.dmaing := by
  unfold State.deliverWrite; split <;> rfl
@[simp] theorem deliverWrite_memrShadow (addr : Word) (w : Width) (v : Word) : (s.deliverWrite addr w v).memrShadow = s.memrShadow := by
  unfold State.deliverWrite; split <;> rfl
@[simp] theorem deliverWrite_mgPhase (addr : Word) (w : Width) (v : Word) : (s.deliverWrite addr w v).mgPhase = s.mgPhase := by
  unfold State.deliverWrite; split <;> rfl
@[simp] theorem deliverWrite_mgBitpos (addr : Word) (w : Width) (v : Word) : (s.deliverWrite addr w v).mgBitpos = s.mgBitpos := by
  unfold State.deliverWrite; split <;> rfl
@[simp] theorem deliverWrite_mgData (addr : Word) (w : Width) (v : Word) : (s.deliverWrite addr w v).mgData = s.mgData := by
  unfold State.deliverWrite; split <;> rfl
@[simp] theorem deliverWrite_mgOwner (addr : Word) (w : Width) (v : Word) : (s.deliverWrite addr w v).mgOwner = s.mgOwner := by
  unfold State.deliverWrite; split <;> rfl
@[simp] theorem deliverWrite_portTask (addr : Word) (w : Width) (v : Word) : (s.deliverWrite addr w v).portTask = s.portTask := by
  unfold State.deliverWrite; split <;> rfl
@[simp] theorem deliverWrite_portIrq (addr : Word) (w : Width) (v : Word) : (s.deliverWrite addr w v).portIrq = s.portIrq := by
  unfold State.deliverWrite; split <;> rfl
@[simp] theorem deliverWrite_preempted (addr : Word) (w : Width) (v : Word) : (s.deliverWrite addr w v).preempted = s.preempted := by
  unfold State.deliverWrite; split <;> rfl
@[simp] theorem deliverWrite_fault (addr : Word) (w : Width) (v : Word) : (s.deliverWrite addr w v).fault = s.fault := by
  unfold State.deliverWrite; split <;> rfl
@[simp] theorem deliverWrite_refused (addr : Word) (w : Width) (v : Word) : (s.deliverWrite addr w v).refused = s.refused := by
  unfold State.deliverWrite; split <;> rfl
@[simp] theorem deliverWrite_log (addr : Word) (w : Width) (v : Word) : (s.deliverWrite addr w v).log = s.log := by
  unfold State.deliverWrite; split <;> rfl
@[simp] theorem deliverWrite_mem (addr : Word) (w : Width) (v : Word) : (s.deliverWrite addr w v).mem = s.mem := by
  unfold State.deliverWrite; split <;> rfl
@[simp] theorem deliverWrite_port (addr : Word) (w : Width) (v : Word) (p : Port) : (s.deliverWrite addr w v).port p = s.port p := by
  cases p <;> simp [State.port]
@[simp] theorem ready_deliverWrite (addr : Word) (w : Width) (v : Word) (p : Port) : Ready (s.deliverWrite addr w v) p = Ready s p := by
  cases p <;> simp [Ready]
@[simp] theorem deliverWrite_out (addr : Word) (w : Width) (v : Word) :
    (s.deliverWrite addr w v).out = s.out := by
  unfold State.deliverWrite; split <;> rfl
@[simp] theorem deliverWrite_rest (addr : Word) (w : Width) (v : Word) :
    (s.deliverWrite addr w v).rest = s.rest := by
  unfold State.deliverWrite; split <;> rfl
@[simp] theorem deliverWrite_setPort (p : Port) (x : PortState) (addr : Word) (w : Width) (v : Word) :
    (s.setPort p x).deliverWrite addr w v = (s.deliverWrite addr w v).setPort p x := by
  unfold State.deliverWrite; simp only [setPort_env, setPort_cfg]; split <;> simp

/-! ### `memRead` and `memWrite` -/

@[simp] theorem memRead_cfg (addr : Word) (w : Width) : (s.memRead addr w).2.cfg = s.cfg := by
  simp [State.memRead]
@[simp] theorem memRead_regOffset (addr : Word) (w : Width) : (s.memRead addr w).2.regOffset = s.regOffset := by
  simp [State.memRead]
@[simp] theorem memRead_dmaing (addr : Word) (w : Width) : (s.memRead addr w).2.dmaing = s.dmaing := by
  simp [State.memRead]
@[simp] theorem memRead_memrShadow (addr : Word) (w : Width) : (s.memRead addr w).2.memrShadow = s.memrShadow := by
  simp [State.memRead]
@[simp] theorem memRead_mgPhase (addr : Word) (w : Width) : (s.memRead addr w).2.mgPhase = s.mgPhase := by
  simp [State.memRead]
@[simp] theorem memRead_mgBitpos (addr : Word) (w : Width) : (s.memRead addr w).2.mgBitpos = s.mgBitpos := by
  simp [State.memRead]
@[simp] theorem memRead_mgData (addr : Word) (w : Width) : (s.memRead addr w).2.mgData = s.mgData := by
  simp [State.memRead]
@[simp] theorem memRead_mgOwner (addr : Word) (w : Width) : (s.memRead addr w).2.mgOwner = s.mgOwner := by
  simp [State.memRead]
@[simp] theorem memRead_portTask (addr : Word) (w : Width) : (s.memRead addr w).2.portTask = s.portTask := by
  simp [State.memRead]
@[simp] theorem memRead_portIrq (addr : Word) (w : Width) : (s.memRead addr w).2.portIrq = s.portIrq := by
  simp [State.memRead]
@[simp] theorem memRead_preempted (addr : Word) (w : Width) : (s.memRead addr w).2.preempted = s.preempted := by
  simp [State.memRead]
@[simp] theorem memRead_fault (addr : Word) (w : Width) : (s.memRead addr w).2.fault = s.fault := by
  simp [State.memRead]
@[simp] theorem memRead_refused (addr : Word) (w : Width) : (s.memRead addr w).2.refused = s.refused := by
  simp [State.memRead]
@[simp] theorem memRead_log (addr : Word) (w : Width) : (s.memRead addr w).2.log = s.log := by
  simp [State.memRead]
@[simp] theorem memRead_mem (addr : Word) (w : Width) : (s.memRead addr w).2.mem = s.mem := by
  simp [State.memRead]
@[simp] theorem memRead_port (addr : Word) (w : Width) (p : Port) : (s.memRead addr w).2.port p = s.port p := by
  cases p <;> simp [State.port]
@[simp] theorem ready_memRead (addr : Word) (w : Width) (p : Port) : Ready (s.memRead addr w).2 p = Ready s p := by
  cases p <;> simp [Ready]
@[simp] theorem memRead_fst (addr : Word) (w : Width) : (s.memRead addr w).1 = (s.drawBus addr w).1 := rfl
/-- A read is one cycle of the trace, with the environment's answer (R62, R68). -/
@[simp] theorem memRead_cycles (addr : Word) (w : Width) :
    (s.memRead addr w).2.out.cycles = s.out.cycles ++ [.read addr w (s.drawBus addr w).1] := by
  simp [State.memRead]
@[simp] theorem memRead_responses (addr : Word) (w : Width) :
    (s.memRead addr w).2.out.responses = s.out.responses := by
  simp [State.memRead]
@[simp] theorem memRead_reinitReq (addr : Word) (w : Width) :
    (s.memRead addr w).2.out.reinitReq = s.out.reinitReq := by
  simp [State.memRead]
@[simp] theorem memRead_rest (addr : Word) (w : Width) : (s.memRead addr w).2.rest = s.rest := by
  simp [State.memRead]
@[simp] theorem memRead_setPort (p : Port) (x : PortState) (addr : Word) (w : Width) :
    (s.setPort p x).memRead addr w = ((s.memRead addr w).1, (s.memRead addr w).2.setPort p x) := by
  simp [State.memRead]

@[simp] theorem memWrite_cfg (addr : Word) (w : Width) (v : Word) : (s.memWrite addr w v).cfg = s.cfg := by
  simp [State.memWrite]
@[simp] theorem memWrite_regOffset (addr : Word) (w : Width) (v : Word) : (s.memWrite addr w v).regOffset = s.regOffset := by
  simp [State.memWrite]
@[simp] theorem memWrite_dmaing (addr : Word) (w : Width) (v : Word) : (s.memWrite addr w v).dmaing = s.dmaing := by
  simp [State.memWrite]
@[simp] theorem memWrite_memrShadow (addr : Word) (w : Width) (v : Word) : (s.memWrite addr w v).memrShadow = s.memrShadow := by
  simp [State.memWrite]
@[simp] theorem memWrite_mgPhase (addr : Word) (w : Width) (v : Word) : (s.memWrite addr w v).mgPhase = s.mgPhase := by
  simp [State.memWrite]
@[simp] theorem memWrite_mgBitpos (addr : Word) (w : Width) (v : Word) : (s.memWrite addr w v).mgBitpos = s.mgBitpos := by
  simp [State.memWrite]
@[simp] theorem memWrite_mgData (addr : Word) (w : Width) (v : Word) : (s.memWrite addr w v).mgData = s.mgData := by
  simp [State.memWrite]
@[simp] theorem memWrite_mgOwner (addr : Word) (w : Width) (v : Word) : (s.memWrite addr w v).mgOwner = s.mgOwner := by
  simp [State.memWrite]
@[simp] theorem memWrite_portTask (addr : Word) (w : Width) (v : Word) : (s.memWrite addr w v).portTask = s.portTask := by
  simp [State.memWrite]
@[simp] theorem memWrite_portIrq (addr : Word) (w : Width) (v : Word) : (s.memWrite addr w v).portIrq = s.portIrq := by
  simp [State.memWrite]
@[simp] theorem memWrite_preempted (addr : Word) (w : Width) (v : Word) : (s.memWrite addr w v).preempted = s.preempted := by
  simp [State.memWrite]
@[simp] theorem memWrite_fault (addr : Word) (w : Width) (v : Word) : (s.memWrite addr w v).fault = s.fault := by
  simp [State.memWrite]
@[simp] theorem memWrite_refused (addr : Word) (w : Width) (v : Word) : (s.memWrite addr w v).refused = s.refused := by
  simp [State.memWrite]
@[simp] theorem memWrite_log (addr : Word) (w : Width) (v : Word) : (s.memWrite addr w v).log = s.log := by
  simp [State.memWrite]
@[simp] theorem memWrite_mem (addr : Word) (w : Width) (v : Word) : (s.memWrite addr w v).mem = s.mem := by
  simp [State.memWrite]
@[simp] theorem memWrite_port (addr : Word) (w : Width) (v : Word) (p : Port) : (s.memWrite addr w v).port p = s.port p := by
  cases p <;> simp [State.port]
@[simp] theorem ready_memWrite (addr : Word) (w : Width) (v : Word) (p : Port) : Ready (s.memWrite addr w v) p = Ready s p := by
  cases p <;> simp [Ready]
/-- A write is one cycle of the trace (R62). -/
@[simp] theorem memWrite_cycles (addr : Word) (w : Width) (v : Word) :
    (s.memWrite addr w v).out.cycles = s.out.cycles ++ [.write addr w (w.trunc v)] := by
  simp [State.memWrite]
@[simp] theorem memWrite_responses (addr : Word) (w : Width) (v : Word) :
    (s.memWrite addr w v).out.responses = s.out.responses := by
  simp [State.memWrite]
@[simp] theorem memWrite_reinitReq (addr : Word) (w : Width) (v : Word) :
    (s.memWrite addr w v).out.reinitReq = s.out.reinitReq := by
  simp [State.memWrite]
@[simp] theorem memWrite_rest (addr : Word) (w : Width) (v : Word) :
    (s.memWrite addr w v).rest = s.rest := by
  simp [State.memWrite]
@[simp] theorem memWrite_setPort (p : Port) (x : PortState) (addr : Word) (w : Width) (v : Word) :
    (s.setPort p x).memWrite addr w v = (s.memWrite addr w v).setPort p x := by
  simp [State.memWrite]

/-! ### Widths -/

@[simp] theorem trunc_w8_setWidth (v : Byte) : Width.w8.trunc (v.setWidth 32) = v.setWidth 32 := by
  simp [Width.trunc]
@[simp] theorem trunc_w16_setWidth (v : Half) : Width.w16.trunc (v.setWidth 32) = v.setWidth 32 := by
  simp [Width.trunc]
@[simp] theorem trunc_w32 (v : Word) : Width.w32.trunc v = v := rfl
@[simp] theorem trunc_trunc (w : Width) (v : Word) : w.trunc (w.trunc v) = w.trunc v := by
  cases w <;> simp [Width.trunc]

/-- The environment's answer has the cycle's width. -/
@[simp] theorem trunc_drawBus (addr : Word) (w : Width) :
    w.trunc (s.drawBus addr w).1 = (s.drawBus addr w).1 := by
  unfold State.drawBus; (split <;> try split) <;> simp

/-- An 8-bit answer is its low byte. -/
theorem drawBus_w8 (addr : Word) :
    ((s.drawBus addr .w8).1.setWidth 8).setWidth 32 = (s.drawBus addr .w8).1 :=
  trunc_drawBus s addr .w8

/-- A 16-bit answer is its low half. -/
theorem drawBus_w16 (addr : Word) :
    ((s.drawBus addr .w16).1.setWidth 16).setWidth 32 = (s.drawBus addr .w16).1 :=
  trunc_drawBus s addr .w16

/-! ### `regAddr` -/

@[simp] theorem regAddr_setPort (p : Port) (x : PortState) (i : Fin 32) :
    (s.setPort p x).regAddr i = s.regAddr i := by
  cases p <;> rfl

/-- `Reg(i)` depends only on the configuration and the table (R80). -/
theorem regAddr_congr {s t : State} (hc : t.cfg = s.cfg) (ho : t.regOffset = s.regOffset) (i : Fin 32) :
    t.regAddr i = s.regAddr i := by
  simp [State.regAddr, hc, ho]

@[simp] theorem regAddr_withDmaing (v : Byte) (i : Fin 32) : (s.withDmaing v).regAddr i = s.regAddr i := rfl
@[simp] theorem regAddr_withShadow (v : Byte) (i : Fin 32) : (s.withShadow v).regAddr i = s.regAddr i := rfl
@[simp] theorem regAddr_withMgPhase (v : MgPhase) (i : Fin 32) : (s.withMgPhase v).regAddr i = s.regAddr i := rfl
@[simp] theorem regAddr_withMgBitpos (v : BitVec 5) (i : Fin 32) : (s.withMgBitpos v).regAddr i = s.regAddr i := rfl
@[simp] theorem regAddr_withMgData (v : Half) (i : Fin 32) : (s.withMgData v).regAddr i = s.regAddr i := rfl
@[simp] theorem regAddr_withMgOwner (v : Option Port) (i : Fin 32) : (s.withMgOwner v).regAddr i = s.regAddr i := rfl
@[simp] theorem regAddr_withMem (v : Memory) (i : Fin 32) : (s.withMem v).regAddr i = s.regAddr i := rfl
@[simp] theorem regAddr_withEnv (v : Env) (i : Fin 32) : (s.withEnv v).regAddr i = s.regAddr i := rfl
@[simp] theorem regAddr_withReinitReq (v : Bool) (i : Fin 32) : (s.withReinitReq v).regAddr i = s.regAddr i := rfl
@[simp] theorem regAddr_logEvent (e : Event) (i : Fin 32) : (s.logEvent e).regAddr i = s.regAddr i := rfl
@[simp] theorem regAddr_record (c : BusCycle) (i : Fin 32) : (s.record c).regAddr i = s.regAddr i := rfl
@[simp] theorem regAddr_memRead (addr : Word) (w : Width) (i : Fin 32) :
    (s.memRead addr w).2.regAddr i = s.regAddr i := by
  simp [State.regAddr]
@[simp] theorem regAddr_memWrite (addr : Word) (w : Width) (v : Word) (i : Fin 32) :
    (s.memWrite addr w v).regAddr i = s.regAddr i := by
  simp [State.regAddr]

/-! ### `regRd8`, `regWr8` -/

@[simp] theorem regRd8_cfg (i : Fin 32) : (s.regRd8 i).2.cfg = s.cfg := by
  simp [State.regRd8]
@[simp] theorem regRd8_regOffset (i : Fin 32) : (s.regRd8 i).2.regOffset = s.regOffset := by
  simp [State.regRd8]
@[simp] theorem regRd8_dmaing (i : Fin 32) : (s.regRd8 i).2.dmaing = s.dmaing := by
  simp [State.regRd8]
@[simp] theorem regRd8_memrShadow (i : Fin 32) : (s.regRd8 i).2.memrShadow = s.memrShadow := by
  simp [State.regRd8]
@[simp] theorem regRd8_mgPhase (i : Fin 32) : (s.regRd8 i).2.mgPhase = s.mgPhase := by
  simp [State.regRd8]
@[simp] theorem regRd8_mgBitpos (i : Fin 32) : (s.regRd8 i).2.mgBitpos = s.mgBitpos := by
  simp [State.regRd8]
@[simp] theorem regRd8_mgData (i : Fin 32) : (s.regRd8 i).2.mgData = s.mgData := by
  simp [State.regRd8]
@[simp] theorem regRd8_mgOwner (i : Fin 32) : (s.regRd8 i).2.mgOwner = s.mgOwner := by
  simp [State.regRd8]
@[simp] theorem regRd8_portTask (i : Fin 32) : (s.regRd8 i).2.portTask = s.portTask := by
  simp [State.regRd8]
@[simp] theorem regRd8_portIrq (i : Fin 32) : (s.regRd8 i).2.portIrq = s.portIrq := by
  simp [State.regRd8]
@[simp] theorem regRd8_preempted (i : Fin 32) : (s.regRd8 i).2.preempted = s.preempted := by
  simp [State.regRd8]
@[simp] theorem regRd8_fault (i : Fin 32) : (s.regRd8 i).2.fault = s.fault := by
  simp [State.regRd8]
@[simp] theorem regRd8_refused (i : Fin 32) : (s.regRd8 i).2.refused = s.refused := by
  simp [State.regRd8]
@[simp] theorem regRd8_log (i : Fin 32) : (s.regRd8 i).2.log = s.log := by
  simp [State.regRd8]
@[simp] theorem regRd8_mem (i : Fin 32) : (s.regRd8 i).2.mem = s.mem := by
  simp [State.regRd8]
@[simp] theorem regRd8_port (i : Fin 32) (p : Port) : (s.regRd8 i).2.port p = s.port p := by
  cases p <;> simp [State.port]
@[simp] theorem ready_regRd8 (i : Fin 32) (p : Port) : Ready (s.regRd8 i).2 p = Ready s p := by
  cases p <;> simp [Ready]
@[simp] theorem regRd8_fst (i : Fin 32) :
    (s.regRd8 i).1 = (s.drawBus (s.regAddr i) .w8).1.setWidth 8 := rfl
/-- `RegRd8` is exactly one 8-bit read cycle (R82). -/
@[simp] theorem regRd8_cycles (i : Fin 32) :
    (s.regRd8 i).2.out.cycles = s.out.cycles ++ [s.rd i (s.regRd8 i).1] := by
  simp [State.regRd8, State.rd, drawBus_w8]
@[simp] theorem regRd8_responses (i : Fin 32) : (s.regRd8 i).2.out.responses = s.out.responses := by
  simp [State.regRd8]
@[simp] theorem regRd8_reinitReq (i : Fin 32) : (s.regRd8 i).2.out.reinitReq = s.out.reinitReq := by
  simp [State.regRd8]
@[simp] theorem regRd8_rest (i : Fin 32) : (s.regRd8 i).2.rest = s.rest := by
  simp [State.regRd8]
@[simp] theorem regRd8_setPort (p : Port) (x : PortState) (i : Fin 32) :
    (s.setPort p x).regRd8 i = ((s.regRd8 i).1, (s.regRd8 i).2.setPort p x) := by
  simp [State.regRd8]
@[simp] theorem regAddr_regRd8 (i j : Fin 32) : (s.regRd8 i).2.regAddr j = s.regAddr j := by
  simp [State.regRd8]

@[simp] theorem regWr8_cfg (i : Fin 32) (v : Byte) : (s.regWr8 i v).cfg = s.cfg := by
  simp [State.regWr8]
@[simp] theorem regWr8_regOffset (i : Fin 32) (v : Byte) : (s.regWr8 i v).regOffset = s.regOffset := by
  simp [State.regWr8]
@[simp] theorem regWr8_dmaing (i : Fin 32) (v : Byte) : (s.regWr8 i v).dmaing = s.dmaing := by
  simp [State.regWr8]
@[simp] theorem regWr8_memrShadow (i : Fin 32) (v : Byte) : (s.regWr8 i v).memrShadow = s.memrShadow := by
  simp [State.regWr8]
@[simp] theorem regWr8_mgPhase (i : Fin 32) (v : Byte) : (s.regWr8 i v).mgPhase = s.mgPhase := by
  simp [State.regWr8]
@[simp] theorem regWr8_mgBitpos (i : Fin 32) (v : Byte) : (s.regWr8 i v).mgBitpos = s.mgBitpos := by
  simp [State.regWr8]
@[simp] theorem regWr8_mgData (i : Fin 32) (v : Byte) : (s.regWr8 i v).mgData = s.mgData := by
  simp [State.regWr8]
@[simp] theorem regWr8_mgOwner (i : Fin 32) (v : Byte) : (s.regWr8 i v).mgOwner = s.mgOwner := by
  simp [State.regWr8]
@[simp] theorem regWr8_portTask (i : Fin 32) (v : Byte) : (s.regWr8 i v).portTask = s.portTask := by
  simp [State.regWr8]
@[simp] theorem regWr8_portIrq (i : Fin 32) (v : Byte) : (s.regWr8 i v).portIrq = s.portIrq := by
  simp [State.regWr8]
@[simp] theorem regWr8_preempted (i : Fin 32) (v : Byte) : (s.regWr8 i v).preempted = s.preempted := by
  simp [State.regWr8]
@[simp] theorem regWr8_fault (i : Fin 32) (v : Byte) : (s.regWr8 i v).fault = s.fault := by
  simp [State.regWr8]
@[simp] theorem regWr8_refused (i : Fin 32) (v : Byte) : (s.regWr8 i v).refused = s.refused := by
  simp [State.regWr8]
@[simp] theorem regWr8_log (i : Fin 32) (v : Byte) : (s.regWr8 i v).log = s.log := by
  simp [State.regWr8]
@[simp] theorem regWr8_mem (i : Fin 32) (v : Byte) : (s.regWr8 i v).mem = s.mem := by
  simp [State.regWr8]
@[simp] theorem regWr8_port (i : Fin 32) (v : Byte) (p : Port) : (s.regWr8 i v).port p = s.port p := by
  cases p <;> simp [State.port]
@[simp] theorem ready_regWr8 (i : Fin 32) (v : Byte) (p : Port) : Ready (s.regWr8 i v) p = Ready s p := by
  cases p <;> simp [Ready]
/-- `RegWr8` is exactly one 8-bit write cycle (R82). -/
@[simp] theorem regWr8_cycles (i : Fin 32) (v : Byte) :
    (s.regWr8 i v).out.cycles = s.out.cycles ++ [s.wr i v] := by
  simp [State.regWr8, State.wr]
@[simp] theorem regWr8_responses (i : Fin 32) (v : Byte) :
    (s.regWr8 i v).out.responses = s.out.responses := by
  simp [State.regWr8]
@[simp] theorem regWr8_reinitReq (i : Fin 32) (v : Byte) :
    (s.regWr8 i v).out.reinitReq = s.out.reinitReq := by
  simp [State.regWr8]
@[simp] theorem regWr8_rest (i : Fin 32) (v : Byte) : (s.regWr8 i v).rest = s.rest := by
  simp [State.regWr8]
@[simp] theorem regWr8_setPort (p : Port) (x : PortState) (i : Fin 32) (v : Byte) :
    (s.setPort p x).regWr8 i v = (s.regWr8 i v).setPort p x := by
  simp [State.regWr8]
@[simp] theorem regAddr_regWr8 (i j : Fin 32) (v : Byte) : (s.regWr8 i v).regAddr j = s.regAddr j := by
  simp [State.regWr8]

/-! ### `push` (R116) -/

@[simp] theorem push_memrShadow (b : Byte) : (s.push b).memrShadow = b := by
  simp [State.push]

@[simp] theorem push_cfg (b : Byte) : (s.push b).cfg = s.cfg := by
  simp [State.push]
@[simp] theorem push_regOffset (b : Byte) : (s.push b).regOffset = s.regOffset := by
  simp [State.push]
@[simp] theorem push_dmaing (b : Byte) : (s.push b).dmaing = s.dmaing := by
  simp [State.push]
@[simp] theorem push_mgPhase (b : Byte) : (s.push b).mgPhase = s.mgPhase := by
  simp [State.push]
@[simp] theorem push_mgBitpos (b : Byte) : (s.push b).mgBitpos = s.mgBitpos := by
  simp [State.push]
@[simp] theorem push_mgData (b : Byte) : (s.push b).mgData = s.mgData := by
  simp [State.push]
@[simp] theorem push_mgOwner (b : Byte) : (s.push b).mgOwner = s.mgOwner := by
  simp [State.push]
@[simp] theorem push_portTask (b : Byte) : (s.push b).portTask = s.portTask := by
  simp [State.push]
@[simp] theorem push_portIrq (b : Byte) : (s.push b).portIrq = s.portIrq := by
  simp [State.push]
@[simp] theorem push_preempted (b : Byte) : (s.push b).preempted = s.preempted := by
  simp [State.push]
@[simp] theorem push_fault (b : Byte) : (s.push b).fault = s.fault := by
  simp [State.push]
@[simp] theorem push_refused (b : Byte) : (s.push b).refused = s.refused := by
  simp [State.push]
@[simp] theorem push_log (b : Byte) : (s.push b).log = s.log := by
  simp [State.push]
@[simp] theorem push_mem (b : Byte) : (s.push b).mem = s.mem := by
  simp [State.push]
@[simp] theorem push_port (b : Byte) (p : Port) : (s.push b).port p = s.port p := by
  cases p <;> simp [State.port]
@[simp] theorem ready_push (b : Byte) (p : Port) : Ready (s.push b) p = Ready s p := by
  cases p <;> simp [Ready]
/-- A push is exactly one MEMR write carrying the whole shadow (R116). -/
@[simp] theorem push_cycles (b : Byte) :
    (s.push b).out.cycles = s.out.cycles ++ [s.wr nicMemr b] := by
  simp [State.push, State.wr]
@[simp] theorem push_responses (b : Byte) : (s.push b).out.responses = s.out.responses := by
  simp [State.push]
@[simp] theorem push_reinitReq (b : Byte) : (s.push b).out.reinitReq = s.out.reinitReq := by
  simp [State.push]
@[simp] theorem push_rest (b : Byte) : (s.push b).rest = { s.rest with memrShadow := b } := by
  simp [State.push]
@[simp] theorem push_setPort (p : Port) (x : PortState) (b : Byte) :
    (s.setPort p x).push b = (s.push b).setPort p x := by
  simp [State.push]
@[simp] theorem regAddr_push (b : Byte) (j : Fin 32) : (s.push b).regAddr j = s.regAddr j := by
  simp [State.push]

/-! ### `wr` and `rd` of an update -/

theorem wr_congr {s t : State} (h : ∀ j, t.regAddr j = s.regAddr j) (i : Fin 32) (v : Byte) :
    t.wr i v = s.wr i v := by
  simp [State.wr, h]
theorem rd_congr {s t : State} (h : ∀ j, t.regAddr j = s.regAddr j) (i : Fin 32) (v : Byte) :
    t.rd i v = s.rd i v := by
  simp [State.rd, h]

@[simp] theorem wr_setPort (p : Port) (x : PortState) (i : Fin 32) (v : Byte) : (s.setPort p x).wr i v = s.wr i v := by
  simp [State.wr]
@[simp] theorem rd_setPort (p : Port) (x : PortState) (i : Fin 32) (v : Byte) : (s.setPort p x).rd i v = s.rd i v := by
  simp [State.rd]
@[simp] theorem wr_regRd8 (j : Fin 32) (i : Fin 32) (v : Byte) : (s.regRd8 j).2.wr i v = s.wr i v := by
  simp [State.wr]
@[simp] theorem rd_regRd8 (j : Fin 32) (i : Fin 32) (v : Byte) : (s.regRd8 j).2.rd i v = s.rd i v := by
  simp [State.rd]
@[simp] theorem wr_regWr8 (j : Fin 32) (b : Byte) (i : Fin 32) (v : Byte) : (s.regWr8 j b).wr i v = s.wr i v := by
  simp [State.wr]
@[simp] theorem rd_regWr8 (j : Fin 32) (b : Byte) (i : Fin 32) (v : Byte) : (s.regWr8 j b).rd i v = s.rd i v := by
  simp [State.rd]
@[simp] theorem wr_push (b : Byte) (i : Fin 32) (v : Byte) : (s.push b).wr i v = s.wr i v := by
  simp [State.wr]
@[simp] theorem rd_push (b : Byte) (i : Fin 32) (v : Byte) : (s.push b).rd i v = s.rd i v := by
  simp [State.rd]
@[simp] theorem wr_withDmaing (b : Byte) (i : Fin 32) (v : Byte) : (s.withDmaing b).wr i v = s.wr i v := by
  simp [State.wr]
@[simp] theorem rd_withDmaing (b : Byte) (i : Fin 32) (v : Byte) : (s.withDmaing b).rd i v = s.rd i v := by
  simp [State.rd]
@[simp] theorem wr_withMgPhase (b : MgPhase) (i : Fin 32) (v : Byte) : (s.withMgPhase b).wr i v = s.wr i v := by
  simp [State.wr]
@[simp] theorem rd_withMgPhase (b : MgPhase) (i : Fin 32) (v : Byte) : (s.withMgPhase b).rd i v = s.rd i v := by
  simp [State.rd]
@[simp] theorem wr_withMgBitpos (b : BitVec 5) (i : Fin 32) (v : Byte) : (s.withMgBitpos b).wr i v = s.wr i v := by
  simp [State.wr]
@[simp] theorem rd_withMgBitpos (b : BitVec 5) (i : Fin 32) (v : Byte) : (s.withMgBitpos b).rd i v = s.rd i v := by
  simp [State.rd]
@[simp] theorem wr_withMgData (b : Half) (i : Fin 32) (v : Byte) : (s.withMgData b).wr i v = s.wr i v := by
  simp [State.wr]
@[simp] theorem rd_withMgData (b : Half) (i : Fin 32) (v : Byte) : (s.withMgData b).rd i v = s.rd i v := by
  simp [State.rd]
@[simp] theorem wr_withMgOwner (b : Option Port) (i : Fin 32) (v : Byte) : (s.withMgOwner b).wr i v = s.wr i v := by
  simp [State.wr]
@[simp] theorem rd_withMgOwner (b : Option Port) (i : Fin 32) (v : Byte) : (s.withMgOwner b).rd i v = s.rd i v := by
  simp [State.rd]
@[simp] theorem wr_withMem (b : Memory) (i : Fin 32) (v : Byte) : (s.withMem b).wr i v = s.wr i v := by
  simp [State.wr]
@[simp] theorem rd_withMem (b : Memory) (i : Fin 32) (v : Byte) : (s.withMem b).rd i v = s.rd i v := by
  simp [State.rd]
@[simp] theorem wr_logEvent (b : Event) (i : Fin 32) (v : Byte) : (s.logEvent b).wr i v = s.wr i v := by
  simp [State.wr]
@[simp] theorem rd_logEvent (b : Event) (i : Fin 32) (v : Byte) : (s.logEvent b).rd i v = s.rd i v := by
  simp [State.rd]
@[simp] theorem wr_memRead (b : Word) (w : Width) (i : Fin 32) (v : Byte) : (s.memRead b w).2.wr i v = s.wr i v := by
  simp [State.wr]
@[simp] theorem rd_memRead (b : Word) (w : Width) (i : Fin 32) (v : Byte) : (s.memRead b w).2.rd i v = s.rd i v := by
  simp [State.rd]
@[simp] theorem wr_memWrite (b : Word) (w : Width) (u : Word) (i : Fin 32) (v : Byte) : (s.memWrite b w u).wr i v = s.wr i v := by
  simp [State.wr]
@[simp] theorem rd_memWrite (b : Word) (w : Width) (u : Word) (i : Fin 32) (v : Byte) : (s.memWrite b w u).rd i v = s.rd i v := by
  simp [State.rd]
@[simp] theorem wr_withReinitReq (b : Bool) (i : Fin 32) (v : Byte) : (s.withReinitReq b).wr i v = s.wr i v := by
  simp [State.wr]
@[simp] theorem rd_withReinitReq (b : Bool) (i : Fin 32) (v : Byte) : (s.withReinitReq b).rd i v = s.rd i v := by
  simp [State.rd]

end Sys2Proof.Machine
end

