-- ==== Sys2Proof/Laws/Memory.lean ====
section
/-!
SUPPORT. Host memory: read after write, and that every operation keeps the canonical form.
-/

namespace Sys2Proof.Machine

open Sys2Proof

namespace Memory

theorem sortedFrom_mono {lo hi : Nat} (h : lo ≤ hi) {m : Memory} (hm : sortedFrom hi m = true) :
    sortedFrom lo m = true := by
  cases m with
  | nil => rfl
  | cons c rest =>
    simp only [sortedFrom, Bool.and_eq_true, decide_eq_true_eq] at hm ⊢
    exact ⟨⟨⟨by omega, hm.1.1.2⟩, hm.1.2⟩, hm.2⟩

/-- Below the lowest listed address every byte reads as an unlisted one. -/
theorem find_below {k lo : Nat} (hk : k < lo) {m : Memory} (hm : sortedFrom lo m = true) :
    find k m = unlistedByte := by
  induction m generalizing lo with
  | nil => rfl
  | cons c rest ih =>
    simp only [sortedFrom, Bool.and_eq_true, decide_eq_true_eq] at hm
    simp only [find]
    rw [if_neg (by omega)]
    exact ih (by omega) hm.2

theorem sortedFrom_put {k lo : Nat} {v : Byte} {m : Memory} (hk : k < 2 ^ 32) (hlo : lo ≤ k)
    (hm : sortedFrom (k + 1) m = true) : sortedFrom lo (put k v m) = true := by
  unfold put
  split
  · exact sortedFrom_mono (by omega) hm
  · simp_all [sortedFrom]

/-- A write keeps the canonical form. -/
theorem sortedFrom_insert {k lo : Nat} {v : Byte} {m : Memory} (hk : k < 2 ^ 32) (hlo : lo ≤ k)
    (hm : sortedFrom lo m = true) : sortedFrom lo (insert k v m) = true := by
  induction m generalizing lo with
  | nil => exact sortedFrom_put hk hlo rfl
  | cons c rest ih =>
    obtain ⟨a, b⟩ := c
    have hm' := hm
    simp only [sortedFrom, Bool.and_eq_true, decide_eq_true_eq] at hm
    obtain ⟨⟨⟨h1, h2⟩, h3⟩, h4⟩ := hm
    simp only [insert]
    split
    · simp only [sortedFrom, Bool.and_eq_true, decide_eq_true_eq]
      exact ⟨⟨⟨h1, h2⟩, h3⟩, ih (by omega) h4⟩
    · split
      · next h => subst h; exact sortedFrom_put hk hlo h4
      · refine sortedFrom_put hk hlo ?_
        simp only [sortedFrom, Bool.and_eq_true, decide_eq_true_eq]
        exact ⟨⟨⟨by omega, h2⟩, h3⟩, h4⟩

theorem find_put_same {k lo : Nat} {v : Byte} {m : Memory} (hk : k < lo) (hm : sortedFrom lo m = true) :
    find k (put k v m) = v := by
  unfold put
  split
  · next h => rw [h]; exact find_below hk hm
  · simp [find]

theorem find_put_other {k j : Nat} (v : Byte) {m : Memory} (h : j ≠ k) : find j (put k v m) = find j m := by
  unfold put
  split
  · rfl
  · simp [find, Ne.symm h]

/-- Reading the byte just written gives the value written. -/
theorem find_insert_same {k lo : Nat} {v : Byte} {m : Memory} (hm : sortedFrom lo m = true) :
    find k (insert k v m) = v := by
  induction m generalizing lo with
  | nil => exact find_put_same (lo := k + 1) (by omega) rfl
  | cons c rest ih =>
    obtain ⟨a, b⟩ := c
    simp only [sortedFrom, Bool.and_eq_true, decide_eq_true_eq] at hm
    obtain ⟨⟨⟨h1, h2⟩, h3⟩, h4⟩ := hm
    simp only [insert]
    split
    · simp only [find]
      rw [if_neg (by omega)]
      exact ih h4
    · split
      · next h => subst h; exact find_put_same (by omega) h4
      · refine find_put_same (lo := k + 1) (by omega) ?_
        simp only [sortedFrom, Bool.and_eq_true, decide_eq_true_eq]
        exact ⟨⟨⟨by omega, h2⟩, h3⟩, h4⟩

/-- A write leaves every other byte as it was. -/
theorem find_insert_other {k j : Nat} (v : Byte) (m : Memory) (h : j ≠ k) :
    find j (insert k v m) = find j m := by
  induction m with
  | nil => exact find_put_other v h
  | cons c rest ih =>
    obtain ⟨a, b⟩ := c
    simp only [insert]
    split
    · simp only [find, ih]
    · split
      · next h' => subst h'; rw [find_put_other v h]; simp [find, Ne.symm h]
      · rw [find_put_other v h]

theorem wf_nil : wf [] = true := rfl

theorem wf_write {m : Memory} (a : Nat) (v : Byte) (hm : m.wf = true) : (m.write a v).wf = true :=
  sortedFrom_insert (Nat.mod_lt _ (by decide)) (Nat.zero_le _) hm

theorem wf_writeBytes {m : Memory} (a : Nat) (bs : List Byte) (hm : m.wf = true) :
    (m.writeBytes a bs).wf = true := by
  induction bs generalizing m a with
  | nil => exact hm
  | cons b rest ih => exact ih (a + 1) (wf_write a b hm)

theorem read_write_same {m : Memory} (a : Nat) (v : Byte) (hm : m.wf = true) :
    (m.write a v).read a = v :=
  find_insert_same hm

theorem read_write_other {m : Memory} {a j : Nat} (v : Byte) (h : hostKey j ≠ hostKey a) :
    (m.write a v).read j = m.read j :=
  find_insert_other v m h

theorem hostKey_of_lt {a : Nat} (h : a < 2 ^ 32) : hostKey a = a := Nat.mod_eq_of_lt h

/-- A write of several bytes leaves every byte outside them as it was. -/
theorem read_writeBytes_other {m : Memory} {a j : Nat} {bs : List Byte} (hfit : a + bs.length ≤ 2 ^ 32)
    (hj : j < 2 ^ 32) (hout : j < a ∨ a + bs.length ≤ j) : (m.writeBytes a bs).read j = m.read j := by
  induction bs generalizing m a with
  | nil => rfl
  | cons b rest ih =>
    simp only [List.length_cons] at hfit hout
    rw [writeBytes, ih (by omega) (by omega), read_write_other]
    rw [hostKey_of_lt hj, hostKey_of_lt (by omega)]
    omega

/-- Reading a byte of a write of several bytes gives that byte. -/
theorem read_writeBytes_same {m : Memory} {a k : Nat} {bs : List Byte} (hm : m.wf = true)
    (hfit : a + bs.length ≤ 2 ^ 32) (hk : k < bs.length) :
    (m.writeBytes a bs).read (a + k) = bs.getD k 0 := by
  induction bs generalizing m a k with
  | nil => simp at hk
  | cons b rest ih =>
    simp only [List.length_cons] at hfit hk
    cases k with
    | zero =>
      rw [writeBytes, Nat.add_zero, read_writeBytes_other (by omega) (by omega) (by omega)]
      simpa using read_write_same a b hm
    | succ k =>
      have := ih (m := m.write a b) (a := a + 1) (k := k) (wf_write a b hm) (by omega) (by omega)
      rw [writeBytes, show a + (k + 1) = a + 1 + k by omega, this]
      simp

theorem writeBytes_append (m : Memory) (a : Nat) (bs cs : List Byte) :
    m.writeBytes a (bs ++ cs) = (m.writeBytes a bs).writeBytes (a + bs.length) cs := by
  induction bs generalizing m a with
  | nil => simp [writeBytes]
  | cons b rest ih => simp [writeBytes, ih, Nat.add_assoc, Nat.add_comm 1]

@[simp] theorem length_readBytes (m : Memory) (a n : Nat) : (m.readBytes a n).length = n := by
  simp [readBytes]

end Memory

end Sys2Proof.Machine
end

