-- ==== Sys2Proof/Laws/Agents.lean ====
section
/-!
SUPPORT. Everything another host agent's access can do to the state (R63), said once.
-/

namespace Sys2Proof.Machine

open Sys2Proof

/-- A port's request is as it was but for the addresses another agent has raced for. -/
inductive SameButRaced : PortState → PortState → Prop
  | idle : SameButRaced .idle .idle
  | active (a : Active) (raced : List Nat) :
      SameButRaced (.active a) (.active { a with locals := { a.locals with raced := raced } })

theorem SameButRaced.refl (x : PortState) : SameButRaced x x := by
  cases x with
  | idle => exact .idle
  | active a => exact .active a a.locals.raced

theorem SameButRaced.trans {x y z : PortState} (h : SameButRaced x y) (k : SameButRaced y z) :
    SameButRaced x z := by
  cases h with
  | idle => exact k
  | active a r => cases k with | active _ r' => exact .active a r'

theorem afterAccess_same (c : Config) (isRead : Bool) (k : Nat) (x : PortState) :
    SameButRaced x (x.afterAccess c isRead k) := by
  unfold PortState.afterAccess
  split
  · cases x with
    | idle => exact .idle
    | active a => exact .active a _
  · exact .refl x

/-- What an access of another agent keeps: every element of the block but the raced addresses of requests
in progress, the schedule and what is presented, the trace and the responses, and memory's canonical form. -/
structure AgentFrame (s t : State) : Prop where
  cfg : t.cfg = s.cfg
  regOffset : t.regOffset = s.regOffset
  dmaing : t.dmaing = s.dmaing
  memrShadow : t.memrShadow = s.memrShadow
  mgPhase : t.mgPhase = s.mgPhase
  mgBitpos : t.mgBitpos = s.mgBitpos
  mgData : t.mgData = s.mgData
  mgOwner : t.mgOwner = s.mgOwner
  portTask : SameButRaced s.portTask t.portTask
  portIrq : SameButRaced s.portIrq t.portIrq
  preempted : t.preempted = s.preempted
  fault : t.fault = s.fault
  refused : t.refused = s.refused
  log : t.log = s.log
  mem : s.mem.wf = true → t.mem.wf = true
  moves : t.env.moves = s.env.moves
  presentedTask : t.env.presentedTask = s.env.presentedTask
  presentedIrq : t.env.presentedIrq = s.env.presentedIrq
  cycles : t.out.cycles = s.out.cycles
  responses : t.out.responses = s.out.responses
  reinitReq : t.out.reinitReq = s.out.reinitReq

theorem AgentFrame.refl (s : State) : AgentFrame s s := by
  constructor <;> first | rfl | exact .refl _ | exact id

theorem AgentFrame.trans {s t u : State} (h : AgentFrame s t) (k : AgentFrame t u) : AgentFrame s u where
  cfg := k.cfg.trans h.cfg
  regOffset := k.regOffset.trans h.regOffset
  dmaing := k.dmaing.trans h.dmaing
  memrShadow := k.memrShadow.trans h.memrShadow
  mgPhase := k.mgPhase.trans h.mgPhase
  mgBitpos := k.mgBitpos.trans h.mgBitpos
  mgData := k.mgData.trans h.mgData
  mgOwner := k.mgOwner.trans h.mgOwner
  portTask := h.portTask.trans k.portTask
  portIrq := h.portIrq.trans k.portIrq
  preempted := k.preempted.trans h.preempted
  fault := k.fault.trans h.fault
  refused := k.refused.trans h.refused
  log := k.log.trans h.log
  mem := k.mem ∘ h.mem
  moves := k.moves.trans h.moves
  presentedTask := k.presentedTask.trans h.presentedTask
  presentedIrq := k.presentedIrq.trans h.presentedIrq
  cycles := k.cycles.trans h.cycles
  responses := k.responses.trans h.responses
  reinitReq := k.reinitReq.trans h.reinitReq

/-- A draw of the host-memory port leaves the schedule and what is presented as they are. -/
theorem drawHost_env (s : State) : s.drawHost.2.env.moves = s.env.moves
    ∧ s.drawHost.2.env.presentedTask = s.env.presentedTask
    ∧ s.drawHost.2.env.presentedIrq = s.env.presentedIrq := by
  unfold State.drawHost; split <;> exact ⟨rfl, rfl, rfl⟩

theorem hostWrite_frame (s : State) (a : Nat) (bs : List Byte) : AgentFrame s (s.hostWrite a bs) := by
  constructor <;> first
    | rfl
    | exact .refl _
    | exact fun h => Memory.wf_writeBytes a bs h

theorem raceByte_frame (s : State) (isRead : Bool) (a : Nat) : AgentFrame s (s.raceByte isRead a).2 := by
  refine AgentFrame.trans (t := ((s.setPort .task (s.portTask.afterAccess s.cfg isRead (hostKey a))).setPort
    .irq (s.portIrq.afterAccess s.cfg isRead (hostKey a)))) ?_
    (AgentFrame.trans (t := State.drawHost _ |>.2) ?_ (hostWrite_frame _ a _))
  · constructor <;> first | rfl | exact afterAccess_same _ _ _ _ | exact id
  · constructor <;> first
      | exact (drawHost_env _).1
      | exact (drawHost_env _).2.1
      | exact (drawHost_env _).2.2
      | (simp; done)
      | (simp only [drawHost_portTask, drawHost_portIrq]; exact .refl _)

/-- Everything a write by another agent can do. -/
theorem hostStore_frame (s : State) (a : Nat) (bs : List Byte) : AgentFrame s (s.hostStore a bs) := by
  induction bs generalizing s a with
  | nil => exact .refl s
  | cons b rest ih =>
    unfold State.hostStore
    split
    · exact (raceByte_frame s false a).trans (ih _ _)
    · exact (hostWrite_frame s a [b]).trans (ih _ _)

theorem hostBytes_frame (s : State) (a n : Nat) : AgentFrame s (s.hostBytes a n).2 := by
  induction n generalizing s a with
  | zero => exact .refl s
  | succ n ih =>
    unfold State.hostBytes
    split
    · exact (raceByte_frame s true a).trans (ih _ _)
    · exact ih _ _

/-- Everything a read by another agent can do. -/
theorem hostLoad_frame (s : State) (a n : Nat) : AgentFrame s (s.hostLoad a n) := by
  refine (hostBytes_frame s a n).trans ?_
  constructor <;> first | rfl | exact .refl _ | exact id

/-- Another agent's access leaves the running request running, at its place. -/
theorem AgentFrame.running {s t : State} (h : AgentFrame s t) {p : Port} {a : Active}
    (hr : s.running = some (p, a)) :
    ∃ b, t.running = some (p, b) ∧ b.desc = a.desc ∧ b.pos = a.pos ∧ b.xstate = a.xstate := by
  have hT := h.portTask
  have hI := h.portIrq
  have hP := h.preempted
  unfold State.running at hr ⊢
  generalize s.portTask = st at *
  generalize s.portIrq = si at *
  generalize t.portTask = tt at *
  generalize t.portIrq = ti at *
  rw [hP]
  cases hI <;> cases hT <;> simp_all
end Sys2Proof.Machine
end

