-- ==== Sys2Proof/Laws/MicroStep.lean ====
section
/-!
SUPPORT. Everything one micro-step of a request can do (R39, R40), said once: `exec_microStep`. A rule of
the whole machine is proved from its cases, not by unfolding the meanings.
-/

namespace Sys2Proof.Machine

open Sys2Proof

/-- A request in progress stands where its pseudocode can stand. -/
structure Standing (c : Config) (i : Instr) (a : Active) : Prop where
  pos : hasPos i a.pos = true
  xstate : a.xstate = xstateAt i a.pos
  window : windowOk c a = true

/-- A request goes on from one place of its pseudocode to the next. -/
structure Moves (c : Config) (i : Instr) (a b : Active) : Prop where
  desc : b.desc = a.desc
  left : b.pos ≠ .start
  keeps : c.winSizeOk = true → Standing c i a → Standing c i b
  xstate : a.xstate = xstateAt i a.pos → XStep a.pos a.xstate b.xstate

/-- The ways one micro-step of request `i`, in progress as `a` on port `p`, can change the state. -/
inductive MicroStep (i : Instr) (p : Port) (a : Active) (s : State) : State → Prop
  | raise (c : Code) (info : Info) (h : a.pos = .start) : MicroStep i p a s (s.raise p c info)
  | respond (c : Code) (v : Half) (h : a.pos = .respond) (hm : isMgmt i = false) :
      MicroStep i p a s (s.respond p .ok c v)
  | mgRespond (v : Half) (h : a.pos = .respond) (hm : isMgmt i = true) :
      MicroStep i p a s (s.mgRespond p v)
  | conflict (op : Byte) (h : a.pos = .acquire) (hd : isDma i = true) (hb : s.dmaing ≠ 0x00) :
      MicroStep i p a s
        ((s.logEvent (.conflict p op s.dmaing)).respond p .conflict .dmaConflict 0)
  | acquire (b : Active) (h : a.pos = .acquire) (hd : isDma i = true) (hb : s.dmaing = 0x00)
      (hx : b.xstate = .armed) (hm : Moves s.cfg i a b) :
      MicroStep i p a s ((s.withDmaing 0x01).setPort p (.active b))
  | release (b : Active) (h : a.pos = .release) (hd : isDma i = true) (hx : b.xstate = .idle)
      (hm : Moves s.cfg i a b) :
      MicroStep i p a s ((s.withDmaing (s.dmaing &&& ~~~0x01)).setPort p (.active b))
  | clear (b : Active) (h : a.pos = .rstClear)
      (hi : i = .reset ∨ ∃ haddr len page, i = .bout haddr len page) (hm : Moves s.cfg i a b) :
      MicroStep i p a s ((s.withDmaing 0x00).setPort p (.active b))
  | goto (b : Active) (h : isMgmt i = true → a.pos ≠ .start) (ha : a.pos ≠ .acquire)
      (hr : a.pos ≠ .release) (hm : Moves s.cfg i a b) :
      MicroStep i p a s (s.setPort p (.active b))
  | read (addr : Word) (w : Width) (b : Active) (h : isMgmt i = true → a.pos ≠ .start)
      (ha : a.pos ≠ .acquire) (hr : a.pos ≠ .release)
      (hc : s.cfg.winSizeOk = true → Standing s.cfg i a → ∀ v, OnBoard s (.read addr w v))
      (hm : Moves s.cfg i a b) :
      MicroStep i p a s ((s.memRead addr w).2.setPort p (.active b))
  | write (addr : Word) (w : Width) (v : Word) (b : Active) (h : isMgmt i = true → a.pos ≠ .start)
      (ha : a.pos ≠ .acquire) (hr : a.pos ≠ .release)
      (hc : s.cfg.winSizeOk = true → Standing s.cfg i a → OnBoard s (.write addr w (w.trunc v)))
      (hm : Moves s.cfg i a b) :
      MicroStep i p a s ((s.memWrite addr w v).setPort p (.active b))
  | busWrite (u : BUnit) (v : Word) (b : Active) (h : a.pos = .bus u) (hi : isMgmt i = false)
      (hc : s.cfg.winSizeOk = true → Standing s.cfg i a →
        OnBoard s (.write (s.unitAddr s.cfg.writeWindow a.locals.xfer u) u.width (u.width.trunc v)))
      (hm : Moves s.cfg i a b) :
      MicroStep i p a s
        (((s.moved a.locals.raced (a.locals.xfer.hostAddr u) a.locals.bytes).2.memWrite
          (s.unitAddr s.cfg.writeWindow a.locals.xfer u) u.width v).setPort p (.active b))
  | hostDraw (b : Active) (h : isMgmt i = false) (ha : a.pos ≠ .acquire) (hr : a.pos ≠ .release)
      (hm : Moves s.cfg i a b) :
      MicroStep i p a s (s.drawHost.2.setPort p (.active b))
  | hostWrite (u : BUnit) (b : Active) (h : a.pos = .host u) (hi : storesToHost i = true)
      (hm : Moves s.cfg i a b) :
      MicroStep i p a s
        (((s.moved a.locals.raced (a.locals.xfer.hostAddr u) a.locals.bytes).2.hostWrite
          (a.locals.xfer.hostAddr u)
          (s.moved a.locals.raced (a.locals.xfer.hostAddr u) a.locals.bytes).1).setPort p (.active b))
  | swap (haddr : Word) (page : Byte) (b0 b1 : Byte) (b : Active) (h : a.pos = .swap)
      (hi : i = .gethdr haddr page) (hm : Moves s.cfg i a b) :
      MicroStep i p a s
        (((s.moved a.locals.raced (haddr.toNat + 2) [b0, b1]).2.hostWrite (haddr.toNat + 2)
          (s.moved a.locals.raced (haddr.toNat + 2) [b0, b1]).1).setPort p (.active b))
  | expired (w : Option Wait) (b : Active) (h : isMgmt i = false) (ha : a.pos ≠ .acquire)
      (hr : a.pos ≠ .release) (hm : Moves s.cfg i a b) :
      MicroStep i p a s ((s.drawWait w).2.setPort p (.active b))
  | timeout (w : Option Wait) (e : Event) (b : Active) (h : isMgmt i = false) (ha : a.pos ≠ .acquire)
      (hr : a.pos ≠ .release) (hm : Moves s.cfg i a b) :
      MicroStep i p a s (((s.drawWait w).2.logEvent e).setPort p (.active b))
  | reinit (haddr : Word) (len : Half) (page : Byte) (b : Active) (h : a.pos = .reinitReq)
      (hi : i = .bout haddr len page) (hb : b.pos = .reinitWait) (hm : Moves s.cfg i a b) :
      MicroStep i p a s (((s.logEvent (.reinit p)).withReinitReq true).setPort p (.active b))
  | reinitWait (haddr : Word) (len : Half) (page : Byte) (h : a.pos = .reinitWait)
      (hi : i = .bout haddr len page) : MicroStep i p a s s.drawReinit.2
  | reinitDone (haddr : Word) (len : Half) (page : Byte) (b : Active) (h : a.pos = .reinitWait)
      (hi : i = .bout haddr len page) (hb : b.pos ≠ .reinitWait) (hm : Moves s.cfg i a b) :
      MicroStep i p a s ((s.drawReinit.2.withReinitReq false).setPort p (.active b))
  | mgEnter (b : Active) (h : a.pos = .start) (hi : isMgmt i = true)
      (ho : ¬ (p = .irq ∧ s.mgOwner = some .task)) (hm : Moves s.cfg i a b) :
      MicroStep i p a s ((s.withMgOwner (some p)).setPort p (.active b))
  | mgLoad (v : Half) (b : Active) (h : a.pos ≠ .start) (ha : a.pos ≠ .acquire)
      (hr : a.pos ≠ .release) (hi : isMgmt i = true) (hm : Moves s.cfg i a b) :
      MicroStep i p a s ((s.withMgData v).setPort p (.active b))
  | mgPush (phase : MgPhase) (bitpos : BitVec 5) (data : Half) (shadow : Byte) (b : Active)
      (h : a.pos ≠ .start) (ha : a.pos ≠ .acquire) (hr : a.pos ≠ .release)
      (hi : isMgmt i = true) (hn : i ≠ .mdi ∧ i ≠ .eerd)
      (hs : s.memrShadow &&& 0x44 = 0 → shadow &&& 0x44 = 0) (hm : Moves s.cfg i a b) :
      MicroStep i p a s
        (((((s.withMgPhase phase).withMgBitpos bitpos).withMgData data).push shadow).setPort p
          (.active b))
  | mgSample (data : Half) (b : Active) (h : a.pos ≠ .start) (ha : a.pos ≠ .acquire)
      (hr : a.pos ≠ .release) (hi : isMgmt i = true) (hm : Moves s.cfg i a b) :
      MicroStep i p a s (((s.regRd8 nicMemr).2.withMgData data).setPort p (.active b))

/-! ### The bridge's loop -/

/-- A window transfer that the loop chooses lies in the window (R55, R90, R91). -/
theorem Xfer.select_window {winSize : Nat} {x : Xfer} (hk : x.k = 0 ∨ x.k < winSize / 4 ∨ x.rem ≤ winSize)
    (hw : 4 ≤ winSize) (h : (Xfer.select winSize x).2 = some .win) :
    (Xfer.select winSize x).1.k < winSize / 4 := by
  unfold Xfer.select at h ⊢
  split
  · next hc => simp only; omega
  · next hc =>
    simp only [hc, if_false, Xfer.tail] at h
    split at h
    · simp at h
    · split at h <;> simp at h

theorem Xfer.advance_window {winSize : Nat} {x : Xfer} {u : BUnit} (hk : u = .win → x.k < winSize / 4)
    (hw : 4 ≤ winSize) (h : (Xfer.advance winSize x u).2 = some .win) :
    (Xfer.advance winSize x u).1.k < winSize / 4 := by
  cases u with
  | win =>
    refine Xfer.select_window ?_ hw h
    have hk := hk rfl
    simp only [Xfer.afterWindow]
    split
    · exact .inl rfl
    · simp only; omega
  | half => simp only [Xfer.advance] at h; split at h <;> simp at h
  | byte => simp [Xfer.advance] at h

theorem four_le_winSize {c : Config} (h : c.winSizeOk = true) : 4 ≤ c.winSize := by
  simp only [Config.winSizeOk, Bool.and_eq_true, decide_eq_true_eq, beq_iff_eq] at h
  omega

/-! ### The meanings -/

/-- A meaning's micro-step on the running request. -/
theorem micro_running {s : State} {p : Port} {a : Active} (h : s.running = some (p, a))
    (f : Port → Active → Result) : s.micro f = f p a := by
  simp [State.micro, h]

theorem regIndex_lt {idx : Byte} {k : Fin 32} (h : regIndex idx = some k) : idx.toNat < 32 := by
  unfold regIndex at h
  split at h
  · assumption
  · cases h

/-- A move between places whose `xstate` is the same and that chooses no window transfer. -/
theorem Moves.quiet {c : Config} {i : Instr} {a b : Active} (hd : b.desc = a.desc) (hl : b.pos ≠ .start)
    (hx : b.xstate = a.xstate) (hp : hasPos i a.pos = true → hasPos i b.pos = true)
    (hsame : xstateAt i b.pos = xstateAt i a.pos)
    (hw : windowOk c a = true → windowOk c b = true)
    (h1 : a.pos ≠ .arm .start) (h2 : a.pos ≠ .ack) (h3 : a.pos ≠ .release) : Moves c i a b where
  desc := hd
  left := hl
  keeps _ hs := ⟨hp hs.pos, by rw [hx, hsame]; exact hs.xstate, hw hs.window⟩
  xstate _ := .inl ⟨hx.symm, h1, h2, h3⟩

/-- A register cycle of 8 or 16 bits is on the board (R54). -/
theorem onBoard_register (s : State) (k : Fin 32) {c : BusCycle} (ha : c.addr = s.regAddr k)
    (hw : c.width ≠ .w32) : OnBoard s c :=
  .inl ⟨k, ha, hw⟩

/-! ### Register-width adapter -/

theorem checkIndex_microStep {i : Instr} {p : Port} {a : Active} {s : State} (idx : Byte)
    (h : a.pos = .start) (hm : isMgmt i = false)
    (hg : idx.toNat < 32 → Moves s.cfg i a { a with pos := .cycle }) :
    MicroStep i p a s (s.checkIndex p a idx) := by
  unfold State.checkIndex
  split
  · next k hk => exact .goto _ (by simp [hm]) (by simp [h]) (by simp [h]) (hg (regIndex_lt hk))
  · exact .raise _ _ h

theorem readCycle_microStep {i : Instr} {idx : Byte} {w : Width} {p : Port} {a : Active} {s t : State}
    (h : readCycle idx w p a s = .next t) (hp : a.pos = .cycle) (hw : w ≠ .w32) 
    (hm : ∀ l, Moves s.cfg i a { a with pos := .respond, locals := l }) : MicroStep i p a s t := by
  unfold readCycle at h
  split at h
  · next k _ =>
    cases h
    exact .read _ w _ (by simp [hp]) (by simp [hp]) (by simp [hp])
      (fun _ _ _ => onBoard_register s k rfl hw) (hm _)
  · cases h

theorem writeCycle_microStep {i : Instr} {idx : Byte} {w : Width} {v : Word} {p : Port} {a : Active}
    {s t : State} (h : writeCycle idx w v p a s = .next t) (hp : a.pos = .cycle) (hw : w ≠ .w32)
    (hm : Moves s.cfg i a { a with pos := .respond }) : MicroStep i p a s t := by
  unfold writeCycle at h
  split at h
  · next k _ =>
    cases h
    exact .write _ w v _ (by simp [hp]) (by simp [hp]) (by simp [hp])
      (fun _ _ => onBoard_register s k rfl hw) hm
  · cases h

theorem execRd8_microStep {idx : Byte} {s t : State} {p : Port} {a : Active}
    (hr : s.running = some (p, a)) (h : execRd8 idx s = .next t) :
    MicroStep (.rd8 idx) p a s t := by
  obtain ⟨d, pos, x, l⟩ := a
  simp only [execRd8, micro_running hr] at h
  split at h
  · cases h
    refine checkIndex_microStep idx rfl rfl fun hi => ?_
    refine .quiet rfl ?_ rfl ?_ rfl ?_ ?_ ?_ ?_ <;>
      simp [windowOk, hasPos, midPos, hi]
  · refine readCycle_microStep h rfl (by simp) fun l => ?_
    refine .quiet rfl ?_ rfl ?_ rfl ?_ ?_ ?_ ?_ <;>
      simp [windowOk, hasPos, midPos]
  · cases h
    exact .respond _ _ rfl rfl
  · cases h

theorem execRd16_microStep {idx : Byte} {s t : State} {p : Port} {a : Active}
    (hr : s.running = some (p, a)) (h : execRd16 idx s = .next t) :
    MicroStep (.rd16 idx) p a s t := by
  obtain ⟨d, pos, x, l⟩ := a
  simp only [execRd16, micro_running hr] at h
  split at h
  · cases h
    refine checkIndex_microStep idx rfl rfl fun hi => ?_
    refine .quiet rfl ?_ rfl ?_ rfl ?_ ?_ ?_ ?_ <;>
      simp [windowOk, hasPos, midPos, hi]
  · refine readCycle_microStep h rfl (by simp) fun l => ?_
    refine .quiet rfl ?_ rfl ?_ rfl ?_ ?_ ?_ ?_ <;>
      simp [windowOk, hasPos, midPos]
  · cases h
    exact .respond _ _ rfl rfl
  · cases h

theorem execWr8_microStep {idx val : Byte} {s t : State} {p : Port} {a : Active}
    (hr : s.running = some (p, a)) (h : execWr8 idx val s = .next t) :
    MicroStep (.wr8 idx val) p a s t := by
  obtain ⟨d, pos, x, l⟩ := a
  simp only [execWr8, micro_running hr] at h
  split at h
  · cases h
    refine checkIndex_microStep idx rfl rfl fun hi => ?_
    refine .quiet rfl ?_ rfl ?_ rfl ?_ ?_ ?_ ?_ <;>
      simp [windowOk, hasPos, midPos, hi]
  · refine writeCycle_microStep h rfl (by simp) ?_
    refine .quiet rfl ?_ rfl ?_ rfl ?_ ?_ ?_ ?_ <;>
      simp [windowOk, hasPos, midPos]
  · cases h
    exact .respond _ _ rfl rfl
  · cases h

theorem execWr16_microStep {idx : Byte} {val : Half} {s t : State} {p : Port} {a : Active}
    (hr : s.running = some (p, a)) (h : execWr16 idx val s = .next t) :
    MicroStep (.wr16 idx val) p a s t := by
  obtain ⟨d, pos, x, l⟩ := a
  simp only [execWr16, micro_running hr] at h
  split at h
  · cases h
    refine checkIndex_microStep idx rfl rfl fun hi => ?_
    refine .quiet rfl ?_ rfl ?_ rfl ?_ ?_ ?_ ?_ <;>
      simp [windowOk, hasPos, midPos, hi]
  · refine writeCycle_microStep h rfl (by simp) ?_
    refine .quiet rfl ?_ rfl ?_ rfl ?_ ?_ ?_ ?_ <;>
      simp [windowOk, hasPos, midPos]
  · cases h
    exact .respond _ _ rfl rfl
  · cases h

/-! ### Block-FIFO bridge -/

/-- The bridge call of a request: where its transfers stand and what comes after them. -/
structure Bridging (i : Instr) (at_ : BUnit → Pos) (done : Active → Active) : Prop where
  pos : ∀ u, hasPos i (at_ u) = true ∧ at_ u ≠ .start
  same : ∀ u, xstateAt i (at_ u) = xstateAt i (.bus .win)
  window : ∀ (c : Config) (a : Active) (u : BUnit),
    (u = .win → a.locals.xfer.k < c.chunkCycles) → windowOk c { a with pos := at_ u } = true
  doneDesc : ∀ a, (done a).desc = a.desc ∧ (done a).xstate = a.xstate
  donePos : ∀ a, hasPos i (done a).pos = true ∧ (done a).pos ≠ .start
    ∧ xstateAt i (done a).pos = xstateAt i (.bus .win)
  doneWindow : ∀ (c : Config) (a : Active), windowOk c (done a) = true

/-- Going on in a bridge call, or past it, from `a` made into `a0`. -/
theorem Bridging.moves {c : Config} {i : Instr} {at_ : BUnit → Pos} {done : Active → Active}
    (hB : Bridging i at_ done) {a a0 : Active} {x : Xfer × Option BUnit} (hd : a0.desc = a.desc)
    (hx : Standing c i a → a0.xstate = xstateAt i (.bus .win))
    (hs : a.xstate = xstateAt i a.pos → XStep a.pos a.xstate a0.xstate)
    (hw : c.winSizeOk = true → Standing c i a → x.2 = some .win → x.1.k < c.chunkCycles) :
    Moves c i a (bridgeTo at_ done a0 x) := by
  obtain ⟨x, o⟩ := x
  cases o with
  | none =>
    have h := hB.donePos { a0 with locals := { a0.locals with xfer := x } }
    have h' := hB.doneDesc { a0 with locals := { a0.locals with xfer := x } }
    refine ⟨h'.1.trans hd, h.2.1, fun _ hst => ⟨h.1, ?_, hB.doneWindow _ _⟩, fun hxa => ?_⟩
    · exact (h'.2.trans (hx hst)).trans h.2.2.symm
    · simpa only [bridgeTo, h'.2] using hs hxa
  | some u =>
    refine ⟨hd, (hB.pos u).2, fun hc hst => ⟨(hB.pos u).1, ?_, ?_⟩, hs⟩
    · exact (hx hst).trans (hB.same u).symm
    · refine hB.window c { a0 with locals := { a0.locals with xfer := x } } u fun hu => ?_
      subst hu
      exact hw hc hst rfl

/-- Entering a bridge call, the loop's counter at 0. -/
theorem select_begin_window {c : Config} {addr count : Nat} (hc : c.winSizeOk = true)
    (h : (Xfer.select c.winSize (Xfer.begin addr count)).2 = some .win) :
    (Xfer.select c.winSize (Xfer.begin addr count)).1.k < c.chunkCycles :=
  Xfer.select_window (.inl rfl) (four_le_winSize hc) h

/-- Going on after a transfer that stood where it can stand. -/
theorem Bridging.advance {c : Config} {i : Instr} {at_ : BUnit → Pos} {done : Active → Active}
    (hB : Bridging i at_ done) {a : Active} {u : BUnit} (hp : a.pos = .host u ∨ a.pos = .bus u)
    (hsame : xstateAt i a.pos = xstateAt i (.bus .win)) :
    Moves c i a (bridgeTo at_ done a (a.locals.xfer.advance c.winSize u)) := by
  refine hB.moves rfl (fun hs => hs.xstate.trans hsame) (fun _ => .inl ⟨rfl, ?_, ?_, ?_⟩)
    fun hc hs h => Xfer.advance_window ?_ (four_le_winSize hc) h
  · rcases hp with hp | hp <;> simp [hp]
  · rcases hp with hp | hp <;> simp [hp]
  · rcases hp with hp | hp <;> simp [hp]
  · intro hu
    subst hu
    have hw := hs.window
    show _ < c.chunkCycles
    rcases hp with hp | hp <;> simpa [windowOk, hp] using hw

theorem bridging_wblk (haddr : Word) (len : Half) : Bridging (.wblk haddr len) .host thenRespond := by
  constructor <;> intros <;> simp_all [hasPos, midPos, inBridge, xstateAt, isDma, thenRespond, windowOk]
  split <;> simp_all

theorem bridging_rblk (haddr : Word) (len : Half) : Bridging (.rblk haddr len) .bus thenRespond := by
  constructor <;> intros <;> simp_all [hasPos, midPos, inBridge, xstateAt, isDma, thenRespond, windowOk]
  split <;> simp_all

theorem bridging_gethdr (haddr : Word) (page : Byte) : Bridging (.gethdr haddr page) .bus thenAck := by
  constructor <;> intros <;>
    simp_all [hasPos, midPos, inBridge, inDma, xstateAt, isDma, thenAck, windowOk]
  split <;> simp_all

theorem bridging_bin (haddr : Word) (len roff : Half) : Bridging (.bin haddr len roff) .bus thenAck := by
  constructor <;> intros <;>
    simp_all [hasPos, midPos, inBridge, inDma, xstateAt, isDma, thenAck, windowOk]
  split <;> simp_all

theorem bridging_bout (haddr : Word) (len : Half) (page : Byte) :
    Bridging (.bout haddr len page) .host thenTxWait := by
  constructor <;> intros <;>
    simp_all [hasPos, midPos, inBridge, inTxWait, xstateAt, isDma, thenTxWait, windowOk]
  split <;> simp_all

/-- A cycle of a bridge transfer is on the board (R54, R55). -/
theorem onBoard_write {s : State} {i : Instr} {a : Active} {u : BUnit} (v : Word) (hp : a.pos = .bus u)
    (hs : Standing s.cfg i a) :
    OnBoard s (.write (s.unitAddr s.cfg.writeWindow a.locals.xfer u) u.width v) := by
  have hw := hs.window
  cases u with
  | win =>
    simp only [windowOk, hp, decide_eq_true_eq] at hw
    exact .inr (.inr ⟨_, hw, rfl, rfl, rfl⟩)
  | half => exact onBoard_register s nicDataport rfl (by simp [BusCycle.width, BUnit.width])
  | byte => exact onBoard_register s nicDataport rfl (by simp [BusCycle.width, BUnit.width])

theorem onBoard_read {s : State} {i : Instr} {a : Active} {u : BUnit} (v : Word) (hp : a.pos = .bus u)
    (hs : Standing s.cfg i a) :
    OnBoard s (.read (s.unitAddr s.cfg.readWindow a.locals.xfer u) u.width v) := by
  have hw := hs.window
  cases u with
  | win =>
    simp only [windowOk, hp, decide_eq_true_eq] at hw
    exact .inr (.inl ⟨_, hw, rfl, rfl, rfl⟩)
  | half => exact onBoard_register s nicDataport rfl (by simp [BusCycle.width, BUnit.width])
  | byte => exact onBoard_register s nicDataport rfl (by simp [BusCycle.width, BUnit.width])

/-- From the first half of a transfer to the second. -/
theorem Moves.transfer {c : Config} {i : Instr} {a : Active} {u : BUnit} {pos : Pos} (l : Locals)
    (h : a.pos = .host u ∧ pos = .bus u ∨ a.pos = .bus u ∧ pos = .host u)
    (hp : hasPos i pos = true) (hsame : xstateAt i pos = xstateAt i a.pos)
    (hl : l.xfer = a.locals.xfer) : Moves c i a { a with pos := pos, locals := l } := by
  obtain ⟨d, q, x, l'⟩ := a
  rcases h with ⟨rfl, rfl⟩ | ⟨rfl, rfl⟩ <;>
    refine .quiet rfl ?_ rfl (fun _ => hp) hsame ?_ ?_ ?_ ?_ <;> simp
  all_goals cases u <;> simp_all [windowOk]

theorem wblkHost_microStep {i : Instr} {pad : Option Nat} {u : BUnit} {p : Port} {a : Active}
    {s t : State} (h : wblkHost pad u p a s = .next t) (hp : a.pos = .host u) (hi : isMgmt i = false)
    (hb : hasPos i (.bus u) = true) (hsame : xstateAt i (.bus u) = xstateAt i (.host u)) :
    MicroStep i p a s t := by
  have hm : ∀ l : Locals, l.xfer = a.locals.xfer →
      Moves s.cfg i a { a with pos := .bus u, locals := l } := fun l hl =>
    .transfer l (.inl ⟨hp, rfl⟩) hb (by rw [hp]; exact hsame) hl
  unfold wblkHost State.hostRead at h
  split at h
  · cases h
    exact .goto _ (by simp [hi]) (by simp [hp]) (by simp [hp]) (hm _ rfl)
  · split at h
    · cases h
      exact .hostDraw _ hi (by simp [hp]) (by simp [hp]) (hm _ rfl)
    · cases h
      exact .goto _ (by simp [hi]) (by simp [hp]) (by simp [hp]) (hm _ rfl)

theorem wblkBus_microStep {i : Instr} {done : Active → Active} {u : BUnit} {p : Port} {a : Active}
    {s t : State} (h : wblkBus done u p a s = .next t) (hp : a.pos = .bus u) (hi : isMgmt i = false)
    (hB : Bridging i .host done) (hsame : xstateAt i (.bus u) = xstateAt i (.bus .win)) :
    MicroStep i p a s t := by
  cases h
  exact .busWrite u _ _ hp hi (fun _ hs => onBoard_write _ hp hs) (hB.advance (.inr hp) (by rw [hp]; exact hsame))

theorem rblkBus_microStep {i : Instr} {keep : Bool} {u : BUnit} {p : Port} {a : Active} {s t : State}
    (h : rblkBus keep u p a s = .next t) (hp : a.pos = .bus u) (hi : isMgmt i = false)
    (hb : hasPos i (.host u) = true) (hsame : xstateAt i (.host u) = xstateAt i (.bus u)) :
    MicroStep i p a s t := by
  cases h
  exact .read _ _ _ (by simp [hi]) (by simp [hp]) (by simp [hp])
    (fun _ hs v => onBoard_read v hp hs)
    (.transfer _ (.inr ⟨hp, rfl⟩) hb (by rw [hp]; exact hsame) rfl)

theorem rblkHost_microStep {i : Instr} {done : Active → Active} {u : BUnit} {p : Port} {a : Active}
    {s t : State} (h : rblkHost done u p a s = .next t) (hp : a.pos = .host u)
    (hi : storesToHost i = true) (hB : Bridging i .bus done)
    (hsame : xstateAt i (.host u) = xstateAt i (.bus .win)) : MicroStep i p a s t := by
  cases h
  exact .hostWrite u _ hp hi (hB.advance (.inl hp) (by rw [hp]; exact hsame))

theorem checkRange_microStep {i : Instr} {p : Port} {a : Active} {s next : State} (haddr : Word)
    (count : Nat) (h : a.pos = .start) (hn : MicroStep i p a s next) :
    MicroStep i p a s (s.checkRange p haddr count next) := by
  unfold State.checkRange
  split
  · exact hn
  · exact .raise _ _ h

theorem execWblk_microStep {haddr : Word} {len : Half} {s t : State} {p : Port} {a : Active}
    (hr : s.running = some (p, a)) (h : execWblk haddr len s = .next t) :
    MicroStep (.wblk haddr len) p a s t := by
  obtain ⟨d, pos, x, l⟩ := a
  simp only [execWblk, micro_running hr] at h
  split at h
  · cases h
    refine checkRange_microStep haddr _ rfl (.goto _ (by simp [isMgmt]) (by simp) (by simp) ?_)
    exact (bridging_wblk haddr len).moves rfl (fun hs => hs.xstate) (fun _ => .inl (by simp))
      fun hc _ hw => select_begin_window hc hw
  · exact wblkHost_microStep h rfl rfl (by simp [hasPos, midPos, inBridge]) rfl
  · exact wblkBus_microStep h rfl rfl (bridging_wblk haddr len) rfl
  · cases h
    exact .respond _ _ rfl rfl
  · cases h

theorem execRblk_microStep {haddr : Word} {len : Half} {s t : State} {p : Port} {a : Active}
    (hr : s.running = some (p, a)) (h : execRblk haddr len s = .next t) :
    MicroStep (.rblk haddr len) p a s t := by
  obtain ⟨d, pos, x, l⟩ := a
  simp only [execRblk, micro_running hr] at h
  split at h
  · cases h
    refine checkRange_microStep haddr _ rfl (.goto _ (by simp [isMgmt]) (by simp) (by simp) ?_)
    exact (bridging_rblk haddr len).moves rfl (fun hs => hs.xstate) (fun _ => .inl (by simp))
      fun hc _ hw => select_begin_window hc hw
  · exact rblkBus_microStep h rfl rfl (by simp [hasPos, midPos, inBridge]) rfl
  · exact rblkHost_microStep h rfl rfl (bridging_rblk haddr len) rfl
  · cases h
    exact .respond _ _ rfl rfl
  · cases h

/-! ### Remote-DMA sequencer -/

theorem busyAcquire_microStep {i : Instr} {p : Port} {a : Active} {s : State} (op : Byte)
    (h : a.pos = .acquire) (hd : isDma i = true)
    (hp : hasPos i (.arm .idle0) = true) : MicroStep i p a s (s.busyAcquire p a op) := by
  unfold State.busyAcquire
  split
  · next hb => exact .conflict op h hd (by simpa [engineBusy] using hb)
  · next hb =>
    have hb : s.dmaing = 0x00 := by simpa [engineBusy] using hb
    have hx : xstateAt i a.pos = .idle := by simp [xstateAt, hd, h]
    rw [show setBusy s.dmaing = 0x01 by rw [hb]; rfl]
    refine .acquire _ h hd hb rfl ⟨rfl, by simp, fun _ _ => ⟨hp, ?_, rfl⟩, fun hs => ?_⟩
    · simp [xstateAt, hd]
    · exact .inr (.inl ⟨h, hs.trans hx, rfl⟩)

theorem busyRelease_microStep {i : Instr} {p : Port} {a : Active} {s : State} {pos : Pos}
    (h : a.pos = .release) (hd : isDma i = true) (hp : pos = .respond ∨ pos = .swap ∧ hasPos i .swap = true) :
    MicroStep i p a s (s.busyRelease p a pos) := by
  have hx : xstateAt i a.pos = .acknowledged := by simp [xstateAt, hd, h]
  refine .release _ h hd rfl ⟨rfl, ?_, fun _ _ => ⟨?_, ?_, ?_⟩, fun hs => ?_⟩
  · rcases hp with rfl | ⟨rfl, -⟩ <;> simp
  · rcases hp with rfl | ⟨rfl, hp⟩
    · simp [hasPos]
    · exact hp
  · rcases hp with rfl | ⟨rfl, -⟩ <;> simp [xstateAt, hd]
  · rcases hp with rfl | ⟨rfl, -⟩ <;> rfl
  · exact .inr (.inr (.inr (.inr ⟨h, hs.trans hx, rfl⟩)))

/-- A register write of a request that is no management request. -/
theorem regWr8_microStep {i : Instr} {p : Port} {a b : Active} {s : State} (k : Fin 32) (v : Byte)
    (h : isMgmt i = true → a.pos ≠ .start) (ha : a.pos ≠ .acquire) (hr : a.pos ≠ .release)
    (hm : Moves s.cfg i a b) : MicroStep i p a s ((s.regWr8 k v).setPort p (.active b)) :=
  .write _ _ _ _ h ha hr (fun _ _ => onBoard_register s k rfl (by simp [BusCycle.width])) hm

theorem regRd8_microStep {i : Instr} {p : Port} {a b : Active} {s : State} (k : Fin 32)
    (h : isMgmt i = true → a.pos ≠ .start) (ha : a.pos ≠ .acquire) (hr : a.pos ≠ .release)
    (hm : Moves s.cfg i a b) : MicroStep i p a s ((s.regRd8 k).2.setPort p (.active b)) :=
  .read _ _ _ h ha hr (fun _ _ _ => onBoard_register s k rfl (by simp [BusCycle.width])) hm

/-- From one arm write to the next. -/
theorem Moves.arm {c : Config} {i : Instr} {a : Active} {w : ArmPos} (v : ArmPos) (hd : isDma i = true)
    (h : a.pos = .arm w) (hw : w ≠ .start) (hp : hasPos i (.arm v) = true) :
    Moves c i a { a with pos := .arm v } := by
  obtain ⟨d, q, x, l⟩ := a
  subst h
  refine .quiet rfl ?_ rfl (fun _ => hp) ?_ ?_ ?_ ?_ ?_ <;> simp [xstateAt, hd, hw, windowOk]

theorem armStep_microStep {i : Instr} {m : Arming} {begin : Active → Active} {w : ArmPos} {p : Port}
    {a : Active} {s t : State} (h : armStep m begin w p a s = .next t) (hp : a.pos = .arm w)
    (hd : isDma i = true) (hi : isMgmt i = false)
    (hpos : ∀ v, v ≠ .clearIsr ∨ m.clearsRdc = true → hasPos i (.arm v) = true)
    (hbegin : a.pos = .arm .start →
      Moves s.cfg i a (begin { a with xstate := .transferring })) :
    MicroStep i p a s t := by
  have hg : isMgmt i = true → a.pos ≠ .start := by simp [hi]
  cases w
  case clearIsr =>
    simp only [armStep] at h
    split at h
    · cases h
      exact regWr8_microStep _ _ hg (by simp [hp]) (by simp [hp])
        (.arm _ hd hp (by simp) (hpos _ (.inl (by simp))))
    · cases h
  case start =>
    cases h
    exact regWr8_microStep _ _ hg (by simp [hp]) (by simp [hp]) (hbegin hp)
  case idle0 =>
    cases h
    refine regWr8_microStep _ _ hg (by simp [hp]) (by simp [hp]) (.arm _ hd hp (by simp) (hpos _ ?_))
    split <;> simp_all
  all_goals
    cases h
    exact regWr8_microStep _ _ hg (by simp [hp]) (by simp [hp])
      (.arm _ hd hp (by simp) (hpos _ (.inl (by simp))))

/-- The start command of an arming: TRANSFERRING, and into the bridge (R102, R113). -/
theorem Bridging.begin {c : Config} {i : Instr} {at_ : BUnit → Pos} {done : Active → Active}
    (hB : Bridging i at_ done) (hd : isDma i = true) {a : Active} (hp : a.pos = .arm .start)
    (addr count : Nat) :
    Moves c i a (bridgeTo at_ done { a with xstate := .transferring }
      (Xfer.select c.winSize (Xfer.begin addr count))) := by
  have hx : xstateAt i a.pos = .armed := by simp [xstateAt, hd, hp]
  refine hB.moves rfl (fun _ => by simp [xstateAt, hd]) (fun hs => ?_)
    fun hc _ hw => select_begin_window hc hw
  exact .inr (.inr (.inl ⟨hp, hs.trans hx, rfl⟩))

/-- The step to ACKNOWLEDGED (R113). -/
theorem Moves.ack {c : Config} {i : Instr} {a : Active} (hd : isDma i = true) (hp : a.pos = .ack)
    (hr : hasPos i .release = true) :
    Moves c i a { a with pos := .release, xstate := .acknowledged } := by
  have hx : xstateAt i a.pos = .transferring := by simp [xstateAt, hd, hp]
  exact ⟨rfl, by simp, fun _ _ => ⟨hr, by simp [xstateAt, hd], rfl⟩,
    fun hs => .inr (.inr (.inr (.inl ⟨hp, hs.trans hx, rfl⟩)))⟩

theorem execGethdr_microStep {haddr : Word} {page : Byte} {s t : State} {p : Port} {a : Active}
    (hr : s.running = some (p, a)) (h : execGethdr haddr page s = .next t) :
    MicroStep (.gethdr haddr page) p a s t := by
  obtain ⟨d, pos, x, l⟩ := a
  simp only [execGethdr, micro_running hr] at h
  split at h
  · cases h
    refine checkRange_microStep haddr _ rfl (.goto _ (by simp [isMgmt]) (by simp) (by simp) ?_)
    refine .quiet rfl ?_ rfl ?_ rfl ?_ ?_ ?_ ?_ <;> simp [windowOk, hasPos, midPos, inDma]
  · cases h
    exact busyAcquire_microStep _ rfl rfl (by simp [hasPos, midPos, inDma])
  · refine armStep_microStep h rfl rfl rfl ?_ fun hp => (bridging_gethdr haddr page).begin rfl hp _ _
    intro v hv
    simpa [hasPos, midPos, inDma, gethdrArming, inBridge] using hv
  · exact rblkBus_microStep h rfl rfl (by simp [hasPos, midPos, inBridge]) rfl
  · exact rblkHost_microStep h rfl rfl (bridging_gethdr haddr page) rfl
  · cases h
    exact regWr8_microStep _ _ (by simp) (by simp) (by simp)
      (.ack rfl rfl (by simp [hasPos, midPos, inDma]))
  · cases h
    refine busyRelease_microStep rfl rfl ?_
    split <;> simp [hasPos, midPos]
  · cases h
    refine .swap haddr page (headerByte l.header 3) (headerByte l.header 2) { pos := .respond, .. } rfl rfl ?_
    refine .quiet rfl ?_ rfl ?_ rfl ?_ ?_ ?_ ?_ <;> simp [windowOk, hasPos]
  · cases h
    exact .respond _ _ rfl rfl
  · cases h

theorem execBin_microStep {haddr : Word} {len roff : Half} {s t : State} {p : Port} {a : Active}
    (hr : s.running = some (p, a)) (h : execBin haddr len roff s = .next t) :
    MicroStep (.bin haddr len roff) p a s t := by
  obtain ⟨d, pos, x, l⟩ := a
  simp only [execBin, micro_running hr] at h
  split at h
  · cases h
    refine checkRange_microStep haddr _ rfl (.goto _ (by simp [isMgmt]) (by simp) (by simp) ?_)
    refine .quiet rfl ?_ rfl ?_ rfl ?_ ?_ ?_ ?_ <;> simp [windowOk, hasPos, midPos, inDma]
  · cases h
    exact busyAcquire_microStep _ rfl rfl (by simp [hasPos, midPos, inDma])
  · refine armStep_microStep h rfl rfl rfl ?_ fun hp => (bridging_bin haddr len roff).begin rfl hp _ _
    intro v hv
    simpa [hasPos, midPos, inDma, binArming, inBridge] using hv
  · exact rblkBus_microStep h rfl rfl (by simp [hasPos, midPos, inBridge]) rfl
  · exact rblkHost_microStep h rfl rfl (bridging_bin haddr len roff) rfl
  · cases h
    exact .goto _ (by simp) (by simp) (by simp) (.ack rfl rfl (by simp [hasPos, midPos, inDma]))
  · cases h
    exact busyRelease_microStep rfl rfl (.inl rfl)
  · cases h
    exact .respond _ _ rfl rfl
  · cases h

/-- `ResetProc` (R111), in a request whose positions hold its own. -/
theorem resetProc_microStep {i : Instr} {done : Active → Active} {pos : Pos} {p : Port} {a : Active}
    {s t : State} (h : resetProc done pos p a s = .next t)
    (hp : a.pos = pos ∨ a.pos = .start ∧ pos = .rstRead)
    (hi : i = .reset ∨ ∃ haddr len page, i = .bout haddr len page)
    (hpos : ∀ q, inResetProc q = true → q ≠ .rstRead → hasPos i q = true)
    (hsame : ∀ q, inResetProc q = true → xstateAt i q = xstateAt i a.pos)
    (hdone : pos = .rstAck → Moves s.cfg i a (done a)) : MicroStep i p a s t := by
  have hm : isMgmt i = false := by rcases hi with rfl | ⟨_, _, _, rfl⟩ <;> rfl
  have hg : isMgmt i = true → a.pos ≠ .start := by simp [hm]
  have mv : ∀ (q : Pos) (l : Locals), inResetProc q = true → q ≠ .rstRead → inResetProc pos = true →
      Moves s.cfg i a { a with pos := q, locals := l } := by
    intro q l hq hq' hpr
    refine .quiet rfl ?_ rfl (fun _ => hpos q hq hq') (hsame q hq) ?_ ?_ ?_ ?_
    · intro he; simp only at he; subst he; simp [inResetProc] at hq
    · intro _; cases q <;> simp_all [inResetProc, windowOk]
    all_goals
      intro he
      rcases hp with hp | ⟨hp, rfl⟩
      · rw [← hp, he] at hpr; simp [inResetProc] at hpr
      · simp [hp] at he
  have hac : inResetProc pos = true → a.pos ≠ .acquire := by
    intro hpr he
    rcases hp with hp | ⟨hp, rfl⟩
    · rw [← hp, he] at hpr; simp [inResetProc] at hpr
    · simp [hp] at he
  have hrl : inResetProc pos = true → a.pos ≠ .release := by
    intro hpr he
    rcases hp with hp | ⟨hp, rfl⟩
    · rw [← hp, he] at hpr; simp [inResetProc] at hpr
    · simp [hp] at he
  unfold resetProc at h
  split at h
  · cases h
    exact regRd8_microStep _ hg (hac rfl) (hrl rfl) (mv _ _ rfl (by simp) rfl)
  · cases h
    exact regWr8_microStep _ _ hg (hac rfl) (hrl rfl) (mv _ _ rfl (by simp) rfl)
  · cases h
    exact .clear _ (by simpa using hp) hi (mv _ _ rfl (by simp) rfl)
  · cases h
    refine regRd8_microStep _ hg (hac rfl) (hrl rfl) (mv _ _ ?_ ?_ rfl) <;> split <;> simp [inResetProc]
  · dsimp only at h
    split at h
    · cases h
      exact .timeout _ _ _ hm (hac rfl) (hrl rfl) (mv _ _ rfl (by simp) rfl)
    · cases h
      exact .expired _ _ hm (hac rfl) (hrl rfl) (mv _ _ rfl (by simp) rfl)
  · cases h
    exact regWr8_microStep _ _ hg (hac rfl) (hrl rfl) (hdone rfl)
  · cases h

theorem execReset_microStep {s t : State} {p : Port} {a : Active} (hr : s.running = some (p, a))
    (h : execReset s = .next t) : MicroStep .reset p a s t := by
  obtain ⟨d, pos, x, l⟩ := a
  have hpos : ∀ q, inResetProc q = true → q ≠ .rstRead → hasPos .reset q = true := by
    intro q hq hq'; simp [hasPos, midPos, hq, hq']
  simp only [execReset, micro_running hr] at h
  split at h
  case h_7 => cases h; exact .respond _ _ rfl rfl
  case h_8 => cases h
  case h_1 => exact resetProc_microStep h (.inr ⟨rfl, rfl⟩) (.inl rfl) hpos (fun _ _ => rfl) (by simp)
  all_goals
    refine resetProc_microStep h (.inl rfl) (.inl rfl) hpos (fun _ _ => rfl) ?_
    first
    | simp; done
    | intro _
      refine .quiet rfl ?_ rfl ?_ rfl ?_ ?_ ?_ ?_ <;> simp [windowOk, hasPos, thenRespond]

theorem execBout_microStep {haddr : Word} {len : Half} {page : Byte} {s t : State} {p : Port}
    {a : Active} (hr : s.running = some (p, a)) (h : execBout haddr len page s = .next t) :
    MicroStep (.bout haddr len page) p a s t := by
  obtain ⟨d, pos, x, l⟩ := a
  have hpos : ∀ q, inResetProc q = true → q ≠ .rstRead → hasPos (.bout haddr len page) q = true := by
    intro q hq _; cases q <;> simp_all [inResetProc, hasPos, midPos, inTxWait]
  have hsame : ∀ q, inResetProc q = true → xstateAt (.bout haddr len page) q = .transferring := by
    intro q hq; cases q <;> simp_all [inResetProc, xstateAt, isDma]
  simp only [execBout, micro_running hr] at h
  split at h
  · cases h
    unfold boutCheck
    split
    · exact .raise _ _ rfl
    · refine checkRange_microStep haddr _ rfl (.goto _ (by simp [isMgmt]) (by simp) (by simp) ?_)
      refine .quiet rfl ?_ rfl ?_ rfl ?_ ?_ ?_ ?_ <;> simp [windowOk, hasPos, midPos, inDma]
  · cases h
    exact busyAcquire_microStep _ rfl rfl (by simp [hasPos, midPos, inDma])
  · refine armStep_microStep h rfl rfl rfl ?_ fun hp =>
      (bridging_bout haddr len page).begin rfl hp _ _
    intro v _
    simp [hasPos, midPos, inDma]
  · exact wblkHost_microStep h rfl rfl (by simp [hasPos, midPos, inBridge]) rfl
  · exact wblkBus_microStep h rfl rfl (bridging_bout haddr len page) rfl
  · cases h
    refine regRd8_microStep _ (by simp) (by simp) (by simp) ?_
    split <;>
    · refine .quiet rfl ?_ rfl ?_ rfl ?_ ?_ ?_ ?_ <;> simp [windowOk, hasPos, midPos, inDma, inTxWait]
  · simp only [txDraw] at h
    split at h
    · cases h
      refine .timeout _ _ _ rfl (by simp) (by simp) ?_
      refine .quiet rfl ?_ rfl ?_ rfl ?_ ?_ ?_ ?_ <;>
        simp [windowOk, hasPos, midPos, inTxWait, inResetProc]
    · cases h
      refine .expired _ _ rfl (by simp) (by simp) ?_
      refine .quiet rfl ?_ rfl ?_ rfl ?_ ?_ ?_ ?_ <;> simp [windowOk, hasPos, midPos, inTxWait]
  case h_14 =>
    cases h
    refine .reinit haddr len page _ rfl rfl rfl ?_
    refine .quiet rfl ?_ rfl ?_ rfl ?_ ?_ ?_ ?_ <;> simp [windowOk, hasPos, midPos, inTxWait]
  case h_15 =>
    simp only [reinitPoll] at h
    split at h
    · cases h
      refine .reinitDone haddr len page _ rfl rfl (by simp) ?_
      refine .quiet rfl ?_ rfl ?_ rfl ?_ ?_ ?_ ?_ <;> simp [windowOk, hasPos, midPos, inDma]
    · cases h
      exact .reinitWait haddr len page rfl rfl
  case h_16 =>
    cases h
    exact regWr8_microStep _ _ (by simp) (by simp) (by simp)
      (.ack rfl rfl (by simp [hasPos, midPos, inDma]))
  case h_17 =>
    cases h
    exact busyRelease_microStep rfl rfl (.inl rfl)
  case h_18 => cases h; exact .respond _ _ rfl rfl
  case h_19 => cases h
  all_goals
    refine resetProc_microStep h (.inl rfl) (.inr ⟨_, _, _, rfl⟩) hpos (fun q hq => hsame q hq) ?_
    first
    | simp; done
    | intro _
      refine .quiet rfl ?_ rfl ?_ rfl ?_ ?_ ?_ ?_ <;> simp [windowOk, hasPos, midPos, inTxWait, thenReinit]

/-- The bridge's loop does not lead to the wait of `Reinit()`. -/
theorem bridgeTo_pos {done : Active → Active} (hd : ∀ a, (done a).pos ≠ .reinitWait) (a : Active)
    (x : Xfer × Option BUnit) (at_ : BUnit → Pos) (ha : ∀ u, at_ u ≠ .reinitWait) :
    (bridgeTo at_ done a x).pos ≠ .reinitWait := by
  unfold bridgeTo; dsimp only; split
  · exact ha _
  · exact hd _

/-- A port that has answered is idle. -/
theorem respond_port (s : State) (p : Port) (st : Status) (c : Code) (v : Half) :
    (s.respond p st c v).port p = .idle := by
  cases p <;> rfl

/-- BOUT stands at the wait of `Reinit()` only after it raised `reinit_req`, and until `reinit_done` (R110). -/
theorem execBout_wait {haddr : Word} {len : Half} {page : Byte} {s t : State} {p : Port} {a b : Active}
    (hr : s.running = some (p, a)) (h : execBout haddr len page s = .next t) (hb : t.port p = .active b)
    (hw : b.pos = .reinitWait) : a.pos = .reinitReq ∨ a.pos = .reinitWait := by
  obtain ⟨d, pos, x, l⟩ := a
  have hB : ∀ a x, (bridgeTo .host thenTxWait a x).pos ≠ .reinitWait :=
    fun a x => bridgeTo_pos (by simp [thenTxWait]) a x .host (by simp)
  have hI : ∀ {c : Prop} [Decidable c] {x y : Pos}, x ≠ .reinitWait → y ≠ .reinitWait →
      (if c then x else y) ≠ .reinitWait := by
    intro c _ x y hx hy
    split <;> assumption
  simp only [execBout, micro_running hr] at h
  split at h
  case h_14 => exact .inl rfl
  case h_15 => exact .inr rfl
  case h_19 => cases h
  all_goals exfalso
  case h_1 =>
    cases h
    simp only [boutCheck, State.checkRange] at hb
    (repeat' split at hb) <;> simp [State.raise, respond_port, State.goto] at hb
    subst hb; simp at hw
  case h_2 =>
    cases h
    simp only [State.busyAcquire] at hb
    split at hb <;> simp [respond_port, State.gotoX] at hb
    subst hb; simp at hw
  case h_3 =>
    unfold armStep at h
    (repeat' split at h) <;> (try cases h) <;> simp [State.goto, enterWblk, boutArming] at hb
    all_goals (subst hb)
    all_goals first | exact hB _ _ hw | simp at hw
  case h_4 => cases h; simp [State.gotoWith] at hb; subst hb; simp at hw
  case h_5 => cases h; simp at hb; subst hb; exact hB _ _ hw
  case h_18 => cases h; simp [respond_port] at hb
  case h_6 =>
    cases h
    simp [State.gotoWith] at hb
    subst hb
    exact hI (by simp) (by simp) hw
  case h_7 =>
    simp only [txDraw] at h
    split at h <;> cases h <;> simp [State.gotoWith] at hb <;> subst hb <;> simp at hw
  case h_16 => cases h; simp [State.gotoX] at hb; subst hb; simp at hw
  case h_17 => cases h; simp [State.busyRelease, State.gotoX] at hb; subst hb; simp at hw
  all_goals
    simp only [resetProc] at h
    (try split at h) <;> cases h <;> simp [State.gotoWith, State.goto, thenReinit] at hb <;> subst hb <;> simp at hw

/-! ### Management interface -/

/-- A move of a management request. -/
theorem Moves.mgmt {c : Config} {i : Instr} {a : Active} (pos : Pos) (l : Locals) (hi : isMgmt i = true)
    (hl : pos ≠ .start) (hp : hasPos i pos = true) (hw : ∀ u, pos ≠ .host u ∧ pos ≠ .bus u)
    (h1 : a.pos ≠ .arm .start) (h2 : a.pos ≠ .ack) (h3 : a.pos ≠ .release) :
    Moves c i a { a with pos := pos, locals := l } := by
  have hx : ∀ q, xstateAt i q = .idle := by
    intro q; cases i <;> first | rfl | simp [isMgmt] at hi
  refine .quiet rfl hl rfl (fun _ => hp) ((hx _).trans (hx _).symm) (fun _ => ?_) h1 h2 h3
  have := hw
  cases pos <;> simp_all [windowOk]

theorem mgEnter_microStep {i : Instr} {p : Port} {a : Active} {s : State} (op : Byte) {next : Pos}
    (h : a.pos = .start) (hi : isMgmt i = true) (hm : Moves s.cfg i a { a with pos := next }) :
    MicroStep i p a s (s.mgEnter p a op next) := by
  unfold State.mgEnter
  split
  · exact .raise _ _ h
  · next ho => exact .mgEnter _ h hi ho hm

/-- A push that leaves the shift state as it is. -/
theorem push_microStep {i : Instr} {p : Port} {a b : Active} {s : State} {shadow : Byte}
    (h : a.pos ≠ .start) (ha : a.pos ≠ .acquire) (hr : a.pos ≠ .release) (hi : isMgmt i = true)
    (hn : i ≠ .mdi ∧ i ≠ .eerd) (hs : s.memrShadow &&& 0x44 = 0 → shadow &&& 0x44 = 0)
    (hm : Moves s.cfg i a b) : MicroStep i p a s ((s.push shadow).setPort p (.active b)) :=
  .mgPush s.mgPhase s.mgBitpos s.mgData shadow b h ha hr hi hn hs hm

theorem setLine_inputs {mask b : Byte} {level : Bool} (hm : mask &&& 0x44 = 0) (hb : b &&& 0x44 = 0) :
    setLine mask level b &&& 0x44 = 0 := by
  unfold setLine
  split
  · rw [BitVec.and_or_distrib_right, hb, hm]; rfl
  · rw [BitVec.and_comm b, BitVec.and_assoc, hb]; simp

theorem eepromByte_inputs {cs clk di : Bool} {b : Byte} (hb : b &&& 0x44 = 0) :
    eepromByte cs clk di b &&& 0x44 = 0 := by
  have h : (b &&& ~~~(0x20 ||| 0x80 ||| 0x10)) &&& 0x44 = 0 := by
    rw [BitVec.and_assoc, BitVec.and_comm (~~~(_ : Byte)), ← BitVec.and_assoc, hb]; rfl
  unfold eepromByte
  simp only [BitVec.and_or_distrib_right, h]
  cases cs <;> cases clk <;> cases di <;> rfl

theorem execMdc_microStep {lv : Bool} {s t : State} {p : Port} {a : Active} (hr : s.running = some (p, a))
    (h : execMdc lv s = .next t) : MicroStep (.mdc lv) p a s t := by
  obtain ⟨d, pos, x, l⟩ := a
  simp only [execMdc, micro_running hr] at h
  split at h
  · cases h
    exact mgEnter_microStep _ rfl rfl (.mgmt _ _ rfl (by simp) (by simp [hasPos, midPos]) (by simp)
      (by simp) (by simp) (by simp))
  · cases h
    exact push_microStep (by simp) (by simp) (by simp) rfl (by simp) (setLine_inputs (by decide))
      (.mgmt _ _ rfl (by simp) (by simp [hasPos]) (by simp) (by simp) (by simp) (by simp))
  · cases h
    exact .mgRespond _ rfl rfl
  · cases h

theorem execMdir_microStep {lv : Bool} {s t : State} {p : Port} {a : Active} (hr : s.running = some (p, a))
    (h : execMdir lv s = .next t) : MicroStep (.mdir lv) p a s t := by
  obtain ⟨d, pos, x, l⟩ := a
  simp only [execMdir, micro_running hr] at h
  split at h
  · cases h
    exact mgEnter_microStep _ rfl rfl (.mgmt _ _ rfl (by simp) (by simp [hasPos, midPos]) (by simp)
      (by simp) (by simp) (by simp))
  · cases h
    exact push_microStep (by simp) (by simp) (by simp) rfl (by simp) (setLine_inputs (by decide))
      (.mgmt _ _ rfl (by simp) (by simp [hasPos]) (by simp) (by simp) (by simp) (by simp))
  · cases h
    exact .mgRespond _ rfl rfl
  · cases h

theorem execMdo_microStep {lv : Bool} {s t : State} {p : Port} {a : Active} (hr : s.running = some (p, a))
    (h : execMdo lv s = .next t) : MicroStep (.mdo lv) p a s t := by
  obtain ⟨d, pos, x, l⟩ := a
  simp only [execMdo, micro_running hr] at h
  split at h
  · cases h
    exact mgEnter_microStep _ rfl rfl (.mgmt _ _ rfl (by simp) (by simp [hasPos, midPos]) (by simp)
      (by simp) (by simp) (by simp))
  · cases h
    exact push_microStep (by simp) (by simp) (by simp) rfl (by simp) (setLine_inputs (by decide))
      (.mgmt _ _ rfl (by simp) (by simp [hasPos]) (by simp) (by simp) (by simp) (by simp))
  · cases h
    exact .mgRespond _ rfl rfl
  · cases h

theorem execMdi_microStep {s t : State} {p : Port} {a : Active} (hr : s.running = some (p, a))
    (h : execMdi s = .next t) : MicroStep .mdi p a s t := by
  obtain ⟨d, pos, x, l⟩ := a
  simp only [execMdi, micro_running hr] at h
  split at h
  · cases h
    exact mgEnter_microStep _ rfl rfl (.mgmt _ _ rfl (by simp) (by simp [hasPos, midPos]) (by simp)
      (by simp) (by simp) (by simp))
  · cases h
    exact regRd8_microStep _ (by simp) (by simp) (by simp)
      (.mgmt _ _ rfl (by simp) (by simp [hasPos]) (by simp) (by simp) (by simp) (by simp))
  · cases h
    exact .mgRespond _ rfl rfl
  · cases h

theorem execEerd_microStep {s t : State} {p : Port} {a : Active} (hr : s.running = some (p, a))
    (h : execEerd s = .next t) : MicroStep .eerd p a s t := by
  obtain ⟨d, pos, x, l⟩ := a
  simp only [execEerd, micro_running hr] at h
  split at h
  · cases h
    exact mgEnter_microStep _ rfl rfl (.mgmt _ _ rfl (by simp) (by simp [hasPos, midPos]) (by simp)
      (by simp) (by simp) (by simp))
  · cases h
    exact regRd8_microStep _ (by simp) (by simp) (by simp)
      (.mgmt _ _ rfl (by simp) (by simp [hasPos]) (by simp) (by simp) (by simp) (by simp))
  · cases h
    exact .mgRespond _ rfl rfl
  · cases h

theorem execEewr_microStep {cs clk di : Bool} {s t : State} {p : Port} {a : Active}
    (hr : s.running = some (p, a)) (h : execEewr cs clk di s = .next t) :
    MicroStep (.eewr cs clk di) p a s t := by
  obtain ⟨d, pos, x, l⟩ := a
  simp only [execEewr, micro_running hr] at h
  split at h
  · cases h
    refine mgEnter_microStep _ rfl rfl ?_
    unfold eeFirst
    split <;>
    exact .mgmt _ _ rfl (by simp) (by simp [hasPos, midPos, inEewr]) (by simp) (by simp) (by simp)
      (by simp)
  · cases h
    exact regRd8_microStep _ (by simp) (by simp) (by simp)
      (.mgmt _ _ rfl (by simp) (by simp [hasPos, midPos, inEewr]) (by simp) (by simp) (by simp) (by simp))
  · unfold eeWrite at h
    split at h
    · cases h
      exact push_microStep (by simp) (by simp) (by simp) rfl (by simp) eepromByte_inputs
        (.mgmt _ _ rfl (by simp) (by simp [hasPos, midPos, inEewr]) (by simp) (by simp) (by simp)
          (by simp))
    · cases h
      exact regWr8_microStep _ _ (by simp) (by simp) (by simp)
        (.mgmt _ _ rfl (by simp) (by simp [hasPos, midPos, inEewr]) (by simp) (by simp) (by simp)
          (by simp))
  · cases h
    exact .goto _ (by simp) (by simp) (by simp)
      (.mgmt _ _ rfl (by simp) (by simp [hasPos]) (by simp) (by simp) (by simp) (by simp))
  · cases h
    exact .mgRespond _ rfl rfl
  · cases h

theorem sendBit_microStep {i : Instr} {bit : Bool} {n last : Nat} {after : Pos} {e : SendEdge}
    {p : Port} {a : Active} {s t : State} (h : sendBit bit n last after e p a s = .next t)
    (hp : a.pos = .send n e) (hi : isMgmt i = true) (hn : i ≠ .mdi ∧ i ≠ .eerd)
    (hsend : ∀ n e, hasPos i (.send n e) = true) (hafter : hasPos i after = true)
    (hm : after = .mdIn) : MicroStep i p a s t := by
  subst hm
  have mv : ∀ q, (q = .mdIn ∨ ∃ n e, q = .send n e) → Moves s.cfg i a { a with pos := q } := by
    rintro q (rfl | ⟨n, e, rfl⟩) <;>
    refine .mgmt _ _ hi (by simp) ?_ (by simp) (by simp [hp]) (by simp [hp]) (by simp [hp])
    · exact hafter
    · exact hsend n e
  cases e <;> cases h
  · exact .mgPush (framePhase n) (frameBitpos s.mgBitpos n) s.mgData (setData bit s.memrShadow)
      { a with pos := .send n .high } (by simp [hp]) (by simp [hp]) (by simp [hp]) hi hn
      (setLine_inputs (by decide)) (mv _ (.inr ⟨_, _, rfl⟩))
  · exact push_microStep (by simp [hp]) (by simp [hp]) (by simp [hp]) hi hn
      (setLine_inputs (by decide)) (mv _ (.inr ⟨_, _, rfl⟩))
  · refine push_microStep (by simp [hp]) (by simp [hp]) (by simp [hp]) hi hn
      (setLine_inputs (by decide)) (mv _ ?_)
    split
    · exact .inr ⟨_, _, rfl⟩
    · exact .inl rfl

theorem getBitClock_microStep {i : Instr} {g : GetStage} {n : Nat} {high : Bool} {p : Port} {a : Active}
    {e : GetEdge} {s t : State} (h : getBitClock g n high p a s = .next t) (hp : a.pos = .get g n e)
    (hi : isMgmt i = true) (hn : i ≠ .mdi ∧ i ≠ .eerd) (hget : ∀ e, hasPos i (.get g n e) = true) :
    MicroStep i p a s t := by
  have mv : ∀ e, Moves s.cfg i a { a with pos := .get g n e } := fun e =>
    .mgmt _ _ hi (by simp) (hget e) (by simp) (by simp [hp]) (by simp [hp]) (by simp [hp])
  unfold getBitClock at h
  split at h
  · cases h
    exact .mgPush _ _ _ _ _ (by simp [hp]) (by simp [hp]) (by simp [hp]) hi hn
      (setLine_inputs (by decide)) (mv _)
  · cases h
    exact push_microStep (by simp [hp]) (by simp [hp]) (by simp [hp]) hi hn
      (setLine_inputs (by decide)) (mv _)

theorem frameOutput_microStep {i : Instr} {p : Port} {a : Active} {s t : State}
    (h : frameOutput p a s = .next t) (hp : a.pos = .mdOut) (hi : isMgmt i = true)
    (hn : i ≠ .mdi ∧ i ≠ .eerd) (hsend : hasPos i (.send 0 .set) = true) : MicroStep i p a s t := by
  cases h
  exact push_microStep (by simp [hp]) (by simp [hp]) (by simp [hp]) hi hn (setLine_inputs (by decide))
    (.mgmt _ _ hi (by simp) hsend (by simp) (by simp [hp]) (by simp [hp]) (by simp [hp]))

theorem frameInput_microStep {i : Instr} {g : GetStage} {p : Port} {a : Active} {s t : State}
    (h : frameInput g p a s = .next t) (hp : a.pos = .mdIn) (hi : isMgmt i = true)
    (hn : i ≠ .mdi ∧ i ≠ .eerd) (hget : hasPos i (.get g 0 .high) = true) : MicroStep i p a s t := by
  cases h
  exact .mgPush (stagePhase g) s.mgBitpos s.mgData (setInput true s.memrShadow)
    { a with pos := .get g 0 .high } (by simp [hp]) (by simp [hp]) (by simp [hp]) hi hn
    (setLine_inputs (by decide))
    (.mgmt _ _ hi (by simp) hget (by simp) (by simp [hp]) (by simp [hp]) (by simp [hp]))

theorem execMdiowr_microStep {phyad regad : BitVec 5} {val : Half} {s t : State} {p : Port} {a : Active}
    (hr : s.running = some (p, a)) (h : execMdiowr phyad regad val s = .next t) :
    MicroStep (.mdiowr phyad regad val) p a s t := by
  obtain ⟨d, pos, x, l⟩ := a
  simp only [execMdiowr, micro_running hr] at h
  split at h
  · cases h
    exact mgEnter_microStep _ rfl rfl (.mgmt _ _ rfl (by simp) (by simp [hasPos, midPos, inFrame])
      (by simp) (by simp) (by simp) (by simp))
  · cases h
    exact .mgLoad _ _ (by simp) (by simp) (by simp) rfl (.mgmt _ _ rfl (by simp)
      (by simp [hasPos, midPos, inFrame]) (by simp) (by simp) (by simp) (by simp))
  · exact frameOutput_microStep h rfl rfl (by simp) (by simp [hasPos, midPos, inFrame])
  · exact sendBit_microStep h rfl rfl (by simp) (by simp [hasPos, midPos, inFrame])
      (by simp [hasPos, midPos, inFrame]) rfl
  · exact frameInput_microStep h rfl rfl (by simp) (by simp [hasPos, midPos, inFrame])
  · exact getBitClock_microStep h rfl rfl (by simp) (by simp [hasPos, midPos, inFrame])
  · exact getBitClock_microStep h rfl rfl (by simp) (by simp [hasPos, midPos, inFrame])
  · cases h
    exact regRd8_microStep _ (by simp) (by simp) (by simp)
      (.mgmt _ _ rfl (by simp) (by simp [hasPos]) (by simp) (by simp) (by simp) (by simp))
  · cases h
    exact .mgRespond _ rfl rfl
  · cases h

theorem readSample_microStep {i : Instr} {g : GetStage} {n : Nat} {p : Port} {a : Active} {s t : State}
    (h : readSample g n p a s = .next t) (hp : a.pos = .get g n .sample) (hi : isMgmt i = true)
    (hget : ∀ g n, hasPos i (.get g n .high) = true) : MicroStep i p a s t := by
  have mv : ∀ (q : Pos) (l : Locals), (q = .respond ∨ ∃ g n, q = .get g n .high) →
      Moves s.cfg i a { a with pos := q, locals := l } := by
    rintro q l (rfl | ⟨g, n, rfl⟩) <;>
    refine .mgmt _ _ hi (by simp) ?_ (by simp) (by simp [hp]) (by simp [hp]) (by simp [hp])
    · simp [hasPos]
    · exact hget g n
  cases g <;> cases h
  · refine regRd8_microStep _ (by simp [hp]) (by simp [hp]) (by simp [hp]) (mv _ _ ?_)
    split <;> exact .inr ⟨_, _, rfl⟩
  · refine .mgSample _ _ (by simp [hp]) (by simp [hp]) (by simp [hp]) hi (mv _ _ ?_)
    split <;> exact .inr ⟨_, _, rfl⟩
  · exact regRd8_microStep _ (by simp [hp]) (by simp [hp]) (by simp [hp]) (mv _ _ (.inl rfl))
  · refine regRd8_microStep _ (by simp [hp]) (by simp [hp]) (by simp [hp]) (mv _ _ ?_)
    split
    · exact .inr ⟨_, _, rfl⟩
    · exact .inl rfl

theorem execMdiord_microStep {phyad regad : BitVec 5} {s t : State} {p : Port} {a : Active}
    (hr : s.running = some (p, a)) (h : execMdiord phyad regad s = .next t) :
    MicroStep (.mdiord phyad regad) p a s t := by
  obtain ⟨d, pos, x, l⟩ := a
  simp only [execMdiord, micro_running hr] at h
  split at h
  · cases h
    exact mgEnter_microStep _ rfl rfl (.mgmt _ _ rfl (by simp) (by simp [hasPos, midPos, inFrame])
      (by simp) (by simp) (by simp) (by simp))
  · exact frameOutput_microStep h rfl rfl (by simp) (by simp [hasPos, midPos, inFrame])
  · exact sendBit_microStep h rfl rfl (by simp) (by simp [hasPos, midPos, inFrame])
      (by simp [hasPos, midPos, inFrame]) rfl
  · exact frameInput_microStep h rfl rfl (by simp) (by simp [hasPos, midPos, inFrame])
  · exact getBitClock_microStep h rfl rfl (by simp) (by simp [hasPos, midPos, inFrame])
  · exact getBitClock_microStep h rfl rfl (by simp) (by simp [hasPos, midPos, inFrame])
  · exact readSample_microStep h rfl rfl (by simp [hasPos, midPos, inFrame])
  · cases h
    exact .mgRespond _ rfl rfl
  · cases h

/-! ### All requests -/

/-- A meaning that answers a next state has taken one of the micro-steps of `MicroStep`. -/
theorem exec_microStep {i : Instr} {s t : State} {p : Port} {a : Active} (hr : s.running = some (p, a))
    (h : exec i s = .next t) : MicroStep i p a s t := by
  cases i with
  | rd8 idx => exact execRd8_microStep hr h
  | rd16 idx => exact execRd16_microStep hr h
  | wr8 idx val => exact execWr8_microStep hr h
  | wr16 idx val => exact execWr16_microStep hr h
  | wblk haddr len => exact execWblk_microStep hr h
  | rblk haddr len => exact execRblk_microStep hr h
  | gethdr haddr page => exact execGethdr_microStep hr h
  | bin haddr len roff => exact execBin_microStep hr h
  | bout haddr len page => exact execBout_microStep hr h
  | reset => exact execReset_microStep hr h
  | mdc lv => exact execMdc_microStep hr h
  | mdir lv => exact execMdir_microStep hr h
  | mdo lv => exact execMdo_microStep hr h
  | mdi => exact execMdi_microStep hr h
  | eerd => exact execEerd_microStep hr h
  | eewr cs clk di => exact execEewr_microStep hr h
  | mdiord phyad regad => exact execMdiord_microStep hr h
  | mdiowr phyad regad val => exact execMdiowr_microStep hr h

/-- A meaning answers a next state only where a request is running. -/
theorem running_of_exec {i : Instr} {s t : State} (h : exec i s = .next t) :
    ∃ p a, s.running = some (p, a) := by
  cases hr : s.running with
  | some x => exact ⟨x.1, x.2, rfl⟩
  | none =>
    exfalso
    cases i <;> simp [exec, execRd8, execRd16, execWr8, execWr16, execWblk, execRblk, execGethdr,
      execBin, execBout, execReset, execMdc, execMdir, execMdo, execMdi, execEerd, execEewr, execMdiord,
      execMdiowr, State.micro, hr] at h

end Sys2Proof.Machine
end

