-- ==== Sys2Proof/Laws/PerInstr.lean ====
section
/-!
SUPPORT. Statements made once per constructor of Instr: a request's word selects the row of the opcode
table that has its `OP` (R71, R72, R74, 30_encoding.md).
-/

namespace Sys2Proof.Laws.EncodeInTable

open Sys2Proof

/-- The encoded request matches under the mask of a row of the opcode table whose `OP` is its own. -/
def Statement (i : Instr) : Prop :=
  ∃ r ∈ opcodeTable, r.op = i.op ∧ encode i &&& r.mask = r.matched

/-- A row given by its place in the table. -/
theorem of_row {i : Instr} (r : Row) (hmem : r ∈ opcodeTable) (hop : r.op = i.op)
    (hsel : encode i &&& r.mask = r.matched) : Statement i :=
  ⟨r, hmem, hop, hsel⟩

/-- RD8. -/
theorem rd8 (idx : Byte) : Statement (.rd8 idx) := by
  refine of_row (opcodeTable[0]) (List.getElem_mem _) rfl ?_
  have hm : (0xFFFFFFFFFFFFFFFFFFFFFFFFFFFF00FF : Desc)
      = BitVec.allOnes 112 ++ 0#8 ++ BitVec.allOnes 8 := by decide
  show encode (.rd8 idx) &&& 0xFFFFFFFFFFFFFFFFFFFFFFFFFFFF00FF = 0x00000000000000000000000000000001
  simp only [encode]
  rw [hm, BitVec.and_append, BitVec.and_append]
  simp

/-- RD16. -/
theorem rd16 (idx : Byte) : Statement (.rd16 idx) := by
  refine of_row (opcodeTable[1]) (List.getElem_mem _) rfl ?_
  have hm : (0xFFFFFFFFFFFFFFFFFFFFFFFFFFFF00FF : Desc)
      = BitVec.allOnes 112 ++ 0#8 ++ BitVec.allOnes 8 := by decide
  show encode (.rd16 idx) &&& 0xFFFFFFFFFFFFFFFFFFFFFFFFFFFF00FF = 0x00000000000000000000000000000002
  simp only [encode]
  rw [hm, BitVec.and_append, BitVec.and_append]
  simp

/-- WR8. -/
theorem wr8 (idx val : Byte) : Statement (.wr8 idx val) := by
  refine of_row (opcodeTable[2]) (List.getElem_mem _) rfl ?_
  have hm : (0xFFFFFFFFFFFFFFFFFF00FFFFFFFF00FF : Desc)
      = BitVec.allOnes 72 ++ 0#8 ++ BitVec.allOnes 32 ++ 0#8 ++ BitVec.allOnes 8 := by decide
  show encode (.wr8 idx val) &&& 0xFFFFFFFFFFFFFFFFFF00FFFFFFFF00FF = 0x00000000000000000000000000000003
  simp only [encode]
  rw [hm, BitVec.and_append, BitVec.and_append, BitVec.and_append, BitVec.and_append]
  simp

/-- WR16. -/
theorem wr16 (idx : Byte) (val : Half) : Statement (.wr16 idx val) := by
  refine of_row (opcodeTable[3]) (List.getElem_mem _) rfl ?_
  have hm : (0xFFFFFFFFFFFFFFFF0000FFFFFFFF00FF : Desc)
      = BitVec.allOnes 64 ++ 0#16 ++ BitVec.allOnes 32 ++ 0#8 ++ BitVec.allOnes 8 := by decide
  show encode (.wr16 idx val) &&& 0xFFFFFFFFFFFFFFFF0000FFFFFFFF00FF = 0x00000000000000000000000000000004
  simp only [encode]
  rw [hm, BitVec.and_append, BitVec.and_append, BitVec.and_append, BitVec.and_append]
  simp

/-- WBLK. -/
theorem wblk (haddr : Word) (len : Half) : Statement (.wblk haddr len) := by
  refine of_row (opcodeTable[4]) (List.getElem_mem _) rfl ?_
  have hm : (0xFFFFFFFF00000000FFFF0000FFFFFFFF : Desc)
      = BitVec.allOnes 32 ++ 0#32 ++ BitVec.allOnes 16 ++ 0#16 ++ BitVec.allOnes 24 ++ BitVec.allOnes 8 := by decide
  show encode (.wblk haddr len) &&& 0xFFFFFFFF00000000FFFF0000FFFFFFFF = 0x00000000000000000000000000000010
  simp only [encode]
  rw [hm, BitVec.and_append, BitVec.and_append, BitVec.and_append, BitVec.and_append, BitVec.and_append]
  simp

/-- RBLK. -/
theorem rblk (haddr : Word) (len : Half) : Statement (.rblk haddr len) := by
  refine of_row (opcodeTable[5]) (List.getElem_mem _) rfl ?_
  have hm : (0xFFFFFFFF00000000FFFF0000FFFFFFFF : Desc)
      = BitVec.allOnes 32 ++ 0#32 ++ BitVec.allOnes 16 ++ 0#16 ++ BitVec.allOnes 24 ++ BitVec.allOnes 8 := by decide
  show encode (.rblk haddr len) &&& 0xFFFFFFFF00000000FFFF0000FFFFFFFF = 0x00000000000000000000000000000011
  simp only [encode]
  rw [hm, BitVec.and_append, BitVec.and_append, BitVec.and_append, BitVec.and_append, BitVec.and_append]
  simp

/-- GETHDR. -/
theorem gethdr (haddr : Word) (page : Byte) : Statement (.gethdr haddr page) := by
  refine of_row (opcodeTable[6]) (List.getElem_mem _) rfl ?_
  have hm : (0xFFFFFFFF00000000FFFFFFFFFF00FFFF : Desc)
      = BitVec.allOnes 32 ++ 0#32 ++ BitVec.allOnes 40 ++ 0#8 ++ BitVec.allOnes 8 ++ BitVec.allOnes 8 := by decide
  show encode (.gethdr haddr page) &&& 0xFFFFFFFF00000000FFFFFFFFFF00FFFF = 0x00000000000000000000000000000020
  simp only [encode]
  rw [hm, BitVec.and_append, BitVec.and_append, BitVec.and_append, BitVec.and_append, BitVec.and_append]
  simp

/-- BIN. -/
theorem bin (haddr : Word) (len roff : Half) : Statement (.bin haddr len roff) := by
  refine of_row (opcodeTable[7]) (List.getElem_mem _) rfl ?_
  have hm : (0xFFFFFFFF0000000000000000FFFFFFFF : Desc)
      = BitVec.allOnes 32 ++ 0#32 ++ 0#16 ++ 0#16 ++ BitVec.allOnes 24 ++ BitVec.allOnes 8 := by decide
  show encode (.bin haddr len roff) &&& 0xFFFFFFFF0000000000000000FFFFFFFF = 0x00000000000000000000000000000021
  simp only [encode]
  rw [hm, BitVec.and_append, BitVec.and_append, BitVec.and_append, BitVec.and_append, BitVec.and_append]
  simp

/-- BOUT. -/
theorem bout (haddr : Word) (len : Half) (page : Byte) : Statement (.bout haddr len page) := by
  refine of_row (opcodeTable[8]) (List.getElem_mem _) rfl ?_
  have hm : (0xFFFFFFFF00000000FFFF0000FF00FFFF : Desc)
      = BitVec.allOnes 32 ++ 0#32 ++ BitVec.allOnes 16 ++ 0#16 ++ BitVec.allOnes 8 ++ 0#8 ++ BitVec.allOnes 8 ++ BitVec.allOnes 8 := by decide
  show encode (.bout haddr len page) &&& 0xFFFFFFFF00000000FFFF0000FF00FFFF = 0x00000000000000000000000000000022
  simp only [encode]
  rw [hm, BitVec.and_append, BitVec.and_append, BitVec.and_append, BitVec.and_append, BitVec.and_append, BitVec.and_append, BitVec.and_append]
  simp

/-- RESET. -/
theorem reset : Statement .reset := by
  exact of_row (opcodeTable[9]) (List.getElem_mem _) (by decide) (by decide)

/-- MDC. -/
theorem mdc (lv : Bool) : Statement (.mdc lv) := by
  refine of_row (opcodeTable[10]) (List.getElem_mem _) rfl ?_
  have hm : (0xFFFFFFFFFFFFFFFFFFFEFFFFFFFFFFFF : Desc)
      = BitVec.allOnes 79 ++ 0#1 ++ BitVec.allOnes 40 ++ BitVec.allOnes 8 := by decide
  show encode (.mdc lv) &&& 0xFFFFFFFFFFFFFFFFFFFEFFFFFFFFFFFF = 0x00000000000000000000000000000030
  simp only [encode]
  rw [hm, BitVec.and_append, BitVec.and_append, BitVec.and_append]
  simp

/-- MDIR. -/
theorem mdir (lv : Bool) : Statement (.mdir lv) := by
  refine of_row (opcodeTable[11]) (List.getElem_mem _) rfl ?_
  have hm : (0xFFFFFFFFFFFFFFFFFFFEFFFFFFFFFFFF : Desc)
      = BitVec.allOnes 79 ++ 0#1 ++ BitVec.allOnes 40 ++ BitVec.allOnes 8 := by decide
  show encode (.mdir lv) &&& 0xFFFFFFFFFFFFFFFFFFFEFFFFFFFFFFFF = 0x00000000000000000000000000000031
  simp only [encode]
  rw [hm, BitVec.and_append, BitVec.and_append, BitVec.and_append]
  simp

/-- MDO. -/
theorem mdo (lv : Bool) : Statement (.mdo lv) := by
  refine of_row (opcodeTable[12]) (List.getElem_mem _) rfl ?_
  have hm : (0xFFFFFFFFFFFFFFFFFFFEFFFFFFFFFFFF : Desc)
      = BitVec.allOnes 79 ++ 0#1 ++ BitVec.allOnes 40 ++ BitVec.allOnes 8 := by decide
  show encode (.mdo lv) &&& 0xFFFFFFFFFFFFFFFFFFFEFFFFFFFFFFFF = 0x00000000000000000000000000000032
  simp only [encode]
  rw [hm, BitVec.and_append, BitVec.and_append, BitVec.and_append]
  simp

/-- MDI. -/
theorem mdi : Statement .mdi := by
  exact of_row (opcodeTable[13]) (List.getElem_mem _) (by decide) (by decide)

/-- EERD. -/
theorem eerd : Statement .eerd := by
  exact of_row (opcodeTable[14]) (List.getElem_mem _) (by decide) (by decide)

/-- EEWR. -/
theorem eewr (cs clk di : Bool) : Statement (.eewr cs clk di) := by
  refine of_row (opcodeTable[15]) (List.getElem_mem _) rfl ?_
  have hm : (0xFFFFFFFFFFFFFFFFFFF8FFFFFFFFFFFF : Desc)
      = BitVec.allOnes 77 ++ 0#1 ++ 0#1 ++ 0#1 ++ BitVec.allOnes 40 ++ BitVec.allOnes 8 := by decide
  show encode (.eewr cs clk di) &&& 0xFFFFFFFFFFFFFFFFFFF8FFFFFFFFFFFF = 0x00000000000000000000000000000035
  simp only [encode]
  rw [hm, BitVec.and_append, BitVec.and_append, BitVec.and_append, BitVec.and_append, BitVec.and_append]
  simp

/-- MDIORD. -/
theorem mdiord (phyad regad : BitVec 5) : Statement (.mdiord phyad regad) := by
  refine of_row (opcodeTable[16]) (List.getElem_mem _) rfl ?_
  have hm : (0xFFFFFFFFFFFFFFFFFFFFFFFFE0E0FFFF : Desc)
      = BitVec.allOnes 99 ++ 0#5 ++ BitVec.allOnes 3 ++ 0#5 ++ BitVec.allOnes 8 ++ BitVec.allOnes 8 := by decide
  show encode (.mdiord phyad regad) &&& 0xFFFFFFFFFFFFFFFFFFFFFFFFE0E0FFFF = 0x00000000000000000000000000000038
  simp only [encode]
  rw [hm, BitVec.and_append, BitVec.and_append, BitVec.and_append, BitVec.and_append, BitVec.and_append]
  simp

/-- MDIOWR. -/
theorem mdiowr (phyad regad : BitVec 5) (val : Half) : Statement (.mdiowr phyad regad val) := by
  refine of_row (opcodeTable[17]) (List.getElem_mem _) rfl ?_
  have hm : (0xFFFFFFFFFFFFFFFF0000FFFFE0E0FFFF : Desc)
      = BitVec.allOnes 64 ++ 0#16 ++ BitVec.allOnes 19 ++ 0#5 ++ BitVec.allOnes 3 ++ 0#5 ++ BitVec.allOnes 8 ++ BitVec.allOnes 8 := by decide
  show encode (.mdiowr phyad regad val) &&& 0xFFFFFFFFFFFFFFFF0000FFFFE0E0FFFF = 0x00000000000000000000000000000039
  simp only [encode]
  rw [hm, BitVec.and_append, BitVec.and_append, BitVec.and_append, BitVec.and_append, BitVec.and_append, BitVec.and_append, BitVec.and_append]
  simp

end Sys2Proof.Laws.EncodeInTable
end

