-- ==== Sys2Proof/Tests/Slice0.lean ====
section
/-!
SUPPORT. Tests. Expected values are from the spec's rules and from the vectors of 95_test_vectors.md, as
each theorem's comment says. Then a witness for the premises of each obligation that has some.
-/

namespace Sys2Proof.Tests

open Sys2Proof Sys2Proof.Machine

/-! ### What the checks refuse (R8, R77) -/

/-- The default configuration, the board at 0. -/
def board : Config := Config.defaultAt 0

theorem test_config_default : board.wellFormed = true := by decide

/-- R8: `WIN_SIZE` positive. -/
theorem test_config_win_zero : { board with winSize := 0 }.wellFormed = false := by decide

/-- R8: `WIN_SIZE` a multiple of 4. -/
theorem test_config_win_six : { board with winSize := 6 }.wellFormed = false := by decide

/-- R8: the read window in the 32-bit region. -/
theorem test_config_read_window : { board with rdWinOff := 0x1F84 }.wellFormed = false := by decide

/-- R8: the write window in the 32-bit region. -/
theorem test_config_write_window : { board with wrWinOff := 0x1F84 }.wellFormed = false := by decide

/-- R8: the registers below the 32-bit region (0x0800 + 124 + 1 is 0x087D). -/
theorem test_config_registers : { board with data32Base := 0x087C }.wellFormed = false := by decide

/-- R8: `BOARD_BASE` a multiple of 4. -/
theorem test_config_board : (Config.defaultAt 2).wellFormed = false := by decide

/-- R77: an unknown mnemonic. -/
theorem test_line_unknown : AsmLine.wellFormed ⟨none, "RD32", [.num 7]⟩ = false := by decide

/-- R77: a missing operand, and an extra one. -/
theorem test_line_missing : AsmLine.wellFormed ⟨none, "WR8", [.num 7]⟩ = false := by decide
theorem test_line_extra : AsmLine.wellFormed ⟨none, "RESET", [.num 0]⟩ = false := by decide

/-- R77: an operand that does not fit its field. -/
theorem test_line_too_big : AsmLine.wellFormed ⟨none, "MDIORD", [.num 32, .num 0]⟩ = false := by decide

/-- R77: a name where no register is taken. -/
theorem test_line_name : AsmLine.wellFormed ⟨none, "MDC", [.name "ISR"]⟩ = false := by decide

theorem test_line_good : AsmLine.wellFormed ⟨some .irq, "MDIORD", [.num 31, .num 0]⟩ = true := by decide

/-! ### Decoding: words written out from R71, R72 and R74, and the vectors V30.* -/

/-- Whether the four words decode to this request. -/
def decodes (w3 w2 w1 w0 : Word) (i : Instr) : Bool :=
  match decode (descOfWords w3 w2 w1 w0) with
  | .ok j => j == i
  | .error _ => false

/-- Whether the four words are refused for this reason. -/
def refuses (w3 w2 w1 w0 : Word) (e : DecodeError) : Bool :=
  match decode (descOfWords w3 w2 w1 w0) with
  | .ok _ => false
  | .error f => f == e

theorem test_decode_rd8 : decodes 0 0 0 0x00000701 (.rd8 0x07) = true := by decide
theorem test_decode_rd16 : decodes 0 0 0 0x00001002 (.rd16 0x10) = true := by decide
theorem test_decode_wr8 : decodes 0 0 0x00FF0000 0x00000703 (.wr8 0x07 0xFF) = true := by decide
theorem test_decode_wr16 : decodes 0 0 0xBEEF0000 0x00001004 (.wr16 0x10 0xBEEF) = true := by decide
theorem test_decode_wblk :
    decodes 0 0x00100000 0x00000085 0x00000010 (.wblk 0x00100000 133) = true := by decide
theorem test_decode_rblk :
    decodes 0 0x00200000 0x00000006 0x00000011 (.rblk 0x00200000 6) = true := by decide
theorem test_decode_gethdr :
    decodes 0 0x00200000 0 0x004C0020 (.gethdr 0x00200000 0x4C) = true := by decide
theorem test_decode_bin :
    decodes 0 0x00200004 0x4C04003C 0x00000021 (.bin 0x00200004 60 0x4C04) = true := by decide
theorem test_decode_bout :
    decodes 0 0x00100000 0x0000003D 0x00400022 (.bout 0x00100000 61 0x40) = true := by decide
theorem test_decode_reset : decodes 0 0 0 0x00000023 .reset = true := by decide
theorem test_decode_mdc : decodes 0 0 0x00010000 0x00000030 (.mdc true) = true := by decide
theorem test_decode_mdir : decodes 0 0 0x00010000 0x00000031 (.mdir true) = true := by decide
theorem test_decode_mdo : decodes 0 0 0x00000000 0x00000032 (.mdo false) = true := by decide
theorem test_decode_mdi : decodes 0 0 0 0x00000033 .mdi = true := by decide
theorem test_decode_eerd : decodes 0 0 0 0x00000034 .eerd = true := by decide
/-- `CS` is bit 50, `CLK` bit 49, `DI` bit 48 (R71): 5 is cs and di. -/
theorem test_decode_eewr : decodes 0 0 0x00050000 0x00000035 (.eewr true false true) = true := by decide
theorem test_decode_mdiord : decodes 0 0 0 0x01100038 (.mdiord 0x10 0x01) = true := by decide
theorem test_decode_mdiowr :
    decodes 0 0 0xA5A50000 0x04100039 (.mdiowr 0x10 0x04 0xA5A5) = true := by decide

/-- V30.5 to V30.8. -/
theorem test_refuse_unknown : refuses 0 0 0 0x00000005 .unknownOp = true := by decide
theorem test_refuse_wr8_high : refuses 0 0 0x01220000 0x00000003 .reservedBits = true := by decide
theorem test_refuse_mdc_bit49 : refuses 0 0 0x00020000 0x00000030 .reservedBits = true := by decide
theorem test_refuse_reset_high : refuses 0x00000001 0 0 0x00000023 .reservedBits = true := by decide

/-- R78: `MBIT b` is three requests. -/
theorem test_pseudo_mbit :
    assemble ⟨some .irq, "MBIT", [.num 1]⟩ = some (.irq, [.mdo true, .mdc true, .mdc false]) := by decide

/-- Two lines of R77 as characters: `irq: WR8 CMD, 0x22`, and `MDC 2`, whose operand does not fit. -/
theorem test_text_wr8 :
    assembleText ['i', 'r', 'q', ':', ' ', 'W', 'R', '8', ' ', 'C', 'M', 'D', ',', ' ', '0', 'x', '2', '2']
      = some (.irq, [.wr8 0x00 0x22]) := by decide
theorem test_text_refused : assembleText ['M', 'D', 'C', ' ', '2'] = none := by decide
theorem test_text_decimal :
    assembleText ['M', 'D', 'I', 'O', 'R', 'D', ' ', '1', '6', ',', '4'] = some (.task, [.mdiord 0x10 0x04]) := by decide

/-! ### One step of each request -/

/-- A block on which this request has just been accepted. -/
def started (p : Port) (i : Instr) : State :=
  (State.resetWith board).setPort p (.active (.fresh (encode i)))

/-- A TASK request at a position, with locals and the coming answers of the card bus. -/
def placed (i : Instr) (pos : Pos) (l : Locals := {}) (answers : List Word := []) : State :=
  ((State.resetWith board).withEnv { Env.quiet with busTape := answers }).setPort .task
    (.active ⟨encode i, pos, xstateAt i pos, l⟩)

/-- A check of the next state. -/
def after (o : Result) (f : State → Bool) : Bool :=
  match o with
  | .next t => f t
  | .fault _ => false
  | .refused _ => false

/-- The position of the TASK request. -/
def taskPos (s : State) : Option Pos :=
  match s.portTask with
  | .idle => none
  | .active a => some a.pos

/-- The locals of the TASK request. -/
def taskLocals (s : State) : Locals :=
  match s.portTask with
  | .idle => {}
  | .active a => a.locals

/-- V40.1: `Rd8 ISR -> 0x40` at +0x081C. -/
theorem test_rd8_cycle :
    after (exec (.rd8 7) (placed (.rd8 7) .cycle {} [0x40]))
      (fun t => t.out.cycles == [.read 0x0000081C .w8 0x40]) = true := by decide

/-- V30.9: `IDX` 0x20 faults with `fault` = (0x03, 0x20). -/
theorem test_rd8_range :
    after (exec (.rd8 0x20) (started .task (.rd8 0x20)))
      (fun t => t.fault == some (.regRange, .index 0x20)
        && t.out.responses == [(.task, ⟨.fault, .regRange, 0⟩)]) = true := by decide

/-- V40.2: `Rd16 DATAPORT -> 0x1234` at +0x0840. -/
theorem test_rd16_cycle :
    after (exec (.rd16 16) (placed (.rd16 16) .cycle {} [0x1234]))
      (fun t => t.out.cycles == [.read 0x00000840 .w16 0x1234]) = true := by decide

/-- V40.2: the response carries the value. -/
theorem test_rd16_respond :
    after (exec (.rd16 16) (placed (.rd16 16) .respond { value := 0x1234 }))
      (fun t => t.out.responses == [(.task, ⟨.ok, .none, 0x1234⟩)]) = true := by decide

/-- V40.4: `Wr8 CMD 0x22` at +0x0800. -/
theorem test_wr8_cycle :
    after (exec (.wr8 0 0x22) (placed (.wr8 0 0x22) .cycle))
      (fun t => t.out.cycles == [.write 0x00000800 .w8 0x22]) = true := by decide

/-- V40.7: a raw write of MEMR leaves `memr_shadow` as it is. -/
theorem test_wr8_memr :
    after (exec (.wr8 0x14 0x01) ((placed (.wr8 0x14 0x01) .cycle).withShadow 0x08))
      (fun t => t.memrShadow == 0x08 && t.out.cycles == [.write 0x00000850 .w8 0x01]) = true := by decide

/-- V40.5: `Wr16 DATAPORT 0xBEEF`. -/
theorem test_wr16_cycle :
    after (exec (.wr16 16 0xBEEF) (placed (.wr16 16 0xBEEF) .cycle))
      (fun t => t.out.cycles == [.write 0x00000840 .w16 0xBEEF]) = true := by decide

/-- V30.10: 0xFFFFFFF0 + 32 passes 2^32. -/
theorem test_wblk_range :
    after (exec (.wblk 0xFFFFFFF0 32) (started .task (.wblk 0xFFFFFFF0 32)))
      (fun t => t.out.responses == [(.task, ⟨.fault, .hostRange, 0⟩)]) = true := by decide

/-- V41.1: cycle 32 of 133 bytes is at offset 0x7C, and the next chunk begins at offset 0 with 5 bytes. -/
theorem test_wblk_chunk :
    after (exec (.wblk 0x00100000 133) (placed (.wblk 0x00100000 133) (.bus .win)
        { bytes := [0x7C, 0x7D, 0x7E, 0x7F], xfer := ⟨133, 0x00100000, 31⟩ }))
      (fun t => t.out.cycles == [.write 0x00008CFC .w32 0x7C7D7E7F]
        && taskPos t == some (.host .win) && (taskLocals t).xfer == ⟨5, 0x00100080, 0⟩) = true := by
  decide

/-- V41.2: `Rd16 DATAPORT -> 0xEEFF` carries EE, FF in stream order. -/
theorem test_rblk_half :
    after (exec (.rblk 0x00200000 6) (placed (.rblk 0x00200000 6) (.bus .half)
        { xfer := ⟨6, 0x00200004, 1⟩ } [0xEEFF]))
      (fun t => (taskLocals t).bytes == [0xEE, 0xFF] && taskPos t == some (.host .half)) = true := by
  decide

/-- V41.2: those bytes go to 0x00200004 and 0x00200005, and the transfer is complete. -/
theorem test_rblk_store :
    after (exec (.rblk 0x00200000 6) (placed (.rblk 0x00200000 6) (.host .half)
        { bytes := [0xEE, 0xFF], xfer := ⟨6, 0x00200004, 1⟩ }))
      (fun t => t.mem == [(0x00200004, 0xEE), (0x00200005, 0xFF)] && taskPos t == some .respond)
      = true := by decide

/-- V42.1: the count of the header 01 4D 3C 00 is 0x003C. -/
theorem test_gethdr_count :
    after (exec (.gethdr 0x00200000 0x4C) (placed (.gethdr 0x00200000 0x4C) .respond
        { header := [0x01, 0x4D, 0x3C, 0x00] }))
      (fun t => t.out.responses == [(.task, ⟨.ok, .none, 0x003C⟩)]) = true := by decide

/-- R104: a big-endian host holds the count as 00 3C. -/
theorem test_gethdr_swap :
    after (exec (.gethdr 0x00200000 0x4C) (placed (.gethdr 0x00200000 0x4C) .swap
        { header := [0x01, 0x4D, 0x3C, 0x00] }))
      (fun t => t.mem.readBytes 0x00200002 2 == [0x00, 0x3C]) = true := by decide

/-- V42.12: a busy engine gives (CONFLICT, 0x10, 0), one log entry and no cycle. -/
theorem test_bin_conflict :
    after (exec (.bin 0x00200000 60 0x4C04)
        ((placed (.bin 0x00200000 60 0x4C04) .acquire).withDmaing 0x02))
      (fun t => t.log == [.conflict .task 0x21 0x02] && t.dmaing == 0x02 && t.out.cycles == []
        && t.out.responses == [(.task, ⟨.conflict, .dmaConflict, 0⟩)]) = true := by decide

/-- V42.2: the ring offset 0x4C04 has 0x4C in `RSARHI`, at +0x0824. -/
theorem test_bin_offset :
    after (exec (.bin 0x00200004 60 0x4C04) (placed (.bin 0x00200004 60 0x4C04) (.arm .adrHi)))
      (fun t => t.out.cycles == [.write 0x00000824 .w8 0x4C]) = true := by decide

/-- V30.12: the rounded count 65536 does not fit. -/
theorem test_bout_overflow :
    after (exec (.bout 0x00100000 0xFFFF 0x40) (started .task (.bout 0x00100000 0xFFFF 0x40)))
      (fun t => t.out.responses == [(.task, ⟨.fault, .countOverflow, 0⟩)]) = true := by decide

/-- V42.10: a set `RDC` ends the wait. -/
theorem test_bout_poll :
    after (exec (.bout 0x00100000 4 0x40) (placed (.bout 0x00100000 4 0x40) .txPoll {} [0x40]))
      (fun t => taskPos t == some .ack) = true := by decide

/-- V42.11: RESET zeroes all of `dmaing`. -/
theorem test_reset_clear :
    after (exec .reset ((placed .reset .rstClear).withDmaing 0x03))
      (fun t => t.dmaing == 0x00) = true := by decide

/-- V42.11: a poll that reads 0x80 ends the wait. -/
theorem test_reset_poll :
    after (exec .reset (placed .reset .rstPoll {} [0x80]))
      (fun t => taskPos t == some .rstAck) = true := by decide

/-- V43.1. -/
theorem test_mdc :
    after (exec (.mdc true) ((placed (.mdc true) .cycle).withShadow 0x08))
      (fun t => t.memrShadow == 0x09 && t.out.cycles == [.write 0x00000850 .w8 0x09]) = true := by decide

/-- V43.13: an IRQ management request that meets the owner TASK faults with (0x05, 0x30). -/
theorem test_mdc_reentry :
    after (exec (.mdc true) ((started .irq (.mdc true)).withMgOwner (some .task)))
      (fun t => t.fault == some (.mgmtReentry, .opcode 0x30) && t.out.cycles == []) = true := by decide

/-- V43.3: input sets bit 1. -/
theorem test_mdir :
    after (exec (.mdir false) ((placed (.mdir false) .cycle).withShadow 0x08))
      (fun t => t.memrShadow == 0x0A) = true := by decide

/-- V43.6. -/
theorem test_mdo :
    after (exec (.mdo false) ((placed (.mdo false) .cycle).withShadow 0x09))
      (fun t => t.memrShadow == 0x01) = true := by decide

/-- V43.7: bit 2 of 0x0E. -/
theorem test_mdi :
    after (exec .mdi (placed .mdi .respond { value := 0x0E }))
      (fun t => t.out.responses == [(.task, ⟨.ok, .none, 1⟩)]) = true := by decide

/-- V43.8: the lines of 0x50 are cs and do. -/
theorem test_eerd :
    after (exec .eerd (placed .eerd .respond { value := 0x50 }))
      (fun t => t.out.responses == [(.task, ⟨.ok, .none, 0x000A⟩)]) = true := by decide

/-- V43.9a. -/
theorem test_eewr_shadow :
    after (exec (.eewr true false true) ((placed (.eewr true false true) .eeWrite).withShadow 0x08))
      (fun t => t.memrShadow == 0x38 && t.out.cycles == [.write 0x00000850 .w8 0x38]) = true := by decide

/-- V43.9b: under BUS the base is the byte read, 0x4C, and the shadow stays. -/
theorem test_eewr_bus :
    after (exec (.eewr true false true)
        { (placed (.eewr true false true) .eeWrite { value := 0x4C }).withShadow 0x08 with
          cfg := { board with eeRmwSource := .bus } })
      (fun t => t.memrShadow == 0x08 && t.out.cycles == [.write 0x00000850 .w8 0x7C]) = true := by decide

/-- V43.12: a turnaround of 1 gives 0xFFFF. -/
theorem test_mdiord_failure :
    after (exec (.mdiord 0x10 1) (placed (.mdiord 0x10 1) .respond { ta := true }))
      (fun t => t.out.responses == [(.task, ⟨.ok, .none, 0xFFFF⟩)]) = true := by decide

/-- R127: a data sample of 1 is shifted in at the low end. -/
theorem test_mdiord_shift :
    after (exec (.mdiord 0x10 1)
        ((placed (.mdiord 0x10 1) (.get .data 3 .sample) {} [0x04]).withMgData 0x0005))
      (fun t => t.mgData == 0x000B && taskPos t == some (.get .data 4 .high)) = true := by decide

/-- V43.10: the first data bit of 0xA5A5 is 1, pushed as 08 under output direction. -/
theorem test_mdiowr_bit :
    after (exec (.mdiowr 0x10 4 0xA5A5)
        ((placed (.mdiowr 0x10 4 0xA5A5) (.send 48 .set)).withMgData 0xA5A5))
      (fun t => t.mgPhase == .data && t.out.cycles == [.write 0x00000850 .w8 0x08]) = true := by decide

/-- R43: a stuck block takes no move but RST. -/
theorem test_stuck :
    step ((started .task .reset).withFault (some (.regRange, .index 0x20)))
      = .fault (.stuck .regRange (.index 0x20)) := rfl

/-- A word placed for the next step is decoded and run from the reset state. -/
theorem test_first_step :
    after (step (State.reset.withFetchWord 128 0x00002001))
      (fun t => t.fault == some (.regRange, .index 0x20)) = true := by decide

/-! ### Witnesses: states and operands that meet the premises of the obligations -/

/-- Moves planned for the next steps. -/
def planned (s : State) (m : List Move) : State := s.withEnv { s.env with moves := m }

/-- A TASK request at a position, an IRQ request just accepted over it. -/
def nested (i : Instr) (pos : Pos) (j : Instr) : State :=
  ((placed i pos).setPort .irq (.active (.fresh (encode j)))).withPreempted true

/-- A BIN whose first window cycle is next, which holds `BUSY`. -/
def bridging : State :=
  (placed (.bin 0x00200000 4 0x4C04) (.bus .win) { xfer := ⟨4, 0x00200000, 0⟩ } [0x01020304]).withDmaing 0x01

/-- It meets the invariant. -/
theorem bridging_blockInv : BlockInv bridging where
  cfg := by decide
  table := rfl
  mem := rfl
  task := by decide
  irq := rfl
  nesting := rfl
  inputs := rfl
  owner p := by cases p <;> decide
  shift _ := ⟨rfl, rfl, rfl⟩
  busy _ := .inl rfl
  reinit := ⟨fun h => (by cases h), fun ⟨_, _, h, h'⟩ => by cases h; cases h'⟩
  waits h := by cases h

theorem witness_EncodeOfDecode : decode 0x00000701 = .ok (.rd8 7) := rfl

theorem witness_TableRowsDisjoint :
    ∃ r ∈ opcodeTable, r.selects 0x00000701 = true := ⟨opcodeTable[0], List.getElem_mem _, by decide⟩

/-- Both clauses, on either port: a request that decodes, and one refused for each reason. -/
theorem witness_AcceptanceDecodes_task :
    ((State.resetWith board).setPresented .task (some 0x00000701)).presented .task = some 0x00000701
      ∧ ((State.resetWith board).setPresented .task (some 0x00000701)).mayAccept .task = true
      ∧ decode 0x00000701 = .ok (.rd8 7) := ⟨rfl, by decide, rfl⟩

theorem witness_AcceptanceDecodes_irq :
    (bridging.setPresented .irq (some 0x00000005)).presented .irq = some 0x00000005
      ∧ (bridging.setPresented .irq (some 0x00000005)).mayAccept .irq = true
      ∧ decode 0x00000005 = .error .unknownOp := ⟨rfl, by decide, rfl⟩

theorem witness_AcceptanceDecodes_reserved :
    (bridging.setPresented .irq (some 0x10000000701)).presented .irq = some 0x10000000701
      ∧ decode 0x10000000701 = .error .reservedBits := ⟨rfl, rfl⟩

theorem witness_BusyPortAcceptsNothing :
    bridging.port .task ≠ .idle ∧ (started .irq .reset).portIrq ≠ .idle := by decide

/-- Over a TASK request in progress the IRQ port is idle and nothing is presented on it; then something is. -/
theorem witness_BusyPortAcceptsNothing_present :
    bridging.portIrq = .idle ∧ bridging.env.presentedIrq = none
      ∧ (started .irq .reset).portTask = .idle ∧ (started .irq .reset).env.presentedTask = none
      ∧ (bridging.setPresented .irq (some 0x00000701)).presented .irq ≠ none := by decide

theorem witness_IrqNestsOverTask :
    ∃ t, exec (.rd8 7) ((nested (.rd8 8) .cycle (.rd8 7)).setPort .irq
        (.active ⟨encode (.rd8 7), .respond, .idle, {}⟩)) = .next t
      ∧ t.fault = none ∧ t.portIrq = .idle ∧ (∃ a, (nested (.rd8 8) .cycle (.rd8 7)).portTask = .active a) :=
  ⟨_, rfl, rfl, rfl, _, rfl⟩

theorem witness_StepRunsDecoded :
    ∃ a, bridging.fault = none ∧ bridging.running = some (.task, a)
      ∧ decode a.desc = .ok (.bin 0x00200000 4 0x4C04) ∧ bridging.env.moves = []
      ∧ bridging.env.presentedIrq = none := ⟨_, rfl, rfl, rfl, rfl, rfl⟩

theorem witness_StepRunsDecoded_scheduled :
    (planned bridging [.micro]).fault = none ∧ (planned bridging [.micro]).env.moves = [.micro] :=
  ⟨rfl, rfl⟩

/-- An IRQ request presented over a TASK request, and a TASK request presented to an idle block. -/
theorem witness_StepRunsDecoded_accept :
    (bridging.setPresented .irq (some 0x00000701)).env.presentedIrq ≠ none
      ∧ (bridging.setPresented .irq (some 0x00000701)).mayAccept .irq = true
      ∧ ((State.resetWith board).setPresented .task (some 0x00000701)).env.presentedTask ≠ none
      ∧ ((State.resetWith board).setPresented .task (some 0x00000701)).mayAccept .task = true
      ∧ ((State.resetWith board).setPresented .task (some 0x00000701)).running = none := by decide

theorem witness_StepRunsDecoded_moves :
    (planned bridging [.accept .irq]).env.moves = [.accept .irq]
      ∧ (planned bridging [.hostLoad 0 4]).env.moves = [.hostLoad 0 4]
      ∧ (planned bridging [.accept .irq]).fault = none := ⟨rfl, rfl, rfl⟩

/-- The three clauses: a move that is not RST, no move, RST. -/
theorem witness_StuckUntilRst :
    ∃ s : State, s.fault = some (.regRange, .index 0xFF) ∧ (planned s [.micro]).env.moves = [.micro]
      ∧ s.env.moves = [] ∧ (planned s [.rst]).env.moves = [.rst] :=
  ⟨bridging.withFault (some (.regRange, .index 0xFF)), rfl, rfl, rfl, rfl⟩

theorem witness_RstResetsTheBlock : (planned bridging [.rst, .micro]).env.moves = [.rst, .micro] := rfl

theorem witness_RstResetsTheBlock_only :
    ∃ s t : State, s.fault ≠ none ∧ step s = .next t :=
  ⟨planned (bridging.withFault (some (.regRange, .index 0x20))) [.rst], _, by decide, rfl⟩

theorem witness_ExtSetDmaingEffect :
    (planned bridging [.extSetDmaing 0x83]).fault = none
      ∧ (planned bridging [.extSetDmaing 0x83]).env.moves = [.extSetDmaing 0x83] := ⟨rfl, rfl⟩

theorem witness_ExtSetDmaingEffect_other :
    (∃ t, step bridging = .next t) ∧ (∀ v, bridging.nextMove.1 ≠ .extSetDmaing v) :=
  ⟨⟨_, rfl⟩, fun _ => by simp [show bridging.nextMove.1 = .micro from rfl]⟩

/-- Both clauses, at the boundary: a window that just fits, and one 4 bytes too long. -/
theorem witness_ConfigurationRefused :
    { board with rdWinOff := 0x1F80 }.wellFormed = true
      ∧ { board with rdWinOff := 0x1F84 }.wellFormed = false := by decide

/-- The least index out of range, and the greatest. -/
theorem witness_RegRangeRaised :
    32 ≤ (0x20 : Byte).toNat ∧ 32 ≤ (0xFF : Byte).toNat ∧ AtStart (started .task (.rd8 0x20)) .task
      ∧ AtStart (nested (.rd8 7) .cycle (.wr16 0xFF 0)) .irq :=
  ⟨by decide, by decide, ⟨_, rfl⟩, _, rfl⟩

/-- The three clauses, each one byte past the end. -/
theorem witness_HostRangeRaised :
    AtStart (started .task (.wblk 0xFFFFFFFF 2)) .task
      ∧ 2 ^ 32 < (0xFFFFFFFF : Word).toNat + (2 : Half).toNat
      ∧ 2 ^ 32 < (0xFFFFFFFD : Word).toNat + board.hdrSize
      ∧ 2 ^ 32 < (0xFFFFFFFF : Word).toNat + roundedCount board 1 ∧ roundedCount board 1 ≤ 0xFFFF :=
  ⟨⟨_, rfl⟩, by decide, by decide, by decide, by decide⟩

theorem witness_CountOverflowRaised :
    AtStart (started .task (.bout 0xFFFFFFFF 0xFFFF 0x40)) .task
      ∧ (started .task (.bout 0xFFFFFFFF 0xFFFF 0x40)).cfg.word16 = true := ⟨⟨_, rfl⟩, rfl⟩

theorem witness_MgmtReentryRaised :
    isMgmt .mdi = true ∧ AtStart ((nested (.mdo true) .cycle .mdi).withMgOwner (some .task)) .irq
      ∧ ((nested (.mdo true) .cycle .mdi).withMgOwner (some .task)).mgOwner = some .task :=
  ⟨rfl, ⟨_, rfl⟩, rfl⟩

/-- The three clauses, each buffer ending exactly at 2^32. -/
theorem witness_ConflictPath :
    AtStart ((started .task (.bin 0xFFFFFFC4 60 0x4C04)).withDmaing 0x02) .task
      ∧ ((started .task (.bin 0xFFFFFFC4 60 0x4C04)).withDmaing 0x02).dmaing ≠ 0x00
      ∧ (0xFFFFFFC4 : Word).toNat + (60 : Half).toNat ≤ 2 ^ 32
      ∧ (0xFFFFFFFC : Word).toNat + board.hdrSize ≤ 2 ^ 32
      ∧ (0xFFFFFFFC : Word).toNat + roundedCount board 3 ≤ 2 ^ 32 ∧ roundedCount board 0xFFFE ≤ 0xFFFF :=
  ⟨⟨_, rfl⟩, by decide, by decide, by decide, by decide, by decide⟩

theorem witness_RegisterAddresses :
    bridging.cfg.wellFormed = true ∧ bridging.cfg.aligned = true
      ∧ bridging.regOffset = offsetTable bridging.cfg := ⟨by decide, by decide, rfl⟩

/-- The first and the last register. -/
theorem witness_RegisterReads :
    AtStart (started .task (.rd8 31)) .task ∧ (0 : Byte).toNat = (0 : Fin 32).val
      ∧ (31 : Byte).toNat = (31 : Fin 32).val := ⟨⟨_, rfl⟩, rfl, rfl⟩

theorem witness_RegisterWrites :
    AtStart (started .irq (.wr16 31 0xFFFF)) .irq ∧ (31 : Byte).toNat = (31 : Fin 32).val :=
  ⟨⟨_, rfl⟩, rfl⟩

/-- A buffer that ends at 2^32, and an empty one there; also for RBLK and BIN. -/
theorem witness_WblkMovesBuffer :
    AtStart (started .task (.wblk 0xFFFFFFE0 32)) .task
      ∧ (started .task (.wblk 0xFFFFFFE0 32)).cfg.winSizeOk = true
      ∧ (0xFFFFFFE0 : Word).toNat + (32 : Half).toNat ≤ 2 ^ 32 := ⟨⟨_, rfl⟩, rfl, by decide⟩

theorem witness_RblkFillsBuffer :
    AtStart (started .irq (.rblk 0xFFFFFFFF 1)) .irq
      ∧ (started .irq (.rblk 0xFFFFFFFF 1)).cfg.winSizeOk = true
      ∧ (0xFFFFFFFF : Word).toNat + (1 : Half).toNat ≤ 2 ^ 32
      ∧ (started .irq (.rblk 0xFFFFFFFF 1)).mem.wf = true := ⟨⟨_, rfl⟩, rfl, by decide, rfl⟩

/-- A TASK request with the simulator behind the card bus. -/
def simulated (i : Instr) : State :=
  (started .task i).withEnv { Env.quiet with nic := some SimFifo.empty }

theorem witness_BridgeRoundTrip :
    AtStart (simulated (.wblk 0xFFFF0001 0xFFFF)) .task
      ∧ (simulated (.wblk 0xFFFF0001 0xFFFF)).cfg.wellFormed = true
      ∧ (simulated (.wblk 0xFFFF0001 0xFFFF)).cfg.aligned = true
      ∧ (simulated (.wblk 0xFFFF0001 0xFFFF)).regOffset
          = offsetTable (simulated (.wblk 0xFFFF0001 0xFFFF)).cfg
      ∧ (simulated (.wblk 0xFFFF0001 0xFFFF)).mem.wf = true
      ∧ (simulated (.wblk 0xFFFF0001 0xFFFF)).env.nic = some SimFifo.empty ∧ SimFifo.empty.queue = []
      ∧ (0xFFFF0001 : Word).toNat + (0xFFFF : Half).toNat ≤ 2 ^ 32 :=
  ⟨⟨_, rfl⟩, by decide, by decide, rfl, rfl, rfl, rfl, by decide⟩

theorem witness_GethdrFetchesHeader :
    AtStart (started .task (.gethdr 0xFFFFFFFC 0xFF)) .task ∧ board.winSizeOk = true ∧ board.hdrSize = 4
      ∧ (0xFFFFFFFC : Word).toNat + 4 ≤ 2 ^ 32
      ∧ (started .task (.gethdr 0xFFFFFFFC 0xFF)).dmaing = 0x00
      ∧ (started .task (.gethdr 0xFFFFFFFC 0xFF)).mem.wf = true :=
  ⟨⟨_, rfl⟩, rfl, rfl, by decide, rfl, rfl⟩

theorem witness_BinTransfersBlock :
    AtStart (started .irq (.bin 0xFFFF0001 0xFFFF 0xFFFF)) .irq
      ∧ (0xFFFF0001 : Word).toNat + (0xFFFF : Half).toNat ≤ 2 ^ 32
      ∧ (started .irq (.bin 0xFFFF0001 0xFFFF 0xFFFF)).dmaing = 0x00
      ∧ (started .irq (.bin 0xFFFF0001 0xFFFF 0xFFFF)).mem.wf = true := ⟨⟨_, rfl⟩, by decide, rfl, rfl⟩

/-- A TASK request with these answers of the card bus, the time base and the collaborator to come. -/
def answered (i : Instr) (bus : List Word) (expired : List Nat) (reinit : List Bool) : State :=
  (started .task i).withEnv
    { Env.quiet with busTape := bus, expiredTape := expired, reinitTape := reinit }

/-- An odd length that ends, rounded, at 2^32; the second poll sees `RDC`. -/
theorem witness_BoutTransmitsBlock :
    AtStart (answered (.bout 0xFFFFFFC2 61 0x40) [0x00, 0x40] [1] []) .task
      ∧ roundedCount board 61 ≤ 0xFFFF ∧ (0xFFFFFFC2 : Word).toNat + roundedCount board 61 ≤ 2 ^ 32
      ∧ (answered (.bout 0xFFFFFFC2 61 0x40) [0x00, 0x40] [1] []).dmaing = 0x00
      ∧ (answered (.bout 0xFFFFFFC2 61 0x40) [0x00, 0x40] [1] []).env.nic = none
      ∧ (answered (.bout 0xFFFFFFC2 61 0x40) [0x00, 0x40] [1] []).env.busTape = [0x00, 0x40] ++ []
      ∧ (answered (.bout 0xFFFFFFC2 61 0x40) [0x00, 0x40] [1] []).env.expiredTape = 1 :: []
      ∧ pollRun 0x40 [0x00, 0x40] 1 = some false :=
  ⟨⟨_, rfl⟩, by decide, by decide, rfl, rfl, rfl, rfl, by decide⟩

/-- V42.9: the wait expires, and so does the reset poll. -/
theorem witness_BoutRecoversFromTimeout :
    AtStart (answered (.bout 0x00100000 4 0x40) [0, 0x55, 0] [0, 0] [false, true]) .task
      ∧ (answered (.bout 0x00100000 4 0x40) [0, 0x55, 0] [0, 0] [false, true]).env.busTape
          = [0] ++ 0x55 :: ([0] ++ [])
      ∧ (answered (.bout 0x00100000 4 0x40) [0, 0x55, 0] [0, 0] [false, true]).env.expiredTape
          = 0 :: 0 :: []
      ∧ (answered (.bout 0x00100000 4 0x40) [0, 0x55, 0] [0, 0] [false, true]).env.reinitTape
          = List.replicate 1 false ++ true :: []
      ∧ pollRun 0x40 [0] 0 = some true ∧ pollRun 0x80 [0] 0 = some true :=
  ⟨⟨_, rfl⟩, rfl, rfl, rfl, by decide, by decide⟩

/-- A reset poll that sees `RST` at once, and one that expires. -/
theorem witness_ResetPulsesAndPolls :
    AtStart (answered .reset [0x55, 0x80] [3] []) .task
      ∧ (answered .reset [0x55, 0x80] [3] []).env.busTape = 0x55 :: ([0x80] ++ [])
      ∧ (answered .reset [0x55, 0x80] [3] []).env.expiredTape = 3 :: []
      ∧ pollRun 0x80 [0x80] 3 = some false ∧ pollRun 0x80 [0x00] 0 = some true :=
  ⟨⟨_, rfl⟩, rfl, rfl, by decide, by decide⟩

theorem witness_BusyAcquireAndRelease :
    isDma (.bin 0 4 0) = true
      ∧ (∃ a, (placed (.bin 0 4 0) .acquire).running = some (.task, a) ∧ a.pos = .acquire)
      ∧ (placed (.bin 0 4 0) .acquire).dmaing = 0x00
      ∧ (∃ a, (placed (.bin 0 4 0) .release).running = some (.task, a) ∧ a.pos = .release) :=
  ⟨rfl, ⟨_, rfl, rfl⟩, rfl, _, rfl, rfl⟩

theorem witness_TxWaitIteration :
    (∃ a, (placed (.bout 0 4 0x40) .txPoll).running = some (.task, a) ∧ a.pos = .txPoll)
      ∧ (∃ a, (placed (.bout 0 4 0x40) .txDraw { wait := some ⟨.tx, some 0⟩ }).running = some (.task, a)
          ∧ a.pos = .txDraw
          ∧ ((placed (.bout 0 4 0x40) .txDraw).drawWait a.locals.wait).1 = true) :=
  ⟨⟨_, rfl, rfl⟩, _, rfl, rfl, rfl⟩

/-- R110: an IRQ request presented during the wait is not accepted. -/
theorem test_reinit_accepts_none :
    ((placed (.bout 0 4 0x40) .reinitWait).setPresented .irq (some 0x00000701)).mayAccept .irq = false := by
  decide

/-- A step of the wait that finds `reinit_done` low, an IRQ request presented. -/
theorem witness_ReinitWaits_step :
    ∃ (s t : State) (a : Active), s.running = some (.task, a) ∧ decode a.desc = .ok (.bout 0 4 0x40)
      ∧ a.pos = .reinitWait ∧ step s = .next t ∧ s.nextMove.1 ≠ .rst ∧ s.drawReinit.1 = false :=
  ⟨((placed (.bout 0 4 0x40) .reinitWait).withEnv
      { Env.quiet with reinitTape := [false], presentedIrq := some 0x00000701 }),
    _, _, rfl, rfl, rfl, rfl, by decide, rfl⟩

theorem witness_ReinitWaits_request :
    ∃ a, (placed (.bout 0 4 0x40) .reinitReq).running = some (.task, a) ∧ a.pos = .reinitReq :=
  ⟨_, rfl, rfl⟩

theorem witness_ReinitWaits :
    ∃ (s : State) (a : Active), s.running = some (.task, a) ∧ a.pos = .reinitWait
      ∧ s.drawReinit.1 = false ∧ s.drawReinit.2.drawReinit.1 = true :=
  ⟨(placed (.bout 0 4 0x40) .reinitWait).withEnv { Env.quiet with reinitTape := [false, true] },
    _, rfl, rfl, rfl, rfl⟩

/-- On the IRQ port with no owner; likewise for the other management requests. -/
theorem witness_LinePrimitives :
    AtStart (nested (.rd8 7) .cycle (.mdc true)) .irq
      ∧ ¬ (Port.irq = .irq ∧ (nested (.rd8 7) .cycle (.mdc true)).mgOwner = some .task) :=
  ⟨⟨_, rfl⟩, by decide⟩

theorem witness_LineReads :
    AtStart (started .task .mdi) .task
      ∧ ¬ (Port.task = .irq ∧ (started .task .mdi).mgOwner = some .task) := ⟨⟨_, rfl⟩, by decide⟩

/-- Both sources of the base byte. -/
theorem witness_EepromWrite :
    AtStart (started .task (.eewr true false true)) .task
      ∧ (started .task (.eewr true false true)).cfg.eeRmwSource = .shadow
      ∧ AtStart ((State.resetWith { board with eeRmwSource := .bus }).setPort .task
          (.active (.fresh (encode (.eewr true false true))))) .task
      ∧ ((State.resetWith { board with eeRmwSource := .bus }).setPort .task
          (.active (.fresh (encode (.eewr true false true))))).cfg.eeRmwSource = .bus :=
  ⟨⟨_, rfl⟩, rfl, ⟨_, rfl⟩, rfl⟩

theorem witness_MdiowrSendsFrame :
    AtStart (started .task (.mdiowr 0x1F 0x1F 0xFFFF)) .task
      ∧ ¬ (Port.task = .irq ∧ (started .task (.mdiowr 0x1F 0x1F 0xFFFF)).mgOwner = some .task) :=
  ⟨⟨_, rfl⟩, by decide⟩

/-- A turnaround of 0, then 16 samples of 1. -/
theorem witness_MdiordReadsRegister :
    AtStart (answered (.mdiord 0x10 1) (0x00 :: (List.replicate 16 0x04 ++ [0x04])) [] []) .task
      ∧ (answered (.mdiord 0x10 1) (0x00 :: (List.replicate 16 0x04 ++ [0x04])) [] []).env.busTape
          = 0x00 :: (List.replicate 16 0x04 ++ 0x04 :: [])
      ∧ (List.replicate 16 (0x04 : Word)).length = 16 ∧ (0x00 : Word).getLsbD 2 = false :=
  ⟨⟨_, rfl⟩, rfl, rfl, rfl⟩

theorem witness_MdiordTurnaroundFailure :
    AtStart (answered (.mdiord 0x10 1) (List.replicate 33 0x04) [] []) .task
      ∧ (answered (.mdiord 0x10 1) (List.replicate 33 0x04) [] []).env.busTape
          = 0x04 :: (List.replicate 32 0x04 ++ [])
      ∧ (List.replicate 32 (0x04 : Word)).length = 32 ∧ (0x04 : Word).getLsbD 2 = true :=
  ⟨⟨_, rfl⟩, rfl, rfl, rfl⟩

/-- A clear clock bit, and a set one; EEWR under either source. -/
theorem witness_ClockPulses :
    AtStart (started .task (.mdiowr 0x10 4 0xA5A5)) .task
      ∧ ¬ (Port.task = .irq ∧ (started .task (.mdiowr 0x10 4 0xA5A5)).mgOwner = some .task)
      ∧ (started .task (.mdiowr 0x10 4 0xA5A5)).memrShadow.getLsbD 0 = false
      ∧ AtStart ((nested (.rd8 7) .cycle (.mdc true)).withShadow 0x01) .irq
      ∧ ((nested (.rd8 7) .cycle (.mdc true)).withShadow 0x01).memrShadow.getLsbD 0 = true
      ∧ board.eeRmwSource = .shadow
      ∧ AtStart ((State.resetWith { board with eeRmwSource := .bus }).setPort .task
          (.active (.fresh (encode (.eewr true false true))))) .task :=
  ⟨⟨_, rfl⟩, by decide, rfl, ⟨_, rfl⟩, rfl, rfl, _, rfl⟩

theorem witness_EveryPositionSteps :
    ∃ a, bridging.running = some (.task, a) ∧ hasPos (.bin 0x00200000 4 0x4C04) a.pos = true :=
  ⟨_, rfl, rfl⟩

theorem witness_ResetMeetsInvariant : Config.wellFormed { board with winSize := 0x1380 } = true := by
  decide

/-- For StepKeepsInvariant, CyclesOnTheBoard, OneCyclePerStep and HistoryOnlyGrows. -/
theorem witness_StepKeepsInvariant :
    BlockInv bridging ∧ (∃ t c, step bridging = .next t ∧ t.out.cycles = bridging.out.cycles ++ [c])
      ∧ bridging.nextMove.1 ≠ .rst ∧ bridging.cfg.aligned = true :=
  ⟨bridging_blockInv, ⟨_, .read 0x00008880 .w32 0x01020304, rfl, rfl⟩, by decide, by decide⟩

theorem witness_LiveBlockSteps : BlockInv bridging ∧ bridging.fault = none := ⟨bridging_blockInv, rfl⟩

theorem witness_TransactionsExclude :
    BlockInv bridging ∧ Exclusive bridging ∧ (∃ t, step bridging = .next t)
      ∧ (bridging.nextMove.1 = .micro → ∀ p a, bridging.running = some (p, a) → a.pos ≠ .rstClear) :=
  ⟨bridging_blockInv, ⟨by decide, fun _ => by decide, fun h => by cases h⟩, ⟨_, rfl⟩,
    fun _ _ _ h => by cases h; simp⟩

/-- A RESET about to zero `dmaing`, an action of the host agents first. -/
def clearing : State := planned (placed .reset .rstClear) [.extSetDmaing 0x80]

theorem witness_TransactionsExclude_other :
    BlockInv clearing ∧ Exclusive clearing ∧ (∃ t, step clearing = .next t)
      ∧ (clearing.nextMove.1 = .micro → ∀ p a, clearing.running = some (p, a) → a.pos ≠ .rstClear) where
  left := {
    cfg := by decide
    table := rfl
    mem := rfl
    task := by decide
    irq := rfl
    nesting := rfl
    inputs := rfl
    owner := fun p => by cases p <;> decide
    shift := fun _ => ⟨rfl, rfl, rfl⟩
    busy := fun h => absurd h (by decide)
    reinit := ⟨fun h => (by cases h), fun ⟨_, _, h, h'⟩ => by cases h; cases h'⟩
    waits := fun h => by cases h }
  right := ⟨⟨by decide, fun h => absurd h (by decide), fun h => absurd h (by decide)⟩, ⟨_, rfl⟩,
    fun h => by simp [show clearing.nextMove.1 = .extSetDmaing 0x80 from rfl] at h⟩

/-- Its ring: from TRANSFERRING to ACKNOWLEDGED. -/
theorem witness_XStateMoves :
    ∃ t a, (placed (.bin 0 4 0) .ack).running = some (.task, a) ∧ decode a.desc = .ok (.bin 0 4 0)
      ∧ portOk board (.active a) = true ∧ exec (.bin 0 4 0) (placed (.bin 0 4 0) .ack) = .next t :=
  ⟨_, _, rfl, rfl, by decide, rfl⟩

theorem witness_DmaingWriters : ∃ t, exec (.bin 0 4 0) (placed (.bin 0 4 0) .acquire) = .next t := ⟨_, rfl⟩

theorem witness_MgEnterTakesOwnership :
    isMgmt (.mdc true) = true ∧ AtStart (started .task (.mdc true)) .task
      ∧ ¬ (Port.task = .irq ∧ (started .task (.mdc true)).mgOwner = some .task) := ⟨rfl, ⟨_, rfl⟩, by decide⟩

/-- The frame positions at the ends of the phases, the load, and the data samples. -/
theorem witness_FrameShiftState :
    (∀ n, ∃ a, (placed (.mdiowr 0 0 0) (.send n .set)).running = some (.task, a) ∧ a.pos = .send n .set)
      ∧ (∃ a, (placed (.mdiowr 0 0 0) .mdLoad).running = some (.task, a) ∧ a.pos = .mdLoad)
      ∧ (∃ a, (placed (.mdiord 0 0) (.get .data 15 .sample)).running = some (.task, a)
          ∧ a.pos = .get .data 15 .sample)
      ∧ (∃ a, (placed (.mdiord 0 0) (.get .data 0 .high)).running = some (.task, a)
          ∧ a.pos = .get .data 0 .high) :=
  ⟨fun _ => ⟨_, rfl, rfl⟩, ⟨_, rfl, rfl⟩, ⟨_, rfl, rfl⟩, _, rfl, rfl⟩

/-- The direction push, and the bits a frame takes from the line at the ends of their ranges. -/
theorem witness_FrameShiftState_taken :
    (∃ a, (placed (.mdiord 0 0) .mdIn).running = some (.task, a) ∧ a.pos = .mdIn)
      ∧ (∃ a, (placed (.mdiowr 0 0 0) (.get .tail 0 .high)).running = some (.task, a)
          ∧ a.pos = .get .tail 0 .high)
      ∧ (∃ a, (placed (.mdiowr 0 0 0) (.send 63 .low)).running = some (.task, a) ∧ a.pos = .send 63 .low)
      ∧ (∀ g n e, ∃ a, (placed (.mdiord 0 0) (.get g n e)).running = some (.task, a)
          ∧ a.pos = .get g n e) :=
  ⟨⟨_, rfl, rfl⟩, ⟨_, rfl, rfl⟩, ⟨_, rfl, rfl⟩, fun _ _ _ => ⟨_, rfl, rfl⟩⟩

/-- R127: bit 31 of FLUSH. -/
theorem test_mdiord_flush :
    after (exec (.mdiord 0x10 1) (placed (.mdiord 0x10 1) (.get .flush 31 .high)))
      (fun t => t.mgPhase == .flush && t.mgBitpos == 31) = true := by decide

/-- A fault, and an OK with a value. -/
theorem witness_ResponsesMatchTable :
    (∃ t, step (started .task (.rd8 0x20)) = .next t
        ∧ t.out.responses = [] ++ [(.task, ⟨.fault, .regRange, 0⟩)])
      ∧ (∃ t, step (placed (.rd16 16) .respond { value := 0x1234 }) = .next t
        ∧ t.out.responses = [] ++ [(.task, ⟨.ok, .none, 0x1234⟩)]) := ⟨⟨_, rfl, rfl⟩, _, rfl, rfl⟩

theorem witness_EndedRunRests :
    (State.resetWith board).ended = true ∧ (State.resetWith board).env.moves = []
      ∧ (bridging.withFault (some (.regRange, .index 0x20))).fault ≠ none := ⟨by decide, rfl, by decide⟩

/-- A bridge cycle of BIN, and a management cycle. -/
theorem witness_AccessWidths :
    (∃ t a c, bridging.running = some (.task, a) ∧ exec (.bin 0x00200000 4 0x4C04) bridging = .next t
        ∧ t.out.cycles = bridging.out.cycles ++ [c])
      ∧ (∃ t a c, (placed .mdi .cycle).running = some (.task, a)
        ∧ exec .mdi (placed .mdi .cycle) = .next t ∧ t.out.cycles = [] ++ [c]) :=
  ⟨⟨_, _, _, rfl, rfl, rfl⟩, _, _, _, rfl, rfl, rfl⟩

/-- A store of two bytes that ends at 2^32, and GETHDR's rewrite there. -/
theorem witness_HostMemoryFrame :
    (∃ t a, (placed (.rblk 0xFFFFFFFE 2) (.host .half)
          { bytes := [0xEE, 0xFF], xfer := ⟨2, 0xFFFFFFFE, 0⟩ }).running = some (.task, a)
        ∧ a.pos = .host .half
        ∧ a.locals.xfer.hostAddr .half + a.locals.bytes.length ≤ 2 ^ 32
        ∧ exec (.rblk 0xFFFFFFFE 2) (placed (.rblk 0xFFFFFFFE 2) (.host .half)
          { bytes := [0xEE, 0xFF], xfer := ⟨2, 0xFFFFFFFE, 0⟩ }) = .next t)
      ∧ (0xFFFFFFFC : Word).toNat + 4 ≤ 2 ^ 32
      ∧ (∃ t, exec (.gethdr 0xFFFFFFFC 0x4C) (placed (.gethdr 0xFFFFFFFC 0x4C) .swap) = .next t) :=
  ⟨⟨_, _, rfl, rfl, by decide, rfl⟩, by decide, _, rfl⟩

theorem witness_RegisterFrame :
    ∃ t a, (placed (.mdc true) .cycle).running = some (.task, a) ∧ a.pos ≠ .start
      ∧ exec (.mdc true) (placed (.mdc true) .cycle) = .next t := ⟨_, _, rfl, by simp, rfl⟩

/-- A transfer of two bytes whose first another agent has raced for, on its way to or from the card. -/
def racing (i : Instr) (pos : Pos) : State :=
  placed i pos { bytes := [0xEE, 0xFF], xfer := ⟨2, 0x00100000, 0⟩, raced := [0x00100000] }

/-- Both directions; the draw 0x5A is moved in place of 0xEE. -/
theorem test_raced_write :
    after (exec (.wblk 0x00100000 2)
        ((racing (.wblk 0x00100000 2) (.bus .half)).withEnv { Env.quiet with hostTape := [0x5A] }))
      (fun t => t.out.cycles == [.write 0x00000840 .w16 0x5AFF]) = true := by decide

theorem test_raced_read :
    after (exec (.rblk 0x00100000 2)
        ((racing (.rblk 0x00100000 2) (.host .half)).withEnv { Env.quiet with hostTape := [0x5A] }))
      (fun t => t.mem == [(0x00100000, 0x5A), (0x00100001, 0xFF)]) = true := by decide

/-- Onto the bus, into host memory, and GETHDR's rewrite ending at 2^32. -/
theorem witness_RacedBytesAreDraws_moved :
    (∃ t a, (racing (.wblk 0x00100000 2) (.bus .half)).running = some (.task, a)
        ∧ exec (.wblk 0x00100000 2) (racing (.wblk 0x00100000 2) (.bus .half)) = .next t
        ∧ a.pos = .bus .half ∧ a.locals.bytes.length = BUnit.half.size)
      ∧ (∃ t a, (racing (.rblk 0x00100000 2) (.host .half)).running = some (.task, a)
        ∧ exec (.rblk 0x00100000 2) (racing (.rblk 0x00100000 2) (.host .half)) = .next t
        ∧ a.pos = .host .half ∧ a.locals.xfer.hostAddr .half + a.locals.bytes.length ≤ 2 ^ 32)
      ∧ (racing (.rblk 0x00100000 2) (.host .half)).mem.wf = true
      ∧ (∃ t, exec (.gethdr 0xFFFFFFFC 0x4C) (racing (.gethdr 0xFFFFFFFC 0x4C) .swap) = .next t)
      ∧ (0xFFFFFFFC : Word).toNat + 4 ≤ 2 ^ 32 :=
  ⟨⟨_, _, rfl, rfl, rfl, rfl⟩, ⟨_, _, rfl, rfl, rfl, by decide⟩, rfl, ⟨_, rfl⟩, by decide⟩

/-- A raced byte at offset 1: the first byte is moved as it is, the second is the first draw. -/
theorem test_raced_offset :
    (((State.resetWith board).withEnv { Env.quiet with hostTape := [0x5A] }).moved [0x00100001] 0x00100000
      [0xEE, 0xFF]).1 = [0xEE, 0x5A] := by decide

/-- A read in the buffer of a BIN, and one past its end. -/
theorem witness_RacedBytesAreDraws_read :
    (∃ act, bridging.port .task = .active act ∧ decode act.desc = .ok (.bin 0x00200000 4 0x4C04))
      ∧ storesToHost (.bin 0x00200000 4 0x4C04) = true
      ∧ inBuffer bridging.cfg 0x00200003 (bridging.port .task) = true
      ∧ inBuffer bridging.cfg 0x00200004 (bridging.port .task) = false
      ∧ bridging.port .irq = .idle := ⟨⟨_, rfl, rfl⟩, rfl, by decide, by decide, rfl⟩

/-- A wait before its first draw, one with a false draw left, one with none. -/
theorem witness_ExpiredMonotoneAndFair :
    (({ wait := some ⟨.tx, none⟩ } : Locals).wait = some ⟨.tx, none⟩)
      ∧ ((State.resetWith board).drawFor { wait := some ⟨.rst, some 1⟩ }).1 = false
      ∧ ((State.resetWith board).drawFor { wait := some ⟨.rst, some 0⟩ }).1 = true
      ∧ AtStart (started .task .reset) .task
      ∧ AtStart (started .irq (.bout 0x00100000 4 0x40)) .irq ∧ board.winSizeOk = true :=
  ⟨rfl, rfl, rfl, ⟨_, rfl⟩, ⟨_, rfl⟩, by decide⟩

/-- An execution that stays in a wait loop without polling: TASK suspended, nothing else to do. -/
theorem witness_ExpiredMonotoneAndFair_execution :
    ∃ run : Nat → State, (∀ k, step (run k) = .next (run (k + 1)))
      ∧ ∀ k, inWaitLoop ((run k).port .task) = true :=
  ⟨fun _ => (placed .reset .rstPoll { wait := some ⟨.rst, none⟩ }).withPreempted true, fun _ => rfl,
    fun _ => rfl⟩

/-- The first byte of a buffer is raced, the byte past its end is not. -/
theorem witness_RacedBytesAreDraws :
    (0x00200000 : Nat) < 2 ^ 32 ∧ bridging.mem.wf = true
      ∧ inBuffer bridging.cfg 0x00200000 bridging.portTask = true
      ∧ inBuffer bridging.cfg 0x00200004 bridging.portTask = false
      ∧ inBuffer bridging.cfg 0x00200004 bridging.portIrq = false := by decide

end Sys2Proof.Tests
end

section
/-!
PROOF. The statements about scope (00_scope.md): what a configuration must meet (R8), and the end of a run
(R18).
-/

/-! ### Configurations (R8) -/

namespace Sys2Proof

/-- The constraints of R8 as arithmetic on the fields. -/
theorem Config.wellFormed_iff (c : Config) :
    c.wellFormed = true ↔
      0 < c.winSize ∧ c.winSize % 4 = 0
        ∧ c.rdWinOff.toNat + c.winSize ≤ c.data32Size.toNat
        ∧ c.wrWinOff.toNat + c.winSize ≤ c.data32Size.toNat
        ∧ c.regBase.toNat + c.regStride * 31 + 1 ≤ c.data32Base.toNat
        ∧ c.boardBase.toNat % 4 = 0 := by
  simp [wellFormed, winSizeOk, rdWindowFits, wrWindowFits, registersBelowData32, boardAligned, and_assoc]

end Sys2Proof

namespace Sys2Proof.Machine

open Sys2Proof

theorem configure_of_wellFormed {c : Config} (h : c.wellFormed = true) :
    configure c = .next (State.resetWith c) := if_pos h

theorem configure_of_not_wellFormed {c : Config} (h : ¬ c.wellFormed = true) :
    configure c = .refused .badConfiguration := if_neg h

/-- Settles O15: `wellFormed` is the conjunction written out, and `configure` branches on it. -/
theorem configurationRefused : Obligations.ConfigurationRefused := by
  intro c
  rw [← c.wellFormed_iff]
  exact ⟨configure_of_wellFormed, configure_of_not_wellFormed⟩

/-! ### The end of a run (R18) -/

section

variable {s : State}

theorem ended_iff :
    s.ended = true ↔
      s.portTask = .idle ∧ s.portIrq = .idle ∧ s.env.presentedTask = none
        ∧ s.env.presentedIrq = none ∧ s.fault = none := by
  simp [State.ended, and_assoc]

theorem ended_of_fault (h : s.fault ≠ none) : s.ended = false := by
  rw [Bool.eq_false_iff, ne_eq, ended_iff]
  exact fun ⟨_, _, _, _, hfault⟩ => h hfault

theorem running_of_idle (ht : s.portTask = .idle) (hi : s.portIrq = .idle) : s.running = none := by
  simp [State.running, ht, hi]

/-- With nothing presented there is nothing to accept (log 2). -/
theorem defaultMove_of_nothing_presented (ht : s.env.presentedTask = none)
    (hi : s.env.presentedIrq = none) : s.defaultMove = .micro := by
  simp [State.defaultMove, ht, hi]

theorem nextMove_of_unscheduled (h : s.env.moves = []) : s.nextMove = (s.defaultMove, s) := by
  simp [State.nextMove, h]

theorem runMicro_of_not_running (h : s.running = none) : s.runMicro = .next s := by
  simp [State.runMicro, h]

theorem step_of_no_fault (h : s.fault = none) : step s = s.nextMove.2.move s.nextMove.1 := by
  simp [step, h]

/-- A block with nothing to do and nothing scheduled takes an empty micro-step (log 3). -/
theorem step_of_ended (he : s.ended = true) (hm : s.env.moves = []) : step s = .next s := by
  obtain ⟨htask, hirq, hnoTask, hnoIrq, hfault⟩ := ended_iff.mp he
  calc step s = s.move s.defaultMove := by rw [step_of_no_fault hfault, nextMove_of_unscheduled hm]
    _ = s.runMicro := by rw [defaultMove_of_nothing_presented hnoTask hnoIrq, State.move]
    _ = .next s := runMicro_of_not_running (running_of_idle htask hirq)

end

/-- Settles O12: an ended state has no fault, so its step is a move; nothing is presented or running, so
that move is the empty micro-step. -/
theorem endedRunRests : Obligations.EndedRunRests :=
  ⟨fun _ => ended_of_fault, fun _ => step_of_ended⟩

end Sys2Proof.Machine
end

section
/-!
PROOF. Everything a step can do, said once (R136): the move taken from the schedule, and the ways a move can
change the state.
-/

namespace Sys2Proof.Machine

open Sys2Proof

/-! ### The move taken -/

/-- Taking the next move from the schedule changes nothing but the schedule. -/
theorem nextMove_snd (s : State) :
    ∃ moves, s.nextMove.2 = s.withEnv { s.env with moves := moves } := by
  unfold State.nextMove
  split
  · exact ⟨_, rfl⟩
  · exact ⟨s.env.moves, rfl⟩

theorem nextMove_of_scheduled {s : State} {m : Move} {rest : List Move} (h : s.env.moves = m :: rest) :
    s.nextMove = (m, s.withEnv { s.env with moves := rest }) := by
  simp [State.nextMove, h]

theorem step_of_scheduled {s : State} {m : Move} {rest : List Move} (hf : s.fault = none)
    (h : s.env.moves = m :: rest) : step s = (s.withEnv { s.env with moves := rest }).move m := by
  rw [step_of_no_fault hf, nextMove_of_scheduled h]

theorem step_of_unscheduled {s : State} (hf : s.fault = none) (h : s.env.moves = []) :
    step s = s.move s.defaultMove := by
  rw [step_of_no_fault hf, nextMove_of_unscheduled h]

/-- A stuck block takes no move but RST (R43, R130). -/
theorem step_of_fault {s : State} {c : Code} {i : Info} (h : s.fault = some (c, i))
    (hm : s.nextMove.1 ≠ .rst) : step s = .fault (.stuck c i) := by
  unfold step
  rw [h]
  generalize s.nextMove = next at hm
  obtain ⟨m, u⟩ := next
  cases m with
  | rst => exact absurd rfl hm
  | _ => rfl

theorem defaultMove_ne_rst (s : State) : s.defaultMove ≠ .rst := by
  unfold State.defaultMove
  (repeat' split) <;> simp

theorem step_of_rst {s : State} (h : s.nextMove.1 = .rst) : step s = .next s.nextMove.2.rst := by
  unfold step
  generalize s.nextMove = next at h
  obtain ⟨m, u⟩ := next
  subst h
  cases s.fault <;> rfl

/-! ### What a move can do -/

/-- The ways the move `m` can change the state `u`. -/
inductive Took (m : Move) (u : State) : State → Prop
  /-- Nothing runs (log 3). -/
  | idle (hm : m = .micro) (hr : u.running = none) : Took m u u
  /-- The running request takes a micro-step (R39, R40). -/
  | micro (hm : m = .micro) (p : Port) (a : Active) (i : Instr) (hr : u.running = some (p, a))
      (hd : decode a.desc = .ok i) {t : State} (h : exec i u = .next t) : Took m u t
  /-- A latched descriptor that does not decode is refused (log 27). -/
  | refused (hm : m = .micro) (p : Port) (a : Active) (e : DecodeError) (hr : u.running = some (p, a))
      (hd : decode a.desc = .error e) : Took m u ((u.refuse p e a.desc).endRequest p)
  | present (p : Port) (d : Desc) (hm : m = .present p d) : Took m u (u.present p d)
  | accept (p : Port) (hm : m = .accept p) : Took m u (u.accept p)
  | extSetDmaing (v : Byte) (hm : m = .extSetDmaing v) : Took m u (u.extSetDmaing v)
  /-- Another host agent accesses host memory (R63). -/
  | agent {t : State} (hm : (∃ addr bytes, m = .hostStore addr bytes) ∨ ∃ addr n, m = .hostLoad addr n)
      (h : AgentFrame u t) : Took m u t
  | rst (hm : m = .rst) : Took m u u.rst

theorem runMicro_took {u t : State} (h : u.runMicro = .next t) : Took .micro u t := by
  unfold State.runMicro at h
  split at h
  · next hr =>
    cases h
    exact .idle rfl hr
  · next p a hr =>
    split at h
    · next i hd => exact .micro rfl p a i hr hd h
    · next e hd =>
      cases h
      exact .refused rfl p a e hr hd

theorem move_took {u t : State} {m : Move} (h : u.move m = .next t) : Took m u t := by
  cases m with
  | micro => exact runMicro_took h
  | present p d => cases h; exact .present p d rfl
  | accept p => cases h; exact .accept p rfl
  | extSetDmaing v => cases h; exact .extSetDmaing v rfl
  | hostStore a bytes => cases h; exact .agent (.inl ⟨a, bytes, rfl⟩) (hostStore_frame u a bytes)
  | hostLoad a n => cases h; exact .agent (.inr ⟨a, n, rfl⟩) (hostLoad_frame u a n)
  | rst => cases h; exact .rst rfl

/-- A step that answers a next state has taken its move, and but for RST no fault was set. -/
theorem step_took {s t : State} (h : step s = .next t) :
    Took s.nextMove.1 s.nextMove.2 t ∧ (s.nextMove.1 ≠ .rst → s.fault = none) := by
  by_cases hm : s.nextMove.1 = .rst
  · rw [step_of_rst hm] at h
    cases h
    exact ⟨.rst hm, absurd hm⟩
  · cases hf : s.fault with
    | none =>
      rw [step_of_no_fault hf] at h
      exact ⟨move_took h, fun _ => rfl⟩
    | some x =>
      rw [step_of_fault (c := x.1) (i := x.2) hf hm] at h
      cases h

/-! ### What an acceptance can do -/

/-- The ways an acceptance on port `p` can change the state `u` (R36, R75, R131). -/
inductive Accepted (u : State) (p : Port) : State → Prop
  /-- Nothing presented, or not enabled (log 21). -/
  | dropped (h : u.presented p = none ∨ u.mayAccept p = false) : Accepted u p u
  | latched (d : Desc) (i : Instr) (hp : u.presented p = some d) (hm : u.mayAccept p = true)
      (hd : decode d = .ok i) : Accepted u p ((u.setPresented p none).latch p d)
  | refused (d : Desc) (e : DecodeError) (hp : u.presented p = some d) (hm : u.mayAccept p = true)
      (hd : decode d = .error e) : Accepted u p ((u.setPresented p none).refuse p e d)

theorem accept_of_ok {u : State} {p : Port} {d : Desc} {i : Instr} (hp : u.presented p = some d)
    (hm : u.mayAccept p = true) (hd : decode d = .ok i) :
    u.accept p = (u.setPresented p none).latch p d := by
  simp [State.accept, hp, hm, hd]

theorem accept_of_error {u : State} {p : Port} {d : Desc} {e : DecodeError} (hp : u.presented p = some d)
    (hm : u.mayAccept p = true) (hd : decode d = .error e) :
    u.accept p = (u.setPresented p none).refuse p e d := by
  simp [State.accept, hp, hm, hd]

theorem accept_of_not_mayAccept {u : State} {p : Port} (hm : u.mayAccept p = false) :
    u.accept p = u := by
  unfold State.accept
  split
  · rfl
  · simp [hm]

theorem accept_accepted (u : State) (p : Port) : Accepted u p (u.accept p) := by
  cases hp : u.presented p with
  | none =>
    rw [show u.accept p = u by simp [State.accept, hp]]
    exact .dropped (.inl hp)
  | some d =>
    cases hm : u.mayAccept p with
    | false =>
      rw [accept_of_not_mayAccept hm]
      exact .dropped (.inr hm)
    | true =>
      cases hd : decode d with
      | ok i =>
        rw [accept_of_ok hp hm hd]
        exact .latched d i hp hm hd
      | error e =>
        rw [accept_of_error hp hm hd]
        exact .refused d e hp hm hd

end Sys2Proof.Machine
end

section
/-!
PROOF. What one micro-step of a request does to each part of the state, each read off the cases of `MicroStep`
once: its frame, its own port, the interface's owner, the engine, `reinit_req`.
-/

namespace Sys2Proof.Machine

open Sys2Proof

variable {i : Instr} {p : Port} {a : Active} {s t : State}

/-! ### The running request's port -/

theorem port_of_running (h : s.running = some (p, a)) : s.port p = .active a := (running_spec h).2.1

theorem ready_of_running (h : s.running = some (p, a)) : Ready s p := (running_spec h).1

theorem running_of_irq {b : Active} (h : s.portIrq = .active b) : s.running = some (.irq, b) := by
  simp [State.running, h]

theorem running_task (hi : s.portIrq = .idle) (hp : s.preempted = false) (ht : s.portTask = .active a) :
    s.running = some (.task, a) := by
  simp [State.running, hi, hp, ht]

/-! ### Frame (R22, R47, R49) -/

/-- What every micro-step of a request on port `p` leaves as it was. -/
structure MicroFrame (p : Port) (a : Active) (s t : State) : Prop where
  cfg : t.cfg = s.cfg
  regOffset : t.regOffset = s.regOffset
  refused : t.refused = s.refused
  moves : t.env.moves = s.env.moves
  presented : ∀ q, t.presented q = s.presented q
  other : t.port (otherPort p) = s.port (otherPort p)
  fault : a.pos ≠ .start → t.fault = s.fault

@[simp] theorem rest_mgLeave (s : State) : s.mgLeave.rest = s.rest.mgLeft := rfl

@[simp] theorem rest_mgRespond (s : State) (p : Port) (v : Half) :
    (s.mgRespond p v).rest = s.rest.mgLeft := by
  simp [State.mgRespond]

@[simp] theorem rest_raise (s : State) (p : Port) (c : Code) (info : Info) :
    (s.raise p c info).rest
      = { s.rest with fault := some (c, info), log := s.log ++ [.fault p c info] } := by
  simp [State.raise]

@[simp] theorem rest_hostWrite (s : State) (addr : Nat) (bytes : List Byte) :
    (s.hostWrite addr bytes).rest = { s.rest with mem := s.mem.writeBytes addr bytes } := rfl

@[simp] theorem port_hostWrite (s : State) (addr : Nat) (bytes : List Byte) (q : Port) :
    (s.hostWrite addr bytes).port q = s.port q := by
  cases q <;> rfl

@[simp] theorem port_endRequest_other (s : State) (p : Port) :
    (s.endRequest p).port (otherPort p) = s.port (otherPort p) := by
  cases p <;> rfl

@[simp] theorem port_respond_other (s : State) (p : Port) (st : Status) (c : Code) (v : Half) :
    (s.respond p st c v).port (otherPort p) = s.port (otherPort p) := by
  simp [State.respond]

@[simp] theorem port_raise_other (s : State) (p : Port) (c : Code) (info : Info) :
    (s.raise p c info).port (otherPort p) = s.port (otherPort p) := by
  simp [State.raise]

@[simp] theorem port_mgRespond_other (s : State) (p : Port) (v : Half) :
    (s.mgRespond p v).port (otherPort p) = s.port (otherPort p) := by
  cases p <;> rfl

theorem MicroStep.frame (h : MicroStep i p a s t) : MicroFrame p a s t := by
  have hrest : t.rest.cfg = s.rest.cfg ∧ t.rest.regOffset = s.rest.regOffset
      ∧ t.rest.refused = s.rest.refused ∧ t.rest.moves = s.rest.moves
      ∧ t.rest.presentedTask = s.rest.presentedTask ∧ t.rest.presentedIrq = s.rest.presentedIrq
      ∧ (a.pos ≠ .start → t.rest.fault = s.rest.fault) := by
    cases h <;> simp_all [Rest.mgLeft]
  obtain ⟨hcfg, hreg, hrefused, hmoves, htask, hirq, hfault⟩ := hrest
  have hother : t.port (otherPort p) = s.port (otherPort p) := by
    cases h <;> simp
  exact ⟨hcfg, hreg, hrefused, hmoves, fun q => by cases q <;> assumption, hother, hfault⟩

/-! ### The request's own port (R36, R37, R39) -/

/-- Where a micro-step leads the request: on to `b`, nowhere in a poll of `reinit_done`, or to its end. -/
inductive Progress (i : Instr) (p : Port) (a : Active) (s t : State) : Prop
  | on (b : Active) (port : t.port p = .active b) (pre : t.preempted = s.preempted)
      (moves : Moves s.cfg i a b)
  | stays (pos : a.pos = .reinitWait) (port : t.port p = .active a) (pre : t.preempted = s.preempted)
  | ended (pos : a.pos = .start ∨ a.pos = .acquire ∨ a.pos = .respond) (port : t.port p = .idle)
      (pre : t.preempted = if p = .irq then false else s.preempted)

@[simp] theorem port_respond_same (s : State) (p : Port) (st : Status) (c : Code) (v : Half) :
    (s.respond p st c v).port p = .idle := respond_port s p st c v

@[simp] theorem preempted_respond (s : State) (p : Port) (st : Status) (c : Code) (v : Half) :
    (s.respond p st c v).preempted = if p = .irq then false else s.preempted := by
  cases p <;> rfl

@[simp] theorem preempted_hostWrite (s : State) (addr : Nat) (bytes : List Byte) :
    (s.hostWrite addr bytes).preempted = s.preempted := rfl

theorem MicroStep.progress (hr : s.running = some (p, a)) (h : MicroStep i p a s t) :
    Progress i p a s t := by
  have hport : s.port p = .active a := port_of_running hr
  cases h with
  | raise c info hpos => exact .ended (.inl hpos) (by simp [State.raise]) (by simp [State.raise])
  | respond c v hpos => exact .ended (.inr (.inr hpos)) (by simp) (by simp)
  | mgRespond v hpos =>
    exact .ended (.inr (.inr hpos)) (by simp [State.mgRespond]) (by simp [State.mgRespond, State.mgLeave])
  | conflict op hpos => exact .ended (.inr (.inl hpos)) (by simp) (by simp)
  | reinitWait haddr len page hpos => exact .stays hpos (by simp [hport]) (by simp)
  | _ => exact .on _ (port_setPort_same _ _ _) (by simp) ‹Moves _ _ _ _›

/-! ### The management interface (R26, R27, R28, R115) -/

theorem holdsMgmt_active (hd : decode a.desc = .ok i) :
    holdsMgmt (.active a) = (isMgmt i && a.pos != .start) := by
  simp [holdsMgmt, hd]

theorem MicroStep.mgmt_frame (h : MicroStep i p a s t) (hi : isMgmt i = false) :
    t.memrShadow = s.memrShadow ∧ t.mgPhase = s.mgPhase ∧ t.mgBitpos = s.mgBitpos
      ∧ t.mgData = s.mgData ∧ t.mgOwner = s.mgOwner := by
  have hrest : t.rest.memrShadow = s.rest.memrShadow ∧ t.rest.mgPhase = s.rest.mgPhase
      ∧ t.rest.mgBitpos = s.rest.mgBitpos ∧ t.rest.mgData = s.rest.mgData
      ∧ t.rest.mgOwner = s.rest.mgOwner := by
    cases h <;> simp_all
  exact hrest

/-- What a micro-step does to the interface's owner: nothing, `MgEnter`, or `MgLeave`. -/
inductive Ownership (p : Port) (a : Active) (s t : State) : Prop
  | keeps (owner : t.mgOwner = s.mgOwner) (holds : holdsMgmt (t.port p) = holdsMgmt (.active a))
      (shift : holdsMgmt (.active a) = false →
        t.mgPhase = s.mgPhase ∧ t.mgBitpos = s.mgBitpos ∧ t.mgData = s.mgData)
  | enters (free : ¬ (p = .irq ∧ s.mgOwner = some .task)) (owner : t.mgOwner = some p)
      (holds : holdsMgmt (t.port p) = true)
  | leaves (held : holdsMgmt (.active a) = true) (owner : t.mgOwner = none)
      (holds : holdsMgmt (t.port p) = false)
      (shift : t.mgPhase = .idle ∧ t.mgBitpos = 0 ∧ t.mgData = 0)

/-- A request that is no management request holds nothing, before a micro-step and after it. -/
theorem Progress.holds_of_not_mgmt (h : Progress i p a s t) (hd : decode a.desc = .ok i)
    (hi : isMgmt i = false) : holdsMgmt (t.port p) = false ∧ holdsMgmt (.active a) = false := by
  have ha : holdsMgmt (.active a) = false := by simp [holdsMgmt_active hd, hi]
  refine ⟨?_, ha⟩
  cases h with
  | on b port _ moves => rw [port, holdsMgmt_active (moves.desc ▸ hd), hi]; rfl
  | stays _ port => rw [port, ha]
  | ended _ port => rw [port]; rfl

/-- A management request that has passed `MgEnter` and goes on holds the interface. -/
theorem Moves.holds {c : Config} {b : Active} (hm : Moves c i a b) (hd : decode a.desc = .ok i)
    (hi : isMgmt i = true) : holdsMgmt (.active b) = true := by
  simp [holdsMgmt_active (hm.desc ▸ hd), hi, hm.left]

theorem isMgmt_of_isDma (h : isDma i = true) : isMgmt i = false := by
  cases i <;> simp_all [isDma, isMgmt]

theorem isMgmt_of_storesToHost (h : storesToHost i = true) : isMgmt i = false := by
  cases i <;> simp_all [storesToHost, isMgmt]

theorem isMgmt_of_resets (h : i = .reset ∨ ∃ haddr len page, i = .bout haddr len page) :
    isMgmt i = false := by
  rcases h with rfl | ⟨_, _, _, rfl⟩ <;> rfl

/-- A micro-step of a management request past `MgEnter` that does not end it leaves the owner. -/
theorem Ownership.goes_on {u : State} {b : Active} {c : Config} (hm : Moves c i a b)
    (hd : decode a.desc = .ok i) (hi : isMgmt i = true) (hpos : a.pos ≠ .start)
    (hu : u.mgOwner = s.mgOwner) : Ownership p a s (u.setPort p (.active b)) := by
  have ha : holdsMgmt (.active a) = true := by simp [holdsMgmt_active hd, hi, hpos]
  refine .keeps (by simpa using hu) ?_ fun hno => absurd (ha.symm.trans hno) (by simp)
  rw [port_setPort_same, ha]
  exact hm.holds hd hi

theorem MicroStep.ownership_of_mgmt (hd : decode a.desc = .ok i) (hi : isMgmt i = true)
    (h : MicroStep i p a s t) : Ownership p a s t := by
  cases h with
  | raise c info hpos =>
    have hfree : holdsMgmt (.active a) = false := by simp [holdsMgmt_active hd, hpos]
    have hrest := rest_raise s p c info
    refine .keeps (congrArg Rest.mgOwner hrest) ?_ fun _ =>
      ⟨congrArg Rest.mgPhase hrest, congrArg Rest.mgBitpos hrest, congrArg Rest.mgData hrest⟩
    rw [hfree, State.raise, port_respond_same]
    rfl
  | mgRespond v hpos =>
    have hrest := rest_mgRespond s p v
    refine .leaves (by simp [holdsMgmt_active hd, hi, hpos]) (congrArg Rest.mgOwner hrest) ?_
      ⟨congrArg Rest.mgPhase hrest, congrArg Rest.mgBitpos hrest, congrArg Rest.mgData hrest⟩
    rw [State.mgRespond, port_respond_same]
    rfl
  | mgEnter b hpos _ ho hm =>
    refine .enters ho (by simp) ?_
    rw [port_setPort_same]
    exact hm.holds hd hi
  | goto b hpos _ _ hm => exact .goes_on hm hd hi (hpos hi) rfl
  | read addr w b hpos _ _ _ hm => exact .goes_on hm hd hi (hpos hi) (by simp)
  | write addr w v b hpos _ _ _ hm => exact .goes_on hm hd hi (hpos hi) (by simp)
  | mgLoad v b hpos _ _ _ hm => exact .goes_on hm hd hi hpos rfl
  | mgPush phase bitpos data shadow b hpos _ _ _ _ _ hm => exact .goes_on hm hd hi hpos (by simp)
  | mgSample data b hpos _ _ _ hm => exact .goes_on hm hd hi hpos (by simp)
  | respond c v _ hno => simp [hi] at hno
  | conflict op _ hdma => simp [isMgmt_of_isDma hdma] at hi
  | acquire b _ hdma => simp [isMgmt_of_isDma hdma] at hi
  | release b _ hdma => simp [isMgmt_of_isDma hdma] at hi
  | clear b _ hresets => simp [isMgmt_of_resets hresets] at hi
  | busWrite u v b _ hno => simp [hi] at hno
  | hostDraw b hno => simp [hi] at hno
  | hostWrite u b _ hstores => simp [isMgmt_of_storesToHost hstores] at hi
  | swap haddr page b0 b1 b _ hg => subst hg; cases hi
  | expired w b hno => simp [hi] at hno
  | timeout w e b hno => simp [hi] at hno
  | reinit haddr len page b _ hb => subst hb; cases hi
  | reinitWait haddr len page _ hb => subst hb; cases hi
  | reinitDone haddr len page b _ hb => subst hb; cases hi

theorem MicroStep.ownership (hr : s.running = some (p, a)) (hd : decode a.desc = .ok i)
    (h : MicroStep i p a s t) : Ownership p a s t := by
  cases hi : isMgmt i with
  | true => exact h.ownership_of_mgmt hd hi
  | false =>
    obtain ⟨-, hphase, hbitpos, hdata, howner⟩ := h.mgmt_frame hi
    obtain ⟨ht, ha⟩ := (h.progress hr).holds_of_not_mgmt hd hi
    exact .keeps howner (ht.trans ha.symm) fun _ => ⟨hphase, hbitpos, hdata⟩

/-- "Bits 2 and 6 are input lines: no rule sets them in the shadow" (R26). -/
theorem MicroStep.inputs (h : MicroStep i p a s t) (hs : s.memrShadow &&& 0x44 = 0) :
    t.memrShadow &&& 0x44 = 0 := by
  rw [← rest_memrShadow] at hs ⊢
  cases h with
  | mgPush phase bitpos data shadow b _ _ _ _ _ hshadow => simpa using hshadow hs
  | _ => simpa [Rest.mgLeft] using hs

/-! ### Host memory -/

theorem MicroStep.mem_wf (h : MicroStep i p a s t) (hs : s.mem.wf = true) : t.mem.wf = true := by
  have hrest : t.rest.mem = s.rest.mem ∨ ∃ addr bytes, t.rest.mem = s.rest.mem.writeBytes addr bytes := by
    cases h with
    | hostWrite u b => exact .inr ⟨_, _, by simp [rest_mem]; rfl⟩
    | swap haddr page b0 b1 b => exact .inr ⟨_, _, by simp [rest_mem]; rfl⟩
    | _ => exact .inl (by simp [Rest.mgLeft])
  rcases hrest with hmem | ⟨addr, bytes, hmem⟩ <;> rw [rest_mem, rest_mem] at hmem <;> rw [hmem]
  · exact hs
  · exact Memory.wf_writeBytes addr bytes hs

/-! ### The engine (R24, R99, R101, R111) -/

/-- What a micro-step does to `dmaing`, and whether its request is then in a transaction. -/
inductive Engine (i : Instr) (p : Port) (a : Active) (s t : State) : Prop
  | keeps (dmaing : t.dmaing = s.dmaing)
      (inside : a.xstate = xstateAt i a.pos → inTransaction (t.port p) = inTransaction (.active a))
  | acquires (dma : isDma i = true) (free : s.dmaing = 0x00) (dmaing : t.dmaing = 0x01)
      (inside : inTransaction (t.port p) = true)
  | releases (dma : isDma i = true) (dmaing : t.dmaing = s.dmaing &&& ~~~0x01)
      (inside : inTransaction (t.port p) = false)
      (was : a.xstate = xstateAt i a.pos → inTransaction (.active a) = true)
  | clears (resets : i = .reset ∨ ∃ haddr len page, i = .bout haddr len page) (pos : a.pos = .rstClear)
      (dmaing : t.dmaing = 0x00)

/-- But at the acquire and the release, `xstate` stays IDLE or stays away from it (R113). -/
theorem XStep.inside {pos : Pos} {x y : XState} (h : XStep pos x y) (ha : pos ≠ .acquire)
    (hr : pos ≠ .release) : (y != .idle) = (x != .idle) := by
  rcases h with ⟨rfl, -⟩ | ⟨hp, -⟩ | ⟨-, rfl, rfl⟩ | ⟨-, rfl, rfl⟩ | ⟨hp, -⟩
  · rfl
  · exact absurd hp ha
  · rfl
  · rfl
  · exact absurd hp hr

theorem Progress.inside (h : Progress i p a s t) (ha : a.pos ≠ .acquire) (hr : a.pos ≠ .release)
    (hx : a.xstate = xstateAt i a.pos) : inTransaction (t.port p) = inTransaction (.active a) := by
  cases h with
  | on b port _ moves => rw [port]; exact (moves.xstate hx).inside ha hr
  | stays _ port => rw [port]
  | ended pos port =>
    rw [port]
    rcases pos with hp | hp | hp
    · rw [inTransaction, inTransaction, hx, hp, xstateAt]; split <;> rfl
    · exact absurd hp ha
    · rw [inTransaction, inTransaction, hx, hp, xstateAt]; split <;> rfl

theorem MicroStep.engine (hr : s.running = some (p, a)) (h : MicroStep i p a s t) :
    Engine i p a s t := by
  have hprog := h.progress hr
  cases h with
  | acquire b _ hd hfree hx => exact .acquires hd hfree (by simp) (by simp [inTransaction, hx])
  | release b hpos hd hx =>
    refine .releases hd (by simp) ?_ fun hxa => ?_
    · simp [inTransaction, hx]
    · simp [inTransaction, hxa, xstateAt, hd, hpos]
  | clear b hpos hresets => exact .clears hresets hpos (by simp)
  | conflict op hpos hd =>
    refine .keeps (congrArg Rest.dmaing (rest_respond _ p _ _ _)) fun hxa => ?_
    rw [port_respond_same]
    simp [inTransaction, hxa, xstateAt, hd, hpos]
  | _ =>
    refine .keeps ?_ (hprog.inside (by simp_all) (by simp_all))
    rw [← rest_dmaing, ← rest_dmaing]
    simp [Rest.mgLeft]

/-! ### `reinit_req` (R110) -/

theorem MicroStep.reinitReq (h : MicroStep i p a s t) (h1 : a.pos ≠ .reinitReq)
    (h2 : a.pos ≠ .reinitWait) : t.out.reinitReq = s.out.reinitReq := by
  show t.rest.reinitReq = s.rest.reinitReq
  cases h <;> simp_all [Rest.mgLeft]

/-- Only BOUT has a position at which it raises or waits with `reinit_req` (R110). -/
theorem isBout_of_reinit {pos : Pos} (h : hasPos i pos = true)
    (hp : pos = .reinitReq ∨ pos = .reinitWait) : ∃ haddr len page, i = .bout haddr len page := by
  cases i with
  | bout haddr len page => exact ⟨_, _, _, rfl⟩
  | _ => rcases hp with rfl | rfl <;> cases h

theorem execBout_reinitReq {haddr : Word} {len : Half} {page : Byte} (hr : s.running = some (p, a))
    (hp : a.pos = .reinitReq) : exec (.bout haddr len page) s = reinitRequest p a s := by
  simp [exec, execBout, micro_running hr, hp]

theorem execBout_reinitWait {haddr : Word} {len : Half} {page : Byte} (hr : s.running = some (p, a))
    (hp : a.pos = .reinitWait) : exec (.bout haddr len page) s = reinitPoll p a s := by
  simp [exec, execBout, micro_running hr, hp]

/-- Where BOUT raises or waits with `reinit_req`, the line is high after the micro-step exactly when the
request then waits. -/
theorem execBout_reinit {haddr : Word} {len : Half} {page : Byte} (hr : s.running = some (p, a))
    (hp : a.pos = .reinitReq ∨ a.pos = .reinitWait)
    (hline : s.out.reinitReq = (s.port p).waitsForReinit)
    (h : exec (.bout haddr len page) s = .next t) : t.out.reinitReq = (t.port p).waitsForReinit := by
  rcases hp with hp | hp
  · rw [execBout_reinitReq hr hp] at h
    cases h
    simp [State.goto, PortState.waitsForReinit]
  · rw [execBout_reinitWait hr hp, reinitPoll] at h
    split at h <;> cases h
    · simp [State.goto, PortState.waitsForReinit]
    · simpa using hline

/-- The line is high exactly while the request waits: a micro-step of the running request keeps that (R110). -/
theorem exec_reinit (hr : s.running = some (p, a)) (hc : s.cfg.winSizeOk = true)
    (hst : Standing s.cfg i a) (hline : s.out.reinitReq = (s.port p).waitsForReinit)
    (h : exec i s = .next t) : t.out.reinitReq = (t.port p).waitsForReinit := by
  by_cases hp : a.pos = .reinitReq ∨ a.pos = .reinitWait
  · obtain ⟨haddr, len, page, rfl⟩ := isBout_of_reinit hst.pos hp
    exact execBout_reinit hr hp hline h
  · obtain ⟨h1, h2⟩ := not_or.mp hp
    have hms := exec_microStep hr h
    have hlow : s.out.reinitReq = false := by
      rw [hline, port_of_running hr]
      simpa [PortState.waitsForReinit] using h2
    rw [hms.reinitReq h1 h2, hlow]
    cases hms.progress hr with
    | stays pos => exact absurd pos h2
    | ended _ port => rw [port]; rfl
    | on b port _ moves =>
      rw [port]
      refine (beq_eq_false_iff_ne.mpr fun hw => hp ?_).symm
      obtain ⟨haddr, len, page, rfl⟩ := isBout_of_reinit (moves.keeps hc hst).pos (.inr hw)
      exact execBout_wait hr h port hw

end Sys2Proof.Machine
end

section
/-!
PROOF. The invariant of the block holds after reset and every step keeps it; a block that meets it is not stuck
but by a fault; the busy flag excludes.
-/

namespace Sys2Proof.Machine

open Sys2Proof

variable {i : Instr} {p : Port} {a : Active} {s t : State}

/-! ### What an access of another agent leaves of a port -/

variable {x y : PortState}

theorem SameButRaced.idle_iff (h : SameButRaced x y) : y = .idle ↔ x = .idle := by
  cases h <;> simp

theorem SameButRaced.bne_idle (h : SameButRaced x y) : (y != .idle) = (x != .idle) := by
  cases h <;> rfl

theorem SameButRaced.portOk (h : SameButRaced x y) (c : Config) : portOk c y = portOk c x := by
  cases h <;> rfl

theorem SameButRaced.holdsMgmt (h : SameButRaced x y) : holdsMgmt y = holdsMgmt x := by
  cases h <;> rfl

theorem SameButRaced.inTransaction (h : SameButRaced x y) : inTransaction y = inTransaction x := by
  cases h <;> rfl

theorem SameButRaced.waitsForReinit (h : SameButRaced x y) : y.waitsForReinit = x.waitsForReinit := by
  cases h <;> rfl

/-! ### Moves that leave the block as it was -/

/-- The block is as it was: every element that `BlockInv` speaks of, the ports but for raced addresses. -/
structure SameBlock (s t : State) : Prop where
  cfg : t.cfg = s.cfg
  regOffset : t.regOffset = s.regOffset
  busy : t.dmaing.getLsbD 0 = s.dmaing.getLsbD 0
  memrShadow : t.memrShadow = s.memrShadow
  mgPhase : t.mgPhase = s.mgPhase
  mgBitpos : t.mgBitpos = s.mgBitpos
  mgData : t.mgData = s.mgData
  mgOwner : t.mgOwner = s.mgOwner
  ports : ∀ q, SameButRaced (s.port q) (t.port q)
  preempted : t.preempted = s.preempted
  mem : s.mem.wf = true → t.mem.wf = true
  reinitReq : t.out.reinitReq = s.out.reinitReq

theorem SameBlock.of_agent (h : AgentFrame s t) : SameBlock s t where
  cfg := h.cfg
  regOffset := h.regOffset
  busy := by rw [h.dmaing]
  memrShadow := h.memrShadow
  mgPhase := h.mgPhase
  mgBitpos := h.mgBitpos
  mgData := h.mgData
  mgOwner := h.mgOwner
  ports q := by
    cases q with
    | task => exact h.portTask
    | irq => exact h.portIrq
  preempted := h.preempted
  mem := h.mem
  reinitReq := h.reinitReq

theorem SameBlock.withEnv (s : State) (e : Env) : SameBlock s (s.withEnv e) :=
  ⟨rfl, rfl, rfl, rfl, rfl, rfl, rfl, rfl, fun _ => by simpa using .refl _, rfl, id, rfl⟩

theorem SameBlock.refuse (s : State) (p : Port) (e : DecodeError) (d : Desc) :
    SameBlock s (s.refuse p e d) :=
  ⟨rfl, rfl, rfl, rfl, rfl, rfl, rfl, rfl, fun _ => by simpa [State.refuse] using .refl _, rfl, id, rfl⟩

theorem getLsbD_zero_setExt (d v : Byte) : (setExt d v).getLsbD 0 = d.getLsbD 0 := by
  simp [setExt]

theorem SameBlock.extSetDmaing (s : State) (v : Byte) : SameBlock s (s.extSetDmaing v) :=
  ⟨rfl, rfl, getLsbD_zero_setExt _ _, rfl, rfl, rfl, rfl, rfl,
    fun _ => by simpa [State.extSetDmaing] using .refl _, rfl, id, rfl⟩

theorem setPresented_eq_withEnv (s : State) (p : Port) (d : Option Desc) :
    ∃ e, s.setPresented p d = s.withEnv e := by
  cases p <;> exact ⟨_, rfl⟩

theorem SameBlock.setPresented (s : State) (p : Port) (d : Option Desc) :
    SameBlock s (s.setPresented p d) := by
  obtain ⟨e, he⟩ := setPresented_eq_withEnv s p d
  exact he ▸ .withEnv s e

theorem SameBlock.nextMove (s : State) : SameBlock s s.nextMove.2 := by
  obtain ⟨moves, hu⟩ := nextMove_snd s
  exact hu ▸ .withEnv s _

theorem SameBlock.present (s : State) (p : Port) (d : Desc) : SameBlock s (s.present p d) := by
  unfold State.present
  split
  · exact .setPresented s p _
  · exact .withEnv s s.env

/-! ### `reinit_req` and the ports -/

@[simp] theorem waitsForReinit_idle : PortState.idle.waitsForReinit = false := rfl

@[simp] theorem waitsForReinit_active (a : Active) :
    (PortState.active a).waitsForReinit = (a.pos == .reinitWait) := rfl

/-- One statement about the two ports from one about a port and one about the other. -/
theorem forall_port {P : Port → Prop} (p : Port) (h : P p) (h' : P (otherPort p)) (q : Port) : P q := by
  cases p <;> cases q <;> assumption

/-- Whether the running request waits for `reinit_done` is whether a port's request does: only a running
request can stand there. -/
theorem running_waits_iff (hn : s.preempted = (s.portTask != .idle && s.portIrq != .idle))
    (hw : s.portTask.waitsForReinit = true → s.portIrq = .idle) :
    (∃ p a, s.running = some (p, a) ∧ a.pos = .reinitWait)
      ↔ (s.portTask.waitsForReinit || s.portIrq.waitsForReinit) = true := by
  unfold State.running
  cases hi : s.portIrq with
  | active b =>
    have hno : s.portTask.waitsForReinit = false := by
      rw [hi] at hw
      simpa using hw
    simp [hno]
  | idle =>
    cases ht : s.portTask <;> simp [hn, ht, hi]

theorem BlockInv.line (h : BlockInv s) :
    s.out.reinitReq = (s.portTask.waitsForReinit || s.portIrq.waitsForReinit) :=
  Bool.eq_iff_iff.mpr (h.reinit.trans (running_waits_iff h.nesting h.waits))

theorem reinit_of_line (hn : s.preempted = (s.portTask != .idle && s.portIrq != .idle))
    (hw : s.portTask.waitsForReinit = true → s.portIrq = .idle)
    (hline : s.out.reinitReq = (s.portTask.waitsForReinit || s.portIrq.waitsForReinit)) :
    s.out.reinitReq = true ↔ ∃ p a, s.running = some (p, a) ∧ a.pos = .reinitWait :=
  (Bool.eq_iff_iff.mp hline).trans (running_waits_iff hn hw).symm

theorem BlockInv.of_same (h : BlockInv s) (k : SameBlock s t) : BlockInv t := by
  have ht : SameButRaced s.portTask t.portTask := k.ports .task
  have hi : SameButRaced s.portIrq t.portIrq := k.ports .irq
  have hn : t.preempted = (t.portTask != .idle && t.portIrq != .idle) := by
    rw [k.preempted, h.nesting, ht.bne_idle, hi.bne_idle]
  have hw : t.portTask.waitsForReinit = true → t.portIrq = .idle := by
    rw [ht.waitsForReinit, hi.idle_iff]
    exact h.waits
  exact {
    cfg := by rw [k.cfg]; exact h.cfg
    table := by rw [k.cfg, k.regOffset]; exact h.table
    mem := k.mem h.mem
    task := by rw [k.cfg, ht.portOk]; exact h.task
    irq := by rw [k.cfg, hi.portOk]; exact h.irq
    nesting := hn
    inputs := by rw [k.memrShadow]; exact h.inputs
    owner := fun q => by rw [(k.ports q).holdsMgmt, k.mgOwner]; exact h.owner q
    shift := by rw [k.mgOwner, k.mgPhase, k.mgBitpos, k.mgData]; exact h.shift
    busy := by rw [k.busy, ht.inTransaction, hi.inTransaction]; exact h.busy
    reinit := reinit_of_line hn hw (by rw [k.reinitReq, ht.waitsForReinit, hi.waitsForReinit]; exact h.line)
    waits := hw }

/-! ### Reset (R50, R147) -/

@[simp] theorem rst_cfg (s : State) : s.rst.cfg = s.cfg := by simp only [State.rst, State.resetWith]

@[simp] theorem rst_mem (s : State) : s.rst.mem = s.mem := by simp only [State.rst]

theorem blockInv_rst (hc : s.cfg.wellFormed = true) (hm : s.mem.wf = true) : BlockInv s.rst where
  cfg := by rw [rst_cfg]; exact hc
  table := by rw [rst_cfg]; rfl
  mem := by rw [rst_mem]; exact hm
  task := rfl
  irq := rfl
  nesting := rfl
  inputs := by simp [State.rst, State.resetWith]
  owner q := by cases q <;> simp [State.rst, State.resetWith, State.port, holdsMgmt]
  shift _ := ⟨rfl, rfl, rfl⟩
  busy h := by simp [State.rst, State.resetWith] at h
  reinit := reinit_of_line rfl (fun h => by cases h) rfl
  waits h := by cases h

theorem blockInv_resetWith {c : Config} (hc : c.wellFormed = true) : BlockInv (State.resetWith c) :=
  blockInv_rst (s := State.resetWith c) hc rfl

/-- A board base that is four times a slot is a multiple of 4 (R8). -/
theorem wellFormed_default : Config.default.wellFormed = true := by
  have hbase : (Config.boardSlot ++ 0#2).toNat % 4 = 0 := by
    rw [BitVec.toNat_append]
    simp [Nat.shiftLeft_eq]
  rw [Config.wellFormed_iff]
  exact ⟨by decide, by decide, by decide, by decide, by decide, hbase⟩

/-- Settles O46: nothing is in progress after RST, and the default configuration meets R8. -/
theorem resetMeetsInvariant : Obligations.ResetMeetsInvariant :=
  ⟨blockInv_resetWith wellFormed_default, fun _ => blockInv_resetWith⟩

/-! ### A micro-step -/

theorem portOk_active (hd : decode a.desc = .ok i) (c : Config) :
    portOk c (.active a) = true ↔ Standing c i a := by
  simp only [portOk, hd, Bool.and_eq_true, beq_iff_eq]
  exact ⟨fun ⟨⟨hp, hx⟩, hw⟩ => ⟨hp, hx, hw⟩, fun h => ⟨⟨h.pos, h.xstate⟩, h.window⟩⟩

theorem winSizeOk_of_wellFormed {c : Config} (h : c.wellFormed = true) : c.winSizeOk = true := by
  simp only [Config.wellFormed, Bool.and_eq_true] at h
  exact h.1.1.1.1

theorem BlockInv.portOk (h : BlockInv s) (q : Port) : portOk s.cfg (s.port q) = true := by
  cases q with
  | task => exact h.task
  | irq => exact h.irq

theorem BlockInv.standing (h : BlockInv s) (hr : s.running = some (p, a))
    (hd : decode a.desc = .ok i) : Standing s.cfg i a := by
  rw [← portOk_active hd, ← port_of_running hr]
  exact h.portOk p

/-- The running request's descriptor decodes (R75). -/
theorem BlockInv.decodes (h : BlockInv s) (hr : s.running = some (p, a)) :
    ∃ i, decode a.desc = .ok i := by
  have hok := h.portOk p
  rw [port_of_running hr] at hok
  cases hd : decode a.desc with
  | ok i => exact ⟨i, rfl⟩
  | error e => simp [Machine.portOk, hd] at hok

theorem Progress.portOk (h : Progress i p a s t) (hd : decode a.desc = .ok i)
    (hc : s.cfg.winSizeOk = true) (hst : Standing s.cfg i a) : portOk s.cfg (t.port p) = true := by
  cases h with
  | on b port _ moves => rw [port, portOk_active (moves.desc ▸ hd)]; exact moves.keeps hc hst
  | stays _ port => rw [port, portOk_active hd]; exact hst
  | ended _ port => rw [port]; rfl

/-- A TASK request runs only while the IRQ port is idle, so only an IRQ request can end a nesting (R36). -/
theorem Progress.nesting (h : Progress i p a s t) (hr : s.running = some (p, a))
    (ho : t.port (otherPort p) = s.port (otherPort p))
    (hn : s.preempted = (s.portTask != .idle && s.portIrq != .idle)) :
    t.preempted = (t.portTask != .idle && t.portIrq != .idle) := by
  have hs := port_of_running hr
  have hready := ready_of_running hr
  cases p with
  | task =>
    have hti : t.portIrq = .idle := ho.trans hready.1
    have hpre : t.preempted = s.preempted := by cases h <;> assumption
    simp [hti, hpre, hready.2]
  | irq =>
    have hs : s.portIrq = .active a := hs
    have ho : t.portTask = s.portTask := ho
    cases h with
    | on b port pre => rw [show t.portIrq = .active b from port, pre, hn, hs, ho]; rfl
    | stays _ port pre => rw [show t.portIrq = .active a from port, pre, hn, hs, ho]
    | ended _ port pre => rw [show t.portIrq = .idle from port, pre]; simp

theorem Ownership.owner (h : Ownership p a s t) (hp : s.port p = .active a)
    (ho : t.port (otherPort p) = s.port (otherPort p)) (hready : Ready s p)
    (hs : ∀ q, holdsMgmt (s.port q) = true ↔ s.mgOwner = some q) (q : Port) :
    holdsMgmt (t.port q) = true ↔ t.mgOwner = some q := by
  have hother := hs (otherPort p)
  rw [← ho] at hother
  have hown := hs p
  rw [hp] at hown
  revert q
  cases h with
  | keeps owner holds =>
    refine forall_port p ?_ ?_
    · rw [holds, owner]; exact hown
    · rw [owner]; exact hother
  | enters free owner holds =>
    refine forall_port p (by simp [holds, owner]) ?_
    rw [hother, owner]
    cases p with
    | task =>
      have hno : ¬ s.mgOwner = some .irq := by
        rw [← hs .irq, State.port, hready.1]
        simp [holdsMgmt]
      simp [otherPort, hno]
    | irq =>
      have hno : ¬ s.mgOwner = some .task := fun h => free ⟨rfl, h⟩
      simp [otherPort, hno]
  | leaves held owner holds =>
    refine forall_port p (by simp [holds, owner]) ?_
    rw [hother, owner, hown.mp held]
    cases p <;> simp [otherPort]

theorem Ownership.shiftState (h : Ownership p a s t)
    (hown : holdsMgmt (.active a) = true ↔ s.mgOwner = some p)
    (hs : s.mgOwner = none → s.mgPhase = .idle ∧ s.mgBitpos = 0 ∧ s.mgData = 0)
    (ht : t.mgOwner = none) : t.mgPhase = .idle ∧ t.mgBitpos = 0 ∧ t.mgData = 0 := by
  cases h with
  | keeps owner _ shift =>
    have hnone : s.mgOwner = none := owner ▸ ht
    obtain ⟨hphase, hbitpos, hdata⟩ := shift (by rw [Bool.eq_false_iff, ne_eq, hown, hnone]; simp)
    rw [hphase, hbitpos, hdata]
    exact hs hnone
  | enters _ owner => rw [owner] at ht; cases ht
  | leaves _ _ _ shift => exact shift

/-- `BUSY` is never left set (R24, R114). -/
theorem Engine.busy (h : Engine i p a s t) (hp : s.port p = .active a)
    (hx : a.xstate = xstateAt i a.pos) (ho : t.port (otherPort p) = s.port (otherPort p))
    (hs : s.dmaing.getLsbD 0 = true → ∃ q, inTransaction (s.port q) = true)
    (ht : t.dmaing.getLsbD 0 = true) : ∃ q, inTransaction (t.port q) = true := by
  cases h with
  | keeps dmaing inside =>
    have hsame : ∀ q, inTransaction (t.port q) = inTransaction (s.port q) :=
      forall_port p (by rw [inside hx, hp]) (by rw [ho])
    obtain ⟨q, hq⟩ := hs (dmaing ▸ ht)
    exact ⟨q, (hsame q).trans hq⟩
  | acquires _ _ _ inside => exact ⟨p, inside⟩
  | releases _ dmaing => rw [dmaing] at ht; simp at ht
  | clears _ _ dmaing => rw [dmaing] at ht; simp at ht

theorem exists_port {P : Port → Prop} : (∃ q, P q) ↔ P .task ∨ P .irq :=
  ⟨fun ⟨q, h⟩ => by cases q <;> simp [h], fun h => h.elim (⟨_, ·⟩) (⟨_, ·⟩)⟩

theorem waits_of_micro (hr : s.running = some (p, a))
    (ho : t.port (otherPort p) = s.port (otherPort p))
    (hs : s.portTask.waitsForReinit = true → s.portIrq = .idle) 
    (ht : t.portTask.waitsForReinit = true) : t.portIrq = .idle := by
  cases p with
  | task => exact ho.trans (ready_of_running hr).1
  | irq =>
    have ho : t.portTask = s.portTask := ho
    have hp : s.portIrq = .active a := port_of_running hr
    rw [ho] at ht
    rw [hs ht] at hp
    cases hp

/-- While a request runs, `reinit_req` is about that request: the other one is suspended and not waiting. -/
theorem BlockInv.line_running (h : BlockInv s) (hr : s.running = some (p, a)) :
    s.out.reinitReq = (s.port p).waitsForReinit ∧ (s.port (otherPort p)).waitsForReinit = false := by
  have hp := port_of_running hr
  rw [h.line]
  cases p with
  | task => simp [State.port, otherPort, (ready_of_running hr).1]
  | irq =>
    have hno : s.portTask.waitsForReinit = false := by
      rw [Bool.eq_false_iff]
      intro hw
      rw [State.port, h.waits hw] at hp
      cases hp
    simp [State.port, otherPort, hno]

theorem BlockInv.micro (h : BlockInv s) (hr : s.running = some (p, a)) (hd : decode a.desc = .ok i)
    (hx : exec i s = .next t) : BlockInv t := by
  have hms := exec_microStep hr hx
  have hf := hms.frame
  have hprog := hms.progress hr
  have hown := hms.ownership hr hd
  have hc := winSizeOk_of_wellFormed h.cfg
  have hst := h.standing hr hd
  have hp := port_of_running hr
  obtain ⟨hline, hother⟩ := h.line_running hr
  have hports : ∀ q, Machine.portOk t.cfg (t.port q) = true := by
    rw [hf.cfg]
    exact forall_port p (hprog.portOk hd hc hst) (hf.other ▸ h.portOk _)
  have hn := hprog.nesting hr hf.other h.nesting
  have hw := waits_of_micro hr hf.other h.waits
  exact {
    cfg := by rw [hf.cfg]; exact h.cfg
    table := by rw [hf.cfg, hf.regOffset]; exact h.table
    mem := hms.mem_wf h.mem
    task := hports .task
    irq := hports .irq
    nesting := hn
    inputs := hms.inputs h.inputs
    owner := hown.owner hp hf.other (ready_of_running hr) h.owner
    shift := hown.shiftState (hp ▸ h.owner p) h.shift
    busy := fun hb => exists_port.mp ((hms.engine hr).busy hp hst.xstate hf.other
      (fun hb => exists_port.mpr (h.busy hb)) hb)
    reinit := reinit_of_line hn hw (by
      rw [exec_reinit hr hc hst hline hx]
      rw [← hf.other] at hother
      cases p <;> simp_all [State.port, otherPort])
    waits := hw }

/-! ### An acceptance -/

theorem mayAccept_task : s.mayAccept .task = true ↔ s.portTask = .idle ∧ s.portIrq = .idle := by
  simp [State.mayAccept]

theorem mayAccept_irq :
    s.mayAccept .irq = true ↔ s.portIrq = .idle ∧ s.portTask.waitsForReinit = false := by
  simp [State.mayAccept]

theorem portOk_fresh {d : Desc} (hd : decode d = .ok i) (c : Config) :
    portOk c (.active (.fresh d)) = true := by
  rw [portOk_active (a := .fresh d) hd]
  exact ⟨rfl, by simp [xstateAt, Active.fresh], rfl⟩

theorem holdsMgmt_fresh (d : Desc) : holdsMgmt (.active (.fresh d)) = false := by
  cases hd : decode d <;> simp [holdsMgmt, Active.fresh, hd]

theorem BlockInv.latch (h : BlockInv s) (hm : s.mayAccept p = true) {d : Desc}
    (hd : decode d = .ok i) : BlockInv (s.latch p d) := by
  have hidle : s.port p = .idle := by
    cases p with
    | task => exact (mayAccept_task.mp hm).1
    | irq => exact (mayAccept_irq.mp hm).1
  have hnone : holdsMgmt (s.port p) = false := by rw [hidle]; rfl
  have hown : ∀ q, holdsMgmt ((s.latch p d).port q) = true ↔ s.mgOwner = some q := by
    refine forall_port p ?_ ?_
    · rw [← h.owner p, hnone, show (s.latch p d).port p = .active (.fresh d) by cases p <;> rfl,
        holdsMgmt_fresh]
    · rw [← h.owner, show (s.latch p d).port (otherPort p) = s.port (otherPort p) by cases p <;> rfl]
  cases p with
  | task =>
    obtain ⟨ht, hi⟩ := mayAccept_task.mp hm
    have hn : s.preempted = false := by rw [h.nesting, ht]; rfl
    have hno : s.out.reinitReq = false := by rw [h.line, ht, hi]; rfl
    refine ⟨h.cfg, h.table, h.mem, portOk_fresh hd _, h.irq, ?_, h.inputs, hown, h.shift, ?_, ?_, ?_⟩
    · simp [State.latch, hn, hi]
    · intro hb
      have := h.busy hb
      simp [ht, hi, inTransaction] at this
    · refine reinit_of_line ?_ ?_ ?_ <;> simp [State.latch, hn, hi, hno, Active.fresh]
    · simp [State.latch, Active.fresh]
  | irq =>
    obtain ⟨hi, hw⟩ := mayAccept_irq.mp hm
    have hno : s.out.reinitReq = false := by rw [h.line, hw, hi]; rfl
    refine ⟨h.cfg, h.table, h.mem, h.task, portOk_fresh hd _, ?_, h.inputs, hown, h.shift, ?_, ?_, ?_⟩
    · simp [State.latch]
    · intro hb
      have := h.busy hb
      simp only [hi, inTransaction, Bool.false_eq_true, or_false] at this
      exact .inl this
    · refine reinit_of_line ?_ ?_ ?_ <;> simp [State.latch, hw, hno, Active.fresh]
    · simp [State.latch, hw]

theorem mayAccept_setPresented (s : State) (p q : Port) (d : Option Desc) :
    (s.setPresented p d).mayAccept q = s.mayAccept q := by
  cases p <;> cases q <;> rfl

theorem BlockInv.accept (h : BlockInv s) (p : Port) : BlockInv (s.accept p) := by
  have hpres : BlockInv (s.setPresented p none) := h.of_same (.setPresented s p none)
  generalize ht : s.accept p = t
  have hacc := accept_accepted s p
  rw [ht] at hacc
  cases hacc with
  | dropped => exact h
  | latched d i _ hm hd => exact hpres.latch (by rw [mayAccept_setPresented]; exact hm) hd
  | refused d e _ _ _ => exact hpres.of_same (.refuse _ p e d)

/-! ### Every step -/

theorem BlockInv.took {m : Move} (h : BlockInv s) (ht : Took m s t) : BlockInv t := by
  cases ht with
  | idle => exact h
  | micro _ p a i hr hd hx => exact h.micro hr hd hx
  | refused _ p a e hr hd =>
    obtain ⟨i, hi⟩ := h.decodes hr
    rw [hd] at hi
    cases hi
  | present p d => exact h.of_same (.present s p d)
  | accept p => exact h.accept p
  | extSetDmaing v => exact h.of_same (.extSetDmaing s v)
  | agent _ hf => exact h.of_same (.of_agent hf)
  | rst => exact blockInv_rst h.cfg h.mem

/-- Settles O47 (its field `waits` rests on log 32): taking a move from the schedule leaves the block, and each
way a move can change it keeps the invariant. -/
theorem stepKeepsInvariant : Obligations.StepKeepsInvariant := fun s _ h hstep =>
  (h.of_same (.nextMove s)).took (step_took hstep).1

end Sys2Proof.Machine
end

section
/-!
PROOF. The busy flag excludes (R24, R65).
-/

namespace Sys2Proof.Machine

open Sys2Proof

variable {i : Instr} {p : Port} {a : Active} {s t : State}

/-- `Exclusive`, of any port and the other. -/
theorem exclusive_iff : Exclusive s ↔
    ∀ q, inTransaction (s.port q) = true →
      s.dmaing.getLsbD 0 = true ∧ inTransaction (s.port (otherPort q)) = false := by
  constructor
  · intro h
    refine forall_port .task (fun ht => ⟨h.task ht, ?_⟩) (fun hi => ⟨h.irq hi, ?_⟩)
    · exact Bool.eq_false_iff.mpr fun hi => h.one ⟨ht, hi⟩
    · exact Bool.eq_false_iff.mpr fun ht => h.one ⟨ht, hi⟩
  · intro h
    exact ⟨fun ⟨ht, hi⟩ => absurd hi (Bool.eq_false_iff.mp (h .task ht).2), fun ht => (h .task ht).1,
      fun hi => (h .irq hi).1⟩

theorem exclusive_of_none (h : ∀ q, inTransaction (s.port q) = false) : Exclusive s :=
  exclusive_iff.mpr fun q hq => absurd hq (Bool.eq_false_iff.mp (h q))

theorem exclusive_congr (hb : t.dmaing.getLsbD 0 = s.dmaing.getLsbD 0)
    (hp : ∀ q, inTransaction (t.port q) = inTransaction (s.port q)) (h : Exclusive s) : Exclusive t := by
  rw [exclusive_iff] at h ⊢
  intro q
  rw [hp, hp, hb]
  exact h q

theorem Exclusive.of_same (h : Exclusive s) (k : SameBlock s t) : Exclusive t :=
  exclusive_congr k.busy (fun q => (k.ports q).inTransaction) h

/-- From 0x00 nobody is in a transaction, so the acquire makes its own the only one; a release leaves none; no
other micro-step but the zeroing moves the flag or a transaction (R99, R101, R113). -/
theorem Engine.exclusive (h : Engine i p a s t) (hp : s.port p = .active a)
    (hx : a.xstate = xstateAt i a.pos) (ho : t.port (otherPort p) = s.port (otherPort p))
    (hs : Exclusive s) (hno : a.pos ≠ .rstClear) : Exclusive t := by
  cases h with
  | keeps dmaing inside =>
    refine exclusive_congr (by rw [dmaing]) (forall_port p ?_ ?_) hs
    · rw [inside hx, hp]
    · rw [ho]
  | acquires _ free dmaing inside =>
    have hnone : inTransaction (s.port (otherPort p)) = false := by
      rw [Bool.eq_false_iff]
      intro hin
      have hbit := (exclusive_iff.mp hs _ hin).1
      rw [free] at hbit
      simp at hbit
    refine exclusive_iff.mpr (forall_port p (fun _ => ⟨?_, ?_⟩) fun hin => ?_)
    · rw [dmaing]; rfl
    · rw [ho]; exact hnone
    · rw [ho, hnone] at hin; cases hin
  | releases _ _ inside was =>
    refine exclusive_of_none (forall_port p inside ?_)
    rw [ho]
    exact (exclusive_iff.mp hs p (hp ▸ was hx)).2
  | clears _ pos => exact absurd pos hno

theorem Exclusive.latch (h : Exclusive s) (hm : s.mayAccept p = true) (d : Desc) :
    Exclusive (s.latch p d) := by
  refine exclusive_congr (by cases p <;> rfl) (forall_port p ?_ ?_) h
  · cases p with
    | task => simp [State.latch, State.port, (mayAccept_task.mp hm).1, inTransaction, Active.fresh]
    | irq => simp [State.latch, State.port, (mayAccept_irq.mp hm).1, inTransaction, Active.fresh]
  · cases p <;> rfl

theorem Exclusive.accept (h : Exclusive s) (p : Port) : Exclusive (s.accept p) := by
  have hpres : Exclusive (s.setPresented p none) := h.of_same (.setPresented s p none)
  generalize ht : s.accept p = t
  have hacc := accept_accepted s p
  rw [ht] at hacc
  cases hacc with
  | dropped => exact h
  | latched d i _ hm _ => exact hpres.latch (by rw [mayAccept_setPresented]; exact hm) d
  | refused d e _ _ _ => exact hpres.of_same (.refuse _ p e d)

theorem Exclusive.took {m : Move} (h : Exclusive s) (hinv : BlockInv s) (ht : Took m s t)
    (hno : m = .micro → ∀ p a, s.running = some (p, a) → a.pos ≠ .rstClear) : Exclusive t := by
  cases ht with
  | idle => exact h
  | micro hm p a i hr hd hx =>
    have hms := exec_microStep hr hx
    exact (hms.engine hr).exclusive (port_of_running hr) (hinv.standing hr hd).xstate hms.frame.other h
      (hno hm p a hr)
  | refused _ p a e hr hd =>
    obtain ⟨i, hi⟩ := hinv.decodes hr
    rw [hd] at hi
    cases hi
  | present p d => exact h.of_same (.present s p d)
  | accept p => exact h.accept p
  | extSetDmaing v => exact h.of_same (.extSetDmaing s v)
  | agent _ hf => exact h.of_same (.of_agent hf)
  | rst => exact exclusive_of_none fun q => by cases q <;> rfl

theorem running_withEnv (s : State) (e : Env) : (s.withEnv e).running = s.running := rfl

theorem running_nextMove (s : State) : s.nextMove.2.running = s.running := by
  obtain ⟨moves, hu⟩ := nextMove_snd s
  rw [hu, running_withEnv]

/-- Settles O49: the acquire needs `dmaing` 0x00 and the release is the owner's own, so no move but the zeroing
of a reset breaks the exclusion. -/
theorem transactionsExclude : Obligations.TransactionsExclude := by
  intro s t hinv h hstep hno
  refine (h.of_same (.nextMove s)).took (hinv.of_same (.nextMove s)) (step_took hstep).1 ?_
  rw [running_nextMove]
  exact hno

end Sys2Proof.Machine
end

section
/-!
PROOF. Progress: every meaning answers a next state at every position of its pseudocode (R39, R40), so a block
that meets the invariant is stuck only by a fault.
-/

namespace Sys2Proof.Machine

open Sys2Proof

variable {i : Instr} {p : Port} {a : Active} {s : State}

/-! ### The shared micro-steps -/

theorem regIndex_of_lt {idx : Byte} (h : idx.toNat < 32) : regIndex idx = some ⟨idx.toNat, h⟩ := by
  simp [regIndex, h]

theorem readCycle_next {idx : Byte} (h : idx.toNat < 32) (w : Width) :
    ∃ t, readCycle idx w p a s = .next t := by
  simp [readCycle, regIndex_of_lt h]

theorem writeCycle_next {idx : Byte} (h : idx.toNat < 32) (w : Width) (v : Word) :
    ∃ t, writeCycle idx w v p a s = .next t := by
  simp [writeCycle, regIndex_of_lt h]

theorem armStep_next {m : Arming} {w : ArmPos} (begin : Active → Active)
    (h : w = .clearIsr → m.clearsRdc = true) : ∃ t, armStep m begin w p a s = .next t := by
  cases w <;> simp_all [armStep]

theorem resetProc_next {pos : Pos} (h : inResetProc pos = true) (done : Active → Active) :
    ∃ t, resetProc done pos p a s = .next t := by
  cases pos <;> simp [inResetProc] at h <;> simp only [resetProc]
  case rstDraw => split <;> exact ⟨_, rfl⟩
  all_goals exact ⟨_, rfl⟩

theorem txDraw_next : ∃ t, txDraw p a s = .next t := by
  simp only [txDraw]
  split <;> exact ⟨_, rfl⟩

theorem reinitPoll_next : ∃ t, reinitPoll p a s = .next t := by
  simp only [reinitPoll]
  split <;> exact ⟨_, rfl⟩

theorem eeWrite_next {cs clk di : Bool} : ∃ t, eeWrite cs clk di p a s = .next t := by
  simp only [eeWrite]
  split <;> exact ⟨_, rfl⟩

theorem sendBit_next {bit : Bool} {n last : Nat} {after : Pos} (e : SendEdge) :
    ∃ t, sendBit bit n last after e p a s = .next t := by
  cases e <;> exact ⟨_, rfl⟩

theorem readSample_next (g : GetStage) (n : Nat) : ∃ t, readSample g n p a s = .next t := by
  cases g <;> exact ⟨_, rfl⟩

/-! ### The meanings, by unit -/

/-- RD8, RD16, WR8, WR16: past the index check the index is below 32. -/
theorem exec_next_of_cycle {idx : Byte}
    (hi : i = .rd8 idx ∨ i = .rd16 idx ∨ (∃ v, i = .wr8 idx v) ∨ ∃ v, i = .wr16 idx v)
    (hr : s.running = some (p, a)) (hp : hasPos i a.pos = true) : ∃ t, exec i s = .next t := by
  rcases hi with rfl | rfl | ⟨v, rfl⟩ | ⟨v, rfl⟩ <;>
    simp only [hasPos, midPos, Bool.or_eq_true, beq_iff_eq, Bool.and_eq_true, decide_eq_true_eq] at hp <;>
    rcases hp with (hp | hp) | ⟨hp, hlt⟩ <;>
    simp [exec, execRd8, execRd16, execWr8, execWr16, micro_running hr, readCycle_next,
      writeCycle_next, *]

theorem exec_next_of_bridge {haddr : Word} {len : Half} (hi : i = .wblk haddr len ∨ i = .rblk haddr len)
    (hr : s.running = some (p, a)) (hp : hasPos i a.pos = true) : ∃ t, exec i s = .next t := by
  obtain ⟨d, pos, x, l⟩ := a
  rcases hi with rfl | rfl <;> cases pos <;> simp [hasPos, midPos, inBridge] at hp <;>
    simp [exec, execWblk, execRblk, micro_running hr, wblkHost, wblkBus, rblkHost, rblkBus]

theorem execGethdr_next {haddr : Word} {page : Byte} (hr : s.running = some (p, a))
    (hp : hasPos (.gethdr haddr page) a.pos = true) : ∃ t, exec (.gethdr haddr page) s = .next t := by
  obtain ⟨d, pos, x, l⟩ := a
  simp only [exec, execGethdr, micro_running hr]
  cases pos <;> simp [hasPos, midPos, inDma, inBridge] at hp
  case arm w => exact armStep_next _ (by simp [hp])
  all_goals exact ⟨_, rfl⟩

theorem execBin_next {haddr : Word} {len roff : Half} (hr : s.running = some (p, a))
    (hp : hasPos (.bin haddr len roff) a.pos = true) : ∃ t, exec (.bin haddr len roff) s = .next t := by
  obtain ⟨d, pos, x, l⟩ := a
  simp only [exec, execBin, micro_running hr]
  cases pos <;> simp [hasPos, midPos, inDma, inBridge] at hp
  case arm w => exact armStep_next _ (by simp [hp])
  all_goals exact ⟨_, rfl⟩

theorem execReset_next (hr : s.running = some (p, a)) (hp : hasPos .reset a.pos = true) :
    ∃ t, exec .reset s = .next t := by
  obtain ⟨d, pos, x, l⟩ := a
  simp only [exec, execReset, micro_running hr]
  cases pos <;> simp [hasPos, midPos, inResetProc] at hp
  case respond => exact ⟨_, rfl⟩
  all_goals exact resetProc_next rfl _

theorem execBout_next {haddr : Word} {len : Half} {page : Byte} (hr : s.running = some (p, a))
    (hp : hasPos (.bout haddr len page) a.pos = true) : ∃ t, exec (.bout haddr len page) s = .next t := by
  obtain ⟨d, pos, x, l⟩ := a
  simp only [exec, execBout, micro_running hr]
  cases pos <;> simp [hasPos, midPos, inDma, inBridge, inTxWait, inResetProc] at hp
  case arm w => exact armStep_next _ (fun _ => rfl)
  case txDraw => exact txDraw_next
  case reinitWait => exact reinitPoll_next
  case rstRead | rstWrite | rstClear | rstPoll | rstDraw | rstAck => exact resetProc_next rfl _
  all_goals exact ⟨_, rfl⟩

/-- The five requests of one MEMR cycle, and EEWR. -/
theorem exec_next_of_line
    (hi : (∃ lv, i = .mdc lv ∨ i = .mdir lv ∨ i = .mdo lv) ∨ i = .mdi ∨ i = .eerd
      ∨ ∃ cs clk di, i = .eewr cs clk di)
    (hr : s.running = some (p, a)) (hp : hasPos i a.pos = true) : ∃ t, exec i s = .next t := by
  obtain ⟨d, pos, x, l⟩ := a
  rcases hi with ⟨lv, rfl | rfl | rfl⟩ | rfl | rfl | ⟨cs, clk, di, rfl⟩ <;>
    simp only [exec, execMdc, execMdir, execMdo, execMdi, execEerd, execEewr, micro_running hr] <;>
    cases pos <;> simp [hasPos, midPos, inEewr] at hp
  case eeWrite => exact eeWrite_next
  all_goals exact ⟨_, rfl⟩

theorem execMdiord_next {phyad regad : BitVec 5} (hr : s.running = some (p, a))
    (hp : hasPos (.mdiord phyad regad) a.pos = true) : ∃ t, exec (.mdiord phyad regad) s = .next t := by
  obtain ⟨d, pos, x, l⟩ := a
  simp only [exec, execMdiord, micro_running hr]
  cases pos <;> simp [hasPos, midPos, inFrame] at hp
  case send n e => exact sendBit_next e
  case get g n e =>
    cases e with
    | sample => exact readSample_next g n
    | _ => exact ⟨_, rfl⟩
  all_goals exact ⟨_, rfl⟩

theorem execMdiowr_next {phyad regad : BitVec 5} {val : Half} (hr : s.running = some (p, a))
    (hp : hasPos (.mdiowr phyad regad val) a.pos = true) :
    ∃ t, exec (.mdiowr phyad regad val) s = .next t := by
  obtain ⟨d, pos, x, l⟩ := a
  simp only [exec, execMdiowr, micro_running hr]
  cases pos <;> simp [hasPos, midPos, inFrame] at hp
  case send n e => exact sendBit_next e
  case get g n e =>
    subst hp
    cases e <;> exact ⟨_, rfl⟩
  all_goals exact ⟨_, rfl⟩

/-- Settles O45: each unit's meanings, position by position. -/
theorem everyPositionSteps : Obligations.EveryPositionSteps := by
  intro i s p a hr hp
  cases i with
  | rd8 idx => exact exec_next_of_cycle (.inl rfl) hr hp
  | rd16 idx => exact exec_next_of_cycle (.inr (.inl rfl)) hr hp
  | wr8 idx val => exact exec_next_of_cycle (.inr (.inr (.inl ⟨val, rfl⟩))) hr hp
  | wr16 idx val => exact exec_next_of_cycle (.inr (.inr (.inr ⟨val, rfl⟩))) hr hp
  | wblk haddr len => exact exec_next_of_bridge (.inl rfl) hr hp
  | rblk haddr len => exact exec_next_of_bridge (.inr rfl) hr hp
  | gethdr haddr page => exact execGethdr_next hr hp
  | bin haddr len roff => exact execBin_next hr hp
  | bout haddr len page => exact execBout_next hr hp
  | reset => exact execReset_next hr hp
  | mdiord phyad regad => exact execMdiord_next hr hp
  | mdiowr phyad regad val => exact execMdiowr_next hr hp
  | _ => exact exec_next_of_line (by simp) hr hp

/-! ### The whole machine -/

theorem BlockInv.runMicro_next (h : BlockInv s) : ∃ t, s.runMicro = .next t := by
  cases hr : s.running with
  | none => exact ⟨s, runMicro_of_not_running hr⟩
  | some x =>
    obtain ⟨p, a⟩ := x
    obtain ⟨i, hd⟩ := h.decodes hr
    rw [show s.runMicro = exec i s by simp [State.runMicro, hr, hd]]
    exact everyPositionSteps i s p a hr (h.standing hr hd).pos

theorem BlockInv.move_next (h : BlockInv s) (m : Move) : ∃ t, s.move m = .next t := by
  cases m with
  | micro => exact h.runMicro_next
  | _ => exact ⟨_, rfl⟩

/-- Settles O48: only a micro-step could stop, and its request stands at one of its positions. -/
theorem liveBlockSteps : Obligations.LiveBlockSteps := by
  intro s h hf
  rw [step_of_no_fault hf]
  exact (h.of_same (.nextMove s)).move_next _

end Sys2Proof.Machine
end

section
/-!
PROOF. What a micro-step may write and send, from the cases of `MicroStep`; then the same of every step.
-/

namespace Sys2Proof.Machine

open Sys2Proof

variable {i : Instr} {p : Port} {a : Active} {s t : State}

/-! ### Nesting and `xstate` (R36, R113) -/

/-- Settles O8: a micro-step of the IRQ request leaves the other port, and one that ends it lets TASK run. -/
theorem irqNestsOverTask : Obligations.IrqNestsOverTask := by
  intro i s t b hb hx
  have hr := running_of_irq hb
  have hms := exec_microStep hr hx
  have htask : t.portTask = s.portTask := hms.frame.other
  refine ⟨htask, fun a _ hidle ha => ?_⟩
  have hpre : t.preempted = false := by
    cases hms.progress hr with
    | on b port => rw [State.port, hidle] at port; cases port
    | stays _ port => rw [State.port, hidle] at port; cases port
    | ended _ _ pre => exact pre
  exact ⟨hpre, running_task hidle hpre (htask.trans ha)⟩

theorem xstateAt_of_end {pos : Pos} (h : pos = .start ∨ pos = .acquire ∨ pos = .respond) :
    xstateAt i pos = .idle := by
  unfold xstateAt
  rcases h with rfl | rfl | rfl <;> split <;> rfl

/-- Settles O50: each way a micro-step can lead the request keeps the descriptor and follows R113. -/
theorem xStateMoves : Obligations.XStateMoves := by
  intro i s t p a hr hd hok hx
  have hst := (portOk_active hd _).mp hok
  have hms := exec_microStep hr hx
  refine ⟨fun b hb => ?_, fun hidle => ?_, hms.frame.other⟩
  · cases hms.progress hr with
    | on b' port _ moves =>
      cases port.symm.trans hb
      exact ⟨moves.desc, moves.xstate hst.xstate⟩
    | stays pos port =>
      cases port.symm.trans hb
      exact ⟨rfl, .inl ⟨rfl, by simp [pos], by simp [pos], by simp [pos]⟩⟩
    | ended _ port => rw [port] at hb; cases hb
  · cases hms.progress hr with
    | on b port => rw [port] at hidle; cases hidle
    | stays _ port => rw [port] at hidle; cases hidle
    | ended pos => exact hst.xstate.trans (xstateAt_of_end pos)

/-! ### Registers -/

/-- Settles O51: the four ways of `Engine`. -/
theorem dmaingWriters : Obligations.DmaingWriters := by
  intro i s t hx
  obtain ⟨p, a, hr⟩ := running_of_exec hx
  cases (exec_microStep hr hx).engine hr with
  | keeps dmaing => exact .inl dmaing
  | acquires dma free dmaing => exact .inr (.inl ⟨dma, free, dmaing⟩)
  | releases dma dmaing => exact .inr (.inr (.inl ⟨dma, dmaing⟩))
  | clears resets pos dmaing => exact .inr (.inr (.inr ⟨resets, dmaing, p, a, hr, pos⟩))

/-- Only a push writes the shadow, and MDI and EERD make none (R120, R121). -/
theorem MicroStep.shadow_of_reads (h : MicroStep i p a s t) (hi : i = .mdi ∨ i = .eerd) :
    t.memrShadow = s.memrShadow := by
  rw [← rest_memrShadow, ← rest_memrShadow]
  cases h with
  | mgPush phase bitpos data shadow b _ _ _ _ hn => exact absurd hi (not_or.mpr hn)
  | _ => simp [Rest.mgLeft]

theorem Engine.dmaing_of_other (h : Engine i p a s t) (hd : isDma i = false) (hreset : i ≠ .reset) :
    t.dmaing = s.dmaing := by
  cases h with
  | keeps dmaing => exact dmaing
  | acquires dma => rw [hd] at dma; cases dma
  | releases dma => rw [hd] at dma; cases dma
  | clears resets =>
    rcases resets with rfl | ⟨_, _, _, rfl⟩
    · exact absurd rfl hreset
    · cases hd

theorem MicroStep.reinitReq_of_other (h : MicroStep i p a s t)
    (hi : ∀ haddr len page, i ≠ .bout haddr len page) : t.out.reinitReq = s.out.reinitReq := by
  show t.rest.reinitReq = s.rest.reinitReq
  cases h with
  | reinit haddr len page b _ hb => exact absurd hb (hi haddr len page)
  | reinitDone haddr len page b _ hb => exact absurd hb (hi haddr len page)
  | _ => simp [Rest.mgLeft]

/-- Settles O56: the frame of a micro-step, of the management registers, of the engine and of `reinit_req`. -/
theorem registerFrame : Obligations.RegisterFrame := by
  intro i s t p a hr hx
  have hms := exec_microStep hr hx
  have hf := hms.frame
  exact ⟨hf.cfg, hf.regOffset, hf.refused, hf.moves, hf.presented, hms.mgmt_frame, hms.shadow_of_reads,
    (hms.engine hr).dmaing_of_other, hms.reinitReq_of_other, hf.fault⟩

/-! ### `dmaing[7:1]` (R25) -/

/-- `dmaing[7:1]` is as it was or 0. -/
def HighKept (d e : Byte) : Prop := e &&& 0xFE = d &&& 0xFE ∨ e &&& 0xFE = 0

theorem Engine.highKept (h : Engine i p a s t) : HighKept s.dmaing t.dmaing := by
  cases h with
  | keeps dmaing => rw [dmaing]; exact .inl rfl
  | acquires _ _ dmaing => rw [dmaing]; exact .inr rfl
  | releases _ dmaing => rw [dmaing]; exact .inl (by rw [BitVec.and_assoc]; rfl)
  | clears _ _ dmaing => rw [dmaing]; exact .inr rfl

theorem dmaing_setPresented (s : State) (p : Port) (d : Option Desc) :
    (s.setPresented p d).dmaing = s.dmaing := by
  cases p <;> rfl

theorem dmaing_present (s : State) (p : Port) (d : Desc) : (s.present p d).dmaing = s.dmaing := by
  unfold State.present
  split
  · exact dmaing_setPresented s p _
  · rfl

theorem dmaing_accept (s : State) (p : Port) : (s.accept p).dmaing = s.dmaing := by
  generalize ht : s.accept p = t
  have hacc := accept_accepted s p
  rw [ht] at hacc
  cases hacc with
  | dropped => rfl
  | latched d => exact Eq.trans (by cases p <;> rfl) (dmaing_setPresented s p none)
  | refused d e => exact dmaing_setPresented s p none

theorem dmaing_rst (s : State) : s.rst.dmaing = 0x00 := by simp only [State.rst, State.resetWith]

theorem Took.highKept {m : Move} (h : Took m s t) (hm : ∀ v, m ≠ .extSetDmaing v) :
    HighKept s.dmaing t.dmaing := by
  cases h with
  | idle => exact .inl rfl
  | micro _ p a i hr _ hx => exact ((exec_microStep hr hx).engine hr).highKept
  | refused _ p a e =>
    rw [show ((s.refuse p e a.desc).endRequest p).dmaing = s.dmaing by cases p <;> rfl]
    exact .inl rfl
  | present p d => rw [dmaing_present]; exact .inl rfl
  | accept p => rw [dmaing_accept]; exact .inl rfl
  | extSetDmaing v hv => exact absurd hv (hm v)
  | agent _ hf => rw [hf.dmaing]; exact .inl rfl
  | rst => rw [dmaing_rst]; exact .inr rfl

theorem getLsbD_setExt (d v : Byte) {k : Nat} (h1 : 1 ≤ k) (h8 : k < 8) :
    (setExt d v).getLsbD k = v.getLsbD k := by
  have hhigh : (0xFE#8).getLsbD k = true ∧ (0x01#8).getLsbD k = false := by
    interval_cases k <;> decide
  simp [setExt, hhigh]

theorem dmaing_nextMove (s : State) : s.nextMove.2.dmaing = s.dmaing := by
  obtain ⟨moves, hu⟩ := nextMove_snd s
  rw [hu]; rfl

/-- Settles O14: the bits of `setExt`; every other move by the ways it can change the state. -/
theorem extSetDmaingEffect : Obligations.ExtSetDmaingEffect := by
  refine ⟨fun s v rest hf hmoves => ⟨setExt s.dmaing v, step_of_scheduled hf hmoves,
    getLsbD_zero_setExt _ _, fun k => getLsbD_setExt _ _⟩, fun s t hstep hm => ?_⟩
  rw [← dmaing_nextMove s]
  exact (step_took hstep).1.highKept hm

/-! ### The trace, the responses, the log (R42, R62) -/

/-- A list is as it was or longer by one at its end. -/
def Grown {α : Type} (l m : List α) : Prop := m = l ∨ ∃ x, m = l ++ [x]

theorem Grown.prefix_of {α : Type} {l m : List α} (h : Grown l m) : l <+: m := by
  rcases h with rfl | ⟨x, rfl⟩
  · exact List.prefix_rfl
  · exact List.prefix_append l [x]

theorem out_hostWrite (s : State) (addr : Nat) (bytes : List Byte) :
    (s.hostWrite addr bytes).out = s.out := rfl

@[simp] theorem cycles_respond (s : State) (p : Port) (st : Status) (c : Code) (v : Half) :
    (s.respond p st c v).out.cycles = s.out.cycles := by
  simp [State.respond]

@[simp] theorem responses_respond (s : State) (p : Port) (st : Status) (c : Code) (v : Half) :
    (s.respond p st c v).out.responses = s.out.responses ++ [(p, ⟨st, c, v⟩)] := by
  simp [State.respond]

theorem out_mgLeave (s : State) : s.mgLeave.out = s.out := rfl

theorem MicroStep.cycles_grown (h : MicroStep i p a s t) : Grown s.out.cycles t.out.cycles := by
  unfold Grown
  cases h <;> simp [State.raise, State.mgRespond, out_mgLeave, out_hostWrite]

theorem MicroStep.responses_grown (h : MicroStep i p a s t) :
    Grown s.out.responses t.out.responses := by
  unfold Grown
  cases h <;> simp [State.raise, State.mgRespond, out_mgLeave, out_hostWrite]

theorem MicroStep.log_grown (h : MicroStep i p a s t) : Grown s.log t.log := by
  unfold Grown
  rw [← rest_log, ← rest_log]
  cases h <;> simp [Rest.mgLeft, rest_log]

theorem out_setPresented (s : State) (p : Port) (d : Option Desc) :
    (s.setPresented p d).out = s.out := by
  cases p <;> rfl

theorem log_setPresented (s : State) (p : Port) (d : Option Desc) :
    (s.setPresented p d).log = s.log := by
  cases p <;> rfl

theorem refused_setPresented (s : State) (p : Port) (d : Option Desc) :
    (s.setPresented p d).refused = s.refused := by
  cases p <;> rfl

theorem rst_out (s : State) : s.rst.out = { s.out with reinitReq := false } := by
  simp only [State.rst]

/-- What every move sends: at most one cycle and one response. -/
structure Sent (s t : State) : Prop where
  cycles : Grown s.out.cycles t.out.cycles
  responses : Grown s.out.responses t.out.responses

theorem Sent.of_out (h : t.out = s.out) : Sent s t := by
  constructor <;> rw [h] <;> exact .inl rfl

/-- What every move but RST keeps of the log and of `refused`. -/
structure Recorded (s t : State) : Prop where
  log : Grown s.log t.log
  refused : s.refused = true → t.refused = true

theorem Recorded.of_eq (hl : t.log = s.log) (hr : t.refused = s.refused) : Recorded s t :=
  ⟨.inl hl, fun h => hr.trans h⟩

theorem refuse_sent (s : State) (p : Port) (e : DecodeError) (d : Desc) : Sent s (s.refuse p e d) :=
  ⟨.inl rfl, .inr ⟨_, rfl⟩⟩

theorem refuse_recorded (s : State) (p : Port) (e : DecodeError) (d : Desc) :
    Recorded s (s.refuse p e d) :=
  ⟨.inr ⟨_, rfl⟩, fun _ => rfl⟩

theorem accept_sent (s : State) (p : Port) : Sent s (s.accept p) := by
  generalize ht : s.accept p = t
  have hacc := accept_accepted s p
  rw [ht] at hacc
  cases hacc with
  | dropped => exact .of_out rfl
  | latched d => exact .of_out (Eq.trans (by cases p <;> rfl) (out_setPresented s p none))
  | refused d e =>
    have := refuse_sent (s.setPresented p none) p e d
    exact ⟨out_setPresented s p none ▸ this.cycles, out_setPresented s p none ▸ this.responses⟩

theorem accept_recorded (s : State) (p : Port) : Recorded s (s.accept p) := by
  generalize ht : s.accept p = t
  have hacc := accept_accepted s p
  rw [ht] at hacc
  cases hacc with
  | dropped => exact .of_eq rfl rfl
  | latched d =>
    exact .of_eq (Eq.trans (by cases p <;> rfl) (log_setPresented s p none))
      (Eq.trans (by cases p <;> rfl) (refused_setPresented s p none))
  | refused d e =>
    exact ⟨log_setPresented s p none ▸ (refuse_recorded (s.setPresented p none) p e d).log, fun _ => rfl⟩

theorem Took.sent {m : Move} (h : Took m s t) : Sent s t := by
  cases h with
  | idle => exact .of_out rfl
  | micro _ p a i hr _ hx =>
    have hms := exec_microStep hr hx
    exact ⟨hms.cycles_grown, hms.responses_grown⟩
  | refused _ p a e =>
    have := refuse_sent s p e a.desc
    exact ⟨by rw [endRequest_out]; exact this.cycles, by rw [endRequest_out]; exact this.responses⟩
  | present p d =>
    refine .of_out ?_
    unfold State.present
    split
    · exact out_setPresented s p _
    · rfl
  | accept p => exact accept_sent s p
  | extSetDmaing v => exact .of_out rfl
  | agent _ hf => exact ⟨.inl hf.cycles, .inl hf.responses⟩
  | rst => exact ⟨.inl (by rw [rst_out]), .inl (by rw [rst_out])⟩

theorem Took.recorded {m : Move} (h : Took m s t) (hm : m ≠ .rst) : Recorded s t := by
  cases h with
  | idle => exact .of_eq rfl rfl
  | micro _ p a i hr _ hx =>
    have hms := exec_microStep hr hx
    exact ⟨hms.log_grown, fun h => hms.frame.refused.trans h⟩
  | refused _ p a e =>
    have hrest := rest_endRequest (s.refuse p e a.desc) p
    have hlog := congrArg Rest.log hrest
    have hrefused := congrArg Rest.refused hrest
    exact ⟨.inr ⟨_, hlog⟩, fun _ => hrefused⟩
  | present p d =>
    unfold State.present
    split
    · exact .of_eq (log_setPresented s p _) (refused_setPresented s p _)
    · exact .of_eq rfl rfl
  | accept p => exact accept_recorded s p
  | extSetDmaing v => exact .of_eq rfl rfl
  | agent _ hf => exact .of_eq hf.log hf.refused
  | rst hrst => exact absurd hrst hm

theorem step_sent (h : step s = .next t) : Sent s t := by
  have := (step_took h).1.sent
  obtain ⟨moves, hu⟩ := nextMove_snd s
  rw [hu] at this
  exact ⟨this.cycles, this.responses⟩

/-- Settles O52: each way a move can change the state sends at most one of each. -/
theorem oneCyclePerStep : Obligations.OneCyclePerStep := fun _ _ h =>
  ⟨(step_sent h).cycles, (step_sent h).responses⟩

/-- Settles O58: lists that grow at their end have what they were as a first part. -/
theorem historyOnlyGrows : Obligations.HistoryOnlyGrows := by
  intro s t h hm
  have hrec := (step_took h).1.recorded hm
  obtain ⟨moves, hu⟩ := nextMove_snd s
  rw [hu] at hrec
  exact ⟨hrec.log.prefix_of, hrec.refused, (step_sent h).cycles.prefix_of,
    (step_sent h).responses.prefix_of⟩

end Sys2Proof.Machine
end

section
/-!
PROOF. Which move a step takes, what the ports accept, what a stuck block does, the values of reset and the
registers' addresses (R23, R36, R43, R50, R80).
-/

namespace Sys2Proof.Machine

open Sys2Proof

variable {i : Instr} {p : Port} {a : Active} {s : State}

/-! ### The move a step takes (R136) -/

theorem runMicro_of_running (hr : s.running = some (p, a)) (hd : decode a.desc = .ok i) :
    s.runMicro = exec i s := by
  simp [State.runMicro, hr, hd]

theorem defaultMove_of_running (hr : s.running = some (p, a))
    (hno : s.env.presentedIrq = none ∨ s.mayAccept .irq = false) : s.defaultMove = .micro := by
  rcases hno with hno | hno <;> simp [State.defaultMove, hr, hno]

theorem defaultMove_of_irq (hp : s.env.presentedIrq ≠ none) (hm : s.mayAccept .irq = true) :
    s.defaultMove = .accept .irq := by
  simp [State.defaultMove, hm, Option.isSome_iff_ne_none.mpr hp]

theorem defaultMove_of_task (hi : s.env.presentedIrq = none) (hp : s.env.presentedTask ≠ none)
    (hm : s.mayAccept .task = true) (hr : s.running = none) : s.defaultMove = .accept .task := by
  simp [State.defaultMove, hi, hr, hm, Option.isSome_iff_ne_none.mpr hp]

/-- Settles O9: the scheduled move is the one taken; with none scheduled it is `defaultMove`. -/
theorem stepRunsDecoded : Obligations.StepRunsDecoded := by
  refine ⟨fun s p a i hf hr hd => ⟨fun hmoves hno => ?_, fun rest hmoves => ?_⟩,
    fun s hf hmoves => ⟨fun hp hm => ?_, fun hi hp hm hr => ?_⟩, fun s u rest hf hu => ?_⟩
  · rw [step_of_unscheduled hf hmoves, defaultMove_of_running hr hno]
    exact runMicro_of_running hr hd
  · rw [step_of_scheduled hf hmoves]
    exact runMicro_of_running hr hd
  · rw [step_of_unscheduled hf hmoves, defaultMove_of_irq hp hm, State.move]
  · rw [step_of_unscheduled hf hmoves, defaultMove_of_task hi hp hm hr, State.move]
  · subst hu
    refine ⟨?_, ?_, ?_, ?_, ?_⟩ <;> intros <;> exact step_of_scheduled hf ‹_›

/-! ### Faults (R43, R130) -/

theorem nextMove_fst_of_scheduled {m : Move} {rest : List Move} (h : s.env.moves = m :: rest) :
    s.nextMove.1 = m := by
  rw [nextMove_of_scheduled h]

/-- Settles O10: with `fault` set only RST is a move, and no default move is RST. -/
theorem stuckUntilRst : Obligations.StuckUntilRst := by
  intro s c i hf
  refine ⟨fun m rest hmoves hm => ?_, fun hmoves => ?_, fun rest hmoves => ?_⟩
  · exact step_of_fault hf (nextMove_fst_of_scheduled hmoves ▸ hm)
  · refine step_of_fault hf ?_
    rw [nextMove_of_unscheduled hmoves]
    exact defaultMove_ne_rst s
  · exact ⟨_, step_of_rst (nextMove_fst_of_scheduled hmoves), rfl⟩

/-! ### Acceptance (R36, R75) -/

theorem port_setPresented (s : State) (p q : Port) (d : Option Desc) :
    (s.setPresented p d).port q = s.port q := by
  cases p <;> cases q <;> rfl

theorem preempted_setPresented (s : State) (p : Port) (d : Option Desc) :
    (s.setPresented p d).preempted = s.preempted := by
  cases p <;> rfl

theorem portTask_setPresented (s : State) (p : Port) (d : Option Desc) :
    (s.setPresented p d).portTask = s.portTask := by
  cases p <;> rfl

theorem latch_port_same (s : State) (p : Port) (d : Desc) :
    (s.latch p d).port p = .active (.fresh d) := by
  cases p <;> rfl

theorem latch_port_other (s : State) (p : Port) (d : Desc) :
    (s.latch p d).port (otherPort p) = s.port (otherPort p) := by
  cases p <;> rfl

theorem latch_preempted (s : State) (p : Port) (d : Desc) :
    (s.latch p d).preempted = if p = .irq then s.portTask != .idle else s.preempted := by
  cases p <;> rfl

theorem latch_out (s : State) (p : Port) (d : Desc) : (s.latch p d).out = s.out := by
  cases p <;> rfl

theorem latch_rest (s : State) (p : Port) (d : Desc) : (s.latch p d).rest = s.rest := by
  cases p <;> rfl

/-- Settles O6: what the latch does, and what the refusal does, after the presented descriptor is taken. -/
theorem acceptanceDecodes : Obligations.AcceptanceDecodes := by
  intro s p d hp hm
  refine ⟨fun i hd => ?_, fun e hd => ?_⟩
  · rw [accept_of_ok hp hm hd]
    refine ⟨latch_port_same _ p d, ?_, ?_, ?_, latch_rest _ p d⟩
    · rw [latch_port_other, port_setPresented]
    · rw [latch_preempted, portTask_setPresented, preempted_setPresented]
    · rw [latch_out, out_setPresented]
  · rw [accept_of_error hp hm hd]
    refine ⟨?_, ?_, ?_, fun q => ?_, preempted_setPresented s p none⟩
    · rw [← log_setPresented s p none]; rfl
    · rw [← out_setPresented s p none]; rfl
    · rw [← out_setPresented s p none]
      cases e <;> rfl
    · simp [State.refuse, port_setPresented]

theorem mayAccept_of_busy (h : s.port p ≠ .idle ∨ p = .task ∧ s.portIrq ≠ .idle) :
    s.mayAccept p = false := by
  rw [Bool.eq_false_iff]
  intro hm
  cases p with
  | task =>
    obtain ⟨ht, hi⟩ := mayAccept_task.mp hm
    exact h.elim (fun h => h ht) (fun h => h.2 hi)
  | irq => exact h.elim (fun h => h (mayAccept_irq.mp hm).1) (fun h => by cases h.1)

theorem mayAccept_irq_of_waits (ht : s.portTask = .active a) (hp : a.pos = .reinitWait) :
    s.mayAccept .irq = false := by
  simp [State.mayAccept, ht, hp]

theorem waitsForReinit_eq_false_iff {x : PortState} :
    x.waitsForReinit = false ↔ ∀ a, x = .active a → a.pos ≠ .reinitWait := by
  cases x <;> simp

theorem present_of_free {d : Desc} (hi : s.port p = .idle) (hp : s.presented p = none) :
    s.present p d = s.setPresented p (some d) := by
  simp [State.present, hi, hp]

theorem present_of_not_free {d : Desc} (h : s.port p ≠ .idle ∨ s.presented p ≠ none) :
    s.present p d = s := by
  unfold State.present
  exact if_neg fun ⟨hi, hp⟩ => h.elim (fun h => h hi) (fun h => h hp)

theorem presented_setPresented (s : State) (p : Port) (d : Option Desc) :
    (s.setPresented p d).presented p = d := by
  cases p <;> rfl

/-- Settles O7: an acceptance or presentation that is not enabled is dropped, and when each is enabled. -/
theorem busyPortAcceptsNothing : Obligations.BusyPortAcceptsNothing := by
  refine ⟨fun s p h => accept_of_not_mayAccept (mayAccept_of_busy h),
    fun s a ht hp => accept_of_not_mayAccept (mayAccept_irq_of_waits ht hp),
    fun s => ⟨fun ht hi => mayAccept_task.mpr ⟨ht, hi⟩,
      fun hi hw => mayAccept_irq.mpr ⟨hi, waitsForReinit_eq_false_iff.mpr hw⟩⟩,
    fun s d => ⟨fun ht hp => present_of_free (p := .task) ht hp,
      fun hi hp => present_of_free (p := .irq) hi hp⟩,
    fun s p d => present_of_not_free, fun s p d hi hp => ?_⟩
  rw [present_of_free hi hp, presented_setPresented]

/-! ### Reset and the registers' addresses (R23, R50, R80) -/

theorem getElem_offsetTable (c : Config) (k : Fin 32) :
    (offsetTable c)[k] = c.regBase + BitVec.ofNat 16 (c.regStride * k.val) := by
  simp [offsetTable]

/-- Settles O13: `resetWith` field by field, and the offsets by `getElem_offsetTable`. -/
theorem resetValues : Obligations.ResetValues :=
  ⟨fun k => getElem_offsetTable Config.default k, rfl, rfl, rfl, rfl, rfl, rfl, rfl, rfl, rfl, rfl, rfl,
    rfl⟩

theorem aligned_iff (c : Config) : c.aligned = true ↔
    c.regBase.toNat % 4 = 0 ∧ c.regStride = 4 ∧ c.data32Base.toNat % 4 = 0
      ∧ c.rdWinOff.toNat % 4 = 0 ∧ c.wrWinOff.toNat % 4 = 0 := by
  simp [Config.aligned, and_assoc]

/-- The registers lie below `DATA32_BASE`, so no offset wraps in 16 bits (R8). -/
theorem toNat_offset {c : Config} (hw : c.wellFormed = true) (ha : c.aligned = true) (k : Fin 32) :
    (offsetTable c)[k].toNat = c.regBase.toNat + 4 * k.val := by
  obtain ⟨-, -, -, -, hbelow, -⟩ := c.wellFormed_iff.mp hw
  obtain ⟨-, hstride, -⟩ := (aligned_iff c).mp ha
  rw [hstride] at hbelow
  rw [getElem_offsetTable, hstride, BitVec.toNat_add, BitVec.toNat_ofNat]
  have := c.data32Base.isLt
  omega

/-- Settles O21: the offset is exact, and the base address and the offset are multiples of 4. -/
theorem registerAddresses : Obligations.RegisterAddresses := by
  intro s k hw ha htable
  have hoff := toNat_offset hw ha k
  rw [← htable] at hoff
  obtain ⟨-, -, -, -, -, hboard⟩ := s.cfg.wellFormed_iff.mp hw
  obtain ⟨hreg, -⟩ := (aligned_iff s.cfg).mp ha
  have hlt := s.regOffset[k].isLt
  refine ⟨BitVec.eq_of_toNat_eq ?_, ?_⟩ <;>
    simp only [State.regAddr, BitVec.toNat_add, BitVec.toNat_setWidth, BitVec.toNat_ofNat] <;> omega

end Sys2Proof.Machine
end

section
/-!
PROOF. The statuses, codes and values of responses (R41, R129).
-/

namespace Sys2Proof.Machine

open Sys2Proof

variable {i : Instr} {p : Port} {a : Active} {s t : State}

/-- The codes a raised fault can have (R129). -/
def IsFaultCode (c : Code) : Prop :=
  c = .regRange ∨ c = .countOverflow ∨ c = .mgmtReentry ∨ c = .hostRange

/-- The codes of a request that completes (R129). -/
def IsOkCode (c : Code) : Prop := c = .none ∨ c = .timeoutTx ∨ c = .timeoutReset

/-- A response of R129's table. -/
def InTable (r : Response) : Prop :=
  r.status = .ok ∧ IsOkCode r.code
    ∨ r.status = .conflict ∧ r.code = .dmaConflict ∧ r.value = 0
    ∨ r.status = .fault ∧ r.value = 0 ∧ IsFaultCode r.code
    ∨ r.status = .refused ∧ r.value = 0 ∧ (r.code = .unknownOp ∨ r.code = .reservedBits)

/-- From `s` to `t` no response is sent, or one of R129's table. -/
def SendsInTable (s t : State) : Prop :=
  t.out.responses = s.out.responses
    ∨ ∃ q r, t.out.responses = s.out.responses ++ [(q, r)] ∧ InTable r

theorem SendsInTable.of_out (h : t.out.responses = s.out.responses) : SendsInTable s t := .inl h

theorem respond_ok_sends {c : Code} (hc : IsOkCode c) (v : Half) :
    SendsInTable s (s.respond p .ok c v) :=
  .inr ⟨p, _, responses_respond s p .ok c v, .inl ⟨rfl, hc⟩⟩

theorem mgRespond_sends (v : Half) : SendsInTable s (s.mgRespond p v) :=
  .inr ⟨p, _, responses_respond s.mgLeave p .ok .none v, .inl ⟨rfl, .inl rfl⟩⟩

theorem conflict_sends (e : Event) :
    SendsInTable s ((s.logEvent e).respond p .conflict .dmaConflict 0) :=
  .inr ⟨p, _, responses_respond (s.logEvent e) p _ _ _, .inr (.inl ⟨rfl, rfl, rfl⟩)⟩

theorem raise_sends {c : Code} (hc : IsFaultCode c) (info : Info) : SendsInTable s (s.raise p c info) :=
  .inr ⟨p, _, responses_respond _ p .fault c 0, .inr (.inr (.inl ⟨rfl, rfl, hc⟩))⟩

theorem refuse_sends (e : DecodeError) (d : Desc) : SendsInTable s (s.refuse p e d) :=
  .inr ⟨p, _, rfl, .inr (.inr (.inr ⟨rfl, rfl, by cases e <;> simp [refusalCode]⟩))⟩

/-! ### First micro-steps -/

theorem checkIndex_sends (idx : Byte) : SendsInTable s (s.checkIndex p a idx) := by
  unfold State.checkIndex
  split
  · exact .of_out (by simp [State.goto])
  · exact raise_sends (.inl rfl) _

theorem checkRange_sends {next : State} (haddr : Word) (count : Nat)
    (hn : next.out.responses = s.out.responses) : SendsInTable s (s.checkRange p haddr count next) := by
  unfold State.checkRange
  split
  · exact .of_out hn
  · exact raise_sends (.inr (.inr (.inr rfl))) _

theorem boutCheck_sends (haddr : Word) (len : Half) : SendsInTable s (boutCheck haddr len p a s) := by
  unfold boutCheck
  split
  · exact raise_sends (.inr (.inl rfl)) _
  · exact checkRange_sends _ _ (by simp [State.goto])

theorem mgEnter_sends (op : Byte) (next : Pos) : SendsInTable s (s.mgEnter p a op next) := by
  unfold State.mgEnter
  split
  · exact raise_sends (.inr (.inr (.inl rfl))) _
  · exact .of_out (by simp [State.goto])

/-- A first micro-step answers nothing or a fault of the table (R76, R81, R94, R106, R133). -/
theorem exec_start_sends (hr : s.running = some (p, a)) (hp : a.pos = .start)
    (h : exec i s = .next t) : SendsInTable s t := by
  cases i <;> simp only [exec, execRd8, execRd16, execWr8, execWr16, execWblk, execRblk, execGethdr,
    execBin, execBout, execReset, execMdc, execMdir, execMdo, execMdi, execEerd, execEewr, execMdiord,
    execMdiowr, micro_running hr, hp] at h <;> cases h
  case rd8 | rd16 | wr8 | wr16 => exact checkIndex_sends _
  case wblk | rblk | gethdr | bin => exact checkRange_sends _ _ (by simp [State.goto])
  case bout => exact boutCheck_sends _ _
  case reset => exact .of_out (by simp [State.gotoWith])
  all_goals exact mgEnter_sends _ _

/-! ### Last micro-steps -/

theorem isOkCode_boutCode (l : Locals) : IsOkCode (boutCode l) := by
  unfold boutCode
  split
  · exact .inr (.inl rfl)
  · exact .inl rfl

theorem isOkCode_resetCode (l : Locals) : IsOkCode (resetCode l) := by
  unfold resetCode
  split
  · exact .inr (.inr rfl)
  · exact .inl rfl

/-- A last micro-step answers OK with a code of the table (R108, R112). -/
theorem exec_respond_sends (hr : s.running = some (p, a)) (hp : a.pos = .respond)
    (h : exec i s = .next t) : SendsInTable s t := by
  cases i <;> simp only [exec, execRd8, execRd16, execWr8, execWr16, execWblk, execRblk, execGethdr,
    execBin, execBout, execReset, execMdc, execMdir, execMdo, execMdi, execEerd, execEewr, execMdiord,
    execMdiowr, micro_running hr, hp] at h <;> cases h
  case bout => exact respond_ok_sends (isOkCode_boutCode _) _
  case reset => exact respond_ok_sends (isOkCode_resetCode _) _
  case rd8 | rd16 | wr8 | wr16 | wblk | rblk | gethdr | bin => exact respond_ok_sends (.inl rfl) _
  all_goals exact mgRespond_sends _

/-! ### Every step -/

/-- Between the first and the last micro-step the one response is a conflict's (R100). -/
theorem exec_sends (hr : s.running = some (p, a)) (h : exec i s = .next t) : SendsInTable s t := by
  by_cases hs : a.pos = .start
  · exact exec_start_sends hr hs h
  by_cases he : a.pos = .respond
  · exact exec_respond_sends hr he h
  cases exec_microStep hr h with
  | raise _ _ hp => exact absurd hp hs
  | respond _ _ hp => exact absurd hp he
  | mgRespond _ hp => exact absurd hp he
  | conflict op => exact conflict_sends _
  | _ => exact .of_out (by simp [out_hostWrite])

theorem accept_sends (s : State) (p : Port) : SendsInTable s (s.accept p) := by
  generalize ht : s.accept p = t
  have hacc := accept_accepted s p
  rw [ht] at hacc
  cases hacc with
  | dropped => exact .of_out rfl
  | latched d => rw [SendsInTable, latch_out, out_setPresented]; exact .inl rfl
  | refused d e =>
    have := refuse_sends (s := s.setPresented p none) (p := p) e d
    rwa [SendsInTable, out_setPresented] at this

theorem Took.sends {m : Move} (h : Took m s t) : SendsInTable s t := by
  cases h with
  | idle => exact .of_out rfl
  | micro _ p a i hr _ hx => exact exec_sends hr hx
  | refused _ p a e => rw [SendsInTable, endRequest_out]; exact refuse_sends e a.desc
  | present p d =>
    unfold State.present
    split
    · exact .of_out (by rw [out_setPresented])
    · exact .of_out rfl
  | accept p => exact accept_sends s p
  | extSetDmaing v => exact .of_out rfl
  | agent _ hf => exact .of_out hf.responses
  | rst => exact .of_out (by rw [rst_out])

/-- Settles O57: the response of each way a move can change the state; the codes by evaluation. -/
theorem responsesMatchTable : Obligations.ResponsesMatchTable := by
  refine ⟨fun s t p r hstep hresp => ?_, rfl⟩
  have hsends := (step_took hstep).1.sends
  obtain ⟨moves, hu⟩ := nextMove_snd s
  rw [hu] at hsends
  rcases hsends with hsame | ⟨q, r', hsent, htable⟩
  · rw [show t.out.responses = s.out.responses from hsame] at hresp
    simp at hresp
  · have heq := List.append_cancel_left (hresp.symm.trans hsent)
    cases heq
    exact htable

end Sys2Proof.Machine
end

section
/-!
PROOF. The shift state in a management frame (R27, R125-R127): what each micro-step of MDIOWR and MDIORD is,
then what it does to `mg_phase`, `mg_bitpos` and `mg_data`.
-/

namespace Sys2Proof.Machine

open Sys2Proof

variable {p : Port} {a : Active} {s : State} {phyad regad : BitVec 5} {val : Half} {n : Nat}

/-- The frame request of each direction: MDIOWR or MDIORD. -/
def frameInstr (write : Bool) (phyad regad : BitVec 5) (val : Half) : Instr :=
  if write then .mdiowr phyad regad val else .mdiord phyad regad

/-! ### What each micro-step is -/

theorem exec_frame_send {e : SendEdge} (write : Bool) (hr : s.running = some (p, a))
    (hp : a.pos = .send n e) :
    ∃ bit last, exec (frameInstr write phyad regad val) s = sendBit bit n last .mdIn e p a s := by
  cases write
  · exact ⟨frameBit true phyad regad 0 n, 45, by
      simp [frameInstr, exec, execMdiord, micro_running hr, hp]⟩
  · exact ⟨frameBit false phyad regad s.mgData n, 63, by
      simp [frameInstr, exec, execMdiowr, micro_running hr, hp]⟩

theorem exec_frame_mdIn (write : Bool) (hr : s.running = some (p, a)) (hp : a.pos = .mdIn) :
    exec (frameInstr write phyad regad val) s
      = frameInput (if write then .tail else .ta) p a s := by
  cases write
  · simp [frameInstr, exec, execMdiord, micro_running hr, hp]
  · simp [frameInstr, exec, execMdiowr, micro_running hr, hp]

theorem execMdiowr_load (hr : s.running = some (p, a)) (hp : a.pos = .mdLoad) :
    exec (.mdiowr phyad regad val) s = .next ((s.withMgData val).goto p a .mdOut) := by
  simp [exec, execMdiowr, micro_running hr, hp]

theorem execMdiord_high {g : GetStage} (hr : s.running = some (p, a)) (hp : a.pos = .get g n .high) :
    exec (.mdiord phyad regad) s = getBitClock g n true p a s := by
  simp [exec, execMdiord, micro_running hr, hp]

theorem execMdiord_low {g : GetStage} (hr : s.running = some (p, a)) (hp : a.pos = .get g n .low) :
    exec (.mdiord phyad regad) s = getBitClock g n false p a s := by
  simp [exec, execMdiord, micro_running hr, hp]

theorem execMdiord_sample {g : GetStage} (hr : s.running = some (p, a))
    (hp : a.pos = .get g n .sample) : exec (.mdiord phyad regad) s = readSample g n p a s := by
  simp [exec, execMdiord, micro_running hr, hp]

theorem execMdiowr_high (hr : s.running = some (p, a)) (hp : a.pos = .get .tail n .high) :
    exec (.mdiowr phyad regad val) s = getBitClock .tail n true p a s := by
  simp [exec, execMdiowr, micro_running hr, hp]

theorem execMdiowr_low (hr : s.running = some (p, a)) (hp : a.pos = .get .tail n .low) :
    exec (.mdiowr phyad regad val) s = getBitClock .tail n false p a s := by
  simp [exec, execMdiowr, micro_running hr, hp]

theorem execMdiowr_sample (hr : s.running = some (p, a)) (hp : a.pos = .get .tail n .sample) :
    exec (.mdiowr phyad regad val) s = .next ((s.regRd8 nicMemr).2.goto p a .respond) := by
  simp [exec, execMdiowr, micro_running hr, hp]

/-! ### What it does to the shift state -/

/-- A micro-step that answers a next state with this phase, counter and data, the owner as it was. -/
def Shifts (r : Result) (s : State) (phase : MgPhase) (bitpos : BitVec 5) (data : Half) : Prop :=
  ∃ t, r = .next t ∧ t.mgPhase = phase ∧ t.mgBitpos = bitpos ∧ t.mgData = data ∧ t.mgOwner = s.mgOwner

theorem sendBit_set_shifts (bit : Bool) (last : Nat) (after : Pos) :
    Shifts (sendBit bit n last after .set p a s) s (framePhase n) (frameBitpos s.mgBitpos n) s.mgData :=
  ⟨_, rfl, by simp [State.goto]⟩

theorem sendBit_clock_shifts {e : SendEdge} (he : e ≠ .set) (bit : Bool) (last : Nat) (after : Pos) :
    Shifts (sendBit bit n last after e p a s) s s.mgPhase s.mgBitpos s.mgData := by
  cases e with
  | set => exact absurd rfl he
  | _ => exact ⟨_, rfl, by simp [State.goto]⟩

theorem frameInput_shifts (g : GetStage) :
    Shifts (frameInput g p a s) s (stagePhase g) s.mgBitpos s.mgData :=
  ⟨_, rfl, by simp [State.goto]⟩

theorem getBitClock_high_shifts (g : GetStage) (n : Nat) :
    Shifts (getBitClock g n true p a s) s (stagePhase g) (stageBitpos s.mgBitpos n g)
      (stageData s.mgData n g) :=
  ⟨_, rfl, by simp [State.goto]⟩

theorem getBitClock_low_shifts (g : GetStage) (n : Nat) :
    Shifts (getBitClock g n false p a s) s s.mgPhase s.mgBitpos s.mgData :=
  ⟨_, rfl, by simp [State.goto]⟩

theorem regRd8_goto_shifts (k : Fin 32) (pos : Pos) :
    Shifts (.next ((s.regRd8 k).2.goto p a pos)) s s.mgPhase s.mgBitpos s.mgData :=
  ⟨_, rfl, by simp [State.goto]⟩

theorem readSample_shifts (g : GetStage) (n : Nat) :
    ∃ data, Shifts (readSample g n p a s) s s.mgPhase s.mgBitpos data ∧ (g ≠ .data → data = s.mgData) := by
  cases g with
  | data => exact ⟨_, ⟨_, rfl, by simp [State.goto]; rfl⟩, fun h => absurd rfl h⟩
  | _ => exact ⟨s.mgData, ⟨_, rfl, by simp [State.goto, State.gotoWith]⟩, fun _ => rfl⟩

/-- In TAIL a write frame takes bits as a read frame does, but for what it does with them (R126, R127). -/
theorem exec_frame_tail {e : GetEdge} (write : Bool) (hr : s.running = some (p, a))
    (hp : a.pos = .get .tail n e) :
    Shifts (exec (frameInstr write phyad regad val) s) s (if e = .high then .tail else s.mgPhase)
      s.mgBitpos s.mgData := by
  cases write <;> simp only [frameInstr, if_true, Bool.false_eq_true, if_false] <;> cases e
  · rw [execMdiord_high hr hp]; exact getBitClock_high_shifts .tail n
  · rw [execMdiord_low hr hp]; exact getBitClock_low_shifts .tail n
  · rw [execMdiord_sample hr hp]; exact regRd8_goto_shifts nicMemr .respond
  · rw [execMdiowr_high hr hp]; exact getBitClock_high_shifts .tail n
  · rw [execMdiowr_low hr hp]; exact getBitClock_low_shifts .tail n
  · rw [execMdiowr_sample hr hp]; exact regRd8_goto_shifts nicMemr .respond

/-! ### The fields of a frame (R125) -/

theorem toNat_ofNat_five {k : Nat} (h : k < 32) : (BitVec.ofNat 5 k).toNat = k := by
  rw [BitVec.toNat_ofNat]
  exact Nat.mod_eq_of_lt h

/-- The phase of each field and, where R126 and R127 count, the counter in it. -/
theorem frame_fields (old : BitVec 5) (hn : n < 64) :
    (n < 32 → framePhase n = .pre ∧ (frameBitpos old n).toNat = n)
      ∧ (32 ≤ n ∧ n < 34 → framePhase n = .st ∧ frameBitpos old n = old)
      ∧ (34 ≤ n ∧ n < 36 → framePhase n = .op ∧ frameBitpos old n = old)
      ∧ (36 ≤ n ∧ n < 41 → framePhase n = .phy ∧ (frameBitpos old n).toNat = n - 36)
      ∧ (41 ≤ n ∧ n < 46 → framePhase n = .reg ∧ (frameBitpos old n).toNat = n - 41)
      ∧ (46 ≤ n ∧ n < 48 → framePhase n = .ta ∧ frameBitpos old n = old)
      ∧ (48 ≤ n → framePhase n = .data ∧ (frameBitpos old n).toNat = n - 48) := by
  refine ⟨?_, ?_, ?_, ?_, ?_, ?_, ?_⟩ <;> intro h <;>
    simp (disch := omega) only [framePhase, frameBitpos, if_pos, if_neg, toNat_ofNat_five, and_self]

/-- `shiftIn` puts the sampled bit below the bits already taken (R127). -/
theorem getLsbD_shiftIn (data : Half) (bit : Bool) :
    (shiftIn data bit).getLsbD 0 = bit
      ∧ ∀ k, k < 15 → (shiftIn data bit).getLsbD (k + 1) = data.getLsbD k := by
  refine ⟨by simp [shiftIn], fun k hk => ?_⟩
  have hk' : k + 1 < 16 := by omega
  simp [shiftIn, hk', BitVec.getLsbD_eq_getElem (Nat.lt_of_succ_lt hk')]

/-- A sample of DATA: one MEMR read, its bit 2 shifted in (R127). -/
theorem execMdiord_sample_data (hr : s.running = some (p, a)) (hp : a.pos = .get .data n .sample) :
    ∃ (t : State) (v : Byte), exec (.mdiord phyad regad) s = .next t
      ∧ t.out.cycles = s.out.cycles ++ [s.rd nicMemr v]
      ∧ t.mgData.getLsbD 0 = v.getLsbD 2
      ∧ ∀ k, k < 15 → t.mgData.getLsbD (k + 1) = s.mgData.getLsbD k := by
  rw [execMdiord_sample hr hp]
  obtain ⟨hnew, hold⟩ := getLsbD_shiftIn s.mgData (mdiBit (s.regRd8 nicMemr).1)
  refine ⟨_, (s.regRd8 nicMemr).1, rfl, ?_, ?_, fun k hk => ?_⟩
  · simp [State.goto]
  · simp only [State.goto, setPort_mgData, withMgData_mgData]
    exact hnew
  · simp only [State.goto, setPort_mgData, withMgData_mgData]
    exact hold k hk

/-- Settles O37: what each micro-step of a frame is, then what it does to the shift state. -/
theorem frameShiftState : Obligations.FrameShiftState := by
  refine ⟨fun write phyad regad val n s p a hr hp hn => ?_,
    fun phyad regad val s p a hr hp => ?_,
    fun phyad regad n s p a hr hn => ⟨fun hp => ?_, execMdiord_sample_data hr⟩,
    fun write phyad regad val s p a hr hp => ?_,
    fun phyad regad n s p a hr => ⟨fun hp => ?_, fun hp hn => ?_, fun g e hp he => ?_⟩⟩
  · obtain ⟨bit, last, hx⟩ := exec_frame_send (phyad := phyad) (regad := regad) (val := val) write hr hp
    obtain ⟨t, ht, hphase, hbitpos, hdata, howner⟩ := sendBit_set_shifts (n := n) (p := p) (a := a)
      (s := s) bit last .mdIn
    refine ⟨t, hx.trans ht, ?_⟩
    rw [hphase, hbitpos]
    have hn64 : n < 64 := by split at hn <;> omega
    obtain ⟨h1, h2, h3, h4, h5, h6, h7⟩ := frame_fields s.mgBitpos hn64
    exact ⟨h1, h2, h3, h4, h5, h6, h7, hdata, howner⟩
  · exact ⟨_, execMdiowr_load hr hp, by simp [State.goto], by simp [State.goto]⟩
  · obtain ⟨t, ht, hphase, hbitpos, hdata, -⟩ := getBitClock_high_shifts (p := p) (a := a) (s := s) .data n
    exact ⟨t, (execMdiord_high hr hp).trans ht, hphase, hbitpos ▸ toNat_ofNat_five (by omega), hdata⟩
  · rcases hp with hp | ⟨n, hp⟩ | ⟨n, e, he, hp⟩ | ⟨n, e, he, hp⟩
    · have hsh := frameInput_shifts (p := p) (a := a) (s := s) (if write then .tail else .ta)
      rw [← exec_frame_mdIn (phyad := phyad) (regad := regad) (val := val) write hr hp] at hsh
      obtain ⟨t, ht, hphase, hrest⟩ := hsh
      exact ⟨t, ht, fun _ => by cases write <;> exact hphase, by simp [hp], by simp [hp], by simp [hp], hrest⟩
    · obtain ⟨t, ht, hphase, hrest⟩ :=
        exec_frame_tail (phyad := phyad) (regad := regad) (val := val) write hr hp
      refine ⟨t, ht, by simp [hp], fun _ _ => hphase, by simp [hp], fun _ _ he h => ?_, hrest⟩
      cases hp.symm.trans h
      exact absurd rfl he
    · obtain ⟨bit, last, hx⟩ := exec_frame_send (phyad := phyad) (regad := regad) (val := val) write hr hp
      obtain ⟨t, ht, hphase, hrest⟩ :=
        sendBit_clock_shifts (n := n) (p := p) (a := a) (s := s) he bit last .mdIn
      exact ⟨t, hx.trans ht, by simp [hp], by simp [hp], fun _ _ _ _ => hphase, by simp [hp], hrest⟩
    · obtain ⟨t, ht, hphase, hrest⟩ :=
        exec_frame_tail (phyad := phyad) (regad := regad) (val := val) write hr hp
      rw [if_neg he] at hphase
      exact ⟨t, ht, by simp [hp], by simp [hp, he], by simp [hp], fun _ _ _ _ => hphase, hrest⟩
  · obtain ⟨t, ht, hsh⟩ := getBitClock_high_shifts (p := p) (a := a) (s := s) .ta n
    exact ⟨t, (execMdiord_high hr hp).trans ht, hsh⟩
  · obtain ⟨t, ht, hphase, hbitpos, hsh⟩ := getBitClock_high_shifts (p := p) (a := a) (s := s) .flush n
    exact ⟨t, (execMdiord_high hr hp).trans ht, hphase, hbitpos ▸ toNat_ofNat_five hn, hsh⟩
  · cases e with
    | high => exact absurd rfl he
    | low =>
      obtain ⟨t, ht, hphase, hbitpos, hdata, howner⟩ :=
        getBitClock_low_shifts (p := p) (a := a) (s := s) g n
      exact ⟨t, (execMdiord_low hr hp).trans ht, hphase, hbitpos, howner, fun _ => hdata⟩
    | sample =>
      obtain ⟨data, ⟨t, ht, hphase, hbitpos, hdata, howner⟩, hsame⟩ :=
        readSample_shifts (p := p) (a := a) (s := s) g n
      refine ⟨t, (execMdiord_sample hr hp).trans ht, hphase, hbitpos, howner, fun hg => ?_⟩
      rw [hdata]
      exact hsame (hg.resolve_right (by simp))

end Sys2Proof.Machine
end

section
/-!
PROOF. Running a request: reaching a place of its pseudocode, what has been sent since, and the bridge's loop
`Wblk` to its end (R88-R92).
-/

namespace Sys2Proof.Machine

open Sys2Proof

variable {i : Instr} {p : Port} {a b : Active} {s t u : State}

/-! ### Reaching a place -/

theorem execN_add {m n : Nat} (h : execN i m s = .next t) : execN i (m + n) s = execN i n t := by
  induction m generalizing s with
  | zero => cases h; rw [Nat.zero_add]
  | succ m ih =>
    rw [Nat.succ_add]
    simp only [execN] at h ⊢
    split at h
    · next hx => exact ih h
    · cases h
    · cases h

/-- From `s` the request on port `p` comes, by micro-steps of its own, to a state and a place with `P`. -/
def Comes (i : Instr) (p : Port) (s : State) (P : State → Active → Prop) : Prop :=
  ∃ n t a, execN i n s = .next t ∧ t.running = some (p, a) ∧ P t a

theorem Comes.here {P : State → Active → Prop} (hr : s.running = some (p, a)) (h : P s a) :
    Comes i p s P :=
  ⟨0, s, a, rfl, hr, h⟩

theorem Comes.trans {P Q : State → Active → Prop} (h : Comes i p s P)
    (k : ∀ t a, t.running = some (p, a) → P t a → Comes i p t Q) : Comes i p s Q := by
  obtain ⟨m, t, a, hm, hr, hp⟩ := h
  obtain ⟨n, u, b, hn, hr', hq⟩ := k t a hr hp
  exact ⟨m + n, u, b, (execN_add hm).trans hn, hr', hq⟩

theorem Comes.step {Q : State → Active → Prop} (hx : exec i s = .next t) (k : Comes i p t Q) :
    Comes i p s Q := by
  obtain ⟨n, u, b, hn, hr, hq⟩ := k
  exact ⟨n + 1, u, b, by rw [execN, hx]; exact hn, hr, hq⟩

/-- One more micro-step at the end. -/
theorem Comes.finish {P : State → Active → Prop} {R : State → Prop} (h : Comes i p s P)
    (k : ∀ t a, t.running = some (p, a) → P t a → ∃ u, exec i t = .next u ∧ R u) :
    ∃ n u, execN i n s = .next u ∧ R u := by
  obtain ⟨m, t, a, hm, hr, hp⟩ := h
  obtain ⟨u, hx, hu⟩ := k t a hr hp
  refine ⟨m + 1, u, ?_, hu⟩
  rw [execN_add hm, execN, hx]
  rfl

/-! ### What has been sent since -/

/-- From `s` to `t` the request on port `p` has issued these cycles and has not answered; the rest of the block
is now `r`, its configuration and register table as they were. -/
structure Since (p : Port) (s t : State) (cs : List BusCycle) (r : Rest) : Prop where
  cycles : t.out.cycles = s.out.cycles ++ cs
  responses : t.out.responses = s.out.responses
  other : t.port (otherPort p) = s.port (otherPort p)
  preempted : t.preempted = s.preempted
  rest : t.rest = r
  cfg : t.cfg = s.cfg
  regOffset : t.regOffset = s.regOffset

theorem Since.refl (p : Port) (s : State) : Since p s s [] s.rest :=
  ⟨(List.append_nil _).symm, rfl, rfl, rfl, rfl, rfl, rfl⟩

theorem Since.trans {cs ds : List BusCycle} {r r' : Rest} (h : Since p s t cs r) (k : Since p t u ds r') :
    Since p s u (cs ++ ds) r' where
  cycles := by rw [k.cycles, h.cycles, List.append_assoc]
  responses := k.responses.trans h.responses
  other := k.other.trans h.other
  preempted := k.preempted.trans h.preempted
  rest := k.rest
  cfg := k.cfg.trans h.cfg
  regOffset := k.regOffset.trans h.regOffset

theorem Since.regAddr {cs : List BusCycle} {r : Rest} (h : Since p s t cs r) (k : Fin 32) :
    t.regAddr k = s.regAddr k := regAddr_congr h.cfg h.regOffset k

theorem Since.wr {cs : List BusCycle} {r : Rest} (h : Since p s t cs r) (k : Fin 32) (v : Byte) :
    t.wr k v = s.wr k v := wr_congr h.regAddr k v

theorem Since.rd {cs : List BusCycle} {r : Rest} (h : Since p s t cs r) (k : Fin 32) (v : Byte) :
    t.rd k v = s.rd k v := rd_congr h.regAddr k v

theorem since_setPort (s : State) (p : Port) (x : PortState) : Since p s (s.setPort p x) [] s.rest where
  cycles := by simp
  responses := by simp
  other := by simp
  preempted := by simp
  rest := by simp
  cfg := by simp
  regOffset := by simp

theorem since_memWrite (p : Port) (s : State) (addr : Word) (w : Width) (v : Word) :
    Since p s (s.memWrite addr w v) [.write addr w (w.trunc v)] s.rest where
  cycles := by simp
  responses := by simp
  other := by simp
  preempted := by simp
  rest := by simp
  cfg := by simp
  regOffset := by simp

theorem since_regWr8 (p : Port) (s : State) (k : Fin 32) (v : Byte) :
    Since p s (s.regWr8 k v) [s.wr k v] s.rest where
  cycles := by simp
  responses := by simp
  other := by simp
  preempted := by simp
  rest := by simp
  cfg := by simp
  regOffset := by simp

theorem since_regRd8 (p : Port) (s : State) (k : Fin 32) :
    Since p s (s.regRd8 k).2 [s.rd k (s.regRd8 k).1] s.rest where
  cycles := regRd8_cycles s k
  responses := by simp
  other := by simp
  preempted := by simp
  rest := by simp
  cfg := by simp
  regOffset := by simp

/-- Moving the request on is no event. -/
theorem Since.setPort {cs : List BusCycle} {r : Rest} (h : Since p s t cs r) (x : PortState) :
    Since p s (t.setPort p x) cs r := by
  have := h.trans (since_setPort t p x)
  rwa [List.append_nil, h.rest] at this

theorem Since.regWr8 {cs : List BusCycle} {r : Rest} (h : Since p s t cs r) (k : Fin 32) (v : Byte) :
    Since p s (t.regWr8 k v) (cs ++ [s.wr k v]) r := by
  have := h.trans (since_regWr8 p t k v)
  rwa [h.rest, h.wr] at this

theorem Since.regRd8 {cs : List BusCycle} {r : Rest} (h : Since p s t cs r) (k : Fin 32) :
    Since p s (t.regRd8 k).2 (cs ++ [s.rd k (t.regRd8 k).1]) r := by
  have := h.trans (since_regRd8 p t k)
  rwa [h.rest, h.rd] at this

theorem Since.withDmaing {cs : List BusCycle} {r : Rest} (h : Since p s t cs r) (v : Byte) :
    Since p s (t.withDmaing v) cs { r with dmaing := v } :=
  ⟨h.cycles, h.responses, (port_withDmaing t _ v).trans h.other, h.preempted,
    by rw [rest_withDmaing, h.rest], h.cfg, h.regOffset⟩

theorem Since.withReinitReq {cs : List BusCycle} {r : Rest} (h : Since p s t cs r) (v : Bool) :
    Since p s (t.withReinitReq v) cs { r with reinitReq := v } :=
  ⟨h.cycles, h.responses, (port_withReinitReq t _ v).trans h.other, h.preempted,
    by rw [rest_withReinitReq, h.rest], h.cfg, h.regOffset⟩

theorem Since.logEvent {cs : List BusCycle} {r : Rest} (h : Since p s t cs r) (e : Event) :
    Since p s (t.logEvent e) cs { r with log := r.log ++ [e] } :=
  ⟨h.cycles, h.responses, (port_logEvent t _ e).trans h.other, h.preempted,
    by rw [rest_logEvent, ← rest_log, h.rest], h.cfg, h.regOffset⟩

/-! ### What the environment still holds -/

/-- The environment's answers for reads, waits and polls are as they were. -/
structure TapesKept (s t : State) : Prop where
  nic : s.env.nic = none → t.env.nic = none
  bus : t.env.busTape = s.env.busTape
  expired : t.env.expiredTape = s.env.expiredTape
  reinit : t.env.reinitTape = s.env.reinitTape

theorem TapesKept.refl (s : State) : TapesKept s s := ⟨id, rfl, rfl, rfl⟩

theorem TapesKept.trans (h : TapesKept s t) (k : TapesKept t u) : TapesKept s u :=
  ⟨k.nic ∘ h.nic, k.bus.trans h.bus, k.expired.trans h.expired, k.reinit.trans h.reinit⟩

theorem TapesKept.of_env (h : t.env = s.env) : TapesKept s t := by
  constructor <;> rw [h]
  exact id

theorem memWrite_tapes (s : State) (addr : Word) (w : Width) (v : Word) :
    TapesKept s (s.memWrite addr w v) := by
  unfold State.memWrite State.deliverWrite
  split
  · next hn => exact ⟨fun h => absurd (hn.symm.trans h) (by simp), rfl, rfl, rfl⟩
  · exact .of_env rfl

theorem drawHost_tapes (s : State) : TapesKept s s.drawHost.2 := by
  unfold State.drawHost
  split <;> exact ⟨id, rfl, rfl, rfl⟩

theorem drawHost_congr (ht : t.env.hostTape = s.env.hostTape) (hd : t.env.drawn = s.env.drawn) :
    t.drawHost.1 = s.drawHost.1 := by
  cases hs : s.env.hostTape <;> simp [State.drawHost, ht, hd, hs]

/-- A write leaves the coming draw of the host-memory port. -/
theorem drawHost_memWrite (s : State) (addr : Word) (w : Width) (v : Word) :
    (s.memWrite addr w v).drawHost.1 = s.drawHost.1 := by
  refine drawHost_congr ?_ ?_ <;> unfold State.memWrite State.deliverWrite <;> split <;> rfl

/-! ### The bridge's loop (R90, R91) -/

/-- The loop's locals when `j` window cycles of a call of `count` bytes at `addr` are done, with `ch` cycles in
a full chunk: the chunks before it are done, and `k` cycles of the current one. -/
structure XferAt (ch addr count j : Nat) (x : Xfer) : Prop where
  k_le : x.k ≤ j
  chunks : ch ∣ j - x.k
  rem : x.rem + 4 * (j - x.k) = count
  ptr : x.ptr = addr + 4 * (j - x.k)
  inChunk : 4 * ch < x.rem → x.k < ch
  inLast : x.rem ≤ 4 * ch → x.k ≤ x.rem / 4

section

variable {ch addr count j : Nat} {x : Xfer}

theorem xferAt_begin (hch : 0 < ch) (addr count : Nat) : XferAt ch addr count 0 (Xfer.begin addr count) := by
  constructor <;> simp [Xfer.begin, hch]

/-- While window cycles are left the loop chooses one, else the remainders (R90). -/
theorem XferAt.select_win (h : XferAt ch addr count j x) (hj : j < count / 4) :
    Xfer.select (4 * ch) x = (x, some .win) := by
  obtain ⟨hk, -, hrem, -, hin, hlast⟩ := h
  unfold Xfer.select
  exact if_pos (by omega)

theorem XferAt.select_tail (h : XferAt ch addr count j x) (hj : j = count / 4) :
    Xfer.select (4 * ch) x = Xfer.tail { x with ptr := addr + count / 4 * 4 } := by
  obtain ⟨hk, -, hrem, hptr, hin, hlast⟩ := h
  unfold Xfer.select
  have hend : x.ptr + x.rem / 4 * 4 = addr + count / 4 * 4 := by omega
  rw [if_neg (by omega), hend]

theorem XferAt.hostAddr (h : XferAt ch addr count j x) : x.hostAddr .win = addr + 4 * j := by
  obtain ⟨hk, -, -, hptr, -, -⟩ := h
  simp only [Xfer.hostAddr]
  omega

/-- Window cycle `j` goes to offset `4*(j mod CH)` (R89). -/
theorem XferAt.k_eq (h : XferAt ch addr count j x) (hj : j < count / 4) : x.k = j % ch := by
  obtain ⟨hk, ⟨q, hq⟩, hrem, -, hin, hlast⟩ := h
  have hlt : x.k < ch := by omega
  have hsum : j = x.k + ch * q := by omega
  rw [hsum, Nat.add_mul_mod_self_left, Nat.mod_eq_of_lt hlt]

theorem XferAt.afterWindow (h : XferAt ch addr count j x) (hj : j < count / 4) :
    XferAt ch addr count (j + 1) (x.afterWindow (4 * ch)) := by
  obtain ⟨hk, hchunks, hrem, hptr, hin, hlast⟩ := h
  unfold Xfer.afterWindow
  split
  · next hc =>
    obtain ⟨hgt, hfull⟩ := hc
    have hfull : x.k + 1 = ch := by omega
    have hnext : j + 1 - 0 = (j - x.k) + ch := by omega
    refine ⟨Nat.zero_le _, ?_, ?_, ?_, ?_, ?_⟩
    · rw [hnext]
      exact (Nat.dvd_add_right hchunks).mpr (dvd_refl ch)
    all_goals simp only; omega
  · next hc =>
    have hsame : j + 1 - (x.k + 1) = j - x.k := by omega
    refine ⟨?_, ?_, ?_, ?_, ?_, ?_⟩ <;> simp only [hsame]
    · omega
    · exact hchunks
    · exact hrem
    · exact hptr
    all_goals omega

end

end Sys2Proof.Machine
end

section
/-!
PROOF. `Wblk` as a whole (R89, R90, R92): from the loop's first choice the request comes to what follows the
bridge, after exactly the writes of `wblkCycles`, whatever the environment.
-/

namespace Sys2Proof.Machine

open Sys2Proof

variable {i : Instr} {p : Port} {a b : Active} {s t : State} {pad : Option Nat} {done : Active → Active}

/-! ### The bytes of a transfer -/

/-- Byte `j` of a call at `addr`: the pad byte is the coming draw, the others are the memory's (R107). -/
def wblkByte (s : State) (pad : Option Nat) (addr j : Nat) : Byte :=
  if pad = some (addr + j) then s.drawHost.1 else s.mem.read (addr + j)

theorem hostRead_fst (s : State) (pad : Option Nat) (addr n : Nat) :
    (s.hostRead pad addr n).1 = (List.range n).map (wblkByte s pad addr) := by
  unfold State.hostRead
  split
  · exact List.map_congr_left fun k _ => by simp [wblkByte]
  · next q =>
    split
    · next hq =>
      refine List.ext_getElem (by simp) fun k hk hk' => ?_
      have hiff : q - addr = k ↔ q = addr + k := by omega
      simp [List.getElem_set, hiff, wblkByte, Memory.readBytes]
    · next hq =>
      refine List.map_congr_left fun k hk => ?_
      have hne : ¬ q = addr + k := by
        have := List.mem_range.mp hk
        omega
      simp [wblkByte, hne]

theorem hostRead_snd (s : State) (pad : Option Nat) (addr n : Nat) :
    (s.hostRead pad addr n).2 = s
      ∨ (s.hostRead pad addr n).2 = s.drawHost.2 ∧ ∃ k, k < n ∧ pad = some (addr + k) := by
  unfold State.hostRead
  split
  · exact .inl rfl
  · next q =>
    split
    · next hq => exact .inr ⟨rfl, q - addr, by omega, by rw [Nat.add_sub_cancel' hq.1]⟩
    · exact .inl rfl

theorem since_drawHost (p : Port) (s : State) : Since p s s.drawHost.2 [] s.rest where
  cycles := by simp
  responses := by simp
  other := by simp
  preempted := by simp
  rest := by simp
  cfg := by simp
  regOffset := by simp

theorem since_hostRead (p : Port) (s : State) (pad : Option Nat) (addr n : Nat) :
    Since p s (s.hostRead pad addr n).2 [] s.rest := by
  rcases hostRead_snd s pad addr n with h | ⟨h, -⟩ <;> rw [h]
  · exact .refl p s
  · exact since_drawHost p s

theorem hostRead_tapes (s : State) (pad : Option Nat) (addr n : Nat) :
    TapesKept s (s.hostRead pad addr n).2 := by
  rcases hostRead_snd s pad addr n with h | ⟨h, -⟩ <;> rw [h]
  · exact .refl s
  · exact drawHost_tapes s

theorem Since.ready {cs : List BusCycle} {r : Rest} (h : Since p s t cs r) : Ready t p = Ready s p := by
  cases p with
  | irq => rfl
  | task => exact ready_congr h.other h.preempted

/-! ### One transfer -/

/-- From `a` to `b` a bridge call has changed only the place, the loop's locals and the bytes in flight. -/
structure Carried (a b : Active) : Prop where
  desc : b.desc = a.desc
  xstate : b.xstate = a.xstate
  locals : b.locals = { a.locals with xfer := b.locals.xfer, bytes := b.locals.bytes }

theorem Carried.refl (a : Active) : Carried a a := ⟨rfl, rfl, rfl⟩

theorem Carried.trans {c : Active} (h : Carried a b) (k : Carried b c) : Carried a c :=
  ⟨k.desc.trans h.desc, k.xstate.trans h.xstate, k.locals.trans (by rw [h.locals])⟩

theorem Carried.raced (h : Carried a b) : b.locals.raced = a.locals.raced := by
  rw [h.locals]

/-- A request whose bridge call is `Wblk` with these arguments: what its transfers' micro-steps are. -/
structure WblkCall (i : Instr) (p : Port) (c : Config) (pad : Option Nat) (done : Active → Active) :
    Prop where
  host : ∀ {t : State} {a : Active} {u : BUnit}, t.running = some (p, a) → t.cfg = c →
    a.pos = .host u → exec i t = wblkHost pad u p a t
  bus : ∀ {t : State} {a : Active} {u : BUnit}, t.running = some (p, a) → t.cfg = c →
    a.pos = .bus u → exec i t = wblkBus done u p a t

/-- The write of a transfer at offset `o` of a call (R57, R90). -/
def wblkWrite (s : State) (byte : Nat → Byte) (x : Xfer) (u : BUnit) (o : Nat) : BusCycle :=
  .write (s.unitAddr s.cfg.writeWindow x u) u.width
    (u.width.trunc (u.lane s.cfg.hostBigEndian ((List.range u.size).map fun k => byte (o + k))))

/-- Inside a call that began in `s` as `a0`: these writes are done, the loop has chosen `x`, and the coming
draw is the one of `s` while there are bytes from offset `o` on. -/
structure InWblk (p : Port) (s : State) (a0 : Active) (done : Active → Active) (count : Nat)
    (cs : List BusCycle) (o : Nat) (x : Xfer × Option BUnit) (t : State) (b : Active) : Prop where
  since : Since p s t cs s.rest
  tapes : TapesKept s t
  draw : o < count → t.drawHost.1 = s.drawHost.1
  place : ∃ a, Carried a0 a ∧ b = bridgeTo .host done a x

section

variable {c : Config} {addr count o : Nat} {a0 : Active} {cs : List BusCycle} {x : Xfer} {u : BUnit}

theorem unitAddr_congr (hc : t.cfg = s.cfg) (ho : t.regOffset = s.regOffset) (w : Word) (x : Xfer)
    (u : BUnit) : t.unitAddr w x u = s.unitAddr w x u := by
  cases u with
  | win => rfl
  | half => exact regAddr_congr hc ho nicDataport
  | byte => exact regAddr_congr hc ho nicDataport

theorem wblkByte_congr (hm : t.mem = s.mem) (hd : t.drawHost.1 = s.drawHost.1) (pad : Option Nat)
    (addr : Nat) : wblkByte t pad addr = wblkByte s pad addr := by
  funext j
  simp [wblkByte, hm, hd]

/-- The host read of a transfer: its bytes, and the coming draw kept unless they are the call's last. -/
theorem InWblk.host (hcall : WblkCall i p s.cfg pad done)
    (hpad : ∀ q, pad = some q → q + 1 = addr + count)
    (h : InWblk p s a0 done count cs o (x, some u) t b) (hr : t.running = some (p, b))
    (ho : x.hostAddr u = addr + o) (hlt : o < count) :
    ∃ v a, exec i t = .next (v.setPort p (.active a)) ∧ Since p s v cs s.rest ∧ TapesKept s v
      ∧ Ready v p ∧ (o + u.size < count → v.drawHost.1 = s.drawHost.1)
      ∧ Carried a0 a ∧ a.pos = .bus u ∧ a.locals.xfer = x
      ∧ a.locals.bytes = (List.range u.size).map fun k => wblkByte s pad addr (o + k) := by
  obtain ⟨hs, ht, hd, a, ha, rfl⟩ := h
  have hread := since_hostRead p t pad (addr + o) u.size
  have hsv : Since p s (t.hostRead pad (addr + o) u.size).2 cs s.rest := by
    have := hs.trans hread
    rwa [List.append_nil, hs.rest] at this
  have hx : exec i t = .next ((t.hostRead pad (addr + o) u.size).2.setPort p (.active
      { a with
        pos := .bus u
        locals := { a.locals with xfer := x, bytes := (t.hostRead pad (addr + o) u.size).1 } })) := by
    rw [hcall.host (u := u) hr hs.cfg rfl, ← ho]
    rfl
  refine ⟨_, _, hx, hsv, ht.trans (hostRead_tapes t pad _ _), ?_, fun hmore => ?_, ?_, rfl, rfl, ?_⟩
  · rw [hread.ready]; exact ready_of_running hr
  · rcases hostRead_snd t pad (addr + o) u.size with hv | ⟨-, k, hk, hq⟩
    · rw [hv]; exact hd hlt
    · have := hpad _ hq
      omega
  · exact ha.trans ⟨rfl, rfl, rfl⟩
  · rw [hostRead_fst, wblkByte_congr (congrArg Rest.mem hs.rest) (hd hlt)]
    exact List.map_congr_left fun k _ => by simp only [wblkByte, Nat.add_assoc]

/-- A transfer: the host read, then the write of the bytes read (R63, R90). -/
theorem InWblk.transfer (hcall : WblkCall i p s.cfg pad done)
    (hpad : ∀ q, pad = some q → q + 1 = addr + count) (hraced : a0.locals.raced = [])
    (h : InWblk p s a0 done count cs o (x, some u) t b) (hr : t.running = some (p, b))
    (ho : x.hostAddr u = addr + o) (hfit : o + u.size ≤ count) :
    Comes i p t (InWblk p s a0 done count (cs ++ [wblkWrite s (wblkByte s pad addr) x u o]) (o + u.size)
      (x.advance s.cfg.winSize u)) := by
  have hpos : 0 < u.size := by cases u <;> decide
  obtain ⟨v, a, hx1, hs, ht, hready, hd, ha, hp, hxfer, hbytes⟩ := h.host hcall hpad hr ho (by omega)
  have hrun : (v.setPort p (.active a)).running = some (p, a) := running_setPort hready
  have hx2 : exec i (v.setPort p (.active a)) = .next ((v.memWrite
      (s.unitAddr s.cfg.writeWindow x u) u.width
      (u.lane s.cfg.hostBigEndian ((List.range u.size).map fun k => wblkByte s pad addr (o + k)))).setPort p
        (.active (bridgeTo .host done a (x.advance s.cfg.winSize u)))) := by
    rw [hcall.bus hrun ((setPort_cfg v p _).trans hs.cfg) hp]
    simp only [wblkBus, ha.raced, hraced, moved_nil, hxfer, hbytes, setPort_cfg, hs.cfg, memWrite_setPort,
      setPort_setPort, unitAddr_congr (s := s) ((setPort_cfg v p _).trans hs.cfg)
        ((setPort_regOffset v p _).trans hs.regOffset)]
  have hw := hs.trans (since_memWrite p v (s.unitAddr s.cfg.writeWindow x u) u.width
    (u.lane s.cfg.hostBigEndian ((List.range u.size).map fun k => wblkByte s pad addr (o + k))))
  rw [hs.rest] at hw
  refine .step hx1 (.step hx2 (.here (running_setPort (by simpa using hready))
    ⟨hw.setPort _, ?_, ?_, a, ha, rfl⟩))
  · exact (ht.trans (memWrite_tapes v _ _ _)).trans (.of_env (setPort_env _ _ _))
  · intro hmore
    rw [drawHost_setPort, drawHost_memWrite]
    exact hd hmore

end

/-! ### The whole call -/

section

variable {count addr ch : Nat} {a0 : Active} {byte : Nat → Byte}

/-- Window write `k` of a call (R89, R90). -/
def wblkWindow (s : State) (byte : Nat → Byte) (k : Nat) : BusCycle :=
  .write (s.cfg.writeWindow + BitVec.ofNat 32 (4 * (k % s.cfg.chunkCycles))) .w32
    (lane32 s.cfg.hostBigEndian [byte (4 * k), byte (4 * k + 1), byte (4 * k + 2), byte (4 * k + 3)])

theorem wblkWrite_window {j : Nat} {x : Xfer} (h : XferAt s.cfg.chunkCycles addr count j x)
    (hj : j < count / 4) : wblkWrite s byte x .win (4 * j) = wblkWindow s byte j := by
  simp only [wblkWrite, wblkWindow, State.unitAddr, h.k_eq hj]
  rfl

theorem wblkWrite_half (x : Xfer) (o : Nat) : wblkWrite s byte x .half o
    = .write (s.regAddr nicDataport) .w16
        ((lane16 s.cfg.hostBigEndian [byte o, byte (o + 1)]).setWidth 32) := by
  simp only [wblkWrite, BUnit.width, BUnit.lane, trunc_w16_setWidth]
  rfl

theorem wblkWrite_byte (x : Xfer) (o : Nat) : wblkWrite s byte x .byte o
    = .write (s.regAddr nicDataport) .w8 ((byte o).setWidth 32) := by
  simp only [wblkWrite, BUnit.width, BUnit.lane, trunc_w8_setWidth]
  rfl

theorem winSize_eq {c : Config} (h : c.winSizeOk = true) :
    c.winSize = 4 * c.chunkCycles ∧ 0 < c.chunkCycles := by
  simp only [Config.winSizeOk, Bool.and_eq_true, decide_eq_true_eq, beq_iff_eq] at h
  simp only [Config.chunkCycles]
  omega

/-- The window cycles, from the `j`-th on. -/
theorem InWblk.windows (hcall : WblkCall i p s.cfg pad done) (hw : s.cfg.winSizeOk = true)
    (hpad : ∀ q, pad = some q → q + 1 = addr + count) (hraced : a0.locals.raced = []) (m : Nat) :
    ∀ {j : Nat} {x : Xfer} {t : State} {b : Active}, j + m = count / 4 →
      XferAt s.cfg.chunkCycles addr count j x →
      InWblk p s a0 done count ((List.range j).map (wblkWindow s (wblkByte s pad addr))) (4 * j)
        (x.select s.cfg.winSize) t b →
      t.running = some (p, b) →
      Comes i p t fun t b => ∃ x, XferAt s.cfg.chunkCycles addr count (count / 4) x
        ∧ InWblk p s a0 done count
            ((List.range (count / 4)).map (wblkWindow s (wblkByte s pad addr))) (4 * (count / 4))
            (x.select s.cfg.winSize) t b := by
  obtain ⟨hsize, -⟩ := winSize_eq hw
  induction m with
  | zero =>
    intro j x t b hj hx h hr
    have hj : j = count / 4 := hj
    subst hj
    exact .here hr ⟨x, hx, h⟩
  | succ m ih =>
    intro j x t b hj hx h hr
    have hlt : j < count / 4 := by omega
    rw [hsize, hx.select_win hlt] at h
    refine (h.transfer hcall hpad hraced hr hx.hostAddr (by simp only [BUnit.size]; omega)).trans
      fun t b hr h => ?_
    rw [wblkWrite_window hx hlt] at h
    refine ih (j := j + 1) (x := x.afterWindow s.cfg.winSize) (by omega) (hsize ▸ hx.afterWindow hlt) ?_ hr
    rw [List.range_succ, List.map_append]
    exact h

/-- What follows the bridge, once the loop has chosen nothing more. -/
theorem InWblk.ended {cs : List BusCycle} {o : Nat} {x : Xfer}
    (h : InWblk p s a0 done count cs o (x, none) t b) :
    Since p s t cs s.rest ∧ TapesKept s t ∧ ∃ a, Carried a0 a ∧ b = done a := by
  obtain ⟨hs, ht, -, a, ha, rfl⟩ := h
  exact ⟨hs, ht, { a with locals := { a.locals with xfer := x } }, ha.trans ⟨rfl, rfl, rfl⟩, rfl⟩

/-- The 8-bit remainder, if the count is odd. -/
theorem InWblk.odd (hcall : WblkCall i p s.cfg pad done)
    (hpad : ∀ q, pad = some q → q + 1 = addr + count) (hraced : a0.locals.raced = [])
    {cs : List BusCycle} {o : Nat} {x : Xfer}
    (h : InWblk p s a0 done count cs o (x, if count % 2 = 1 then some .byte else none) t b)
    (hr : t.running = some (p, b)) (ho : x.ptr = addr + o) (hrest : o + count % 2 = count) :
    Comes i p t fun t b => Since p s t
        (cs ++ if count % 2 = 1 then
          [.write (s.regAddr nicDataport) .w8 ((wblkByte s pad addr (count - 1)).setWidth 32)] else []) s.rest
      ∧ TapesKept s t ∧ ∃ a, Carried a0 a ∧ b = done a := by
  by_cases hodd : count % 2 = 1
  · rw [if_pos hodd] at h ⊢
    refine (h.transfer hcall hpad hraced hr ho (by simp only [BUnit.size]; omega)).trans fun t b hr h => ?_
    rw [wblkWrite_byte, show o = count - 1 by omega] at h
    exact .here hr h.ended
  · rw [if_neg hodd] at h ⊢
    rw [List.append_nil]
    exact .here hr h.ended

/-- `Wblk` from its first choice to what follows it: exactly the writes of R89 and R90, in order. -/
theorem wblk_comes (hcall : WblkCall i p s.cfg pad done) (hw : s.cfg.winSizeOk = true)
    (hpad : ∀ q, pad = some q → q + 1 = addr + count) (hraced : a0.locals.raced = [])
    (hr : s.running = some (p, enterWblk s.cfg addr count done a0)) :
    Comes i p s fun t b => Since p s t (wblkCycles s (wblkByte s pad addr) count) s.rest
      ∧ TapesKept s t ∧ ∃ a, Carried a0 a ∧ b = done a := by
  obtain ⟨hsize, hch⟩ := winSize_eq hw
  have hstart : InWblk p s a0 done count ((List.range 0).map (wblkWindow s (wblkByte s pad addr))) (4 * 0)
      ((Xfer.begin addr count).select s.cfg.winSize) s (enterWblk s.cfg addr count done a0) :=
    ⟨.refl p s, .refl s, fun _ => rfl, a0, .refl a0, rfl⟩
  refine (hstart.windows hcall hw hpad hraced (count / 4) (by omega) (xferAt_begin hch addr count) hr).trans
    fun t b hr ⟨x, hx, h⟩ => ?_
  have hrem := hx.rem
  have hhalf : x.rem / 2 % 2 = count / 2 % 2 := by omega
  have hodd : x.rem % 2 = count % 2 := by omega
  rw [hsize, hx.select_tail rfl] at h
  simp only [Xfer.tail, hhalf, hodd] at h
  unfold wblkCycles
  by_cases hc : count / 2 % 2 = 1
  · rw [if_pos hc] at h ⊢
    refine (h.transfer hcall hpad hraced hr (o := 4 * (count / 4)) (by simp only [Xfer.hostAddr]; omega)
      (by simp only [BUnit.size]; omega)).trans fun t b hr h => ?_
    rw [wblkWrite_half, Nat.mul_comm 4] at h
    simp only [Xfer.advance, hodd] at h
    rw [← apply_ite (Prod.mk _)] at h
    exact InWblk.odd hcall hpad hraced h hr (by simp only [BUnit.size]; omega)
      (by simp only [BUnit.size]; omega)
  · rw [if_neg hc] at h ⊢
    rw [List.append_nil]
    rw [← apply_ite (Prod.mk _)] at h
    exact InWblk.odd hcall hpad hraced h hr (by simp only; omega) (by omega)

end

end Sys2Proof.Machine
end

section
/-!
PROOF. Bounded waits (R44, R45): draws are monotone and count down, so no poll loop goes on for ever; RESET
responds, and BOUT responds or comes to wait for the collaborator (R109-R112).
-/

namespace Sys2Proof.Machine

open Sys2Proof

variable {i : Instr} {p : Port} {a b : Active} {s t : State}

/-! ### Draws (R45) -/

/-- A draw of a wait with `n` false draws left: its answer, and `n - 1` left. -/
theorem drawFor_some (s : State) {l : Locals} {k : WaitKind} {n : Nat} (h : l.wait = some ⟨k, some n⟩) :
    (s.drawFor l).1 = decide (n = 0)
      ∧ (s.drawFor l).2.2 = { l with wait := some ⟨k, some (n - 1)⟩ } := by
  rw [drawFor_left s h]
  exact ⟨by cases n <;> rfl, rfl⟩

/-- The first draw of a wait is one with as many false draws left as the time base then settles. -/
theorem drawFor_none (s : State) {l : Locals} {k : WaitKind} (h : l.wait = some ⟨k, none⟩) :
    (s.drawFor l).1 = decide (s.drawExpiry.1 = 0)
      ∧ (s.drawFor l).2.2 = { l with wait := some ⟨k, some (s.drawExpiry.1 - 1)⟩ } := by
  rw [drawFor_first s h]
  exact ⟨by cases s.drawExpiry.1 <;> rfl, rfl⟩

theorem drawExpiry_of_listed {m : Nat} {more : List Nat} (h : s.env.expiredTape = m :: more) :
    s.drawExpiry.1 = m := by
  simp [State.drawExpiry, h]

/-- The draw of any wait is that of one with some number of false draws left. -/
theorem drawFor_cases (s : State) {l : Locals} (h : l.wait ≠ none) : ∃ k n,
    (l.wait = some ⟨k, some n⟩ ∨ l.wait = some ⟨k, none⟩) ∧ (s.drawFor l).1 = decide (n = 0)
      ∧ (s.drawFor l).2.2 = { l with wait := some ⟨k, some (n - 1)⟩ } := by
  match hw : l.wait with
  | none => exact absurd hw h
  | some ⟨k, some n⟩ => exact ⟨k, n, .inl rfl, drawFor_some s hw⟩
  | some ⟨k, none⟩ => exact ⟨k, _, .inr rfl, drawFor_none s hw⟩

/-- A wait that has answered true answers true ever after, whatever the state (R45). -/
theorem drawFor_monotone (s t : State) {l : Locals} (h : l.wait ≠ none) (ht : (s.drawFor l).1 = true) :
    (t.drawFor (s.drawFor l).2.2).1 = true := by
  obtain ⟨k, n, -, hanswer, hlocals⟩ := drawFor_cases s h
  have hn : n = 0 := by simpa using hanswer.symm.trans ht
  subst hn
  rw [hlocals]
  exact (drawFor_some t (k := k) (n := 0) rfl).1

/-! ### A poll loop (R109, R111) -/

/-- A request whose positions `pollAt` and `drawAt` are a bounded wait for a bit of `mask`: a read that finds it
goes to `hit`, a draw that answers true logs `event` and goes to `out`. -/
structure PollLoop (i : Instr) (p : Port) (mask : Byte) (pollAt drawAt hit out : Pos) (event : Event)
    (late : Locals → Locals) : Prop where
  poll : ∀ {t : State} {a : Active}, t.running = some (p, a) → a.pos = pollAt →
    exec i t = .next ((t.regRd8 nicIsr).2.gotoWith p a
      (if anyBit (t.regRd8 nicIsr).1 mask then hit else drawAt)
      { a.locals with value := (t.regRd8 nicIsr).1.setWidth 32 })
  draw : ∀ {t : State} {a : Active}, t.running = some (p, a) → a.pos = drawAt →
    exec i t = if (t.drawFor a.locals).1 then
        .next (((t.drawFor a.locals).2.1.logEvent event).gotoWith p a out (late (t.drawFor a.locals).2.2))
      else .next ((t.drawFor a.locals).2.1.gotoWith p a pollAt (t.drawFor a.locals).2.2)

theorem ready_drawFor (s : State) (l : Locals) (p : Port) : Ready (s.drawFor l).2.1 p = Ready s p :=
  ready_drawWait s l.wait p

section

variable {mask : Byte} {pollAt drawAt hit out : Pos} {event : Event} {late : Locals → Locals}

/-- A poll leaves the loop or comes to the draw, the wait as it was. -/
theorem PollLoop.polled (hloop : PollLoop i p mask pollAt drawAt hit out event late)
    (hr : t.running = some (p, a)) (hp : a.pos = pollAt) :
    Comes i p t fun _ b => b.pos = hit ∨ b.pos = drawAt ∧ b.locals.wait = a.locals.wait := by
  refine .step (hloop.poll hr hp) (.here (running_setPort (by simpa using ready_of_running hr)) ?_)
  split
  · exact .inl rfl
  · exact .inr ⟨rfl, rfl⟩

/-- A draw leaves the loop, or it uses up a false answer and comes to the next poll. -/
theorem PollLoop.drew (hloop : PollLoop i p mask pollAt drawAt hit out event late)
    (hr : t.running = some (p, a)) (hp : a.pos = drawAt) (hw : a.locals.wait ≠ none) :
    Comes i p t fun _ b => b.pos = out
      ∨ b.pos = pollAt ∧ ∃ k n, b.locals.wait = some ⟨k, some n⟩
        ∧ ∀ k' m, a.locals.wait = some ⟨k', some m⟩ → n + 1 = m := by
  obtain ⟨k, n, hkn, hanswer, hlocals⟩ := drawFor_cases t hw
  have hready : Ready (t.drawFor a.locals).2.1 p := by
    rw [ready_drawFor]; exact ready_of_running hr
  have hx := hloop.draw hr hp
  rw [hanswer, hlocals] at hx
  by_cases hn : n = 0
  · simp only [hn, decide_true, if_true] at hx
    exact .step hx (.here (running_setPort (by simpa using hready)) (.inl rfl))
  · simp only [hn, decide_false, Bool.false_eq_true, if_false] at hx
    refine .step hx (.here (running_setPort hready) (.inr ⟨rfl, k, n - 1, rfl, fun k' m hm => ?_⟩))
    rcases hkn with hkn | hkn <;> cases hkn.symm.trans hm
    omega

/-- Once it has drawn, a wait with `n` false draws left is left after at most `n + 1` more polls. -/
theorem PollLoop.leaves_of_drawn (hloop : PollLoop i p mask pollAt drawAt hit out event late) (n : Nat) :
    ∀ {t : State} {a : Active} {k : WaitKind}, t.running = some (p, a) → a.pos = pollAt →
      a.locals.wait = some ⟨k, some n⟩ → Comes i p t fun _ b => b.pos = hit ∨ b.pos = out := by
  induction n using Nat.strong_induction_on with
  | _ n ih =>
    intro t a k hr hp hw
    refine (hloop.polled hr hp).trans fun t b hr h => ?_
    rcases h with hhit | ⟨hdraw, hsame⟩
    · exact .here hr (.inl hhit)
    · refine (hloop.drew hr hdraw (by rw [hsame, hw]; simp)).trans fun t c hr h => ?_
      rcases h with hout | ⟨hpoll, k', m, hleft, hless⟩
      · exact .here hr (.inr hout)
      · have hm : m + 1 = n := hless k n (hsame.trans hw)
        exact ih m (by omega) hr hpoll hleft

/-- Every poll loop is left (R45). -/
theorem PollLoop.leaves (hloop : PollLoop i p mask pollAt drawAt hit out event late)
    (hr : t.running = some (p, a)) (hp : a.pos = pollAt) (hw : a.locals.wait ≠ none) :
    Comes i p t fun _ b => b.pos = hit ∨ b.pos = out := by
  refine (hloop.polled hr hp).trans fun t b hr h => ?_
  rcases h with hhit | ⟨hdraw, hsame⟩
  · exact .here hr (.inl hhit)
  · refine (hloop.drew hr hdraw (by rwa [hsame])).trans fun t c hr h => ?_
    rcases h with hout | ⟨hpoll, k, n, hleft, -⟩
    · exact .here hr (.inr hout)
    · exact hloop.leaves_of_drawn n hr hpoll hleft

end

/-! ### ResetProc (R111) -/

/-- A request whose positions after `ResetProc`'s first read are `ResetProc`'s. -/
structure ResetCall (i : Instr) (p : Port) (done : Active → Active) : Prop where
  micro : ∀ {t : State} {a : Active}, t.running = some (p, a) → inResetProc a.pos = true →
    a.pos ≠ .rstRead → exec i t = resetProc done a.pos p a t

theorem resetCall_reset (p : Port) : ResetCall .reset p thenRespond where
  micro {t a} hr hp hne := by
    obtain ⟨d, pos, x, l⟩ := a
    simp only [exec, execReset, micro_running hr]
    cases pos <;> simp_all [inResetProc]

theorem resetCall_bout (p : Port) (haddr : Word) (len : Half) (page : Byte) :
    ResetCall (.bout haddr len page) p thenReinit where
  micro {t a} hr hp _ := by
    obtain ⟨d, pos, x, l⟩ := a
    simp only [exec, execBout, micro_running hr]
    cases pos <;> simp_all [inResetProc]

section

variable {done : Active → Active}

theorem ResetCall.pollLoop (hcall : ResetCall i p done) :
    PollLoop i p isrRst .rstPoll .rstDraw .rstAck .rstAck (.timeoutReset p)
      (fun l => { l with rstTimedOut := true }) where
  poll hr hp := by rw [hcall.micro hr (by rw [hp]; rfl) (by simp [hp]), hp]; rfl
  draw hr hp := by rw [hcall.micro hr (by rw [hp]; rfl) (by simp [hp]), hp]; rfl

theorem ResetCall.write (hcall : ResetCall i p done) (hr : t.running = some (p, a))
    (hp : a.pos = .rstWrite) :
    exec i t = .next ((t.regWr8 nicReset (a.locals.value.setWidth 8)).goto p a .rstClear) := by
  rw [hcall.micro hr (by rw [hp]; rfl) (by simp [hp]), hp]
  rfl

theorem ResetCall.clear (hcall : ResetCall i p done) (hr : t.running = some (p, a))
    (hp : a.pos = .rstClear) :
    exec i t = .next ((t.withDmaing 0x00).gotoWith p a .rstPoll
      { a.locals with wait := some ⟨.rst, none⟩ }) := by
  rw [hcall.micro hr (by rw [hp]; rfl) (by simp [hp]), hp]
  rfl

theorem ResetCall.ack (hcall : ResetCall i p done) (hr : t.running = some (p, a))
    (hp : a.pos = .rstAck) :
    exec i t = .next ((t.regWr8 nicIsr isrRst).setPort p (.active (done a))) := by
  rw [hcall.micro hr (by rw [hp]; rfl) (by simp [hp]), hp]
  rfl

/-- From the write back `ResetProc` comes to its end. -/
theorem ResetCall.comes (hcall : ResetCall i p done) (hr : t.running = some (p, a))
    (hp : a.pos = .rstWrite) : Comes i p t fun _ b => ∃ a, b = done a := by
  have hready := ready_of_running hr
  have hr1 := running_setPort (s := t.regWr8 nicReset (a.locals.value.setWidth 8))
    (a := { a with pos := .rstClear }) (by simpa using hready)
  refine .step (hcall.write hr hp) (.step (hcall.clear hr1 rfl) ?_)
  refine (hcall.pollLoop.leaves (running_setPort (by simpa [State.goto] using hready)) rfl (by simp)).trans
    fun t b hr h => ?_
  refine .step (hcall.ack hr (h.elim id id)) (.here (running_setPort ?_) ⟨b, rfl⟩)
  simpa using ready_of_running hr

end

/-! ### RESET responds (R112) -/

theorem execReset_start (hr : s.running = some (p, a)) (hp : a.pos = .start) :
    exec .reset s = .next ((s.regRd8 nicReset).2.gotoWith p a .rstWrite
      { a.locals with value := (s.regRd8 nicReset).1.setWidth 32 }) := by
  simp only [exec, execReset, micro_running hr, hp]
  rfl

theorem execReset_respond (hr : s.running = some (p, a)) (hp : a.pos = .respond) :
    exec .reset s = .next (s.respond p .ok (resetCode a.locals) 0) := by
  simp only [exec, execReset, micro_running hr, hp]

theorem reset_responds (h : AtStart s p) : ∃ n t, execN .reset n s = .next t ∧ t.port p = .idle := by
  obtain ⟨d, hr⟩ := h
  have hcomes : Comes .reset p s fun _ b => ∃ a, b = thenRespond a := by
    refine .step (execReset_start hr rfl) ((resetCall_reset p).comes (running_setPort ?_) rfl)
    simpa using ready_of_running hr
  refine hcomes.finish fun t b hr ⟨a, hb⟩ => ⟨_, execReset_respond hr (by rw [hb]; rfl), ?_⟩
  exact port_respond_same _ _ _ _ _

end Sys2Proof.Machine
end

section
/-!
PROOF. BOUT up to its completion wait (R102, R106-R108): the checks, the acquire, the arming writes and `Wblk`.
-/

namespace Sys2Proof.Machine

open Sys2Proof

variable {i : Instr} {p : Port} {a b : Active} {s t u : State} {haddr : Word} {len : Half} {page : Byte}

/-! ### BOUT's micro-steps -/

theorem execBout_start (hr : s.running = some (p, a)) (hp : a.pos = .start) :
    exec (.bout haddr len page) s = .next (boutCheck haddr len p a s) := by
  simp only [exec, execBout, micro_running hr, hp]

theorem execBout_acquire (hr : s.running = some (p, a)) (hp : a.pos = .acquire) :
    exec (.bout haddr len page) s = .next (s.busyAcquire p a 0x22) := by
  simp only [exec, execBout, micro_running hr, hp]

theorem execBout_arm {w : ArmPos} (hr : s.running = some (p, a)) (hp : a.pos = .arm w) :
    exec (.bout haddr len page) s = armStep (boutArming s.cfg len page)
      (enterWblk s.cfg haddr.toNat (roundedCount s.cfg len) thenTxWait) w p a s := by
  simp only [exec, execBout, micro_running hr, hp]

theorem execBout_rstRead (hr : s.running = some (p, a)) (hp : a.pos = .rstRead) :
    exec (.bout haddr len page) s = .next ((s.regRd8 nicReset).2.gotoWith p a .rstWrite
      { a.locals with value := (s.regRd8 nicReset).1.setWidth 32 }) := by
  simp only [exec, execBout, micro_running hr, hp]
  rfl

theorem execBout_ack (hr : s.running = some (p, a)) (hp : a.pos = .ack) :
    exec (.bout haddr len page) s
      = .next ((s.regWr8 nicIsr isrRdc).gotoX p a .release .acknowledged) := by
  simp only [exec, execBout, micro_running hr, hp]

theorem execBout_release (hr : s.running = some (p, a)) (hp : a.pos = .release) :
    exec (.bout haddr len page) s = .next (s.busyRelease p a .respond) := by
  simp only [exec, execBout, micro_running hr, hp]

theorem execBout_respond (hr : s.running = some (p, a)) (hp : a.pos = .respond) :
    exec (.bout haddr len page) s = .next (s.respond p .ok (boutCode a.locals) 0) := by
  simp only [exec, execBout, micro_running hr, hp]

theorem wblkCall_bout (p : Port) (c : Config) (haddr : Word) (len : Half) (page : Byte) :
    WblkCall (.bout haddr len page) p c (padAddress c haddr len) thenTxWait where
  host hr hc hp := by simp only [exec, execBout, micro_running hr, hp, hc]
  bus hr _ hp := by simp only [exec, execBout, micro_running hr, hp]

theorem boutPollLoop (p : Port) (haddr : Word) (len : Half) (page : Byte) :
    PollLoop (.bout haddr len page) p isrRdc .txPoll .txDraw .ack .rstRead (.timeoutTx p)
      (fun l => { l with txTimedOut := true }) where
  poll hr hp := by simp only [exec, execBout, micro_running hr, hp]; rfl
  draw hr hp := by simp only [exec, execBout, micro_running hr, hp]; rfl

/-! ### Arming (R102) -/

/-- Since `s` the request has only issued these cycles, by writes: the answers of the environment and the coming
draw of the host-memory port are still there. -/
structure Wrote (p : Port) (s t : State) (cs : List BusCycle) (r : Rest) : Prop where
  since : Since p s t cs r
  tapes : TapesKept s t
  draw : t.drawHost.1 = s.drawHost.1

theorem Wrote.regWr8 {cs : List BusCycle} {r : Rest} (h : Wrote p s t cs r) (k : Fin 32) (v : Byte) :
    Wrote p s (t.regWr8 k v) (cs ++ [s.wr k v]) r where
  since := h.since.regWr8 k v
  tapes := h.tapes.trans (memWrite_tapes t _ _ _)
  draw := (drawHost_memWrite t _ _ _).trans h.draw

theorem Wrote.setPort {cs : List BusCycle} {r : Rest} (h : Wrote p s t cs r) (x : PortState) :
    Wrote p s (t.setPort p x) cs r where
  since := h.since.setPort x
  tapes := h.tapes.trans (.of_env (setPort_env t p x))
  draw := by rw [drawHost_setPort]; exact h.draw

/-- A micro-step that is a register write and goes on to `b`. -/
theorem Wrote.comes {cs : List BusCycle} {r : Rest} {k : Fin 32} {v : Byte} (h : Wrote p s t cs r)
    (hr : t.running = some (p, a)) (hx : exec i t = .next ((t.regWr8 k v).setPort p (.active b))) :
    Comes i p t fun t b' => Wrote p s t (cs ++ [s.wr k v]) r ∧ b' = b :=
  .step hx (.here (running_setPort (by simpa using ready_of_running hr)) ⟨(h.regWr8 k v).setPort _, rfl⟩)

/-- An arming write of BOUT that goes on to the next. -/
theorem Wrote.arm {cs : List BusCycle} {r : Rest} {w w' : ArmPos} {k : Fin 32} {v : Byte}
    (h : Wrote p s t cs r) (hr : t.running = some (p, a)) (hp : a.pos = .arm w)
    (harm : ∀ begin, armStep (boutArming s.cfg len page) begin w p a t
      = .next ((t.regWr8 k v).goto p a (.arm w'))) :
    Comes (.bout haddr len page) p t fun t b =>
      Wrote p s t (cs ++ [s.wr k v]) r ∧ b = { a with pos := .arm w' } :=
  h.comes hr (by rw [execBout_arm hr hp, h.since.cfg, harm]; rfl)

theorem extract_page (page : Byte) :
    (page ++ 0x00#8).extractLsb' 0 8 = 0x00 ∧ (page ++ 0x00#8).extractLsb' 8 8 = page := by
  have hpage : (page ++ 0x00#8).toNat = page.toNat * 256 := by
    rw [BitVec.toNat_append]
    simp [Nat.shiftLeft_eq]
  have := page.isLt
  constructor <;> apply BitVec.eq_of_toNat_eq
  · simp [BitVec.extractLsb'_toNat, hpage]
  · rw [BitVec.extractLsb'_toNat, hpage, Nat.shiftRight_eq_div_pow]
    omega

/-- BOUT's arming from its first write to the bridge, `RDC` cleared first (R102, R108). -/
theorem bout_arms {r : Rest} (h : Wrote p s t [] r) (hr : t.running = some (p, a))
    (hp : a.pos = .arm .idle0) :
    Comes (.bout haddr len page) p t fun t b =>
      Wrote p s t (boutArmCycles s (BitVec.ofNat 16 (roundedCount s.cfg len)) page) r
      ∧ b = enterWblk s.cfg haddr.toNat (roundedCount s.cfg len) thenTxWait
          { a with pos := .arm .start, xstate := .transferring } := by
  refine (h.arm hr hp (w' := .clearIsr) fun _ => rfl).trans fun t _ hr ⟨h, hb⟩ => ?_
  subst hb
  refine (h.arm hr rfl (w' := .cntLo) fun _ => rfl).trans fun t _ hr ⟨h, hb⟩ => ?_
  subst hb
  refine (h.arm hr rfl (w' := .cntHi) fun _ => rfl).trans fun t _ hr ⟨h, hb⟩ => ?_
  subst hb
  refine (h.arm hr rfl (w' := .adrLo) fun _ => rfl).trans fun t _ hr ⟨h, hb⟩ => ?_
  subst hb
  refine (h.arm hr rfl (w' := .adrHi) fun _ => rfl).trans fun t _ hr ⟨h, hb⟩ => ?_
  subst hb
  refine (h.arm hr rfl (w' := .start) fun _ => rfl).trans fun t _ hr ⟨h, hb⟩ => ?_
  subst hb
  refine (h.comes (k := nicCmd) (v := cmdRwrite)
    (b := enterWblk s.cfg haddr.toNat (roundedCount s.cfg len) thenTxWait
      { a with pos := .arm .start, xstate := .transferring })
    hr (by rw [execBout_arm hr rfl, h.since.cfg]; rfl)).trans fun t b hr ⟨h, hb⟩ => ?_
  refine .here hr ⟨?_, hb⟩
  simpa [boutArming, extract_page, boutArmCycles, cmdIdle0, isrRdc, cmdRwrite] using h

/-! ### From acceptance to the wait -/

theorem roundedCount_of_padAddress {c : Config} {q : Nat} (h : padAddress c haddr len = some q) :
    q + 1 = haddr.toNat + roundedCount c len := by
  unfold padAddress at h
  split at h
  · next hodd =>
    cases h
    simp only [roundedCount, if_pos hodd, Nat.add_assoc]
  · cases h

/-- The pad byte is byte `LEN` of a rounded call (R106, R107). -/
theorem wblkByte_padAddress (s : State) {j : Nat} (h : j < roundedCount s.cfg len) :
    wblkByte s (padAddress s.cfg haddr len) haddr.toNat j
      = if j = len.toNat then s.drawHost.1 else s.mem.read (haddr.toNat + j) := by
  unfold wblkByte padAddress
  unfold roundedCount at h
  split at h
  · next hodd =>
    rw [if_pos hodd]
    simp [eq_comm]
  · next heven =>
    rw [if_neg heven, if_neg (by simp), if_neg (by omega)]

theorem wblkCycles_congr {f g : Nat → Byte} {count : Nat} (hc : t.cfg = s.cfg)
    (ho : t.regOffset = s.regOffset) (hfg : ∀ j, j < count → f j = g j) :
    wblkCycles t f count = wblkCycles s g count := by
  unfold wblkCycles
  rw [hc, regAddr_congr hc ho]
  refine congrArg₂ _ (congrArg₂ _ (List.map_congr_left fun k hk => ?_) ?_) ?_
  · have := List.mem_range.mp hk
    rw [hfg _ (by omega), hfg _ (by omega), hfg _ (by omega), hfg _ (by omega)]
  · split
    · rw [hfg _ (by omega), hfg _ (by omega)]
    · rfl
  · split
    · rw [hfg _ (by omega)]
    · rfl

theorem boutCheck_of_fits (hc : roundedCount s.cfg len ≤ 0xFFFF)
    (hf : haddr.toNat + roundedCount s.cfg len ≤ 2 ^ 32) :
    boutCheck haddr len p a s = s.goto p a .acquire := by
  unfold boutCheck State.checkRange
  rw [if_neg (by omega), if_pos (by simpa [hostFits] using hf)]

theorem busyAcquire_of_free (hd : s.dmaing = 0x00) (op : Byte) :
    s.busyAcquire p a op = (s.withDmaing 0x01).gotoX p a (.arm .idle0) .armed := by
  simp [State.busyAcquire, engineBusy, hd, setBusy]

theorem wrote_acquire (p : Port) (s : State) (x : PortState) :
    Wrote p s ((s.withDmaing 0x01).setPort p x) [] { s.rest with dmaing := 0x01 } where
  since :=
    { cycles := by simp
      responses := by simp
      other := by simp
      preempted := by simp
      rest := by simp
      cfg := by simp
      regOffset := by simp }
  tapes := .of_env (setPort_env _ _ _)
  draw := by rw [drawHost_setPort]; exact drawHost_congr rfl rfl

/-- The checks pass and the engine is free: BOUT comes to its first arming write (R99, R108). -/
theorem bout_comes_to_arm {d : Desc} (hr : s.running = some (p, .fresh d))
    (hc : roundedCount s.cfg len ≤ 0xFFFF) (hf : haddr.toNat + roundedCount s.cfg len ≤ 2 ^ 32)
    (hd : s.dmaing = 0x00) :
    Comes (.bout haddr len page) p s fun t b =>
      Wrote p s t [] { s.rest with dmaing := 0x01 } ∧ b = ⟨d, .arm .idle0, .armed, {}⟩ := by
  have hready := ready_of_running hr
  have hr1 : (s.goto p (.fresh d) .acquire).running = some (p, ⟨d, .acquire, .idle, {}⟩) :=
    running_setPort hready
  have hx1 := execBout_start (haddr := haddr) (len := len) (page := page) hr rfl
  rw [boutCheck_of_fits hc hf] at hx1
  have hx2 := execBout_acquire (haddr := haddr) (len := len) (page := page) hr1 rfl
  rw [busyAcquire_of_free (by simpa [State.goto] using hd)] at hx2
  simp only [State.goto, State.gotoX, setPort_withDmaing, setPort_setPort] at hx1 hx2
  exact .step hx1 (.step hx2 (.here (running_setPort (by simpa using hready)) ⟨wrote_acquire p s _, rfl⟩))

/-- BOUT, accepted with a count that fits and a free engine, comes to its completion wait after the arming
writes and those of the bridge (R102, R106-R108), whatever the environment. -/
theorem bout_comes_to_wait (h : AtStart s p) (hw : s.cfg.winSizeOk = true)
    (hc : roundedCount s.cfg len ≤ 0xFFFF) (hf : haddr.toNat + roundedCount s.cfg len ≤ 2 ^ 32)
    (hd : s.dmaing = 0x00) :
    Comes (.bout haddr len page) p s fun t b =>
      Since p s t (boutArmCycles s (BitVec.ofNat 16 (roundedCount s.cfg len)) page
        ++ wblkCycles s (fun j => if j = len.toNat then s.drawHost.1 else s.mem.read (haddr.toNat + j))
            (roundedCount s.cfg len)) { s.rest with dmaing := 0x01 }
      ∧ TapesKept s t ∧ b.pos = .txPoll ∧ b.locals.wait = some ⟨.tx, none⟩ := by
  obtain ⟨d, hr⟩ := h
  refine (bout_comes_to_arm hr hc hf hd).trans fun t b hr ⟨hacq, hb⟩ => ?_
  subst hb
  refine (bout_arms hacq hr rfl).trans fun t b hr ⟨harm, hb⟩ => ?_
  subst hb
  have hcfg := harm.since.cfg
  have hmem : t.mem = s.mem := congrArg Rest.mem harm.since.rest
  rw [← hcfg] at hr hw
  refine (wblk_comes (wblkCall_bout p t.cfg haddr len page) hw
    (fun q => roundedCount_of_padAddress) rfl hr).trans fun u b hr ⟨hs, ht, a, ha, hb⟩ => ?_
  refine .here hr ⟨?_, harm.tapes.trans ht, by rw [hb, thenTxWait], by rw [hb, thenTxWait]⟩
  have hall := harm.since.trans hs
  rw [harm.since.rest, wblkByte_congr hmem harm.draw, hcfg,
    wblkCycles_congr hcfg harm.since.regOffset fun j => wblkByte_padAddress s] at hall
  exact hall

end Sys2Proof.Machine
end

section
/-!
PROOF. Fairness of the bounded waits (R45): in every execution a wait loop polls only finitely often; and every
BOUT responds or comes to wait for the collaborator (R109, R110).
-/

namespace Sys2Proof.Machine

open Sys2Proof

variable {i : Instr} {p : Port} {a b : Active} {s t u : State} {haddr : Word} {len : Half} {page : Byte}

/-! ### BOUT from its wait on -/

/-- From the step to ACKNOWLEDGED BOUT releases the engine and comes to its response (R101, R108). -/
theorem bout_ends {cs : List BusCycle} {r : Rest} (h : Since p s t cs r) (hr : t.running = some (p, a))
    (hp : a.pos = .ack) :
    Comes (.bout haddr len page) p t fun u b =>
      Since p s u (cs ++ [s.wr nicIsr isrRdc]) { r with dmaing := clearBusy r.dmaing }
      ∧ b.pos = .respond ∧ b.locals = a.locals := by
  have hready := ready_of_running hr
  have hr1 : ((t.regWr8 nicIsr isrRdc).gotoX p a .release .acknowledged).running
      = some (p, { a with pos := .release, xstate := .acknowledged }) :=
    running_setPort (by simpa using hready)
  have hwrite := (h.regWr8 nicIsr isrRdc).setPort (.active { a with pos := .release, xstate := .acknowledged })
  refine .step (execBout_ack hr hp) (.step (execBout_release hr1 rfl)
    (.here (running_setPort (by simpa [State.gotoX] using hready)) ⟨?_, rfl, rfl⟩))
  have hd : ((t.regWr8 nicIsr isrRdc).gotoX p a .release .acknowledged).dmaing = r.dmaing :=
    congrArg Rest.dmaing hwrite.rest
  rw [← hd]
  exact (hwrite.withDmaing _).setPort _

theorem bout_reinit_waits (hr : t.running = some (p, a)) (hp : a.pos = .reinitReq) :
    Comes (.bout haddr len page) p t fun _ b => b.pos = .reinitWait :=
  .step (execBout_reinitReq hr hp) (.here (running_setPort (by simpa using ready_of_running hr)) rfl)

theorem bout_recovery_waits (hr : t.running = some (p, a)) (hp : a.pos = .rstRead) :
    Comes (.bout haddr len page) p t fun _ b => b.pos = .reinitWait := by
  have hr1 := running_setPort (s := (t.regRd8 nicReset).2) (a := { a with
    pos := .rstWrite
    locals := { a.locals with value := (t.regRd8 nicReset).1.setWidth 32 } })
    (by simpa using ready_of_running hr)
  refine .step (execBout_rstRead hr hp) (((resetCall_bout p haddr len page).comes hr1 rfl).trans
    fun u b hr ⟨a, hb⟩ => bout_reinit_waits hr (by rw [hb]; rfl))

/-- From its completion wait BOUT comes to its response or to the wait for the collaborator. -/
theorem bout_wait_ends (hr : t.running = some (p, a)) (hp : a.pos = .txPoll)
    (hw : a.locals.wait ≠ none) :
    Comes (.bout haddr len page) p t fun _ b => b.pos = .respond ∨ b.pos = .reinitWait := by
  refine ((boutPollLoop p haddr len page).leaves hr hp hw).trans fun u b hr h => ?_
  rcases h with hack | hrst
  · exact (bout_ends (.refl p u) hr hack).trans fun _ _ hr h => .here hr (.inl h.2.1)
  · exact (bout_recovery_waits hr hrst).trans fun _ _ hr h => .here hr (.inr h)

theorem port_raise (s : State) (p : Port) (c : Code) (info : Info) : (s.raise p c info).port p = .idle :=
  port_respond_same _ _ _ _ _

/-- A first micro-step of BOUT whose check fails answers and ends the request (R94, R106, R135). -/
theorem boutCheck_ends (h : ¬ (roundedCount s.cfg len ≤ 0xFFFF
    ∧ haddr.toNat + roundedCount s.cfg len ≤ 2 ^ 32)) : (boutCheck haddr len p a s).port p = .idle := by
  unfold boutCheck
  split
  · exact port_raise _ _ _ _
  · unfold State.checkRange
    split
    · next hc hf => exact absurd ⟨by omega, by simpa [hostFits] using hf⟩ h
    · exact port_raise _ _ _ _

theorem busyAcquire_ends (h : s.dmaing ≠ 0x00) (op : Byte) : (s.busyAcquire p a op).port p = .idle := by
  rw [State.busyAcquire, if_pos (by simpa [engineBusy] using h)]
  exact port_respond_same _ _ _ _ _

/-- BOUT whose checks pass responds with a conflict, or comes to its end or to the collaborator's wait. -/
theorem bout_comes_to_end (h : AtStart s p) (hw : s.cfg.winSizeOk = true)
    (hc : roundedCount s.cfg len ≤ 0xFFFF) (hf : haddr.toNat + roundedCount s.cfg len ≤ 2 ^ 32)
    (hd : s.dmaing = 0x00) :
    Comes (.bout haddr len page) p s fun _ b => b.pos = .respond ∨ b.pos = .reinitWait :=
  (bout_comes_to_wait h hw hc hf hd).trans fun _ _ hr ⟨_, _, hpos, hwait⟩ =>
    bout_wait_ends hr hpos (by rw [hwait]; simp)

theorem bout_responds_or_waits (h : AtStart s p) (hw : s.cfg.winSizeOk = true) :
    ∃ n t, execN (.bout haddr len page) n s = .next t
      ∧ (t.port p = .idle ∨ ∃ a, t.port p = .active a ∧ a.pos = .reinitWait) := by
  by_cases hfits : roundedCount s.cfg len ≤ 0xFFFF ∧ haddr.toNat + roundedCount s.cfg len ≤ 2 ^ 32
  · by_cases hd : s.dmaing = 0x00
    · obtain ⟨n, t, b, hn, hr, hpos | hpos⟩ :=
        bout_comes_to_end (haddr := haddr) (page := page) h hw hfits.1 hfits.2 hd
      · refine ⟨n + 1, _, ?_, .inl (port_respond_same t p .ok (boutCode b.locals) 0)⟩
        rw [execN_add hn, execN, execBout_respond hr hpos]
        rfl
      · exact ⟨n, t, hn, .inr ⟨b, port_of_running hr, hpos⟩⟩
    · obtain ⟨d, hr⟩ := h
      have hx := execBout_start (haddr := haddr) (len := len) (page := page) hr rfl
      rw [boutCheck_of_fits hfits.1 hfits.2] at hx
      have hr1 : (s.goto p (.fresh d) .acquire).running = some (p, ⟨d, .acquire, .idle, {}⟩) :=
        running_setPort (ready_of_running hr)
      refine ⟨2, _, ?_, .inl (busyAcquire_ends (s := s.goto p (.fresh d) .acquire)
        (a := ⟨d, .acquire, .idle, {}⟩) (by simpa [State.goto] using hd) 0x22)⟩
      rw [execN, hx]
      simp only [execN, execBout_acquire hr1 rfl]
  · obtain ⟨d, hr⟩ := h
    refine ⟨1, _, ?_, .inl (boutCheck_ends (p := p) (a := .fresh d) hfits)⟩
    rw [execN, execBout_start hr rfl]
    rfl

/-! ### What a step does to a wait -/

/-- How many draws of a port's wait still answer false: any number before its first draw (R45). -/
def falseLeft : PortState → WithTop Nat
  | .idle => 0
  | .active a =>
    match a.locals.wait with
    | some ⟨_, some n⟩ => n
    | _ => ⊤

theorem SameButRaced.falseLeft {x y : PortState} (h : SameButRaced x y) : falseLeft y = falseLeft x := by
  cases h <;> rfl

theorem falseLeft_congr (h : b.locals.wait = a.locals.wait) :
    falseLeft (.active b) = falseLeft (.active a) := by
  simp only [falseLeft, h]

/-- A false draw uses one up. -/
theorem falseLeft_lt {k : WaitKind} {n : Nat}
    (hw : a.locals.wait = some ⟨k, some n⟩ ∨ a.locals.wait = some ⟨k, none⟩) (hn : n ≠ 0)
    (hb : b.locals.wait = some ⟨k, some (n - 1)⟩) : falseLeft (.active b) < falseLeft (.active a) := by
  rcases hw with hw | hw <;> simp only [falseLeft, hw, hb]
  · exact_mod_cast Nat.sub_one_lt hn
  · exact WithTop.coe_lt_top _

theorem inWaitLoop_active : inWaitLoop (.active a) = true ↔
    a.locals.wait ≠ none
      ∧ (a.pos = .txPoll ∨ a.pos = .txDraw ∨ a.pos = .rstPoll ∨ a.pos = .rstDraw) := by
  simp [inWaitLoop, Option.isSome_iff_ne_none, or_assoc]

/-- Only BOUT and RESET take a micro-step in a wait loop, RESET in that of `ResetProc`. -/
theorem exec_in_wait_loop (hr : s.running = some (p, a)) (hx : exec i s = .next t)
    (hp : a.pos = .txPoll ∨ a.pos = .txDraw ∨ a.pos = .rstPoll ∨ a.pos = .rstDraw) :
    (∃ haddr len page, i = .bout haddr len page)
      ∨ i = .reset ∧ (a.pos = .rstPoll ∨ a.pos = .rstDraw) := by
  cases i with
  | bout haddr len page => exact .inl ⟨haddr, len, page, rfl⟩
  | reset =>
    refine .inr ⟨rfl, ?_⟩
    rcases hp with hp | hp | hp
    · simp [exec, execReset, micro_running hr, hp] at hx
    · simp [exec, execReset, micro_running hr, hp] at hx
    · exact hp
  | _ =>
    exfalso
    rcases hp with hp | hp | hp | hp <;>
      simp [exec, execRd8, execRd16, execWr8, execWr16, execWblk, execRblk, execGethdr, execBin, execMdc,
        execMdir, execMdo, execMdi, execEerd, execEewr, execMdiord, execMdiowr, micro_running hr, hp] at hx

/-- Every micro-step in a wait loop is one of a `PollLoop`, whose ways out lead out of every wait loop. -/
theorem exec_pollLoop (hr : s.running = some (p, a)) (hx : exec i s = .next t)
    (hp : a.pos = .txPoll ∨ a.pos = .txDraw ∨ a.pos = .rstPoll ∨ a.pos = .rstDraw) :
    ∃ mask pollAt drawAt hit out event late, PollLoop i p mask pollAt drawAt hit out event late
      ∧ (a.pos = pollAt ∧ a.pos ≠ .txDraw ∧ a.pos ≠ .rstDraw ∨ a.pos = drawAt)
      ∧ ∀ x l, inWaitLoop (.active ⟨a.desc, hit, x, l⟩) = false
        ∧ inWaitLoop (.active ⟨a.desc, out, x, l⟩) = false := by
  rcases exec_in_wait_loop hr hx hp with ⟨haddr, len, page, rfl⟩ | ⟨rfl, hp⟩
  · by_cases htx : a.pos = .txPoll ∨ a.pos = .txDraw
    · refine ⟨_, _, _, _, _, _, _, boutPollLoop p haddr len page, ?_, fun _ _ => ?_⟩
      · rcases htx with htx | htx <;> simp [htx]
      · simp [inWaitLoop]
    · refine ⟨_, _, _, _, _, _, _, (resetCall_bout p haddr len page).pollLoop, ?_, fun _ _ => ?_⟩
      · rcases hp with hp | hp | hp | hp <;> simp_all
      · simp [inWaitLoop]
  · refine ⟨_, _, _, _, _, _, _, (resetCall_reset p).pollLoop, ?_, fun _ _ => ?_⟩
    · rcases hp with hp | hp <;> simp [hp]
    · simp [inWaitLoop]

/-- While the request stays in its loop a micro-step of it uses up no false draw, or, by a draw, one. -/
theorem exec_falseLeft (hr : s.running = some (p, a)) (hx : exec i s = .next t)
    (hs : inWaitLoop (s.port p) = true) (ht : inWaitLoop (t.port p) = true) :
    falseLeft (t.port p) ≤ falseLeft (s.port p)
      ∧ (a.pos = .txDraw ∨ a.pos = .rstDraw → falseLeft (t.port p) < falseLeft (s.port p)) := by
  rw [port_of_running hr] at hs ⊢
  obtain ⟨hwait, hp⟩ := inWaitLoop_active.mp hs
  obtain ⟨mask, pollAt, drawAt, hit, out, event, late, hloop, hat, hleave⟩ := exec_pollLoop hr hx hp
  rcases hat with ⟨hpoll, h1, h2⟩ | hdraw
  · rw [hloop.poll hr hpoll] at hx
    cases hx
    rw [State.gotoWith, port_setPort_same] at ht ⊢
    refine ⟨le_of_eq (falseLeft_congr rfl), fun h => absurd h (not_or.mpr ⟨h1, h2⟩)⟩
  · obtain ⟨k, n, hkn, hanswer, hlocals⟩ := drawFor_cases s hwait
    rw [hloop.draw hr hdraw, hanswer, hlocals] at hx
    by_cases hn : n = 0
    · simp only [hn, decide_true, if_true] at hx
      cases hx
      rw [State.gotoWith, port_setPort_same, (hleave _ _).2] at ht
      cases ht
    · simp only [hn, decide_false, Bool.false_eq_true, if_false] at hx
      cases hx
      rw [State.gotoWith, port_setPort_same]
      have hlt := falseLeft_lt hkn hn
        (b := ⟨a.desc, pollAt, a.xstate, { a.locals with wait := some ⟨k, some (n - 1)⟩ }⟩) rfl
      exact ⟨hlt.le, fun _ => hlt⟩

/-- A port left as it was but for raced addresses keeps its wait. -/
theorem waits_same {q : Prop} (h : SameButRaced (s.port p) (t.port p)) (hno : ¬ q) :
    falseLeft (t.port p) ≤ falseLeft (s.port p) ∧ (q → falseLeft (t.port p) < falseLeft (s.port p)) :=
  ⟨le_of_eq h.falseLeft, fun hq => absurd hq hno⟩

/-- An acceptance leaves a port's request or gives it a fresh one. -/
theorem accept_port (s : State) (q p : Port) :
    SameButRaced (s.port p) ((s.accept q).port p) ∨ ∃ d, (s.accept q).port p = .active (.fresh d) := by
  generalize ht : s.accept q = t
  have hacc := accept_accepted s q
  rw [ht] at hacc
  cases hacc with
  | dropped => exact .inl (.refl _)
  | refused d e =>
    exact .inl (((SameBlock.setPresented s q none).ports p).trans ((SameBlock.refuse _ q e d).ports p))
  | latched d i =>
    refine forall_port (P := fun p => SameButRaced (s.port p) (((s.setPresented q none).latch q d).port p)
      ∨ ∃ d', ((s.setPresented q none).latch q d).port p = .active (.fresh d')) q ?_ ?_ p
    · exact .inr ⟨d, latch_port_same _ q d⟩
    · rw [latch_port_other, port_setPresented]
      exact .inl (.refl _)

/-- What every move does to the wait of a port that is in a wait loop before it and after it. -/
theorem Took.falseLeft {m : Move} (h : Took m s t) (hs : inWaitLoop (s.port p) = true)
    (ht : inWaitLoop (t.port p) = true) :
    falseLeft (t.port p) ≤ falseLeft (s.port p)
      ∧ ((m = .micro ∧ ∃ a, s.running = some (p, a) ∧ (a.pos = .txDraw ∨ a.pos = .rstDraw)) →
          falseLeft (t.port p) < falseLeft (s.port p)) := by
  cases h with
  | idle _ hr => exact waits_same (.refl _) fun ⟨_, a, hra, _⟩ => by simp [hr] at hra
  | micro _ q a i hr _ hx =>
    by_cases hq : q = p
    · subst hq
      obtain ⟨hle, hlt⟩ := exec_falseLeft hr hx hs ht
      refine ⟨hle, fun ⟨_, b, hrb, hpos⟩ => hlt ?_⟩
      cases hr.symm.trans hrb
      exact hpos
    · have hother : p = otherPort q := by cases p <;> cases q <;> simp_all [otherPort]
      refine waits_same ?_ fun ⟨_, b, hrb, _⟩ => by simp_all
      rw [hother, (exec_microStep hr hx).frame.other]
      exact .refl _
  | refused _ q a e hr =>
    by_cases hq : q = p
    · subst hq
      rw [show ((s.refuse q e a.desc).endRequest q).port q = .idle by cases q <;> rfl] at ht
      cases ht
    · have hother : p = otherPort q := by cases p <;> cases q <;> simp_all [otherPort]
      refine waits_same ?_ fun ⟨_, b, hrb, _⟩ => by simp_all
      rw [hother, port_endRequest_other, show (s.refuse q e a.desc).port (otherPort q) = s.port (otherPort q) by
        simp [State.refuse]]
      exact .refl _
  | present q d hm => exact waits_same ((SameBlock.present s q d).ports p) (by simp [hm])
  | accept q hm =>
    rcases accept_port s q p with hsame | ⟨d, hfresh⟩
    · exact waits_same hsame (by simp [hm])
    · rw [hfresh] at ht
      cases ht
  | extSetDmaing v hm => exact waits_same ((SameBlock.extSetDmaing s v).ports p) (by simp [hm])
  | agent hm hf =>
    refine waits_same ((SameBlock.of_agent hf).ports p) ?_
    rcases hm with ⟨_, _, rfl⟩ | ⟨_, _, rfl⟩ <;> simp
  | rst =>
    rw [show s.rst.port p = .idle by cases p <;> rfl] at ht
    cases ht

theorem port_nextMove (s : State) (p : Port) : s.nextMove.2.port p = s.port p := by
  obtain ⟨moves, hu⟩ := nextMove_snd s
  rw [hu, port_withEnv]

/-- A step leaves no more false draws to a wait in a loop it stays in, and fewer when it is a draw of that wait. -/
theorem step_falseLeft (h : step s = .next t) (hs : inWaitLoop (s.port p) = true)
    (ht : inWaitLoop (t.port p) = true) :
    falseLeft (t.port p) ≤ falseLeft (s.port p)
      ∧ (s.polls p → falseLeft (t.port p) < falseLeft (s.port p)) := by
  have htook := (step_took h).1.falseLeft (p := p) (by rw [port_nextMove]; exact hs) ht
  rw [port_nextMove] at htook
  exact ⟨htook.1, fun ⟨_, hm, hpolls⟩ => htook.2 ⟨hm, hpolls⟩⟩

/-- A measure into a well-founded order that never rises falls only finitely often. -/
theorem eventually_not_of_falling {α : Type} [LinearOrder α] [WellFoundedLT α] {f : Nat → α}
    {q : Nat → Prop} {n : Nat} (hle : ∀ k, n ≤ k → f (k + 1) ≤ f k)
    (hlt : ∀ k, n ≤ k → q k → f (k + 1) < f k) : ∃ m, ∀ k, m ≤ k → ¬ q k := by
  have hanti : Antitone fun k => f (n + k) :=
    antitone_nat_of_succ_le fun k => hle (n + k) (Nat.le_add_right n k)
  obtain ⟨m, hm⟩ := WellFoundedGT.monotone_chain_condition (α := αᵒᵈ) ⟨_, hanti.dual_right⟩
  have hconst : ∀ k, m ≤ k → f (n + m) = f (n + k) := fun k hk => OrderDual.toDual_inj.mp (hm k hk)
  refine ⟨n + m, fun k hk hq => ?_⟩
  obtain ⟨j, rfl⟩ := Nat.exists_eq_add_of_le (Nat.le_of_add_right_le hk)
  have hfall := hlt (n + j) (Nat.le_add_right n j) hq
  rw [Nat.add_assoc, ← hconst j (by omega), ← hconst (j + 1) (by omega)] at hfall
  exact lt_irrefl _ hfall

/-- In every execution a request that never leaves its wait loop draws only finitely often (R45). -/
theorem polls_finitely {run : Nat → State} (hrun : ∀ k, step (run k) = .next (run (k + 1))) {n : Nat}
    (hin : ∀ k, n ≤ k → inWaitLoop ((run k).port p) = true) :
    ∃ m, ∀ k, m ≤ k → ¬ (run k).polls p := by
  have hstep : ∀ k, n ≤ k → falseLeft ((run (k + 1)).port p) ≤ falseLeft ((run k).port p)
      ∧ ((run k).polls p → falseLeft ((run (k + 1)).port p) < falseLeft ((run k).port p)) :=
    fun k hk => step_falseLeft (hrun k) (hin k hk) (hin (k + 1) (Nat.le_succ_of_le hk))
  exact eventually_not_of_falling (f := fun k => falseLeft ((run k).port p)) (fun k hk => (hstep k hk).1)
    fun k hk => (hstep k hk).2

/-- Settles O60: the count of false draws is never raised and each draw lowers it, so every loop ends. -/
theorem expiredMonotoneAndFair : Obligations.ExpiredMonotoneAndFair :=
  ⟨fun s _ _ => ⟨fun _ hw => drawFor_some s hw, fun hw =>
      ⟨s.drawExpiry.1, (drawFor_none s hw).1, (drawFor_none s hw).2, fun _ _ => drawExpiry_of_listed⟩⟩,
    fun s t _ hw => drawFor_monotone s t hw,
    fun _ _ hrun _ => polls_finitely hrun,
    fun _ _ => reset_responds,
    fun _ _ _ _ _ => bout_responds_or_waits⟩

end Sys2Proof.Machine
end

section
/-!
PROOF. BOUT's recovery (R109-R111, R134), with the environment's answers listed: the polls, the reset, the wait
for the collaborator and the release, in order.
-/

namespace Sys2Proof.Machine

open Sys2Proof

variable {i : Instr} {p : Port} {a b : Active} {s t u : State} {haddr : Word} {len : Half} {page : Byte}

/-! ### Listed answers -/

/-- No simulator, and exactly these answers are listed for reads, waits and polls of `reinit_done`. -/
structure Listed (t : State) (bus : List Word) (expired : List Nat) (reinit : List Bool) : Prop where
  nic : t.env.nic = none
  bus : t.env.busTape = bus
  expired : t.env.expiredTape = expired
  reinit : t.env.reinitTape = reinit

section

variable {bus : List Word} {expired more : List Nat} {reinit : List Bool} {v : Word}

theorem Listed.of_kept (h : Listed s bus expired reinit) (k : TapesKept s t) : Listed t bus expired reinit :=
  ⟨k.nic h.nic, k.bus.trans h.bus, k.expired.trans h.expired, k.reinit.trans h.reinit⟩

theorem Listed.setPort (h : Listed t bus expired reinit) (p : Port) (x : PortState) :
    Listed (t.setPort p x) bus expired reinit := h.of_kept (.of_env (setPort_env t p x))

theorem Listed.withDmaing (h : Listed t bus expired reinit) (v : Byte) :
    Listed (t.withDmaing v) bus expired reinit := h.of_kept (.of_env rfl)

theorem Listed.withReinitReq (h : Listed t bus expired reinit) (v : Bool) :
    Listed (t.withReinitReq v) bus expired reinit := h.of_kept (.of_env rfl)

theorem Listed.logEvent (h : Listed t bus expired reinit) (e : Event) :
    Listed (t.logEvent e) bus expired reinit := h.of_kept (.of_env rfl)

theorem Listed.regWr8 (h : Listed t bus expired reinit) (k : Fin 32) (b : Byte) :
    Listed (t.regWr8 k b) bus expired reinit := h.of_kept (memWrite_tapes t _ _ _)

/-- An 8-bit read takes the next listed answer (R68). -/
theorem Listed.regRd8 (h : Listed t (v :: bus) expired reinit) (k : Fin 32) :
    (t.regRd8 k).1 = v.setWidth 8 ∧ Listed (t.regRd8 k).2 bus expired reinit := by
  obtain ⟨hnic, hbus, hexpired, hreinit⟩ := h
  have hdraw : t.drawBus (t.regAddr k) .w8
      = (Width.w8.trunc v, t.withEnv { t.env with busTape := bus }) := by
    simp [State.drawBus, hnic, hbus]
  constructor
  · rw [regRd8_fst, hdraw]
    simp [Width.trunc]
  · simp only [State.regRd8, State.memRead, hdraw]
    exact ⟨hnic, rfl, hexpired, hreinit⟩

/-- `reinit_done` at a poll is the next listed level (R110). -/
theorem Listed.drawReinit {level : Bool} (h : Listed t bus expired (level :: reinit)) :
    t.drawReinit.1 = level ∧ Listed t.drawReinit.2 bus expired reinit := by
  have hdraw : t.drawReinit = (level, t.withEnv { t.env with reinitTape := reinit }) := by
    simp [State.drawReinit, h.reinit]
  rw [hdraw]
  exact ⟨rfl, h.nic, h.bus, h.expired, rfl⟩

theorem running_drawReinit (s : State) : s.drawReinit.2.running = s.running := by simp [State.running]

theorem since_drawReinit (p : Port) (s : State) : Since p s s.drawReinit.2 [] s.rest where
  cycles := by simp
  responses := by simp
  other := by simp
  preempted := by simp
  rest := by simp
  cfg := by simp
  regOffset := by simp

theorem since_drawFor (p : Port) (s : State) (l : Locals) : Since p s (s.drawFor l).2.1 [] s.rest where
  cycles := by simp [State.drawFor]
  responses := by simp [State.drawFor]
  other := by simp [State.drawFor]
  preempted := by simp [State.drawFor]
  rest := by simp [State.drawFor]
  cfg := by simp [State.drawFor]
  regOffset := by simp [State.drawFor]

theorem Since.quiet {cs : List BusCycle} {r : Rest} (h : Since p s t cs r) (k : Since p t u [] t.rest) :
    Since p s u cs r := by
  have := h.trans k
  rwa [List.append_nil, h.rest] at this

/-- A wait has `f` false draws left, `more` being listed for the waits after it. -/
def Owes (w : Option Wait) (f : Nat) (more tape : List Nat) : Prop :=
  (∃ k, w = some ⟨k, none⟩ ∧ tape = f :: more) ∨ ∃ k, w = some ⟨k, some f⟩ ∧ tape = more

theorem drawFor_owes {l : Locals} {f : Nat} (h : Listed t bus expired reinit)
    (ho : Owes l.wait f more expired) :
    (t.drawFor l).1 = decide (f = 0) ∧ Listed (t.drawFor l).2.1 bus more reinit
      ∧ ∃ k, (t.drawFor l).2.2 = { l with wait := some ⟨k, some (f - 1)⟩ } := by
  rcases ho with ⟨k, hw, rfl⟩ | ⟨k, hw, rfl⟩
  · have hdraw : t.drawExpiry = (f, t.withEnv { t.env with expiredTape := more }) := by
      simp [State.drawExpiry, h.expired]
    obtain ⟨hanswer, hlocals⟩ := drawFor_none t hw
    rw [hdraw] at hanswer hlocals
    refine ⟨hanswer, ?_, k, hlocals⟩
    rw [drawFor_first t hw, hdraw]
    exact ⟨h.nic, h.bus, rfl, h.reinit⟩
  · obtain ⟨hanswer, hlocals⟩ := drawFor_some t hw
    refine ⟨hanswer, ?_, k, hlocals⟩
    rw [drawFor_left t hw]
    exact h

/-! ### A poll loop, answer by answer -/

variable {mask : Byte} {pollAt drawAt hit out : Pos} {event : Event} {late : Locals → Locals}
  {cs : List BusCycle} {r : Rest}

/-- Where a poll loop is left: the timeout logged and the locals marked if it timed out (R109, R111). -/
structure LoopLeft (hit out : Pos) (event : Event) (late : Locals → Locals) (p : Port) (s : State)
    (cs : List BusCycle) (r : Rest) (tx : Bool) (bus : List Word) (more : List Nat) (reinit : List Bool)
    (timedOut : Bool) (t : State) (b : Active) : Prop where
  since : Since p s t cs { r with log := r.log ++ if timedOut then [event] else [] }
  listed : ∃ tape, Listed t bus tape reinit ∧ (timedOut = true → tape = more)
  pos : b.pos = if timedOut then out else hit
  locals : ∃ l', b.locals = (if timedOut then late l' else l') ∧ l'.txTimedOut = tx

/-- A poll takes the next listed answer; the wait is as it was (R109). -/
theorem PollLoop.poll_listed (hloop : PollLoop i p mask pollAt drawAt hit out event late)
    (hr : t.running = some (p, a)) (hp : a.pos = pollAt) (hs : Since p s t cs r)
    (hl : Listed t (v :: bus) expired reinit) :
    Comes i p t fun u b => Since p s u (cs ++ [s.rd nicIsr (v.setWidth 8)]) r ∧ Listed u bus expired reinit
      ∧ b.pos = (if anyBit (v.setWidth 8) mask then hit else drawAt)
      ∧ b.locals = { a.locals with value := (v.setWidth 8).setWidth 32 } := by
  obtain ⟨hread, hl⟩ := hl.regRd8 nicIsr
  have hx := hloop.poll hr hp
  have hs := hs.regRd8 nicIsr
  rw [hread] at hx hs
  exact .step hx (.here (running_setPort (by simpa using ready_of_running hr))
    ⟨hs.setPort _, hl.setPort _ _, rfl, rfl⟩)

/-- A draw that owes no false answer leaves the loop, the timeout logged (R45, R109). -/
theorem PollLoop.draw_last (hloop : PollLoop i p mask pollAt drawAt hit out event late)
    (hr : t.running = some (p, a)) (hp : a.pos = drawAt) (hs : Since p s t cs r)
    (hl : Listed t bus expired reinit) (ho : Owes a.locals.wait 0 more expired) :
    Comes i p t (LoopLeft hit out event late p s cs r a.locals.txTimedOut bus more reinit true) := by
  obtain ⟨hanswer, hl, k, hlocals⟩ := drawFor_owes hl ho
  have hx := hloop.draw hr hp
  have hready : Ready (t.drawFor a.locals).2.1 p := by rw [ready_drawFor]; exact ready_of_running hr
  rw [hanswer, hlocals] at hx
  refine .step hx (.here (running_setPort (by simpa using hready)) ⟨?_, ?_, rfl, _, rfl, rfl⟩)
  · exact ((hs.quiet (since_drawFor p _ _)).logEvent event).setPort _
  · exact ⟨more, (hl.logEvent event).setPort _ _, fun _ => rfl⟩

/-- A draw that owes false answers uses one up and goes back to the poll (R45). -/
theorem PollLoop.draw_false {n : Nat} (hloop : PollLoop i p mask pollAt drawAt hit out event late)
    (hr : t.running = some (p, a)) (hp : a.pos = drawAt) (hs : Since p s t cs r)
    (hl : Listed t bus expired reinit) (ho : Owes a.locals.wait (n + 1) more expired) :
    Comes i p t fun u b => Since p s u cs r ∧ Listed u bus more reinit ∧ b.pos = pollAt
      ∧ ∃ k, b.locals = { a.locals with wait := some ⟨k, some n⟩ } := by
  obtain ⟨hanswer, hl, k, hlocals⟩ := drawFor_owes hl ho
  have hx := hloop.draw hr hp
  have hready : Ready (t.drawFor a.locals).2.1 p := by rw [ready_drawFor]; exact ready_of_running hr
  rw [hanswer, hlocals] at hx
  exact .step hx (.here (running_setPort hready)
    ⟨(hs.quiet (since_drawFor p _ _)).setPort _, hl.setPort _ _, rfl, k, rfl⟩)

/-- A loop whose listed answers are one whole run of it is left after them, as `pollRun` says (R45). -/
theorem PollLoop.run (hloop : PollLoop i p mask pollAt drawAt hit out event late) {timedOut : Bool}
    (polls : List Word) :
    ∀ {f : Nat} {tape : List Nat} {t : State} {a : Active} {cs : List BusCycle},
      pollRun mask polls f = some timedOut → t.running = some (p, a) → a.pos = pollAt →
      Since p s t cs r → Listed t (polls ++ bus) tape reinit → Owes a.locals.wait f more tape →
      Comes i p t (LoopLeft hit out event late p s
        (cs ++ polls.map fun v => s.rd nicIsr (v.setWidth 8)) r a.locals.txTimedOut bus more reinit timedOut) := by
  induction polls with
  | nil => intro f tape t a cs hrun; cases hrun
  | cons v vs ih =>
    intro f tape t a cs hrun hr hp hs hl ho
    refine (hloop.poll_listed hr hp hs hl).trans fun t b hr ⟨hs, hl, hpos, hlocals⟩ => ?_
    have ho : Owes b.locals.wait f more tape := by rw [hlocals]; exact ho
    have htx : a.locals.txTimedOut = b.locals.txTimedOut := by rw [hlocals]
    rw [htx]
    simp only [pollRun] at hrun
    split at hrun
    · next hbit =>
      split at hrun <;> cases hrun
      next hlast =>
      subst hlast
      rw [if_pos hbit] at hpos
      refine .here hr ⟨?_, ⟨tape, hl, nofun⟩, hpos, b.locals, rfl, rfl⟩
      simpa using hs
    · next hbit =>
      rw [if_neg hbit] at hpos
      split at hrun
      · split at hrun <;> cases hrun
        next hlast =>
        subst hlast
        exact hloop.draw_last hr hpos hs hl ho
      · next n =>
        refine (hloop.draw_false hr hpos hs hl ho).trans fun t c hr ⟨hs, hl, hpos, k, hc⟩ => ?_
        have h := ih hrun hr hpos hs hl (.inr ⟨k, by rw [hc], rfl⟩)
        rw [List.append_assoc, show c.locals.txTimedOut = b.locals.txTimedOut by rw [hc]] at h
        exact h

theorem LoopLeft.txTimedOut {tx timedOut : Bool} (h : LoopLeft hit out event late p s cs r tx bus more
    reinit timedOut t b) (hlate : ∀ l, (late l).txTimedOut = l.txTimedOut) : b.locals.txTimedOut = tx := by
  obtain ⟨l, hl, htx⟩ := h.locals
  rw [hl, ← htx]
  split
  · exact hlate l
  · rfl

/-! ### The reset, the collaborator and the release -/

/-- `ResetProc` after its first read, with the answers of its poll listed (R111). -/
theorem ResetCall.run {done : Active → Active} (hcall : ResetCall i p done) {timedOut : Bool}
    {polls : List Word} {f : Nat} (hrun : pollRun isrRst polls f = some timedOut)
    (hr : t.running = some (p, a)) (hp : a.pos = .rstWrite) (hs : Since p s t cs r)
    (hl : Listed t (polls ++ bus) (f :: more) reinit) :
    Comes i p t fun u b =>
      Since p s u (cs ++ [s.wr nicReset (a.locals.value.setWidth 8)]
          ++ (polls.map fun v => s.rd nicIsr (v.setWidth 8)) ++ [s.wr nicIsr isrRst])
        { r with dmaing := 0x00, log := r.log ++ if timedOut then [.timeoutReset p] else [] }
      ∧ (∃ tape, Listed u bus tape reinit)
      ∧ ∃ a', b = done a' ∧ a'.locals.txTimedOut = a.locals.txTimedOut := by
  have hready := ready_of_running hr
  have hr1 := running_setPort (s := t.regWr8 nicReset (a.locals.value.setWidth 8))
    (a := { a with pos := .rstClear }) (by simpa using hready)
  have hs1 := (hs.regWr8 nicReset (a.locals.value.setWidth 8)).setPort (.active { a with pos := .rstClear })
  have hl1 := (hl.regWr8 nicReset (a.locals.value.setWidth 8)).setPort p (.active { a with pos := .rstClear })
  refine .step (hcall.write hr hp) (.step (hcall.clear hr1 rfl) ?_)
  refine (hcall.pollLoop.run polls hrun (running_setPort (by simpa [State.goto] using hready)) rfl
    ((hs1.withDmaing 0x00).setPort _) ((hl1.withDmaing 0x00).setPort _ _)
    (.inl ⟨_, rfl, rfl⟩)).trans fun u b hr h => ?_
  obtain ⟨tape, hl, -⟩ := h.listed
  refine .step (hcall.ack hr (by simpa using h.pos)) (.here (running_setPort ?_)
    ⟨(h.since.regWr8 nicIsr isrRst).setPort _, ⟨tape, (hl.regWr8 _ _).setPort _ _⟩, b, rfl,
      h.txTimedOut fun _ => rfl⟩)
  simpa using ready_of_running hr

/-- The wait for the collaborator ends at its first answer, however long it takes (R110). -/
theorem bout_reinit_polls {later : List Bool} (waits : Nat) :
    ∀ {t : State}, t.running = some (p, a) → a.pos = .reinitWait → Since p s t cs r →
      Listed t bus expired (List.replicate waits false ++ true :: later) →
      Comes (.bout haddr len page) p t fun u b =>
        Since p s u cs { r with reinitReq := false } ∧ b.pos = .ack ∧ b.locals = a.locals := by
  induction waits with
  | zero =>
    intro t hr hp hs hl
    have hx := execBout_reinitWait (haddr := haddr) (len := len) (page := page) hr hp
    rw [reinitPoll, hl.drawReinit.1] at hx
    exact .step hx (.here (running_setPort (by simpa using ready_of_running hr))
      ⟨((hs.quiet (since_drawReinit p t)).withReinitReq false).setPort _, rfl, rfl⟩)
  | succ n ih =>
    intro t hr hp hs hl
    rw [List.replicate_succ, List.cons_append] at hl
    have hx := execBout_reinitWait (haddr := haddr) (len := len) (page := page) hr hp
    rw [reinitPoll, hl.drawReinit.1] at hx
    exact .step hx (ih ((running_drawReinit t).trans hr) hp (hs.quiet (since_drawReinit p t)) hl.drawReinit.2)

/-- From the expiry of its wait BOUT resets the NIC and comes to the wait for the collaborator (R109-R111). -/
theorem bout_resets {timedOut : Bool} {polls : List Word} {f : Nat}
    (hrun : pollRun isrRst polls f = some timedOut) (hr : t.running = some (p, a)) (hp : a.pos = .rstRead)
    (hs : Since p s t cs r) (hl : Listed t (v :: (polls ++ bus)) (f :: more) reinit) :
    Comes (.bout haddr len page) p t fun u b =>
      Since p s u (cs ++ [s.rd nicReset (v.setWidth 8), s.wr nicReset (v.setWidth 8)]
          ++ (polls.map fun v => s.rd nicIsr (v.setWidth 8)) ++ [s.wr nicIsr isrRst])
        { r with
          dmaing := 0x00
          log := r.log ++ (if timedOut then [.timeoutReset p] else []) ++ [.reinit p]
          reinitReq := true }
      ∧ (∃ tape, Listed u bus tape reinit) ∧ b.pos = .reinitWait
      ∧ b.locals.txTimedOut = a.locals.txTimedOut := by
  obtain ⟨hread, hl⟩ := hl.regRd8 nicReset
  have hx := execBout_rstRead (haddr := haddr) (len := len) (page := page) hr hp
  have hs := hs.regRd8 nicReset
  rw [hread] at hx hs
  refine .step hx (((resetCall_bout p haddr len page).run hrun
    (running_setPort (by simpa using ready_of_running hr)) rfl (hs.setPort _) (hl.setPort _ _)).trans
      fun u b hr ⟨hs, ⟨tape, hl⟩, a', hb, htx⟩ => ?_)
  refine .step (execBout_reinitReq hr (by rw [hb]; rfl))
    (.here (running_setPort (by simpa using ready_of_running hr)) ⟨?_, ?_, rfl, ?_⟩)
  · have hall := ((hs.logEvent (.reinit p)).withReinitReq true).setPort (.active { b with pos := .reinitWait })
    simpa [State.goto, List.append_assoc] using hall
  · exact ⟨tape, ((hl.logEvent _).withReinitReq _).setPort _ _⟩
  · rw [hb]; exact htx

/-- BOUT from its completion wait, which expires, to its response (R109-R111, R134). -/
theorem bout_recovers {polls resetPolls : List Word} {f resetF : Nat} {resetTimedOut : Bool} {waits : Nat}
    {later : List Bool} (hrun : pollRun isrRdc polls f = some true)
    (hreset : pollRun isrRst resetPolls resetF = some resetTimedOut)
    (hr : t.running = some (p, a)) (hp : a.pos = .txPoll) (hw : a.locals.wait = some ⟨.tx, none⟩)
    (hs : Since p s t cs r)
    (hl : Listed t (polls ++ v :: (resetPolls ++ bus)) (f :: resetF :: more)
      (List.replicate waits false ++ true :: later)) :
    Comes (.bout haddr len page) p t fun u b =>
      Since p s u (cs ++ (polls.map fun v => s.rd nicIsr (v.setWidth 8))
          ++ [s.rd nicReset (v.setWidth 8), s.wr nicReset (v.setWidth 8)]
          ++ (resetPolls.map fun v => s.rd nicIsr (v.setWidth 8)) ++ [s.wr nicIsr isrRst, s.wr nicIsr isrRdc])
        { r with
          dmaing := 0x00
          reinitReq := false
          log := r.log ++ [.timeoutTx p] ++ (if resetTimedOut then [.timeoutReset p] else []) ++ [.reinit p] }
      ∧ b.pos = .respond ∧ b.locals.txTimedOut = true := by
  refine ((boutPollLoop p haddr len page).run polls hrun hr hp hs hl (.inl ⟨_, hw, rfl⟩)).trans
    fun t b hr hleft => ?_
  obtain ⟨tape, hl, htape⟩ := hleft.listed
  cases htape rfl
  obtain ⟨l, hlocals, -⟩ := hleft.locals
  have hexpired : b.locals.txTimedOut = true := by rw [hlocals]; rfl
  refine (bout_resets hreset hr hleft.pos hleft.since hl).trans
    fun t c hr ⟨hs, ⟨tape, hl⟩, hpos, htx⟩ => ?_
  refine (bout_reinit_polls waits hr hpos hs hl).trans fun t d hr ⟨hs, hpos, hd⟩ => ?_
  refine (bout_ends hs hr hpos).trans fun t e hr ⟨hs, hpos, he⟩ => .here hr ⟨?_, hpos, ?_⟩
  · have hclear : clearBusy 0x00 = 0x00 := by decide
    simpa only [hclear, if_true, List.append_assoc _ [s.wr nicIsr isrRst], List.cons_append, List.nil_append]
      using hs
  · rw [he, hd, htx, hexpired]

end

/-- Settles O31: the polls, the reset, the collaborator's wait and the release follow each other. -/
theorem boutRecoversFromTimeout : Obligations.BoutRecoversFromTimeout := by
  intro haddr len page s p polls resetPolls rest v f resetF more resetTimedOut waits later hstart hw hc hf hd
    hnic hbus hexpired hreinit hrun hreset
  have hlisted : Listed s _ _ _ := ⟨hnic, hbus, hexpired, hreinit⟩
  have hcomes := (bout_comes_to_wait (page := page) hstart hw hc hf hd).trans
    fun t b hr ⟨hs, htapes, hpos, hwait⟩ =>
      bout_recovers hrun hreset hr hpos hwait hs (hlisted.of_kept htapes)
  obtain ⟨n, u, hn, hanswered, hrest⟩ := hcomes.finish (R := fun u => Answered s u p _ _ ∧ u.rest = _)
    fun t b hr ⟨hs, hpos, htx⟩ => ⟨_, execBout_respond hr hpos, by
      rw [boutCode, if_pos htx]
      exact respond_answers _ _ _ hs.cycles hs.responses hs.other hs.preempted,
      (rest_respond ..).trans hs.rest⟩
  exact ⟨u, n, hn, hanswered, hrest⟩

end Sys2Proof.Machine
end

section
/-!
PROOF. Every cycle lies at a register or in its window, at its width (R52, R54, R55), and with aligned offsets
at a multiple of 4 (R56).
-/

namespace Sys2Proof.Machine

open Sys2Proof

variable {i : Instr} {p : Port} {a : Active} {s t : State} {P : BusCycle → Prop}

/-! ### The cycle of a move -/

/-- The trace is as it was, or longer by one cycle with the property `P`. -/
def Issues (P : BusCycle → Prop) (s t : State) : Prop :=
  t.out.cycles = s.out.cycles ∨ ∃ c, P c ∧ t.out.cycles = s.out.cycles ++ [c]

theorem Issues.cycle {c : BusCycle} (h : Issues P s t) (ht : t.out.cycles = s.out.cycles ++ [c]) : P c := by
  rcases h with h | ⟨d, hd, h⟩ <;> rw [ht] at h
  · simp at h
  · obtain rfl : c = d := by simpa using h
    exact hd

theorem Issues.of_out (h : t.out = s.out) : Issues P s t := .inl (by rw [h])

/-! ### On the board (R52, R54, R55) -/

/-- A micro-step of a request that stands where it can issues cycles on the board only. -/
theorem MicroStep.issues_onBoard (h : MicroStep i p a s t) (hc : s.cfg.winSizeOk = true)
    (hst : Standing s.cfg i a) : Issues (OnBoard s) s t := by
  cases h with
  | read addr w b _ _ _ hb => exact .inr ⟨_, hb hc hst (s.drawBus addr w).1, by simp⟩
  | write addr w v b _ _ _ hb => exact .inr ⟨_, hb hc hst, by simp⟩
  | busWrite u v b _ _ hb => exact .inr ⟨_, hb hc hst, by simp⟩
  | mgPush phase bitpos data shadow b =>
    exact .inr ⟨s.wr nicMemr shadow, onBoard_register s nicMemr rfl (by simp [State.wr, BusCycle.width]),
      by simp⟩
  | mgSample data b =>
    exact .inr ⟨s.rd nicMemr (s.regRd8 nicMemr).1,
      onBoard_register s nicMemr rfl (by simp [State.rd, BusCycle.width]), by simp⟩
  | _ => exact .inl (by simp [State.raise, State.mgRespond, out_mgLeave, out_hostWrite])

/-- An acceptance issues no cycle (R36, R131). -/
theorem accept_cycles (s : State) (p : Port) : (s.accept p).out.cycles = s.out.cycles := by
  rw [← out_setPresented s p none]
  generalize ht : s.accept p = t
  have hacc := accept_accepted s p
  rw [ht] at hacc
  cases hacc with
  | dropped => rw [out_setPresented]
  | latched d => rw [latch_out]
  | refused d e => rfl

theorem present_out (s : State) (p : Port) (d : Desc) : (s.present p d).out = s.out := by
  unfold State.present
  split
  · exact out_setPresented s p _
  · rfl

theorem Took.issues_onBoard {m : Move} (h : Took m s t) (hinv : BlockInv s) :
    Issues (OnBoard s) s t := by
  cases h with
  | idle => exact .of_out rfl
  | micro _ p a i hr hd hx =>
    exact (exec_microStep hr hx).issues_onBoard (winSizeOk_of_wellFormed hinv.cfg) (hinv.standing hr hd)
  | refused _ p a e => exact .inl (by rw [endRequest_out]; rfl)
  | present p d => exact .of_out (present_out s p d)
  | accept p => exact .inl (accept_cycles s p)
  | extSetDmaing v => exact .of_out rfl
  | agent _ hf => exact .inl hf.cycles
  | rst => exact .inl (by rw [rst_out])

theorem step_issues_onBoard (hinv : BlockInv s) (h : step s = .next t) : Issues (OnBoard s) s t := by
  have hissues := (step_took h).1.issues_onBoard (hinv.of_same (.nextMove s))
  obtain ⟨moves, hu⟩ := nextMove_snd s
  rw [hu] at hissues
  exact hissues

/-! ### Aligned (R56) -/

/-- A window at a multiple of 4 has its 32-bit cycles at multiples of 4; wrapping at 2^32 keeps that (log 16). -/
theorem toNat_window_mod_four {board : Word} {base off : Half} (hboard : board.toNat % 4 = 0)
    (hbase : base.toNat % 4 = 0) (hoff : off.toNat % 4 = 0) (k : Nat) :
    (board + base.setWidth 32 + off.setWidth 32 + BitVec.ofNat 32 (4 * k)).toNat % 4 = 0 := by
  simp only [BitVec.toNat_add, BitVec.toNat_setWidth, BitVec.toNat_ofNat]
  omega

theorem OnBoard.aligned {c : BusCycle} (h : OnBoard s c) (hinv : BlockInv s)
    (ha : s.cfg.aligned = true) : c.addr.toNat % 4 = 0 := by
  obtain ⟨-, -, -, -, -, hboard⟩ := s.cfg.wellFormed_iff.mp hinv.cfg
  obtain ⟨-, -, hdata, hrd, hwr⟩ := (aligned_iff s.cfg).mp ha
  rcases h with ⟨k, haddr, -⟩ | ⟨k, -, -, -, haddr⟩ | ⟨k, -, -, -, haddr⟩ <;> rw [haddr]
  · exact (registerAddresses s k hinv.cfg ha hinv.table).2
  · exact toNat_window_mod_four hboard hdata hrd k
  · exact toNat_window_mod_four hboard hdata hwr k

/-- Settles O53: only micro-steps issue cycles, each at its place; that place is a multiple of 4. -/
theorem cyclesOnTheBoard : Obligations.CyclesOnTheBoard := by
  intro s t c hinv hstep hc
  have hb := (step_issues_onBoard hinv hstep).cycle hc
  exact ⟨hb, hb.aligned hinv⟩

end Sys2Proof.Machine
end

section
/-!
PROOF. The lane helpers (R57, R88): which byte lies where, and that placing bytes and taking them back are
inverse.
-/

namespace Sys2Proof.Machine

open Sys2Proof

/-! ### Bytes of a value -/

theorem extract_bytes32 (b3 b2 b1 b0 : Byte) :
    (b3 ++ b2 ++ b1 ++ b0).extractLsb' 24 8 = b3 ∧ (b3 ++ b2 ++ b1 ++ b0).extractLsb' 16 8 = b2
      ∧ (b3 ++ b2 ++ b1 ++ b0).extractLsb' 8 8 = b1 ∧ (b3 ++ b2 ++ b1 ++ b0).extractLsb' 0 8 = b0 := by
  refine ⟨?_, ?_, ?_, ?_⟩ <;> grind

theorem extract_bytes16 (b1 b0 : Byte) :
    (b1 ++ b0).extractLsb' 8 8 = b1 ∧ (b1 ++ b0).extractLsb' 0 8 = b0 := by
  constructor <;> grind

theorem bytes_of_word (v : Word) :
    v.extractLsb' 24 8 ++ v.extractLsb' 16 8 ++ v.extractLsb' 8 8 ++ v.extractLsb' 0 8 = v := by
  grind

theorem bytes_of_half (v : Half) : v.extractLsb' 8 8 ++ v.extractLsb' 0 8 = v := by
  grind

/-! ### Placing bytes and taking them back -/

@[simp] theorem lane32_bytes (be : Bool) (b0 b1 b2 b3 : Byte) :
    lane32 be [b0, b1, b2, b3] = if be then b0 ++ b1 ++ b2 ++ b3 else b3 ++ b2 ++ b1 ++ b0 := rfl

@[simp] theorem lane16_bytes (be : Bool) (b0 b1 : Byte) :
    lane16 be [b0, b1] = if be then b0 ++ b1 else b1 ++ b0 := rfl

theorem unlane32_lane32 (be : Bool) (b0 b1 b2 b3 : Byte) :
    unlane32 be (lane32 be [b0, b1, b2, b3]) = [b0, b1, b2, b3] := by
  cases be with
  | true =>
    obtain ⟨h0, h1, h2, h3⟩ := extract_bytes32 b0 b1 b2 b3
    simp [unlane32, h0, h1, h2, h3]
  | false =>
    obtain ⟨h3, h2, h1, h0⟩ := extract_bytes32 b3 b2 b1 b0
    simp [unlane32, h0, h1, h2, h3]

theorem unlane16_lane16 (be : Bool) (b0 b1 : Byte) :
    unlane16 be (lane16 be [b0, b1]) = [b0, b1] := by
  cases be with
  | true => simp [unlane16, extract_bytes16 b0 b1]
  | false => simp [unlane16, extract_bytes16 b1 b0]

theorem lane32_unlane32 (be : Bool) (v : Word) : lane32 be (unlane32 be v) = v := by
  cases be <;> exact bytes_of_word v

theorem lane16_unlane16 (be : Bool) (v : Half) : lane16 be (unlane16 be v) = v := by
  cases be <;> exact bytes_of_half v

/-- Settles O27: the bytes of a value and back; where each lies by definition. -/
theorem lanesInverse : Obligations.LanesInverse :=
  ⟨unlane32_lane32, unlane16_lane16, lane32_unlane32, lane16_unlane16, fun _ _ _ _ => ⟨rfl, rfl⟩,
    fun _ _ => ⟨rfl, rfl⟩, fun _ _ _ _ _ => ⟨rfl, rfl, rfl⟩⟩

end Sys2Proof.Machine
end

section
/-!
PROOF. What a micro-step writes into host memory, and that it writes nothing else (R63, R91, R104).
-/

namespace Sys2Proof.Machine

open Sys2Proof

variable {i : Instr} {p : Port} {a : Active} {s t : State} {u : BUnit}

/-! ### Where the block writes host memory -/

/-- Only a request that stores to the host writes host memory, at a host access or in GETHDR's rewrite. -/
theorem MicroStep.mem_kept (h : MicroStep i p a s t)
    (hno : storesToHost i = false ∨ (∀ u, a.pos ≠ .host u) ∧ a.pos ≠ .swap) : t.mem = s.mem := by
  rw [← rest_mem, ← rest_mem]
  cases h with
  | hostWrite u b hpos hstores =>
    rcases hno with hno | ⟨hno, -⟩
    · rw [hno] at hstores; cases hstores
    · exact absurd hpos (hno u)
  | swap haddr page b0 b1 b hpos hi =>
    rcases hno with hno | ⟨-, hno⟩
    · subst hi; cases hno
    · exact absurd hpos hno
  | _ => simp [Rest.mgLeft]

theorem exec_host (hs : storesToHost i = true) (hr : s.running = some (p, a)) (hp : a.pos = .host u) :
    ∃ done, exec i s = rblkHost done u p a s := by
  cases i with
  | rblk haddr len => exact ⟨thenRespond, by simp [exec, execRblk, micro_running hr, hp]⟩
  | gethdr haddr page => exact ⟨thenAck, by simp [exec, execGethdr, micro_running hr, hp]⟩
  | bin haddr len roff => exact ⟨thenAck, by simp [exec, execBin, micro_running hr, hp]⟩
  | _ => cases hs

theorem execGethdr_swap {haddr : Word} {page : Byte} (hr : s.running = some (p, a)) (hp : a.pos = .swap) :
    exec (.gethdr haddr page) s = headerSwap haddr p a s := by
  simp [exec, execGethdr, micro_running hr, hp]

/-! ### What it writes there -/

@[simp] theorem mem_hostWrite (s : State) (addr : Nat) (bytes : List Byte) :
    (s.hostWrite addr bytes).mem = s.mem.writeBytes addr bytes := rfl

/-- A host access writes the bytes of its transfer as they are moved (R91). -/
theorem exec_host_mem (hs : storesToHost i = true) (hr : s.running = some (p, a)) (hp : a.pos = .host u)
    (hx : exec i s = .next t) :
    t.mem = s.mem.writeBytes (a.locals.xfer.hostAddr u)
      (s.moved a.locals.raced (a.locals.xfer.hostAddr u) a.locals.bytes).1 := by
  obtain ⟨done, hexec⟩ := exec_host hs hr hp
  rw [hexec] at hx
  cases hx
  simp

/-- GETHDR's rewrite writes the count in host byte order as it is moved (R104). -/
theorem execGethdr_swap_mem {haddr : Word} {page : Byte} (hr : s.running = some (p, a)) (hp : a.pos = .swap)
    (hx : exec (.gethdr haddr page) s = .next t) :
    t.mem = s.mem.writeBytes (haddr.toNat + 2)
      (s.moved a.locals.raced (haddr.toNat + 2)
        [headerByte a.locals.header 3, headerByte a.locals.header 2]).1 := by
  rw [execGethdr_swap hr hp] at hx
  cases hx
  simp [goto_eq]

/-- Settles O55: elsewhere memory is kept, and a write of several bytes keeps the others. -/
theorem hostMemoryFrame : Obligations.HostMemoryFrame := by
  intro i s t p a hr hx
  have hms := exec_microStep hr hx
  refine ⟨fun hs => hms.mem_kept (.inl hs), fun u hp hfit j hj hout => ?_,
    fun haddr page hi hp hfit j hj hout => ?_, fun hhost hswap => hms.mem_kept (.inr ⟨hhost, hswap⟩)⟩
  · cases hs : storesToHost i with
    | false => rw [hms.mem_kept (.inl hs)]
    | true =>
      rw [exec_host_mem hs hr hp hx]
      exact Memory.read_writeBytes_other (by simpa using hfit) hj (by simpa using hout)
  · subst hi
    rw [execGethdr_swap_mem hr hp hx]
    exact Memory.read_writeBytes_other (by simpa using hfit) hj (by simpa using hout)

end Sys2Proof.Machine
end

section
/-!
PROOF. Races with another host agent (R63): which accesses race, what such an access does, and how a request
moves a raced byte.
-/

namespace Sys2Proof.Machine

open Sys2Proof

variable {i : Instr} {p : Port} {a : Active} {s t : State} {u : BUnit} {addr k : Nat} {isRead : Bool}

/-! ### Which accesses race -/

/-- A write races with every request whose buffer holds the byte. -/
theorem races_write (c : Config) (k : Nat) (x : PortState) : races c false k x = inBuffer c k x := by
  cases x with
  | idle => rfl
  | active a => cases hd : decode a.desc <;> simp [races, inBuffer, hd]

/-- A read races with a request that stores to the host and whose buffer holds the byte. -/
theorem races_read_iff (c : Config) (k : Nat) (x : PortState) :
    races c true k x = true ↔ ∃ a i, x = .active a ∧ decode a.desc = .ok i ∧ storesToHost i = true
      ∧ inBuffer c k x = true := by
  cases x with
  | idle => simp [races, inBuffer]
  | active a => cases hd : decode a.desc <;> simp [races, hd, and_comm]

theorem isRaced_iff (ha : addr < 2 ^ 32) :
    s.isRaced isRead addr = true ↔ ∃ p, races s.cfg isRead addr (s.port p) = true := by
  rw [State.isRaced, Memory.hostKey_of_lt ha, Bool.or_eq_true, exists_port]
  rfl

theorem isRaced_write_iff (ha : addr < 2 ^ 32) :
    s.isRaced false addr = true
      ↔ inBuffer s.cfg addr s.portTask = true ∨ inBuffer s.cfg addr s.portIrq = true := by
  simp [State.isRaced, races_write, Memory.hostKey_of_lt ha]

theorem isRaced_read_iff (ha : addr < 2 ^ 32) :
    s.isRaced true addr = true ↔ ∃ p a i, s.port p = .active a ∧ decode a.desc = .ok i
      ∧ storesToHost i = true ∧ inBuffer s.cfg addr (s.port p) = true :=
  (isRaced_iff ha).trans (exists_congr fun _ => races_read_iff _ _ _)

/-! ### What an access of another agent does -/

theorem raceByte_fst (s : State) (isRead : Bool) (addr : Nat) :
    (s.raceByte isRead addr).1 = s.drawHost.1 := by
  simp [State.raceByte]

theorem raceByte_mem (s : State) (isRead : Bool) (addr : Nat) :
    (s.raceByte isRead addr).2.mem = s.mem.write addr s.drawHost.1 := by
  simp [State.raceByte, Memory.writeBytes]

theorem raceByte_out (s : State) (isRead : Bool) (addr : Nat) :
    (s.raceByte isRead addr).2.out = s.out := by
  simp [State.raceByte, out_hostWrite]

theorem raceByte_port (s : State) (isRead : Bool) (addr : Nat) (p : Port) :
    (s.raceByte isRead addr).2.port p = (s.port p).afterAccess s.cfg isRead (hostKey addr) := by
  cases p <;> simp [State.raceByte, State.port, State.hostWrite]

/-- Another agent's write of one byte leaves its value, or a draw where it races. -/
theorem hostStore_mem (s : State) (addr : Nat) (b : Byte) :
    (s.hostStore addr [b]).mem = s.mem.write addr (if s.isRaced false addr then s.drawHost.1 else b) := by
  simp only [State.hostStore]
  split
  · exact raceByte_mem s false addr
  · rfl

/-- A request whose buffer another agent writes remembers the address, and is else as it was. -/
theorem hostStore_port (b : Byte) (ha : addr < 2 ^ 32) (hp : s.port p = .active a)
    (hb : inBuffer s.cfg addr (s.port p) = true) :
    (s.hostStore addr [b]).port p
      = .active { a with locals := { a.locals with raced := a.locals.raced.insert addr } } := by
  have hrace : races s.cfg false addr (s.port p) = true := by rw [races_write, hb]
  simp only [State.hostStore]
  rw [if_pos ((isRaced_iff ha).mpr ⟨p, hrace⟩), raceByte_port, Memory.hostKey_of_lt ha,
    PortState.afterAccess, if_pos hrace, hp]
  rfl

/-- Another agent's read of a byte that races answers a draw and leaves it in memory. -/
theorem hostLoad_of_raced (h : s.isRaced true addr = true) :
    (s.hostLoad addr 1).out.agentReads = s.out.agentReads ++ [(addr, [s.drawHost.1])]
      ∧ (s.hostLoad addr 1).mem = s.mem.write addr s.drawHost.1 := by
  simp [State.hostLoad, State.hostBytes, State.answerAgent, h, raceByte_fst, raceByte_out, raceByte_mem]

theorem hostLoad_of_not_raced (h : s.isRaced true addr = false) :
    s.hostLoad addr 1 = s.answerAgent addr [s.mem.read addr] := by
  simp [State.hostLoad, State.hostBytes, h]

/-! ### How a request moves a raced byte -/

/-- A cycle that carries the bytes of a transfer carries them in stream order (R57). -/
theorem streamBytes_lane (be : Bool) : ∀ (u : BUnit) (bytes : List Byte), bytes.length = u.size →
    streamBytes be u.width (u.width.trunc (u.lane be bytes)) = bytes
  | .win, [b0, b1, b2, b3], _ => unlane32_lane32 be b0 b1 b2 b3
  | .half, [b0, b1], _ => by
    simpa [streamBytes, BUnit.width, BUnit.lane, BUnit.unlane] using unlane16_lane16 be b0 b1
  | .byte, [b0], _ => by simp [streamBytes, BUnit.width, BUnit.lane, BUnit.unlane, byteAt]

/-- A card-bus write of a transfer is one cycle, with the bytes of the transfer as they are moved (R90). -/
theorem wblkBus_cycles {done : Active → Active} (h : wblkBus done u p a s = .next t) :
    t.out.cycles = s.out.cycles ++ [.write (s.unitAddr s.cfg.writeWindow a.locals.xfer u) u.width
      (u.width.trunc (u.lane s.cfg.hostBigEndian
        (s.moved a.locals.raced (a.locals.xfer.hostAddr u) a.locals.bytes).1))] := by
  cases h
  simp

theorem exec_wblkBus
    (hi : (∃ haddr len, i = .wblk haddr len) ∨ ∃ haddr len page, i = .bout haddr len page)
    (hr : s.running = some (p, a)) (hp : a.pos = .bus u) : ∃ done, exec i s = wblkBus done u p a s := by
  rcases hi with ⟨haddr, len, rfl⟩ | ⟨haddr, len, page, rfl⟩
  · exact ⟨thenRespond, by simp [exec, execWblk, micro_running hr, hp]⟩
  · exact ⟨thenTxWait, by simp [exec, execBout, micro_running hr, hp]⟩

theorem exec_wblkBus_bytes
    (hi : (∃ haddr len, i = .wblk haddr len) ∨ ∃ haddr len page, i = .bout haddr len page)
    (hr : s.running = some (p, a)) (hp : a.pos = .bus u) (hlen : a.locals.bytes.length = u.size)
    (hx : exec i s = .next t) :
    ∃ c, t.out.cycles = s.out.cycles ++ [c]
      ∧ c.bytes s.cfg.hostBigEndian
        = (List.range u.size).map
            (s.movedByte a.locals.raced (a.locals.xfer.hostAddr u) a.locals.bytes) := by
  obtain ⟨done, hexec⟩ := exec_wblkBus hi hr hp
  refine ⟨_, wblkBus_cycles (hexec.symm.trans hx), ?_⟩
  rw [← hlen, ← moved_fst]
  exact streamBytes_lane _ u _ (by simpa using hlen)

/-- What a host write of moved bytes leaves at each of their addresses. -/
theorem read_moved {raced : List Nat} {bytes : List Byte} (hm : s.mem.wf = true)
    (hfit : addr + bytes.length ≤ 2 ^ 32) (hk : k < bytes.length) :
    (s.mem.writeBytes addr (s.moved raced addr bytes).1).read (addr + k)
      = s.movedByte raced addr bytes k := by
  rw [Memory.read_writeBytes_same hm (by simpa using hfit) (by simpa using hk), moved_fst]
  simp [hk]

/-- Settles O59: what each access of another agent does, then the bytes of each move by `moved_fst`. -/
theorem racedBytesAreDraws : Obligations.RacedBytesAreDraws := by
  refine ⟨fun s addr b ha hm => ⟨fun hin => ?_, fun hout => ?_, fun j hj hne => ?_,
      fun p act hp hb => ⟨_, hostStore_port b ha hp hb, List.mem_insert_self, rfl⟩⟩,
    fun s addr ha hm => ⟨fun hrace => ?_, fun hno => ?_⟩,
    fun i s t p a u hr hx => ⟨fun hp hlen hi => exec_wblkBus_bytes hi hr hp hlen hx,
      fun hp hs hm hfit k hk => ?_, fun haddr page hi hp hm hfit k hk => ?_⟩⟩
  · rw [hostStore_mem, if_pos ((isRaced_write_iff ha).mpr hin), Memory.read_write_same _ _ hm]
  · have hfree : ¬ s.isRaced false addr = true := by simp [isRaced_write_iff ha, hout]
    rw [hostStore_mem, if_neg hfree, Memory.read_write_same _ _ hm]
  · rw [hostStore_mem, Memory.read_write_other]
    rwa [Memory.hostKey_of_lt hj, Memory.hostKey_of_lt ha]
  · obtain ⟨hreads, hmem⟩ := hostLoad_of_raced ((isRaced_read_iff ha).mpr hrace)
    exact ⟨hreads, by rw [hmem, Memory.read_write_same _ _ hm]⟩
  · have hfree : s.isRaced true addr = false := by
      rw [Bool.eq_false_iff, ne_eq, isRaced_read_iff ha]
      rintro ⟨p, act, i, hp, hd, hs, hb⟩
      simp [hno p act i hp hd hs] at hb
    rw [hostLoad_of_not_raced hfree]
    exact ⟨rfl, rfl⟩
  · rw [exec_host_mem hs hr hp hx]
    exact read_moved hm hfit hk
  · subst hi
    rw [execGethdr_swap_mem hr hp hx]
    exact read_moved hm (by simpa using hfit) hk

end Sys2Proof.Machine
end

section
/-!
PROOF. Which cycles each request issues (R59, R82, R116), unit by unit.
-/

namespace Sys2Proof.Machine

open Sys2Proof

variable {i : Instr} {p : Port} {a : Active} {s t : State} {u : BUnit} {P Q : BusCycle → Prop}

/-! ### The cycles of a request (R59) -/

/-- An 8-bit register cycle (R82). -/
def RegisterCycle (s : State) (c : BusCycle) : Prop := c.width = .w8 ∧ ∃ k, c.addr = s.regAddr k

/-- An 8-bit cycle at `MEMR` (R116). -/
def MemrCycle (s : State) (c : BusCycle) : Prop := c.addr = s.regAddr nicMemr ∧ c.width = .w8

/-- The cycle of a bridge transfer of the request in progress, at the transfer's width (R55, R90, R91). -/
def TransferCycle (a : Active) (isRead : Bool) (c : BusCycle) : Prop :=
  c.isRead = isRead ∧ ∃ u, a.pos = .bus u ∧ c.width = u.width

/-- The cycles that a request in progress as `a` issues (R59). -/
def RequestCycle (i : Instr) (s : State) (a : Active) (c : BusCycle) : Prop :=
  match i with
  | .rd8 _ | .wr8 _ _ | .reset => c.width = .w8
  | .rd16 _ | .wr16 _ _ => c.width = .w16
  | .wblk _ _ => TransferCycle a false c
  | .rblk _ _ => TransferCycle a true c
  | .gethdr _ _ | .bin _ _ _ => RegisterCycle s c ∨ TransferCycle a true c
  | .bout _ _ _ => RegisterCycle s c ∨ TransferCycle a false c
  | _ => MemrCycle s c

theorem Issues.mono (h : Issues P s t) (hPQ : ∀ c, P c → Q c) : Issues Q s t :=
  h.imp id fun ⟨c, hc, ht⟩ => ⟨c, hPQ c hc, ht⟩

theorem Issues.congr {v : State} (h : Issues P s t) (hv : v.out.cycles = t.out.cycles) : Issues P s v := by
  rwa [Issues, hv]

/-! ### Micro-steps with no cycle -/

@[simp] theorem cycles_raise (s : State) (p : Port) (c : Code) (info : Info) :
    (s.raise p c info).out.cycles = s.out.cycles := by
  simp [State.raise]

@[simp] theorem cycles_mgRespond (s : State) (p : Port) (v : Half) :
    (s.mgRespond p v).out.cycles = s.out.cycles := by
  simp [State.mgRespond, out_mgLeave]

theorem cycles_checkIndex (s : State) (p : Port) (a : Active) (idx : Byte) :
    (s.checkIndex p a idx).out.cycles = s.out.cycles := by
  unfold State.checkIndex
  split <;> simp [goto_eq]

theorem cycles_checkRange {next : State} (h : next.out.cycles = s.out.cycles) (p : Port) (haddr : Word)
    (count : Nat) : (s.checkRange p haddr count next).out.cycles = s.out.cycles := by
  unfold State.checkRange
  split
  · exact h
  · simp

theorem cycles_boutCheck (s : State) (p : Port) (a : Active) (haddr : Word) (len : Half) :
    (boutCheck haddr len p a s).out.cycles = s.out.cycles := by
  unfold boutCheck
  split
  · simp
  · exact cycles_checkRange (by simp [goto_eq]) p haddr _

theorem cycles_busyAcquire (s : State) (p : Port) (a : Active) (op : Byte) :
    (s.busyAcquire p a op).out.cycles = s.out.cycles := by
  unfold State.busyAcquire
  split <;> simp [gotoX_eq]

theorem cycles_busyRelease (s : State) (p : Port) (a : Active) (pos : Pos) :
    (s.busyRelease p a pos).out.cycles = s.out.cycles := by
  simp [State.busyRelease, gotoX_eq]

theorem cycles_mgEnter (s : State) (p : Port) (a : Active) (op : Byte) (next : Pos) :
    (s.mgEnter p a op next).out.cycles = s.out.cycles := by
  unfold State.mgEnter
  split <;> simp [goto_eq]

/-! ### Micro-steps with a cycle -/

theorem memRead_issues {addr : Word} {w : Width} (hP : ∀ v, P (.read addr w v)) (s : State) (p : Port)
    (x : PortState) : Issues P s ((s.memRead addr w).2.setPort p x) :=
  .inr ⟨_, hP (s.drawBus addr w).1, by simp⟩

theorem memWrite_issues {addr : Word} {w : Width} (hP : ∀ v, P (.write addr w v)) (s : State) (v : Word)
    (p : Port) (x : PortState) : Issues P s ((s.memWrite addr w v).setPort p x) :=
  .inr ⟨_, hP (w.trunc v), by simp⟩

theorem regRd8_issues (s : State) (k : Fin 32) (p : Port) (x : PortState) :
    Issues (RegisterCycle s) s ((s.regRd8 k).2.setPort p x) :=
  memRead_issues (fun _ => ⟨rfl, k, rfl⟩) s p x

theorem regWr8_issues (s : State) (k : Fin 32) (v : Byte) (p : Port) (x : PortState) :
    Issues (RegisterCycle s) s ((s.regWr8 k v).setPort p x) :=
  memWrite_issues (fun _ => ⟨rfl, k, rfl⟩) s _ p x

theorem memrRead_issues (s : State) (p : Port) (x : PortState) :
    Issues (MemrCycle s) s ((s.regRd8 nicMemr).2.setPort p x) :=
  memRead_issues (fun _ => ⟨rfl, rfl⟩) s p x

theorem memrWrite_issues (s : State) (v : Byte) (p : Port) (x : PortState) :
    Issues (MemrCycle s) s ((s.regWr8 nicMemr v).setPort p x) :=
  memWrite_issues (fun _ => ⟨rfl, rfl⟩) s _ p x

theorem push_issues (s : State) (shadow : Byte) (p : Port) (x : PortState) :
    Issues (MemrCycle s) s ((s.push shadow).setPort p x) :=
  memrWrite_issues (s.withShadow shadow) shadow p x

/-! ### Register-width adapter -/

theorem readCycle_issues {idx : Byte} {w : Width} (h : readCycle idx w p a s = .next t) :
    Issues (fun c => c.width = w) s t := by
  unfold readCycle at h
  split at h <;> cases h
  exact memRead_issues (fun _ => rfl) s p _

theorem writeCycle_issues {idx : Byte} {w : Width} {v : Word} (h : writeCycle idx w v p a s = .next t) :
    Issues (fun c => c.width = w) s t := by
  unfold writeCycle at h
  split at h <;> cases h
  exact memWrite_issues (fun _ => rfl) s v p _

theorem exec_issues_adapter {idx : Byte}
    (hi : i = .rd8 idx ∨ i = .rd16 idx ∨ (∃ v, i = .wr8 idx v) ∨ ∃ v, i = .wr16 idx v)
    (hr : s.running = some (p, a)) (hs : a.pos ≠ .start) (he : a.pos ≠ .respond)
    (hx : exec i s = .next t) : Issues (RequestCycle i s a) s t := by
  rcases hi with rfl | rfl | ⟨v, rfl⟩ | ⟨v, rfl⟩ <;>
    simp only [exec, execRd8, execRd16, execWr8, execWr16, micro_running hr] at hx <;>
    split at hx <;> try contradiction
  · exact readCycle_issues hx
  · exact readCycle_issues hx
  · exact writeCycle_issues hx
  · exact writeCycle_issues hx

/-! ### Management interface -/

theorem exec_issues_line
    (hi : (∃ lv, i = .mdc lv ∨ i = .mdir lv ∨ i = .mdo lv) ∨ i = .mdi ∨ i = .eerd)
    (hr : s.running = some (p, a)) (hs : a.pos ≠ .start) (he : a.pos ≠ .respond)
    (hx : exec i s = .next t) : Issues (MemrCycle s) s t := by
  rcases hi with ⟨lv, rfl | rfl | rfl⟩ | rfl | rfl <;>
    simp only [exec, execMdc, execMdir, execMdo, execMdi, execEerd, micro_running hr] at hx <;>
    split at hx <;> (try contradiction) <;> cases hx
  · exact push_issues s _ p _
  · exact push_issues s _ p _
  · exact push_issues s _ p _
  · exact memrRead_issues s p _
  · exact memrRead_issues s p _

theorem eeWrite_issues {cs clk di : Bool} (h : eeWrite cs clk di p a s = .next t) :
    Issues (MemrCycle s) s t := by
  unfold eeWrite at h
  split at h <;> cases h
  · exact push_issues s _ p _
  · exact memrWrite_issues s _ p _

theorem execEewr_issues {cs clk di : Bool} (hr : s.running = some (p, a)) (hs : a.pos ≠ .start)
    (he : a.pos ≠ .respond) (hx : exec (.eewr cs clk di) s = .next t) : Issues (MemrCycle s) s t := by
  simp only [exec, execEewr, micro_running hr] at hx
  split at hx <;> try contradiction
  · cases hx
    exact memrRead_issues s p _
  · exact eeWrite_issues hx
  · cases hx
    exact .inl (by simp [goto_eq])

theorem sendBit_issues {bit : Bool} {n last : Nat} {after : Pos} {e : SendEdge}
    (h : sendBit bit n last after e p a s = .next t) : Issues (MemrCycle s) s t := by
  cases e <;> cases h
  · exact push_issues ((s.withMgPhase (framePhase n)).withMgBitpos (frameBitpos s.mgBitpos n)) _ p _
  · exact push_issues s _ p _
  · exact push_issues s _ p _

theorem getBitClock_issues {g : GetStage} {n : Nat} {high : Bool}
    (h : getBitClock g n high p a s = .next t) : Issues (MemrCycle s) s t := by
  unfold getBitClock at h
  split at h <;> cases h
  · exact push_issues (((s.withMgPhase (stagePhase g)).withMgBitpos (stageBitpos s.mgBitpos n g)).withMgData
      (stageData s.mgData n g)) _ p _
  · exact push_issues s _ p _

theorem frameInput_issues {g : GetStage} (h : frameInput g p a s = .next t) :
    Issues (MemrCycle s) s t := by
  cases h
  exact push_issues (s.withMgPhase (stagePhase g)) _ p _

theorem readSample_issues {g : GetStage} {n : Nat} (h : readSample g n p a s = .next t) :
    Issues (MemrCycle s) s t := by
  cases g <;> cases h
  case data => exact (memrRead_issues s p (.active a)).congr (by simp [goto_eq])
  all_goals exact memrRead_issues s p _

theorem execMdiord_issues {phyad regad : BitVec 5} (hr : s.running = some (p, a)) (hs : a.pos ≠ .start)
    (he : a.pos ≠ .respond) (hx : exec (.mdiord phyad regad) s = .next t) :
    Issues (MemrCycle s) s t := by
  simp only [exec, execMdiord, micro_running hr] at hx
  split at hx <;> try contradiction
  · cases hx
    exact push_issues s _ p _
  · exact sendBit_issues hx
  · exact frameInput_issues hx
  · exact getBitClock_issues hx
  · exact getBitClock_issues hx
  · exact readSample_issues hx

theorem execMdiowr_issues {phyad regad : BitVec 5} {val : Half} (hr : s.running = some (p, a))
    (hs : a.pos ≠ .start) (he : a.pos ≠ .respond) (hx : exec (.mdiowr phyad regad val) s = .next t) :
    Issues (MemrCycle s) s t := by
  simp only [exec, execMdiowr, micro_running hr] at hx
  split at hx <;> try contradiction
  · cases hx
    exact .inl (by simp [goto_eq])
  · cases hx
    exact push_issues s _ p _
  · exact sendBit_issues hx
  · exact frameInput_issues hx
  · exact getBitClock_issues hx
  · exact getBitClock_issues hx
  · cases hx
    exact memrRead_issues s p _

/-! ### Block-FIFO bridge -/

theorem wblkBus_issues {done : Active → Active} (hp : a.pos = .bus u) (h : wblkBus done u p a s = .next t) :
    Issues (TransferCycle a false) s t :=
  .inr ⟨_, ⟨rfl, u, hp, rfl⟩, wblkBus_cycles h⟩

theorem rblkBus_issues {keep : Bool} (hp : a.pos = .bus u) (h : rblkBus keep u p a s = .next t) :
    Issues (TransferCycle a true) s t := by
  cases h
  exact memRead_issues (fun _ => ⟨rfl, u, hp, rfl⟩) s p _

/-- A host access is no cycle (R62, R63). -/
theorem wblkHost_cycles {pad : Option Nat} (h : wblkHost pad u p a s = .next t) :
    t.out.cycles = s.out.cycles := by
  cases h
  rcases hostRead_snd s pad (a.locals.xfer.hostAddr u) u.size with hs | hs <;>
    simp [gotoWith_eq, hs]

theorem rblkHost_cycles {done : Active → Active} (h : rblkHost done u p a s = .next t) :
    t.out.cycles = s.out.cycles := by
  cases h
  simp [out_hostWrite]

theorem headerSwap_cycles {haddr : Word} (h : headerSwap haddr p a s = .next t) :
    t.out.cycles = s.out.cycles := by
  cases h
  simp [goto_eq, out_hostWrite]

theorem execWblk_issues {haddr : Word} {len : Half} (hr : s.running = some (p, a)) (hs : a.pos ≠ .start)
    (he : a.pos ≠ .respond) (hx : exec (.wblk haddr len) s = .next t) :
    Issues (TransferCycle a false) s t := by
  simp only [exec, execWblk, micro_running hr] at hx
  split at hx <;> try contradiction
  · exact .inl (wblkHost_cycles hx)
  · exact wblkBus_issues ‹_› hx

theorem execRblk_issues {haddr : Word} {len : Half} (hr : s.running = some (p, a)) (hs : a.pos ≠ .start)
    (he : a.pos ≠ .respond) (hx : exec (.rblk haddr len) s = .next t) :
    Issues (TransferCycle a true) s t := by
  simp only [exec, execRblk, micro_running hr] at hx
  split at hx <;> try contradiction
  · exact rblkBus_issues ‹_› hx
  · exact .inl (rblkHost_cycles hx)

/-! ### Remote-DMA sequencer -/

theorem armStep_issues {m : Arming} {begin : Active → Active} {w : ArmPos}
    (h : armStep m begin w p a s = .next t) : Issues (RegisterCycle s) s t := by
  cases w <;> simp only [armStep] at h
  case clearIsr =>
    split at h <;> cases h
    exact regWr8_issues s _ _ p _
  all_goals
    cases h
    exact regWr8_issues s _ _ p _

theorem resetProc_issues {done : Active → Active} {pos : Pos} (h : resetProc done pos p a s = .next t) :
    Issues (RegisterCycle s) s t := by
  simp only [resetProc] at h
  split at h
  · cases h
    exact regRd8_issues s _ p _
  · cases h
    exact regWr8_issues s _ _ p _
  · cases h
    exact .inl (by simp [gotoWith_eq])
  · cases h
    exact regRd8_issues s _ p _
  · split at h <;> cases h <;> exact .inl (by simp [gotoWith_eq, State.drawFor])
  · cases h
    exact regWr8_issues s _ _ p _
  · cases h

theorem execReset_issues (hr : s.running = some (p, a)) (he : a.pos ≠ .respond)
    (hx : exec .reset s = .next t) : Issues (RegisterCycle s) s t := by
  simp only [exec, execReset, micro_running hr] at hx
  split at hx <;> try contradiction
  all_goals exact resetProc_issues hx

theorem execGethdr_issues {haddr : Word} {page : Byte} (hr : s.running = some (p, a)) (hs : a.pos ≠ .start)
    (he : a.pos ≠ .respond) (hx : exec (.gethdr haddr page) s = .next t) :
    Issues (fun c => RegisterCycle s c ∨ TransferCycle a true c) s t := by
  simp only [exec, execGethdr, micro_running hr] at hx
  split at hx <;> try contradiction
  · cases hx
    exact .inl (cycles_busyAcquire s p a _)
  · exact (armStep_issues hx).mono fun _ => .inl
  · exact (rblkBus_issues ‹_› hx).mono fun _ => .inr
  · exact .inl (rblkHost_cycles hx)
  · cases hx
    exact (regWr8_issues s _ _ p _).mono fun _ => .inl
  · cases hx
    exact .inl (cycles_busyRelease s p a _)
  · exact .inl (headerSwap_cycles hx)

theorem execBin_issues {haddr : Word} {len roff : Half} (hr : s.running = some (p, a)) (hs : a.pos ≠ .start)
    (he : a.pos ≠ .respond) (hx : exec (.bin haddr len roff) s = .next t) :
    Issues (fun c => RegisterCycle s c ∨ TransferCycle a true c) s t := by
  simp only [exec, execBin, micro_running hr] at hx
  split at hx <;> try contradiction
  · cases hx
    exact .inl (cycles_busyAcquire s p a _)
  · exact (armStep_issues hx).mono fun _ => .inl
  · exact (rblkBus_issues ‹_› hx).mono fun _ => .inr
  · exact .inl (rblkHost_cycles hx)
  · cases hx
    exact .inl (by simp [gotoX_eq])
  · cases hx
    exact .inl (cycles_busyRelease s p a _)

theorem txDraw_cycles (h : txDraw p a s = .next t) : t.out.cycles = s.out.cycles := by
  simp only [txDraw] at h
  split at h <;> cases h <;> simp [gotoWith_eq, State.drawFor]

theorem reinitPoll_cycles (h : reinitPoll p a s = .next t) : t.out.cycles = s.out.cycles := by
  simp only [reinitPoll] at h
  split at h <;> cases h <;> simp [goto_eq]

theorem execBout_issues {haddr : Word} {len : Half} {page : Byte} (hr : s.running = some (p, a))
    (hs : a.pos ≠ .start) (he : a.pos ≠ .respond) (hx : exec (.bout haddr len page) s = .next t) :
    Issues (fun c => RegisterCycle s c ∨ TransferCycle a false c) s t := by
  simp only [exec, execBout, micro_running hr] at hx
  split at hx <;> try contradiction
  case h_2 =>
    cases hx
    exact .inl (cycles_busyAcquire s p a _)
  case h_3 => exact (armStep_issues hx).mono fun _ => .inl
  case h_4 => exact .inl (wblkHost_cycles hx)
  case h_5 => exact (wblkBus_issues ‹_› hx).mono fun _ => .inr
  case h_6 =>
    cases hx
    exact (regRd8_issues s _ p _).mono fun _ => .inl
  case h_7 => exact .inl (txDraw_cycles hx)
  case h_14 =>
    cases hx
    exact .inl (by simp [goto_eq])
  case h_15 => exact .inl (reinitPoll_cycles hx)
  case h_16 =>
    cases hx
    exact (regWr8_issues s _ _ p _).mono fun _ => .inl
  case h_17 =>
    cases hx
    exact .inl (cycles_busyRelease s p a _)
  all_goals exact (resetProc_issues hx).mono fun _ => .inl

/-! ### All requests -/

theorem exec_start_cycles (hi : i ≠ .reset) (hr : s.running = some (p, a)) (hp : a.pos = .start)
    (hx : exec i s = .next t) : t.out.cycles = s.out.cycles := by
  cases i <;> simp only [exec, execRd8, execRd16, execWr8, execWr16, execWblk, execRblk, execGethdr,
    execBin, execBout, execReset, execMdc, execMdir, execMdo, execMdi, execEerd, execEewr, execMdiord,
    execMdiowr, micro_running hr, hp] at hx <;> cases hx
  case rd8 | rd16 | wr8 | wr16 => exact cycles_checkIndex s p a _
  case wblk | rblk | gethdr | bin => exact cycles_checkRange (by simp [goto_eq]) p _ _
  case bout => exact cycles_boutCheck s p a _ _
  case reset => exact absurd rfl hi
  all_goals exact cycles_mgEnter s p a _ _

theorem exec_respond_cycles (hr : s.running = some (p, a)) (hp : a.pos = .respond)
    (hx : exec i s = .next t) : t.out.cycles = s.out.cycles := by
  cases i <;> simp only [exec, execRd8, execRd16, execWr8, execWr16, execWblk, execRblk, execGethdr,
    execBin, execBout, execReset, execMdc, execMdir, execMdo, execMdi, execEerd, execEewr, execMdiord,
    execMdiowr, micro_running hr, hp] at hx <;> cases hx
  all_goals simp

/-- Each request issues its own cycles only (R59). -/
theorem exec_issues (hr : s.running = some (p, a)) (hx : exec i s = .next t) :
    Issues (RequestCycle i s a) s t := by
  by_cases he : a.pos = .respond
  · exact .inl (exec_respond_cycles hr he hx)
  by_cases hi : i = .reset
  · subst hi
    exact (execReset_issues hr he hx).mono fun _ h => h.1
  by_cases hs : a.pos = .start
  · exact .inl (exec_start_cycles hi hr hs hx)
  cases i with
  | reset => exact absurd rfl hi
  | rd8 idx => exact exec_issues_adapter (.inl rfl) hr hs he hx
  | rd16 idx => exact exec_issues_adapter (.inr (.inl rfl)) hr hs he hx
  | wr8 idx v => exact exec_issues_adapter (.inr (.inr (.inl ⟨v, rfl⟩))) hr hs he hx
  | wr16 idx v => exact exec_issues_adapter (.inr (.inr (.inr ⟨v, rfl⟩))) hr hs he hx
  | wblk haddr len => exact execWblk_issues hr hs he hx
  | rblk haddr len => exact execRblk_issues hr hs he hx
  | gethdr haddr page => exact execGethdr_issues hr hs he hx
  | bin haddr len roff => exact execBin_issues hr hs he hx
  | bout haddr len page => exact execBout_issues hr hs he hx
  | eewr cs clk di => exact execEewr_issues hr hs he hx
  | mdiord phyad regad => exact execMdiord_issues hr hs he hx
  | mdiowr phyad regad val => exact execMdiowr_issues hr hs he hx
  | _ => exact exec_issues_line (by simp) hr hs he hx

theorem RequestCycle.memr {c : BusCycle} (h : RequestCycle i s a c) (hi : isMgmt i = true) :
    MemrCycle s c := by
  cases i <;> simp [isMgmt] at hi <;> exact h

theorem RequestCycle.dma {c : BusCycle} (h : RequestCycle i s a c) (hi : isDma i = true) :
    RegisterCycle s c ∨ ∃ u, a.pos = .bus u ∧ c.width = u.width := by
  cases i with
  | gethdr haddr page => exact h.imp_right And.right
  | bin haddr len roff => exact h.imp_right And.right
  | bout haddr len page => exact h.imp_right And.right
  | _ => cases hi

/-- Settles O54: each clause is the `RequestCycle` of its requests. -/
theorem accessWidths : Obligations.AccessWidths := by
  intro i s t p a c hr hx hc
  have hcycle := (exec_issues hr hx).cycle hc
  refine ⟨?_, ?_, hcycle.memr, ?_, ?_, hcycle.dma⟩
  · rintro (⟨idx, rfl⟩ | ⟨idx, v, rfl⟩ | rfl) <;> exact hcycle
  · rintro (⟨idx, rfl⟩ | ⟨idx, v, rfl⟩) <;> exact hcycle
  · rintro haddr len rfl
    exact hcycle
  · rintro haddr len rfl
    exact hcycle

end Sys2Proof.Machine
end

section
/-!
PROOF. The statements about encoding (30_encoding.md): a descriptor selects at most one row of the table
(R74), which `decode` reads (R75), and each format's fields and reserved bits make up the whole descriptor
(R71, R72).
-/

namespace Sys2Proof

variable {d m : Desc} {i : Instr} {r q : Row} {op : Byte}

/-! ### The rows of the table (R74) -/

theorem Row.selects_iff : r.selects d = true ↔ d &&& r.mask = r.matched := beq_iff_eq

/-- The 18 `OP` values of R74, in the order of the table. -/
theorem map_op_opcodeTable :
    opcodeTable.map Row.op
      = [0x01, 0x02, 0x03, 0x04, 0x10, 0x11, 0x20, 0x21, 0x22, 0x23, 0x30, 0x31, 0x32, 0x33, 0x34, 0x35,
          0x38, 0x39] := rfl

theorem eq_of_op_eq (hr : r ∈ opcodeTable) (hq : q ∈ opcodeTable) (h : r.op = q.op) : r = q :=
  List.inj_on_of_nodup_map (by rw [map_op_opcodeTable]; decide) hr hq h

theorem opOf_mask : ∀ r ∈ opcodeTable, opOf r.mask = BitVec.allOnes 8 := by decide

/-- A field the mask covers is the match's. -/
theorem extractLsb'_of_and_eq {v : Desc} (h : d &&& m = v) {k n : Nat}
    (hm : m.extractLsb' k n = BitVec.allOnes n) : d.extractLsb' k n = v.extractLsb' k n := by
  rw [← h, BitVec.extractLsb'_and, hm, BitVec.and_allOnes]

theorem op_eq_of_selects (hr : r ∈ opcodeTable) (hsel : r.selects d = true) : r.op = opOf d :=
  (extractLsb'_of_and_eq (Row.selects_iff.mp hsel) (opOf_mask r hr)).symm

/-- Settles O4: the masks cover `OP`, in which the rows differ. -/
theorem tableRowsDisjoint : Obligations.TableRowsDisjoint := by
  intro d r q hr hq hrsel hqsel
  have hop : r.op = q.op := (op_eq_of_selects hr hrsel).trans (op_eq_of_selects hq hqsel).symm
  rw [eq_of_op_eq hr hq hop]

/-! ### The row that decoding reads (R75) -/

theorem rowOf_eq_none_iff : rowOf d = none ↔ opOf d ∉ opcodeTable.map Row.op := by
  simp [rowOf]

theorem rowOf_sound (h : rowOf d = some r) : r ∈ opcodeTable ∧ r.op = opOf d :=
  ⟨List.mem_of_find?_eq_some h, beq_iff_eq.mp (List.find?_some h :)⟩

theorem rowOf_eq_some_iff : rowOf d = some r ↔ r ∈ opcodeTable ∧ r.op = opOf d := by
  refine ⟨rowOf_sound, fun ⟨hr, hop⟩ => ?_⟩
  cases hrow : rowOf d with
  | none => exact absurd (hop ▸ List.mem_map_of_mem hr) (rowOf_eq_none_iff.mp hrow)
  | some q =>
    obtain ⟨hq, hqop⟩ := rowOf_sound hrow
    rw [eq_of_op_eq hq hr (hqop.trans hop.symm)]

theorem decode_of_rowOf (h : rowOf d = some r) :
    decode d = if r.selects d then .ok (r.build d) else .error .reservedBits := by
  rw [decode, h]

theorem decode_of_rowOf_none (h : rowOf d = none) : decode d = .error .unknownOp := by
  rw [decode, h]

theorem decode_eq_ok_iff :
    decode d = .ok i ↔ ∃ r ∈ opcodeTable, r.selects d = true ∧ r.build d = i := by
  constructor
  · intro h
    cases hrow : rowOf d with
    | none => simp [decode_of_rowOf_none hrow] at h
    | some r =>
      rw [decode_of_rowOf hrow] at h
      split at h <;> cases h
      exact ⟨r, (rowOf_eq_some_iff.mp hrow).1, ‹_›, rfl⟩
  · rintro ⟨r, hr, hsel, rfl⟩
    rw [decode_of_rowOf (rowOf_eq_some_iff.mpr ⟨hr, op_eq_of_selects hr hsel⟩), if_pos hsel]

theorem decode_eq_unknownOp_iff : decode d = .error .unknownOp ↔ rowOf d = none := by
  cases hrow : rowOf d with
  | none => simp [decode_of_rowOf_none hrow]
  | some r =>
    rw [decode_of_rowOf hrow]
    split <;> simp

theorem decode_eq_reservedBits_iff :
    decode d = .error .reservedBits ↔ ∃ r, rowOf d = some r ∧ ¬ r.selects d = true := by
  cases hrow : rowOf d with
  | none => simp [decode_of_rowOf_none hrow]
  | some r =>
    rw [decode_of_rowOf hrow]
    split <;> simp [*]

/-- The gaps between the `OP` values of R74 are the values R75 lists. -/
theorem not_mem_ops_iff (o : Byte) :
    o ∉ opcodeTable.map Row.op ↔
      o.toNat = 0 ∨ (0x05 ≤ o.toNat ∧ o.toNat ≤ 0x0F) ∨ (0x12 ≤ o.toNat ∧ o.toNat ≤ 0x1F)
        ∨ (0x24 ≤ o.toNat ∧ o.toNat ≤ 0x2F) ∨ o.toNat = 0x36 ∨ o.toNat = 0x37 ∨ 0x3A ≤ o.toNat := by
  simp only [map_op_opcodeTable, List.mem_cons, List.not_mem_nil, or_false]
  bv_omega

/-- Settles O3: no row has the `OP`, or the row that has it does not match. -/
theorem decodeRefusals : Obligations.DecodeRefusals := by
  intro d
  constructor
  · rw [decode_eq_unknownOp_iff, rowOf_eq_none_iff]
    exact not_mem_ops_iff (opOf d)
  · simp only [decode_eq_reservedBits_iff, rowOf_eq_some_iff, Row.selects_iff, and_assoc, Row.op,
      eq_comm (a := opOf d)]

/-! ### From a request to its word and back (R71, R72) -/

/-- Each request's word selects the row of its `OP`. -/
theorem encode_inTable (i : Instr) : Laws.EncodeInTable.Statement i := by
  cases i with
  | rd8 idx => exact Laws.EncodeInTable.rd8 idx
  | rd16 idx => exact Laws.EncodeInTable.rd16 idx
  | wr8 idx val => exact Laws.EncodeInTable.wr8 idx val
  | wr16 idx val => exact Laws.EncodeInTable.wr16 idx val
  | wblk haddr len => exact Laws.EncodeInTable.wblk haddr len
  | rblk haddr len => exact Laws.EncodeInTable.rblk haddr len
  | gethdr haddr page => exact Laws.EncodeInTable.gethdr haddr page
  | bin haddr len roff => exact Laws.EncodeInTable.bin haddr len roff
  | bout haddr len page => exact Laws.EncodeInTable.bout haddr len page
  | reset => exact Laws.EncodeInTable.reset
  | mdc lv => exact Laws.EncodeInTable.mdc lv
  | mdir lv => exact Laws.EncodeInTable.mdir lv
  | mdo lv => exact Laws.EncodeInTable.mdo lv
  | mdi => exact Laws.EncodeInTable.mdi
  | eerd => exact Laws.EncodeInTable.eerd
  | eewr cs clk di => exact Laws.EncodeInTable.eewr cs clk di
  | mdiord phyad regad => exact Laws.EncodeInTable.mdiord phyad regad
  | mdiowr phyad regad val => exact Laws.EncodeInTable.mdiowr phyad regad val

theorem opOf_encode (i : Instr) : opOf (encode i) = i.op := by
  obtain ⟨r, hr, hop, hmatch⟩ := encode_inTable i
  rw [← op_eq_of_selects hr (Row.selects_iff.mpr hmatch), hop]

theorem lineOf_eq (k : Nat) : lineOf k d = (d.extractLsb' k 1).getLsbD 0 := by
  simp [lineOf]

theorem getLsbD_lineField (b : Bool) : (lineField b).getLsbD 0 = b := by
  cases b <;> rfl

/-- Each field is read at its place: the fields below it are as wide as its offset, those above it do
not reach it (R71). -/
theorem build_encode (h : rowOf (encode i) = some r) : r.build (encode i) = i := by
  rw [rowOf, opOf_encode] at h
  cases i <;> cases h <;>
    simp (disch := decide) only [encode, idxOf, pageOf, phyadOf, regadOf, lenOf, valOf, val8Of, haddrOf,
      lineOf_eq, getLsbD_lineField, BitVec.extractLsb'_append_eq_of_le,
      BitVec.extractLsb'_append_eq_of_add_le, BitVec.extractLsb'_eq_self, Nat.reduceSub]

/-- Settles O1: the word selects the row of its `OP`, and the row reads each field where it was put. -/
theorem decodeOfEncode : Obligations.DecodeOfEncode := by
  intro i
  obtain ⟨r, hr, hop, hmatch⟩ := encode_inTable i
  have hrow : rowOf (encode i) = some r := rowOf_eq_some_iff.mpr ⟨hr, hop.trans (opOf_encode i).symm⟩
  exact decode_eq_ok_iff.mpr ⟨r, hr, Row.selects_iff.mpr hmatch, build_encode hrow⟩

/-! ### From a word to its request and back (R71, R75)

For each format of R72: a descriptor that matches is its fields, zeros in its reserved bits, and `OP`. -/

theorem reserved_eq_zero (h : d &&& m = 0#120 ++ op) {k n : Nat} (habove : 8 ≤ k)
    (hcovered : m.extractLsb' k n = BitVec.allOnes n) : d.extractLsb' k n = 0#n := by
  rw [extractLsb'_of_and_eq h hcovered, BitVec.extractLsb'_append_eq_of_le habove,
    BitVec.extractLsb'_zero]

theorem opOf_of_and_eq (h : d &&& m = 0#120 ++ op) (hm : opOf m = BitVec.allOnes 8) : opOf d = op := by
  rw [opOf, extractLsb'_of_and_eq h hm, BitVec.extractLsb'_append_eq_of_add_le (by decide),
    BitVec.extractLsb'_eq_self]

theorem fields_regr (op : Byte) (h : d &&& 0xFFFFFFFFFFFFFFFFFFFFFFFFFFFF00FF = 0#120 ++ op) :
    0#112 ++ idxOf d ++ op = d := by
  have parts : d.extractLsb' 16 112 ++ idxOf d ++ opOf d = d := by
    grind [idxOf, opOf]
  simpa (disch := decide) only [reserved_eq_zero h, opOf_of_and_eq h] using parts

theorem fields_regw8 (op : Byte) (h : d &&& 0xFFFFFFFFFFFFFFFFFF00FFFFFFFF00FF = 0#120 ++ op) :
    0#72 ++ val8Of d ++ 0#32 ++ idxOf d ++ op = d := by
  have parts : d.extractLsb' 56 72 ++ val8Of d ++ d.extractLsb' 16 32 ++ idxOf d ++ opOf d = d := by
    grind [val8Of, idxOf, opOf]
  simpa (disch := decide) only [reserved_eq_zero h, opOf_of_and_eq h] using parts

theorem fields_regw16 (op : Byte) (h : d &&& 0xFFFFFFFFFFFFFFFF0000FFFFFFFF00FF = 0#120 ++ op) :
    0#64 ++ valOf d ++ 0#32 ++ idxOf d ++ op = d := by
  have parts : d.extractLsb' 64 64 ++ valOf d ++ d.extractLsb' 16 32 ++ idxOf d ++ opOf d = d := by
    grind [valOf, idxOf, opOf]
  simpa (disch := decide) only [reserved_eq_zero h, opOf_of_and_eq h] using parts

theorem fields_b (op : Byte) (h : d &&& 0xFFFFFFFF00000000FFFF0000FFFFFFFF = 0#120 ++ op) :
    0#32 ++ haddrOf d ++ 0#16 ++ lenOf d ++ 0#24 ++ op = d := by
  have parts :
      d.extractLsb' 96 32 ++ haddrOf d ++ d.extractLsb' 48 16 ++ lenOf d ++ d.extractLsb' 8 24
        ++ opOf d = d := by
    grind [haddrOf, lenOf, opOf]
  simpa (disch := decide) only [reserved_eq_zero h, opOf_of_and_eq h] using parts

theorem fields_dh (op : Byte) (h : d &&& 0xFFFFFFFF00000000FFFFFFFFFF00FFFF = 0#120 ++ op) :
    0#32 ++ haddrOf d ++ 0#40 ++ pageOf d ++ 0#8 ++ op = d := by
  have parts :
      d.extractLsb' 96 32 ++ haddrOf d ++ d.extractLsb' 24 40 ++ pageOf d ++ d.extractLsb' 8 8
        ++ opOf d = d := by
    grind [haddrOf, pageOf, opOf]
  simpa (disch := decide) only [reserved_eq_zero h, opOf_of_and_eq h] using parts

theorem fields_di (op : Byte) (h : d &&& 0xFFFFFFFF0000000000000000FFFFFFFF = 0#120 ++ op) :
    0#32 ++ haddrOf d ++ valOf d ++ lenOf d ++ 0#24 ++ op = d := by
  have parts :
      d.extractLsb' 96 32 ++ haddrOf d ++ valOf d ++ lenOf d ++ d.extractLsb' 8 24 ++ opOf d = d := by
    grind [haddrOf, valOf, lenOf, opOf]
  simpa (disch := decide) only [reserved_eq_zero h, opOf_of_and_eq h] using parts

theorem fields_do (op : Byte) (h : d &&& 0xFFFFFFFF00000000FFFF0000FF00FFFF = 0#120 ++ op) :
    0#32 ++ haddrOf d ++ 0#16 ++ lenOf d ++ 0#8 ++ pageOf d ++ 0#8 ++ op = d := by
  have parts :
      d.extractLsb' 96 32 ++ haddrOf d ++ d.extractLsb' 48 16 ++ lenOf d ++ d.extractLsb' 24 8 ++ pageOf d
        ++ d.extractLsb' 8 8 ++ opOf d = d := by
    grind [haddrOf, lenOf, pageOf, opOf]
  simpa (disch := decide) only [reserved_eq_zero h, opOf_of_and_eq h] using parts

theorem fields_n (op : Byte) (h : d &&& 0xFFFFFFFFFFFFFFFFFFFFFFFFFFFFFFFF = 0#120 ++ op) :
    0#120 ++ op = d := by
  have parts : d.extractLsb' 8 120 ++ opOf d = d := by
    grind [opOf]
  simpa (disch := decide) only [reserved_eq_zero h, opOf_of_and_eq h] using parts

theorem fields_l (op : Byte) (h : d &&& 0xFFFFFFFFFFFFFFFFFFFEFFFFFFFFFFFF = 0#120 ++ op) :
    0#79 ++ lineField (lineOf 48 d) ++ 0#40 ++ op = d := by
  have parts : d.extractLsb' 49 79 ++ lineField (lineOf 48 d) ++ d.extractLsb' 8 40 ++ opOf d = d := by
    grind [lineField, lineOf, opOf]
  simpa (disch := decide) only [reserved_eq_zero h, opOf_of_and_eq h] using parts

theorem fields_e (op : Byte) (h : d &&& 0xFFFFFFFFFFFFFFFFFFF8FFFFFFFFFFFF = 0#120 ++ op) :
    0#77 ++ lineField (lineOf 50 d) ++ lineField (lineOf 49 d) ++ lineField (lineOf 48 d) ++ 0#40
      ++ op = d := by
  have parts :
      d.extractLsb' 51 77 ++ lineField (lineOf 50 d) ++ lineField (lineOf 49 d) ++ lineField (lineOf 48 d)
        ++ d.extractLsb' 8 40 ++ opOf d = d := by
    grind [lineField, lineOf, opOf]
  simpa (disch := decide) only [reserved_eq_zero h, opOf_of_and_eq h] using parts

theorem fields_mr (op : Byte) (h : d &&& 0xFFFFFFFFFFFFFFFFFFFFFFFFE0E0FFFF = 0#120 ++ op) :
    0#99 ++ regadOf d ++ 0#3 ++ phyadOf d ++ 0#8 ++ op = d := by
  have parts :
      d.extractLsb' 29 99 ++ regadOf d ++ d.extractLsb' 21 3 ++ phyadOf d ++ d.extractLsb' 8 8
        ++ opOf d = d := by
    grind [regadOf, phyadOf, opOf]
  simpa (disch := decide) only [reserved_eq_zero h, opOf_of_and_eq h] using parts

theorem fields_mw (op : Byte) (h : d &&& 0xFFFFFFFFFFFFFFFF0000FFFFE0E0FFFF = 0#120 ++ op) :
    0#64 ++ valOf d ++ 0#19 ++ regadOf d ++ 0#3 ++ phyadOf d ++ 0#8 ++ op = d := by
  have parts :
      d.extractLsb' 64 64 ++ valOf d ++ d.extractLsb' 29 19 ++ regadOf d ++ d.extractLsb' 21 3 ++ phyadOf d
        ++ d.extractLsb' 8 8 ++ opOf d = d := by
    grind [valOf, regadOf, phyadOf, opOf]
  simpa (disch := decide) only [reserved_eq_zero h, opOf_of_and_eq h] using parts

/-- Each row's reading of a descriptor it selects, by the format of the row. -/
theorem encode_build : ∀ r ∈ opcodeTable, ∀ d, d &&& r.mask = r.matched → encode (r.build d) = d := by
  simp only [opcodeTable, adapterRows, bridgeRows, remoteDmaRows, mgmtRows, List.forall_mem_append,
    List.forall_mem_cons]
  refine ⟨⟨⟨⟨?rd8, ?rd16, ?wr8, ?wr16, nofun⟩, ?wblk, ?rblk, nofun⟩, ?gethdr, ?bin, ?bout, ?reset, nofun⟩,
    ?mdc, ?mdir, ?mdo, ?mdi, ?eerd, ?eewr, ?mdiord, ?mdiowr, nofun⟩
  case rd8 => exact fun _ => fields_regr 0x01
  case rd16 => exact fun _ => fields_regr 0x02
  case wr8 => exact fun _ => fields_regw8 0x03
  case wr16 => exact fun _ => fields_regw16 0x04
  case wblk => exact fun _ => fields_b 0x10
  case rblk => exact fun _ => fields_b 0x11
  case gethdr => exact fun _ => fields_dh 0x20
  case bin => exact fun _ => fields_di 0x21
  case bout => exact fun _ => fields_do 0x22
  case reset => exact fun _ => fields_n 0x23
  case mdc => exact fun _ => fields_l 0x30
  case mdir => exact fun _ => fields_l 0x31
  case mdo => exact fun _ => fields_l 0x32
  case mdi => exact fun _ => fields_n 0x33
  case eerd => exact fun _ => fields_n 0x34
  case eewr => exact fun _ => fields_e 0x35
  case mdiord => exact fun _ => fields_mr 0x38
  case mdiowr => exact fun _ => fields_mw 0x39

/-- Settles O2: the row that was selected leaves the descriptor no other bits. -/
theorem encodeOfDecode : Obligations.EncodeOfDecode := by
  intro d i h
  obtain ⟨r, hr, hsel, rfl⟩ := decode_eq_ok_iff.mp h
  exact encode_build r hr d (Row.selects_iff.mp hsel)

/-! ### The examples of R79 -/

/-- Settles O5: each example by evaluation. -/
theorem encodingExamples : Obligations.EncodingExamples := by
  refine ⟨?_, ?_, ?_, ?_, ?_, ?_, ?_, ?_, ?_, ?_, ?_⟩ <;> exact ⟨_, rfl, rfl, rfl⟩

end Sys2Proof
end

section
/-!
PROOF. The register-width adapter (R80-R87): RD8, RD16, WR8 and WR16 are an index check, one cycle and a
response; an index out of range is a fault that leaves the block stuck (R43, R81, R130).
-/

namespace Sys2Proof.Machine

open Sys2Proof

variable {i : Instr} {idx : Byte} {p : Port} {s t : State}

/-! ### The index check (R81) -/

theorem regIndex_eq_of_toNat {k : Fin 32} (h : idx.toNat = k.val) : regIndex idx = some k := by
  rw [regIndex_of_lt (h ▸ k.isLt)]
  exact congrArg some (Fin.ext h)

theorem regIndex_of_ge (h : 32 ≤ idx.toNat) : regIndex idx = none :=
  dif_neg (Nat.not_lt.mpr h)

theorem checkIndex_of_regIndex {k : Fin 32} (h : regIndex idx = some k) (s : State) (p : Port)
    (a : Active) : s.checkIndex p a idx = s.goto p a .cycle := by
  simp [State.checkIndex, h]

theorem checkIndex_of_ge (h : 32 ≤ idx.toNat) (s : State) (p : Port) (a : Active) :
    s.checkIndex p a idx = s.raise p .regRange (.index idx) := by
  simp [State.checkIndex, regIndex_of_ge h]

/-! ### The cycle (R84-R87) -/

theorem readCycle_setPort {k : Fin 32} (h : regIndex idx = some k) (w : Width) (p : Port) (a : Active)
    (s : State) : readCycle idx w p a (s.setPort p (.active a))
      = .next ((s.memRead (s.regAddr k) w).2.setPort p (.active
          { a with
            pos := .respond
            locals := { a.locals with value := (s.drawBus (s.regAddr k) w).1 } })) := by
  simp [readCycle, h, gotoWith_eq]

theorem writeCycle_setPort {k : Fin 32} (h : regIndex idx = some k) (w : Width) (v : Word) (p : Port)
    (a : Active) (s : State) : writeCycle idx w v p a (s.setPort p (.active a))
      = .next ((s.memWrite (s.regAddr k) w v).setPort p (.active { a with pos := .respond })) := by
  simp [writeCycle, h, goto_eq]

theorem since_memRead (p : Port) (s : State) (addr : Word) (w : Width) :
    Since p s (s.memRead addr w).2 [.read addr w (s.drawBus addr w).1] s.rest where
  cycles := by simp
  responses := by simp
  other := by simp
  preempted := by simp
  rest := by simp
  cfg := by simp
  regOffset := by simp

/-! ### The three micro-steps of a request -/

/-- What the micro-steps of a request of the adapter are: the check of its index, its cycle, and the response
with a value of its locals. -/
structure AdapterCall (i : Instr) (idx : Byte) (busCycle : Port → Active → State → Result)
    (value : Locals → Half) : Prop where
  start : ∀ {s : State} {p : Port} {a : Active}, s.running = some (p, a) → a.pos = .start →
    exec i s = .next (s.checkIndex p a idx)
  cycle : ∀ {s : State} {p : Port} {a : Active}, s.running = some (p, a) → a.pos = .cycle →
    exec i s = busCycle p a s
  respond : ∀ {s : State} {p : Port} {a : Active}, s.running = some (p, a) → a.pos = .respond →
    exec i s = .next (s.respond p .ok .none (value a.locals))

/-- The value a read answers with. -/
def readValue (l : Locals) : Half := l.value.setWidth 16

/-- The value a write answers with. -/
def writeValue (_ : Locals) : Half := 0

theorem adapterCall_rd8 (idx : Byte) : AdapterCall (.rd8 idx) idx (readCycle idx .w8) readValue where
  start hr hp := by simp [exec, execRd8, micro_running hr, hp]
  cycle hr hp := by simp [exec, execRd8, micro_running hr, hp]
  respond hr hp := by simp [exec, execRd8, micro_running hr, hp, readValue]

theorem adapterCall_rd16 (idx : Byte) : AdapterCall (.rd16 idx) idx (readCycle idx .w16) readValue where
  start hr hp := by simp [exec, execRd16, micro_running hr, hp]
  cycle hr hp := by simp [exec, execRd16, micro_running hr, hp]
  respond hr hp := by simp [exec, execRd16, micro_running hr, hp, readValue]

theorem adapterCall_wr8 (idx v : Byte) :
    AdapterCall (.wr8 idx v) idx (writeCycle idx .w8 (v.setWidth 32)) writeValue where
  start hr hp := by simp [exec, execWr8, micro_running hr, hp]
  cycle hr hp := by simp [exec, execWr8, micro_running hr, hp]
  respond hr hp := by simp [exec, execWr8, micro_running hr, hp, writeValue]

theorem adapterCall_wr16 (idx : Byte) (v : Half) :
    AdapterCall (.wr16 idx v) idx (writeCycle idx .w16 (v.setWidth 32)) writeValue where
  start hr hp := by simp [exec, execWr16, micro_running hr, hp]
  cycle hr hp := by simp [exec, execWr16, micro_running hr, hp]
  respond hr hp := by simp [exec, execWr16, micro_running hr, hp, writeValue]

theorem exec_adapter_start {a : Active}
    (hi : i = .rd8 idx ∨ i = .rd16 idx ∨ (∃ v, i = .wr8 idx v) ∨ ∃ v, i = .wr16 idx v)
    (hr : s.running = some (p, a)) (hp : a.pos = .start) :
    exec i s = .next (s.checkIndex p a idx) := by
  rcases hi with rfl | rfl | ⟨v, rfl⟩ | ⟨v, rfl⟩
  · exact (adapterCall_rd8 idx).start hr hp
  · exact (adapterCall_rd16 idx).start hr hp
  · exact (adapterCall_wr8 idx v).start hr hp
  · exact (adapterCall_wr16 idx v).start hr hp

/-! ### An index out of range (R81, R130) -/

/-- A raised fault answers its request with no cycle (R130). -/
theorem raise_answers (s : State) (p : Port) (c : Code) (info : Info) :
    Answered s (s.raise p c info) p [] ⟨.fault, c, 0⟩ :=
  respond_answers _ _ _ (by simp) (by simp) (by simp) (by simp)

/-- A block with a fault is stuck, unless RST is scheduled next (R43). -/
theorem stuck_of_fault {c : Code} {info : Info} (hf : s.fault = some (c, info)) {m : Move}
    {rest : List Move} (hm : s.env.moves = [] ∨ s.env.moves = m :: rest ∧ m ≠ .rst) :
    step s = .fault (.stuck c info) := by
  obtain ⟨hscheduled, hunscheduled, -⟩ := stuckUntilRst s c info hf
  rcases hm with hm | ⟨hm, hne⟩
  · exact hunscheduled hm
  · exact hscheduled m rest hm hne

/-- Settles O16: the index check raises, and a raised fault answers and leaves the block stuck. -/
theorem regRangeRaised : Obligations.RegRangeRaised := by
  intro i idx s p hidx ⟨d, hr⟩ hi
  refine ⟨s.raise p .regRange (.index idx), ?_, raise_answers s p _ _, rest_raise s p _ _,
    fun m rest hm => stuck_of_fault (congrArg Rest.fault (rest_raise s p _ _)) hm⟩
  rw [exec_adapter_start hi hr rfl, checkIndex_of_ge hidx]

/-! ### An index in range (R82, R84-R87) -/

theorem execN_succ (h : exec i s = .next t) (n : Nat) : execN i (n + 1) s = execN i n t := by
  rw [execN, h]

/-- A request whose index is in range and whose cycle leads, whatever its locals, to `u` and a response with
`v`: it runs to that response, with what has happened up to `u`. -/
theorem AdapterCall.runs {busCycle : Port → Active → State → Result} {value : Locals → Half}
    (hcall : AdapterCall i idx busCycle value) (h : AtStart s p) {k : Fin 32} (hk : regIndex idx = some k)
    {u : State} {cs : List BusCycle} {v : Half} (hu : Since p s u cs s.rest)
    (hcycle : ∀ a, ∃ b, busCycle p a (s.setPort p (.active a)) = .next (u.setPort p (.active b))
      ∧ b.pos = .respond ∧ value b.locals = v) :
    ∃ t, execN i 3 s = .next t ∧ Answered s t p cs (okResponse v) ∧ t.rest = s.rest := by
  obtain ⟨d, hr⟩ := h
  have hready : Ready s p := ready_of_running hr
  have hstart := hcall.start hr rfl
  rw [checkIndex_of_regIndex hk, goto_eq] at hstart
  obtain ⟨b, hx, hb, hv⟩ := hcycle { Active.fresh d with pos := .cycle }
  have hcyc := (hcall.cycle (running_setPort hready) rfl).trans hx
  have hend := hcall.respond (running_setPort (hu.ready.mpr hready)) hb
  rw [hv, respond_setPort] at hend
  refine ⟨u.respond p .ok .none v, ?_,
    respond_answers _ _ _ hu.cycles hu.responses hu.other hu.preempted, (rest_respond ..).trans hu.rest⟩
  rw [execN_succ hstart, execN_succ hcyc, execN_succ hend, execN]

/-- A read runs to the environment's answer (R84, R85). -/
theorem AdapterCall.reads {w : Width} (hcall : AdapterCall i idx (readCycle idx w) readValue)
    (h : AtStart s p) {k : Fin 32} (hk : regIndex idx = some k) :
    ∃ t, execN i 3 s = .next t
      ∧ Answered s t p [.read (s.regAddr k) w (s.drawBus (s.regAddr k) w).1]
          (okResponse ((s.drawBus (s.regAddr k) w).1.setWidth 16))
      ∧ t.rest = s.rest :=
  hcall.runs h hk (since_memRead p s _ w) fun a => ⟨_, readCycle_setPort hk w p a s, rfl, rfl⟩

/-- A write runs to its response (R86, R87). -/
theorem AdapterCall.writes {w : Width} {v : Word}
    (hcall : AdapterCall i idx (writeCycle idx w v) writeValue) (h : AtStart s p) {k : Fin 32}
    (hk : regIndex idx = some k) :
    ∃ t, execN i 3 s = .next t
      ∧ Answered s t p [.write (s.regAddr k) w (w.trunc v)] (okResponse 0) ∧ t.rest = s.rest :=
  hcall.runs h hk (since_memWrite p s _ w v) fun a => ⟨_, writeCycle_setPort hk w v p a s, rfl, rfl⟩

/-- Settles O22: the read of each width, whose answer is no wider than its cycle. -/
theorem registerReads : Obligations.RegisterReads := by
  intro idx k s p hstart hidx
  have hk := regIndex_eq_of_toNat hidx
  refine ⟨?_, ?_⟩
  · obtain ⟨t, ht, hanswered, hrest⟩ := (adapterCall_rd8 idx).reads hstart hk
    rw [← drawBus_w8, BitVec.setWidth_setWidth_of_le _ (show 16 ≤ 32 by decide)] at hanswered
    exact ⟨t, _, ht, drawBus_w8 s _, hanswered, hrest⟩
  · obtain ⟨t, ht, hanswered, hrest⟩ := (adapterCall_rd16 idx).reads hstart hk
    refine ⟨t, _, ht, drawBus_w16 s _, ?_, hrest⟩
    rwa [drawBus_w16]

/-- Settles O23: the write of each width, which its value fits. -/
theorem registerWrites : Obligations.RegisterWrites := by
  intro idx k s p hstart hidx
  have hk := regIndex_eq_of_toNat hidx
  refine ⟨fun v => ?_, fun v => ?_⟩
  · rw [← trunc_w8_setWidth v]
    exact (adapterCall_wr8 idx v).writes hstart hk
  · rw [← trunc_w16_setWidth v]
    exact (adapterCall_wr16 idx v).writes hstart hk

end Sys2Proof.Machine
end

section
/-!
PROOF. The host range of a request that moves bytes (R94): its first micro-step raises `HOST_RANGE` when the
range would pass 2^32, before any cycle or busy check.
-/

namespace Sys2Proof.Machine

open Sys2Proof

variable {i : Instr} {p : Port} {a : Active} {s : State} {haddr : Word} {len : Half} {count : Nat}

/-- The rounded count in numbers (R106). -/
theorem roundedCount_eq (c : Config) (len : Half) : roundedCount c len
    = if c.word16 = true ∧ len.toNat % 2 = 1 then len.toNat + 1 else len.toNat := by
  have hodd : len.getLsbD 0 = decide (len.toNat % 2 = 1) := by simp [BitVec.getLsbD, Nat.testBit_zero]
  simp only [roundedCount, hodd, Bool.and_eq_true, decide_eq_true_eq]

theorem checkRange_of_fits (h : haddr.toNat + count ≤ 2 ^ 32) (s : State) (p : Port) (next : State) :
    s.checkRange p haddr count next = next :=
  if_pos (by simpa [hostFits] using h)

theorem checkRange_of_wraps (h : 2 ^ 32 < haddr.toNat + count) (s : State) (p : Port) (next : State) :
    s.checkRange p haddr count next = s.raise p .hostRange (.range haddr count) :=
  if_neg (by simpa [hostFits] using h)

theorem boutCheck_of_counted (h : roundedCount s.cfg len ≤ 0xFFFF) : boutCheck haddr len p a s
    = s.checkRange p haddr (roundedCount s.cfg len) (s.goto p a .acquire) :=
  if_neg (by omega)

theorem execWblk_start (hr : s.running = some (p, a)) (hp : a.pos = .start) :
    exec (.wblk haddr len) s = .next (s.checkRange p haddr len.toNat
      (s.setPort p (.active (enterWblk s.cfg haddr.toNat len.toNat thenRespond a)))) := by
  simp only [exec, execWblk, micro_running hr, hp]

theorem execRblk_start (hr : s.running = some (p, a)) (hp : a.pos = .start) :
    exec (.rblk haddr len) s = .next (s.checkRange p haddr len.toNat
      (s.setPort p (.active (enterRblk s.cfg haddr.toNat len.toNat thenRespond a)))) := by
  simp only [exec, execRblk, micro_running hr, hp]

theorem execGethdr_start {page : Byte} (hr : s.running = some (p, a)) (hp : a.pos = .start) :
    exec (.gethdr haddr page) s = .next (s.checkRange p haddr s.cfg.hdrSize (s.goto p a .acquire)) := by
  simp only [exec, execGethdr, micro_running hr, hp]

theorem execBin_start {roff : Half} (hr : s.running = some (p, a)) (hp : a.pos = .start) :
    exec (.bin haddr len roff) s = .next (s.checkRange p haddr len.toNat (s.goto p a .acquire)) := by
  simp only [exec, execBin, micro_running hr, hp]

/-- Settles O17: each form's first micro-step is the range check, and a raised fault answers with no cycle. -/
theorem hostRangeRaised : Obligations.HostRangeRaised := by
  intro i haddr count s p ⟨d, hr⟩ hwraps hi
  refine ⟨s.raise p .hostRange (.range haddr count), ?_, raise_answers s p _ _, rest_raise s p _ _⟩
  rcases hi with ⟨len, rfl, rfl | rfl | ⟨roff, rfl⟩⟩ | ⟨rfl, page, rfl⟩ | ⟨len, page, hc, hcount, rfl⟩
  · rw [execWblk_start hr rfl, checkRange_of_wraps hwraps]
  · rw [execRblk_start hr rfl, checkRange_of_wraps hwraps]
  · rw [execBin_start hr rfl, checkRange_of_wraps hwraps]
  · rw [execGethdr_start hr rfl, checkRange_of_wraps hwraps]
  · rw [← roundedCount_eq] at hcount
    subst hcount
    rw [execBout_start hr rfl, boutCheck_of_counted hc, checkRange_of_wraps hwraps]

end Sys2Proof.Machine
end

section
/-!
PROOF. Counting the micro-steps of WBLK and RBLK: each transfer is two of them and one cycle (R90, R91), so the
trace says how many there were.
-/

namespace Sys2Proof.Machine

open Sys2Proof

variable {i : Instr} {p : Port} {a b : Active} {s t u : State} {haddr : Word} {len : Half}

/-! ### A measure that every micro-step raises by one -/

theorem eq_otherPort_of_ne {p q : Port} (h : p ≠ q) : p = otherPort q := by
  cases p <;> cases q <;> simp_all [otherPort]

/-- A port whose request has ended gets no request by micro-steps (R36). -/
theorem execN_idle {n : Nat} (h : s.port p = .idle) (hx : execN i n s = .next t) : t.port p = .idle := by
  induction n generalizing s with
  | zero => cases hx; exact h
  | succ n ih =>
    simp only [execN] at hx
    split at hx
    · next u hu =>
      obtain ⟨q, a, hr⟩ := running_of_exec hu
      refine ih ?_ hx
      have hne : p ≠ q := by
        rintro rfl
        cases (port_of_running hr).symm.trans h
      rw [eq_otherPort_of_ne hne, (exec_microStep hr hu).frame.other, ← eq_otherPort_of_ne hne, h]
    · cases hx
    · cases hx

/-- What a micro-step of a counted request does: it ends the request, or raises the measure by one. -/
def Ticked (f : State → Active → Nat) (p : Port) (t : State) (a : Active) (u : State) : Prop :=
  u.port p = .idle ∨ ∃ b, u.running = some (p, b) ∧ f u b = f t a + 1

/-- A measure that each micro-step raises by one counts them. -/
theorem execN_ticks {f : State → Active → Nat}
    (hf : ∀ {t u : State} {a : Active}, t.running = some (p, a) → exec i t = .next u → Ticked f p t a u)
    {n : Nat} (hr : s.running = some (p, a)) (hx : execN i n s = .next t)
    (ht : t.running = some (p, b)) : f t b = f s a + n := by
  induction n generalizing s a with
  | zero =>
    cases hx
    cases hr.symm.trans ht
    rfl
  | succ n ih =>
    simp only [execN] at hx
    split at hx
    · next u hu =>
      rcases hf hr hu with hidle | ⟨c, hc, htick⟩
      · cases (port_of_running ht).symm.trans (execN_idle hidle hx)
      · rw [ih hc hx, htick]
        omega
    · cases hx
    · cases hx

@[simp] theorem ready_moved (s : State) (raced : List Nat) (addr : Nat) (bytes : List Byte) (p : Port) :
    Ready (s.moved raced addr bytes).2 p = Ready s p :=
  ready_congr (moved_portIrq ..) (moved_preempted ..)

@[simp] theorem ready_hostWrite (s : State) (addr : Nat) (bytes : List Byte) (p : Port) :
    Ready (s.hostWrite addr bytes) p = Ready s p :=
  ready_withMem s p _

/-! ### The measure of WBLK and RBLK -/

/-- What a place adds to the measure. A transfer's cycle is at `bus`; its first micro-step is at `host` in WBLK,
where `base` is 0, and at `bus` in RBLK, where it is 1. -/
def bridgePhase (base : Nat) : Pos → Nat
  | .host _ => 1
  | .bus _ => 2
  | .respond => base + 1
  | _ => base

/-- Two micro-steps for each cycle, and those since the last. -/
def bridgeTicks (base : Nat) (t : State) (a : Active) : Nat :=
  2 * t.out.cycles.length + bridgePhase base a.pos

/-- Where the loop's choice leads: to the first micro-step of a transfer, or to the response. -/
theorem bridgePhase_bridgeTo {base : Nat} {at_ : BUnit → Pos}
    (h : ∀ u, bridgePhase base (at_ u) = base + 1) (a : Active) (x : Xfer × Option BUnit) :
    bridgePhase base (bridgeTo at_ thenRespond a x).pos = base + 1 := by
  obtain ⟨x, o⟩ := x
  cases o with
  | none => rfl
  | some u => exact h u

/-- A micro-step with these many new cycles that leads on to `b`. -/
theorem ticked_setPort {base k : Nat} (hr : s.running = some (p, a)) (hready : Ready t p = Ready s p)
    (hc : t.out.cycles.length = s.out.cycles.length + k)
    (hb : 2 * k + bridgePhase base b.pos = bridgePhase base a.pos + 1) :
    Ticked (bridgeTicks base) p s a (t.setPort p (.active b)) := by
  refine .inr ⟨b, running_setPort (hready.mpr (ready_of_running hr)), ?_⟩
  simp only [bridgeTicks, setPort_out, hc]
  omega

/-- The first micro-step of either: the fault of the range check, or the loop's first choice (R94). -/
theorem ticked_start {base : Nat} (hr : s.running = some (p, a)) (hp : a.pos = .start)
    (hb : bridgePhase base b.pos = base + 1) (haddr : Word) (count : Nat) :
    Ticked (bridgeTicks base) p s a (s.checkRange p haddr count (s.setPort p (.active b))) := by
  unfold State.checkRange
  split
  · exact ticked_setPort (k := 0) hr rfl rfl (by rw [hb, hp]; simp [bridgePhase])
  · exact .inl (port_raise _ _ _ _)

theorem execWblk_respond (hr : s.running = some (p, a)) (hp : a.pos = .respond) :
    exec (.wblk haddr len) s = .next (s.respond p .ok .none 0) := by
  simp only [exec, execWblk, micro_running hr, hp]

theorem execRblk_respond (hr : s.running = some (p, a)) (hp : a.pos = .respond) :
    exec (.rblk haddr len) s = .next (s.respond p .ok .none 0) := by
  simp only [exec, execRblk, micro_running hr, hp]

theorem wblkCall_wblk (p : Port) (c : Config) (haddr : Word) (len : Half) :
    WblkCall (.wblk haddr len) p c none thenRespond where
  host hr _ hp := by simp only [exec, execWblk, micro_running hr, hp]
  bus hr _ hp := by simp only [exec, execWblk, micro_running hr, hp]

/-- WBLK's transfers begin with the host read (R90). -/
theorem execWblk_ticks (hr : s.running = some (p, a)) (hx : exec (.wblk haddr len) s = .next t) :
    Ticked (bridgeTicks 0) p s a t := by
  simp only [exec, execWblk, micro_running hr] at hx
  split at hx
  · next hp =>
    cases hx
    exact ticked_start hr hp (bridgePhase_bridgeTo (fun _ => rfl) a _) haddr len.toNat
  · next v hp =>
    cases hx
    exact ticked_setPort (k := 0) hr rfl rfl (by rw [hp]; rfl)
  · next v hp =>
    cases hx
    refine ticked_setPort (k := 1) hr (by simp) (by simp) ?_
    rw [bridgePhase_bridgeTo (fun _ => rfl), hp]
    rfl
  · cases hx
    exact .inl (port_respond_same _ _ _ _ _)
  · cases hx

/-- RBLK's transfers begin with the cycle (R91). -/
theorem execRblk_ticks (hr : s.running = some (p, a)) (hx : exec (.rblk haddr len) s = .next t) :
    Ticked (bridgeTicks 1) p s a t := by
  simp only [exec, execRblk, micro_running hr] at hx
  split at hx
  · next hp =>
    cases hx
    exact ticked_start hr hp (bridgePhase_bridgeTo (fun _ => rfl) a _) haddr len.toNat
  · next v hp =>
    cases hx
    exact ticked_setPort (k := 1) hr (by simp) (by simp) (by rw [hp]; rfl)
  · next v hp =>
    cases hx
    refine ticked_setPort (k := 0) hr (by simp) (by simp [out_hostWrite]) ?_
    rw [bridgePhase_bridgeTo (fun _ => rfl), hp]
    rfl
  · cases hx
    exact .inl (port_respond_same _ _ _ _ _)
  · cases hx

end Sys2Proof.Machine
end

section
/-!
PROOF. `Rblk` as a whole (R89, R91, R92), in RBLK as in GETHDR and BIN: from the loop's first choice the request
comes to what follows the bridge, after exactly the reads of `bridgeShape`, their bytes in host memory in order.
-/

namespace Sys2Proof.Machine

open Sys2Proof

variable {i : Instr} {p : Port} {a b : Active} {s t u : State} {keep : Bool} {done : Active → Active}

/-! ### What the reads of a call have left -/

/-- The bytes that cycles carry, in stream order (R57). -/
def streamOf (c : Config) (cs : List BusCycle) : List Byte := cs.flatMap (BusCycle.bytes c.hostBigEndian)

/-- Where and how wide a cycle is. -/
def BusCycle.shape (c : BusCycle) : Word × Width := (c.addr, c.width)

@[simp] theorem streamOf_nil (c : Config) : streamOf c [] = [] := rfl

theorem streamOf_append (c : Config) (cs ds : List BusCycle) :
    streamOf c (cs ++ ds) = streamOf c cs ++ streamOf c ds := List.flatMap_append

theorem streamOf_singleton (c : Config) (x : BusCycle) : streamOf c [x] = x.bytes c.hostBigEndian :=
  List.flatMap_singleton ..

theorem streamOf_snoc (c : Config) (cs : List BusCycle) (x : BusCycle) :
    streamOf c (cs ++ [x]) = streamOf c cs ++ x.bytes c.hostBigEndian := by
  rw [streamOf_append, streamOf_singleton]

/-- From `s` to `t` the request has issued these reads, of shape `sh` and with `o` bytes in all, and host memory
has their bytes from `addr` on; nothing else has changed. -/
structure Filled (p : Port) (s : State) (addr : Nat) (sh : List (Word × Width)) (o : Nat) (cs : List BusCycle)
    (t : State) : Prop where
  since : Since p s t cs { s.rest with mem := s.mem.writeBytes addr (streamOf s.cfg cs) }
  shape : cs.map BusCycle.shape = sh
  reads : ∀ c ∈ cs, c.isRead = true
  length : (streamOf s.cfg cs).length = o

theorem filled_refl (p : Port) (s : State) (addr : Nat) : Filled p s addr [] 0 [] s :=
  ⟨.refl p s, rfl, nofun, rfl⟩

section

variable {addr o n : Nat} {sh : List (Word × Width)} {cs : List BusCycle} {x : BusCycle}

theorem Filled.mem (h : Filled p s addr sh o cs t) : t.mem = s.mem.writeBytes addr (streamOf s.cfg cs) :=
  congrArg Rest.mem h.since.rest

theorem since_hostWrite (p : Port) (s : State) (addr : Nat) (bytes : List Byte) :
    Since p s (s.hostWrite addr bytes) [] { s.rest with mem := s.mem.writeBytes addr bytes } where
  cycles := (List.append_nil _).symm
  responses := rfl
  other := port_hostWrite s addr bytes _
  preempted := rfl
  rest := rest_hostWrite s addr bytes
  cfg := rfl
  regOffset := rfl

/-- One more read and the host write of its bytes (R91). -/
theorem Filled.snoc (h : Filled p s addr sh o cs t) (hread : x.isRead = true)
    (hlen : (x.bytes s.cfg.hostBigEndian).length = n) (hx : Since p t u [x] t.rest) :
    Filled p s addr (sh ++ [x.shape]) (o + n) (cs ++ [x])
      (u.hostWrite (addr + o) (x.bytes s.cfg.hostBigEndian)) where
  since := by
    have hmem : u.mem = s.mem.writeBytes addr (streamOf s.cfg cs) :=
      (congrArg Rest.mem hx.rest).trans h.mem
    have hw := (h.since.trans hx).trans (since_hostWrite p u (addr + o) (x.bytes s.cfg.hostBigEndian))
    rw [List.append_nil, hx.rest, h.since.rest, hmem, ← h.length, ← Memory.writeBytes_append,
      ← streamOf_snoc, h.length] at hw
    exact hw
  shape := by rw [List.map_append, h.shape]; rfl
  reads := by
    intro c hc
    rcases List.mem_append.mp hc with hc | hc
    · exact h.reads c hc
    · rw [List.mem_singleton.mp hc, hread]
  length := by rw [streamOf_snoc, List.length_append, h.length, hlen]

theorem Filled.setPort (h : Filled p s addr sh o cs t) (x : PortState) :
    Filled p s addr sh o cs (t.setPort p x) :=
  ⟨h.since.setPort x, h.shape, h.reads, h.length⟩

end

/-! ### One transfer -/

/-- A request whose bridge call is `Rblk`: what its transfers' micro-steps are; `keep` is whether it keeps the
bytes as a header (R104). -/
structure RblkCall (i : Instr) (p : Port) (c : Config) (keep : Bool) (done : Active → Active) : Prop where
  bus : ∀ {t : State} {a : Active} {u : BUnit}, t.running = some (p, a) → t.cfg = c →
    a.pos = .bus u → exec i t = rblkBus keep u p a t
  host : ∀ {t : State} {a : Active} {u : BUnit}, t.running = some (p, a) → t.cfg = c →
    a.pos = .host u → exec i t = rblkHost done u p a t

theorem rblkCall_rblk (p : Port) (c : Config) (haddr : Word) (len : Half) :
    RblkCall (.rblk haddr len) p c false thenRespond where
  bus hr _ hp := by simp only [exec, execRblk, micro_running hr, hp]
  host hr _ hp := by simp only [exec, execRblk, micro_running hr, hp]

/-- From `a` to `b` a call that has read these bytes has changed only the place, the loop's locals, the bytes in
flight and, if it keeps them, the header. -/
structure Fetched (keep : Bool) (got : List Byte) (a b : Active) : Prop where
  desc : b.desc = a.desc
  xstate : b.xstate = a.xstate
  locals : b.locals = { a.locals with
    xfer := b.locals.xfer
    bytes := b.locals.bytes
    header := if keep then a.locals.header ++ got else a.locals.header }

theorem fetched_refl (keep : Bool) (a : Active) : Fetched keep [] a a :=
  ⟨rfl, rfl, by simp⟩

/-- The request after a transfer's read of `v`. -/
def afterFetch (keep bigEndian : Bool) (x : Xfer) (u : BUnit) (v : Word) (a : Active) : Active :=
  { a with
    pos := .host u
    locals := { a.locals with
      xfer := x
      bytes := u.unlane bigEndian v
      header := if keep then a.locals.header ++ u.unlane bigEndian v else a.locals.header } }

section

variable {got : List Byte} {be : Bool} {x : Xfer} {u : BUnit}

theorem Fetched.fetch (h : Fetched keep got a b) (v : Word) :
    Fetched keep (got ++ u.unlane be v) a (afterFetch keep be x u v b) where
  desc := h.desc
  xstate := h.xstate
  locals := by
    simp only [afterFetch]
    rw [h.locals]
    cases keep <;> simp

theorem Fetched.raced (h : Fetched keep got a b) (hraced : a.locals.raced = []) : b.locals.raced = [] := by
  rw [h.locals]
  exact hraced

end

/-- Inside a call that began in `s` as `a0`: reads of shape `sh` are done and the loop has chosen `x`. -/
def InRblk (p : Port) (s : State) (a0 : Active) (keep : Bool) (done : Active → Active) (addr : Nat)
    (sh : List (Word × Width)) (o : Nat) (x : Xfer × Option BUnit) (t : State) (b : Active) : Prop :=
  ∃ cs a, Filled p s addr sh o cs t ∧ Fetched keep (streamOf s.cfg cs) a0 a ∧ b = bridgeTo .bus done a x

/-- The shape of a transfer's read (R89). -/
def rblkShape (s : State) (x : Xfer) (u : BUnit) : Word × Width :=
  (s.unitAddr s.cfg.readWindow x u, u.width)

/-- The bytes of a transfer's cycle are as many as it moves (R57). -/
theorem length_unlane (be : Bool) (u : BUnit) (v : Word) : (u.unlane be v).length = u.size := by
  cases u <;> cases be <;> rfl

theorem bytes_read (be : Bool) (addr : Word) (u : BUnit) (v : Word) :
    (BusCycle.read addr u.width v).bytes be = u.unlane be v := by
  cases u <;> rfl

section

variable {addr count o : Nat} {a0 : Active} {sh : List (Word × Width)} {x : Xfer} {u : BUnit}

/-- The first micro-step of a transfer is its read. -/
theorem RblkCall.reads {c : Config} (hcall : RblkCall i p c keep done)
    (hr : t.running = some (p, bridgeTo .bus done a (x, some u))) (hc : t.cfg = c) :
    exec i t = .next ((t.memRead (t.unitAddr c.readWindow x u) u.width).2.setPort p (.active
      (afterFetch keep c.hostBigEndian x u (t.drawBus (t.unitAddr c.readWindow x u) u.width).1 a))) := by
  subst hc
  rw [hcall.bus (u := u) hr rfl rfl]
  rfl

/-- The second is the host write of its bytes, when no agent has raced for them. -/
theorem RblkCall.stores {c : Config} (hcall : RblkCall i p c keep done) (hr : t.running = some (p, a))
    (hc : t.cfg = c) (hp : a.pos = .host u) (hraced : a.locals.raced = []) :
    exec i t = .next ((t.hostWrite (a.locals.xfer.hostAddr u) a.locals.bytes).setPort p
      (.active (bridgeTo .bus done a (a.locals.xfer.advance c.winSize u)))) := by
  subst hc
  rw [hcall.host hr rfl hp]
  simp only [rblkHost, hraced, moved_nil]

/-- A transfer: the read, then the host write of the bytes read (R63, R91). -/
theorem InRblk.transfer (hcall : RblkCall i p s.cfg keep done) (hraced : a0.locals.raced = [])
    (h : InRblk p s a0 keep done addr sh o (x, some u) t b) (hr : t.running = some (p, b))
    (ho : x.hostAddr u = addr + o) :
    Comes i p t (InRblk p s a0 keep done addr (sh ++ [rblkShape s x u]) (o + u.size)
      (x.advance s.cfg.winSize u)) := by
  obtain ⟨cs, a, hf, ha, rfl⟩ := h
  have hx := hcall.reads hr hf.since.cfg
  rw [unitAddr_congr hf.since.cfg hf.since.regOffset] at hx
  generalize hv : (t.drawBus (s.unitAddr s.cfg.readWindow x u) u.width).1 = v at hx
  have ha := ha.fetch (be := s.cfg.hostBigEndian) (x := x) (u := u) v
  have hread := (since_memRead p t (s.unitAddr s.cfg.readWindow x u) u.width).setPort
    (.active (afterFetch keep s.cfg.hostBigEndian x u v a))
  have hready : Ready (t.memRead (s.unitAddr s.cfg.readWindow x u) u.width).2 p := by
    simpa using ready_of_running hr
  have hx' := hcall.stores (running_setPort hready) (hread.cfg.trans hf.since.cfg) rfl (ha.raced hraced)
  rw [hv] at hread
  rw [show (afterFetch keep s.cfg.hostBigEndian x u v a).locals.xfer.hostAddr u = addr + o from ho] at hx'
  have hfill := hf.snoc (n := u.size) rfl (by rw [bytes_read, length_unlane]) hread
  rw [bytes_read] at hfill
  refine .step hx (.step hx' (.here (running_setPort (by simpa using hready))
    ⟨_, _, hfill.setPort _, ?_, rfl⟩))
  rw [streamOf_snoc, bytes_read]
  exact ha

/-- What follows the bridge, once the loop has chosen nothing more. -/
theorem InRblk.ended (h : InRblk p s a0 keep done addr sh o (x, none) t b) :
    ∃ cs a, Filled p s addr sh o cs t ∧ Fetched keep (streamOf s.cfg cs) a0 a ∧ b = done a := by
  obtain ⟨cs, a, hf, ha, rfl⟩ := h
  exact ⟨cs, { a with locals := { a.locals with xfer := x } }, hf,
    ⟨ha.desc, ha.xstate, by rw [ha.locals]⟩, rfl⟩

end

/-! ### The whole call -/

section

variable {addr count : Nat} {a0 : Active}

/-- The shape of window cycle `k` (R89). -/
def windowShape (s : State) (window : Word) (k : Nat) : Word × Width :=
  (window + BitVec.ofNat 32 (4 * (k % s.cfg.chunkCycles)), .w32)

/-- The window cycles, from the `j`-th on. -/
theorem InRblk.windows (hcall : RblkCall i p s.cfg keep done) (hw : s.cfg.winSizeOk = true)
    (hraced : a0.locals.raced = []) (m : Nat) :
    ∀ {j : Nat} {x : Xfer} {t : State} {b : Active}, j + m = count / 4 →
      XferAt s.cfg.chunkCycles addr count j x →
      InRblk p s a0 keep done addr ((List.range j).map (windowShape s s.cfg.readWindow)) (4 * j)
        (x.select s.cfg.winSize) t b →
      t.running = some (p, b) →
      Comes i p t fun t b => ∃ x, XferAt s.cfg.chunkCycles addr count (count / 4) x
        ∧ InRblk p s a0 keep done addr ((List.range (count / 4)).map (windowShape s s.cfg.readWindow))
            (4 * (count / 4)) (x.select s.cfg.winSize) t b := by
  obtain ⟨hsize, -⟩ := winSize_eq hw
  induction m with
  | zero =>
    intro j x t b hj hx h hr
    have hj : j = count / 4 := hj
    subst hj
    exact .here hr ⟨x, hx, h⟩
  | succ m ih =>
    intro j x t b hj hx h hr
    have hlt : j < count / 4 := by omega
    rw [hsize, hx.select_win hlt] at h
    refine (h.transfer hcall hraced hr hx.hostAddr).trans fun t b hr h => ?_
    have hshape : rblkShape s x .win = windowShape s s.cfg.readWindow j := by
      rw [windowShape, ← hx.k_eq hlt]
      rfl
    rw [hshape, ← List.map_singleton, ← List.map_append, ← List.range_succ] at h
    exact ih (j := j + 1) (by omega) (hsize ▸ hx.afterWindow hlt) h hr

/-- The 8-bit remainder, if the count is odd. -/
theorem InRblk.odd (hcall : RblkCall i p s.cfg keep done) (hraced : a0.locals.raced = [])
    {sh : List (Word × Width)} {o : Nat} {x : Xfer}
    (h : InRblk p s a0 keep done addr sh o (x, if count % 2 = 1 then some .byte else none) t b)
    (hr : t.running = some (p, b)) (ho : x.ptr = addr + o) (hrest : o + count % 2 = count) :
    Comes i p t fun t b => ∃ cs a,
      Filled p s addr (sh ++ if count % 2 = 1 then [(s.regAddr nicDataport, .w8)] else []) count cs t
      ∧ Fetched keep (streamOf s.cfg cs) a0 a ∧ b = done a := by
  by_cases hodd : count % 2 = 1
  · rw [if_pos hodd] at h ⊢
    refine (h.transfer hcall hraced hr ho).trans fun t b hr h => ?_
    rw [show o + BUnit.byte.size = count by simp only [BUnit.size]; omega] at h
    exact .here hr h.ended
  · rw [if_neg hodd] at h ⊢
    rw [List.append_nil]
    rw [show o = count by omega] at h
    exact .here hr h.ended

/-- `Rblk` from its first choice to what follows it: exactly the reads of R89 and R91, in order. -/
theorem rblk_comes (hcall : RblkCall i p s.cfg keep done) (hw : s.cfg.winSizeOk = true)
    (hraced : a0.locals.raced = []) (hr : s.running = some (p, enterRblk s.cfg addr count done a0)) :
    Comes i p s fun t b => ∃ cs a,
      Filled p s addr (bridgeShape s s.cfg.readWindow count) count cs t
      ∧ Fetched keep (streamOf s.cfg cs) a0 a ∧ b = done a := by
  obtain ⟨hsize, hch⟩ := winSize_eq hw
  have hstart : InRblk p s a0 keep done addr ((List.range 0).map (windowShape s s.cfg.readWindow)) (4 * 0)
      ((Xfer.begin addr count).select s.cfg.winSize) s (enterRblk s.cfg addr count done a0) :=
    ⟨[], a0, filled_refl p s addr, fetched_refl keep a0, rfl⟩
  refine (hstart.windows hcall hw hraced (count / 4) (by omega) (xferAt_begin hch addr count) hr).trans
    fun t b hr ⟨x, hx, h⟩ => ?_
  have hrem := hx.rem
  have hhalf : x.rem / 2 % 2 = count / 2 % 2 := by omega
  have hodd : x.rem % 2 = count % 2 := by omega
  rw [hsize, hx.select_tail rfl] at h
  simp only [Xfer.tail, hhalf, hodd] at h
  unfold bridgeShape
  by_cases hc : count / 2 % 2 = 1
  · rw [if_pos hc] at h ⊢
    refine (h.transfer hcall hraced hr (by simp only [Xfer.hostAddr]; omega)).trans fun t b hr h => ?_
    simp only [Xfer.advance, hodd] at h
    rw [← apply_ite (Prod.mk _)] at h
    exact InRblk.odd hcall hraced h hr (by simp only [BUnit.size]; omega) (by simp only [BUnit.size]; omega)
  · rw [if_neg hc] at h ⊢
    rw [List.append_nil]
    rw [← apply_ite (Prod.mk _)] at h
    exact InRblk.odd hcall hraced h hr (by simp only; omega) (by omega)

end

end Sys2Proof.Machine
end

section
/-!
PROOF. WBLK and RBLK from acceptance to their response (R95, R96): the range check, the bridge's loop, and the
number of micro-steps that its cycles say.
-/

namespace Sys2Proof.Machine

open Sys2Proof

variable {i : Instr} {p : Port} {a b : Active} {s t u : State} {haddr : Word} {len : Half} {count : Nat}

/-! ### The cycles of a call -/

theorem length_bridgeShape (s : State) (window : Word) (count : Nat) :
    (bridgeShape s window count).length = bridgeCycles count := by
  have hbit : ∀ n (x : Word × Width), (if n % 2 = 1 then [x] else []).length = n % 2 := by
    intro n x
    split <;> simp <;> omega
  simp only [bridgeShape, bridgeCycles, List.length_append, List.length_map, List.length_range, hbit]

/-- A call's writes have the shape of R92. -/
theorem shape_wblkCycles (s : State) (byte : Nat → Byte) (count : Nat) :
    (wblkCycles s byte count).map BusCycle.shape = bridgeShape s s.cfg.writeWindow count := by
  simp only [wblkCycles, bridgeShape, List.map_append, List.map_map, apply_ite (List.map BusCycle.shape)]
  rfl

theorem length_wblkCycles (s : State) (byte : Nat → Byte) (count : Nat) :
    (wblkCycles s byte count).length = bridgeCycles count := by
  rw [← List.length_map BusCycle.shape, shape_wblkCycles, length_bridgeShape]

theorem bridgeShape_congr (hc : t.cfg = s.cfg) (ho : t.regOffset = s.regOffset) (window : Word)
    (count : Nat) : bridgeShape t window count = bridgeShape s window count := by
  unfold bridgeShape
  rw [hc, regAddr_congr hc ho]

/-! ### Up to the response -/

/-- The check passes, and WBLK comes to its response after the writes of its buffer (R95). -/
theorem wblk_comes_to_respond (h : AtStart s p) (hw : s.cfg.winSizeOk = true)
    (hf : haddr.toNat + len.toNat ≤ 2 ^ 32) :
    Comes (.wblk haddr len) p s fun t b => b.pos = .respond ∧ ∃ cs, Since p s t cs s.rest
      ∧ cs = wblkCycles s (fun j => s.mem.read (haddr.toNat + j)) len.toNat := by
  obtain ⟨d, hr⟩ := h
  have hx := execWblk_start (haddr := haddr) (len := len) hr rfl
  rw [checkRange_of_fits hf] at hx
  have hs := since_setPort s p (.active (enterWblk s.cfg haddr.toNat len.toNat thenRespond (.fresh d)))
  have hr1 : (s.setPort p (.active (enterWblk s.cfg haddr.toNat len.toNat thenRespond (.fresh d)))).running
      = some (p, _) := running_setPort (ready_of_running hr)
  generalize s.setPort p _ = t at hx hs hr1
  have hmem : t.mem = s.mem := congrArg Rest.mem hs.rest
  rw [← hs.cfg] at hr1 hw
  refine .step hx ((wblk_comes (wblkCall_wblk p t.cfg haddr len) hw nofun rfl hr1).trans
    fun u b hr ⟨hu, _, a, _, hb⟩ => ?_)
  have hall := hs.trans hu
  rw [List.nil_append, hs.rest] at hall
  refine .here hr ⟨by rw [hb, thenRespond], _, hall, wblkCycles_congr hs.cfg hs.regOffset fun j _ => ?_⟩
  simp only [wblkByte, hmem]
  rfl

theorem Filled.of_since {addr o : Nat} {sh : List (Word × Width)} {cs : List BusCycle}
    (h : Filled p t addr sh o cs u) (hs : Since p s t [] s.rest) : Filled p s addr sh o cs u where
  since := by
    have hall := hs.trans h.since
    rw [List.nil_append, hs.rest, hs.cfg, show t.mem = s.mem from congrArg Rest.mem hs.rest] at hall
    exact hall
  shape := h.shape
  reads := h.reads
  length := by rw [← hs.cfg]; exact h.length

/-- The check passes, and RBLK comes to its response, its buffer filled (R96). -/
theorem rblk_comes_to_respond (h : AtStart s p) (hw : s.cfg.winSizeOk = true)
    (hf : haddr.toNat + len.toNat ≤ 2 ^ 32) :
    Comes (.rblk haddr len) p s fun t b => b.pos = .respond ∧ ∃ cs,
      Filled p s haddr.toNat (bridgeShape s s.cfg.readWindow len.toNat) len.toNat cs t := by
  obtain ⟨d, hr⟩ := h
  have hx := execRblk_start (haddr := haddr) (len := len) hr rfl
  rw [checkRange_of_fits hf] at hx
  have hs := since_setPort s p (.active (enterRblk s.cfg haddr.toNat len.toNat thenRespond (.fresh d)))
  have hr1 : (s.setPort p (.active (enterRblk s.cfg haddr.toNat len.toNat thenRespond (.fresh d)))).running
      = some (p, _) := running_setPort (ready_of_running hr)
  generalize s.setPort p _ = t at hx hs hr1
  rw [← hs.cfg] at hr1 hw
  refine .step hx ((rblk_comes (rblkCall_rblk p t.cfg haddr len) hw rfl hr1).trans
    fun u b hr ⟨cs, a, hfill, _, hb⟩ => .here hr ⟨by rw [hb, thenRespond], cs, ?_⟩)
  have := hfill.of_since hs
  rwa [hs.cfg, bridgeShape_congr hs.cfg hs.regOffset] at this

/-! ### The response -/

/-- A counted request that comes to its response after `k` cycles runs to it in `2 + 2*k` micro-steps. -/
theorem bridge_runs {base k : Nat} {r : List BusCycle → Rest} {P : List BusCycle → Prop}
    (hticks : ∀ {t u : State} {a : Active}, t.running = some (p, a) → exec i t = .next u →
      Ticked (bridgeTicks base) p t a u)
    (hrespond : ∀ {t : State} {a : Active}, t.running = some (p, a) → a.pos = .respond →
      exec i t = .next (t.respond p .ok .none 0))
    (h : AtStart s p)
    (hcomes : Comes i p s fun t b => b.pos = .respond
      ∧ ∃ cs, Since p s t cs (r cs) ∧ cs.length = k ∧ P cs) :
    ∃ t cs, execN i (2 + 2 * k) s = .next t ∧ Answered s t p cs (okResponse 0) ∧ t.rest = r cs ∧ P cs := by
  obtain ⟨d, hr⟩ := h
  obtain ⟨n, t, b, hn, hrt, hpos, cs, hs, hk, hP⟩ := hcomes
  have hcount := execN_ticks hticks hr hn hrt
  simp only [bridgeTicks, hs.cycles, hpos, List.length_append, hk, bridgePhase, Active.fresh] at hcount
  refine ⟨_, cs, ?_, respond_answers .ok .none 0 hs.cycles hs.responses hs.other hs.preempted,
    (rest_respond ..).trans hs.rest, hP⟩
  rw [show 2 + 2 * k = n + 1 by omega, execN_add hn, execN_succ (hrespond hrt hpos), execN]

/-- Settles O24: the writes of the bridge's loop, and two micro-steps for each. -/
theorem wblkMovesBuffer : Obligations.WblkMovesBuffer := by
  intro haddr len s p hstart hw hf
  have hcomes := wblk_comes_to_respond hstart hw hf
  obtain ⟨t, cs, hn, hanswered, hrest, rfl⟩ := bridge_runs execWblk_ticks execWblk_respond hstart
    (hcomes.trans fun t b hr ⟨hpos, cs, hs, hcs⟩ =>
      .here hr ⟨hpos, cs, hs, by rw [hcs, length_wblkCycles], hcs⟩)
  exact ⟨t, hn, hanswered, hrest⟩

/-- RBLK runs to its response, its buffer written with the bytes that reads of R92's shape returned. -/
theorem rblk_runs (hstart : AtStart s p) (hw : s.cfg.winSizeOk = true)
    (hf : haddr.toNat + len.toNat ≤ 2 ^ 32) :
    ∃ t cs, execN (.rblk haddr len) (2 + 2 * bridgeCycles len.toNat) s = .next t
      ∧ Answered s t p cs (okResponse 0)
      ∧ t.rest = { s.rest with mem := s.mem.writeBytes haddr.toNat (streamOf s.cfg cs) }
      ∧ cs.map BusCycle.shape = bridgeShape s s.cfg.readWindow len.toNat
      ∧ (∀ c ∈ cs, c.isRead = true) ∧ (streamOf s.cfg cs).length = len.toNat :=
  bridge_runs execRblk_ticks execRblk_respond hstart
    ((rblk_comes_to_respond hstart hw hf).trans fun t b hr ⟨hpos, cs, h⟩ =>
      .here hr ⟨hpos, cs, h.since, by rw [← List.length_map BusCycle.shape, h.shape, length_bridgeShape],
        h.shape, h.reads, h.length⟩)

/-- Settles O25: the buffer is one write of the bytes read, whose bytes read back and which keeps the others. -/
theorem rblkFillsBuffer : Obligations.RblkFillsBuffer := by
  intro haddr len s p hstart hw hf hm
  obtain ⟨t, cs, hn, hanswered, hrest, hshape, hreads, hlen⟩ := rblk_runs hstart hw hf
  have hmem : t.mem = s.mem.writeBytes haddr.toNat (streamOf s.cfg cs) := congrArg Rest.mem hrest
  refine ⟨t, cs, hn, hanswered, hshape, hreads, hlen, fun j hj => ?_, fun j hj hout => ?_, by rw [hrest, hmem]⟩
  · rw [hmem, Memory.read_writeBytes_same hm (by rw [hlen]; exact hf) (by rw [hlen]; exact hj)]
    rfl
  · rw [hmem, Memory.read_writeBytes_other (by rw [hlen]; exact hf) hj (by rw [hlen]; exact hout)]

end Sys2Proof.Machine
end

section
/-!
PROOF. The round trip against the reference simulator (R69, R97): the simulator has seen exactly the cycles of
the trace, a window or data-port cycle moves its bytes through the queue, and the reads take out what the writes
put in.
-/

namespace Sys2Proof.Machine

open Sys2Proof

variable {i : Instr} {p : Port} {a : Active} {s t u : State} {f g : SimFifo} {c : Config}
  {cs ds : List BusCycle}

/-! ### The simulator has seen the trace -/

/-- These cycles take the simulator from one state to another, its reads answering as it answers (R69). -/
inductive Relays (c : Config) : SimFifo → List BusCycle → SimFifo → Prop
  | nil (f : SimFifo) : Relays c f [] f
  | read {f g : SimFifo} {cs : List BusCycle} (addr : Word) (w : Width) :
      Relays c (f.read c addr w).2 cs g → Relays c f (.read addr w (w.trunc (f.read c addr w).1) :: cs) g
  | write {f g : SimFifo} {cs : List BusCycle} (addr : Word) (w : Width) (v : Word) :
      Relays c (f.write c addr w v) cs g → Relays c f (.write addr w v :: cs) g

theorem Relays.trans {h : SimFifo} (hf : Relays c f cs g) (hg : Relays c g ds h) :
    Relays c f (cs ++ ds) h := by
  induction hf with
  | nil => exact hg
  | read addr w _ ih => exact .read addr w (ih hg)
  | write addr w v _ ih => exact .write addr w v (ih hg)

/-- From `s` to `t` a simulator behind the card bus has seen the new cycles of the trace. -/
def Relayed (s t : State) : Prop :=
  ∀ f, s.env.nic = some f →
    ∃ cs g, t.out.cycles = s.out.cycles ++ cs ∧ t.env.nic = some g ∧ Relays s.cfg f cs g

theorem Relayed.of_quiet (hc : t.out.cycles = s.out.cycles) (hn : t.env.nic = s.env.nic) : Relayed s t :=
  fun f hf => ⟨[], f, by rw [hc, List.append_nil], hn.trans hf, .nil f⟩

theorem Relayed.trans (h : Relayed s t) (k : Relayed t u) (hc : t.cfg = s.cfg) : Relayed s u := by
  intro f hf
  obtain ⟨cs, g, hcs, hg, hrel⟩ := h f hf
  obtain ⟨ds, h, hds, hh, hrel'⟩ := k g hg
  rw [hc] at hrel'
  exact ⟨cs ++ ds, h, by rw [hds, hcs, List.append_assoc], hh, hrel.trans hrel'⟩

theorem Relayed.setPort (h : Relayed s t) (q : Port) (x : PortState) : Relayed s (t.setPort q x) := by
  simpa only [Relayed, setPort_out, setPort_env] using h

theorem relayed_memRead (s : State) (addr : Word) (w : Width) : Relayed s (s.memRead addr w).2 := by
  intro f hf
  have hdraw : s.drawBus addr w = (w.trunc (f.read s.cfg addr w).1,
      s.withEnv { s.env with nic := some (f.read s.cfg addr w).2 }) := by simp [State.drawBus, hf]
  refine ⟨[.read addr w (w.trunc (f.read s.cfg addr w).1)], (f.read s.cfg addr w).2, ?_, ?_,
    .read addr w (.nil _)⟩
  · rw [memRead_cycles, hdraw]
  · simp [State.memRead, hdraw]

theorem relayed_memWrite (s : State) (addr : Word) (w : Width) (v : Word) :
    Relayed s (s.memWrite addr w v) :=
  fun f hf => ⟨_, _, memWrite_cycles s addr w v, by simp [State.memWrite, State.deliverWrite, hf],
    .write addr w _ (.nil _)⟩

theorem relayed_regRd8 (s : State) (k : Fin 32) : Relayed s (s.regRd8 k).2 :=
  relayed_memRead s (s.regAddr k) .w8

theorem relayed_push (s : State) (shadow : Byte) : Relayed s (s.push shadow) :=
  (Relayed.of_quiet rfl rfl).trans (relayed_memWrite (s.withShadow shadow) _ .w8 _) rfl

theorem nic_drawHost (s : State) : s.drawHost.2.env.nic = s.env.nic := by
  unfold State.drawHost
  split <;> rfl

theorem nic_drawReinit (s : State) : s.drawReinit.2.env.nic = s.env.nic := by
  unfold State.drawReinit
  split <;> rfl

theorem nic_drawExpiry (s : State) : s.drawExpiry.2.env.nic = s.env.nic := by
  unfold State.drawExpiry
  split <;> rfl

theorem nic_drawWait (s : State) (w : Option Wait) : (s.drawWait w).2.env.nic = s.env.nic := by
  unfold State.drawWait State.waitLeft
  split
  · rfl
  all_goals exact nic_drawExpiry s

theorem nic_moved (s : State) (raced : List Nat) (addr : Nat) (bytes : List Byte) :
    (s.moved raced addr bytes).2.env.nic = s.env.nic := by
  obtain ⟨tape, n, h⟩ := moved_snd s raced addr bytes
  rw [h]
  rfl

/-- A micro-step's cycle, if it has one, is a read or a write that the simulator sees; the others leave it. -/
theorem MicroStep.relayed (h : MicroStep i p a s t) : Relayed s t := by
  cases h with
  | read addr w b => exact (relayed_memRead s addr w).setPort _ _
  | write addr w v b => exact (relayed_memWrite s addr w v).setPort _ _
  | busWrite u v b =>
    exact ((Relayed.of_quiet (by simp) (nic_moved ..)).trans (relayed_memWrite _ _ _ v) (by simp)).setPort _ _
  | mgPush phase bitpos data shadow b =>
    have hquiet := Relayed.of_quiet (s := s)
      (t := ((s.withMgPhase phase).withMgBitpos bitpos).withMgData data) rfl rfl
    exact (hquiet.trans (relayed_push _ shadow) rfl).setPort _ _
  | mgSample data b =>
    have hquiet := Relayed.of_quiet (s := (s.regRd8 nicMemr).2)
      (t := (s.regRd8 nicMemr).2.withMgData data) rfl rfl
    exact ((relayed_regRd8 s nicMemr).trans hquiet (by simp)).setPort _ _
  | _ =>
    refine .of_quiet ?_ ?_ <;>
      simp [State.raise, State.mgRespond, State.mgLeave, State.hostWrite, nic_drawHost, nic_drawReinit, nic_drawWait,
        nic_moved]

theorem execN_relayed {n : Nat} (h : execN i n s = .next t) : Relayed s t := by
  induction n generalizing s with
  | zero => cases h; exact .of_quiet rfl rfl
  | succ n ih =>
    simp only [execN] at h
    split at h
    · next u hu =>
      obtain ⟨p, a, hr⟩ := running_of_exec hu
      have hstep := exec_microStep hr hu
      exact hstep.relayed.trans (ih h) hstep.frame.cfg
    · cases h
    · cases h

/-! ### The queue (R69) -/

/-- An address whose cycles move stream bytes: in a window, or the data port (R52, R69). -/
def StreamAddr (c : Config) (addr : Word) : Prop :=
  busTarget c addr = .window ∨ busTarget c addr = .register nicDataport

theorem SimFifo.queue_settle (f : SimFifo) : f.settle.queue = f.queue := by
  unfold SimFifo.settle
  split <;> rfl

theorem SimFifo.queue_push (f : SimFifo) (b : List Byte) : (f.push b).queue = f.queue ++ b :=
  SimFifo.queue_settle _

theorem SimFifo.write_stream {addr : Word} (h : StreamAddr c addr) (f : SimFifo) (w : Width) (v : Word) :
    f.write c addr w v = f.push (streamBytes c.hostBigEndian w v) := by
  rcases h with h | h <;> simp [SimFifo.write, SimFifo.writeRegister, h]

theorem SimFifo.read_stream {addr : Word} (h : StreamAddr c addr) (f : SimFifo) (w : Width) :
    f.read c addr w = (streamValue c.hostBigEndian w (f.pop w.bytes).1, (f.pop w.bytes).2) := by
  rcases h with h | h <;> simp [SimFifo.read, SimFifo.readRegister, h]

/-- While the queue has enough bytes a pop takes them off its front. -/
theorem SimFifo.pop_fst {n : Nat} (h : n ≤ f.queue.length) : (f.pop n).1 = f.queue.take n := by
  refine List.ext_getElem (by simp [SimFifo.pop, h]) fun k hk hk' => ?_
  have hlt : k < f.queue.length := by
    simp only [List.length_take] at hk'
    omega
  simp [SimFifo.pop, hlt]

theorem length_streamBytes (be : Bool) (w : Width) (v : Word) : (streamBytes be w v).length = w.bytes := by
  cases w with
  | w8 => exact length_unlane be .byte v
  | w16 => exact length_unlane be .half v
  | w32 => exact length_unlane be .win v

theorem streamBytes_streamValue (be : Bool) {w : Width} {b : List Byte} (h : b.length = w.bytes) :
    streamBytes be w (w.trunc (streamValue be w b)) = b := by
  cases w with
  | w8 => exact streamBytes_lane be .byte b h
  | w16 => exact streamBytes_lane be .half b h
  | w32 => exact streamBytes_lane be .win b h

/-- Writes of stream bytes put them in at the back. -/
theorem Relays.queue_writes (h : Relays c f cs g)
    (hcs : ∀ x ∈ cs, x.isRead = false ∧ StreamAddr c x.addr) : g.queue = f.queue ++ streamOf c cs := by
  induction h with
  | nil => simp
  | read addr w _ ih => cases (hcs _ List.mem_cons_self).1
  | write addr w v _ ih =>
    have haddr : StreamAddr c addr := (hcs _ List.mem_cons_self).2
    rw [ih fun x hx => hcs x (List.mem_cons_of_mem _ hx), SimFifo.write_stream haddr, SimFifo.queue_push,
      List.append_assoc]
    rfl

/-- Reads of stream bytes that the queue holds take them out at the front. -/
theorem Relays.queue_reads (h : Relays c f cs g)
    (hcs : ∀ x ∈ cs, x.isRead = true ∧ StreamAddr c x.addr)
    (hlen : (streamOf c cs).length ≤ f.queue.length) : f.queue = streamOf c cs ++ g.queue := by
  induction h with
  | nil => rfl
  | write addr w v _ ih => cases (hcs _ List.mem_cons_self).1
  | @read f g cs addr w _ ih =>
    have haddr : StreamAddr c addr := (hcs _ List.mem_cons_self).2
    have hread := SimFifo.read_stream haddr f w
    have hsplit : streamOf c (.read addr w (w.trunc (f.read c addr w).1) :: cs)
        = streamBytes c.hostBigEndian w (w.trunc (f.read c addr w).1) ++ streamOf c cs := rfl
    rw [hsplit, List.length_append, length_streamBytes] at hlen
    have hfst : streamBytes c.hostBigEndian w (w.trunc (f.read c addr w).1) = f.queue.take w.bytes := by
      rw [hread, SimFifo.pop_fst (by omega), streamBytes_streamValue]
      simp only [List.length_take]
      omega
    have hsnd : (f.read c addr w).2.queue = f.queue.drop w.bytes := by
      rw [hread]
      rfl
    have hrest := ih (fun x hx => hcs x (List.mem_cons_of_mem _ hx)) (by
      rw [hsnd, List.length_drop]
      omega)
    rw [hsplit, hfst, List.append_assoc, ← hrest, hsnd, List.take_append_drop]

/-! ### The bridge's addresses are stream addresses (R52, R55) -/

/-- No register has an offset above the last one's (R8, R23). -/
theorem registerAt_above {off : Nat} (h : c.regBase.toNat + c.regStride * 31 < off) :
    registerAt c off = none := by
  simp only [registerAt]
  split
  · next hlt =>
    refine if_neg fun heq => ?_
    have := Nat.mul_le_mul_left c.regStride (Nat.le_of_lt_succ hlt)
    omega
  · rfl

theorem registerAt_exact (hs : 0 < c.regStride) (k : Fin 32) :
    registerAt c (c.regBase.toNat + c.regStride * k.val) = some k := by
  have hindex : (c.regBase.toNat + c.regStride * k.val - c.regBase.toNat) / c.regStride = k.val := by
    rw [Nat.add_sub_cancel_left, Nat.mul_div_cancel_left _ hs]
  simp only [registerAt, hindex]
  rw [dif_pos k.isLt, if_pos trivial]

/-- The offset of a window cycle on the board does not wrap (R8). -/
theorem toNat_window_sub_board {off : Half} {k : Nat} (h : off.toNat + 4 * k < 2 ^ 16) :
    (c.boardBase + c.data32Base.setWidth 32 + off.setWidth 32 + BitVec.ofNat 32 (4 * k) - c.boardBase).toNat
      = c.data32Base.toNat + off.toNat + 4 * k := by
  simp only [BitVec.toNat_sub, BitVec.toNat_add, BitVec.toNat_setWidth, BitVec.toNat_ofNat]
  omega

/-- A cycle in either window is one for the simulator's queue (R52, R55). -/
theorem busTarget_window (hc : c.wellFormed = true) {off : Half} (hoff : off = c.rdWinOff ∨ off = c.wrWinOff)
    {k : Nat} (hk : k < c.chunkCycles) :
    busTarget c (c.boardBase + c.data32Base.setWidth 32 + off.setWidth 32 + BitVec.ofNat 32 (4 * k))
      = .window := by
  obtain ⟨-, -, hrd, hwr, hbelow, -⟩ := c.wellFormed_iff.mp hc
  have hsize := c.data32Size.isLt
  have hin : 4 * k < c.winSize := by
    unfold Config.chunkCycles at hk
    omega
  have hfit : off.toNat + 4 * k < 2 ^ 16 := by rcases hoff with rfl | rfl <;> omega
  unfold busTarget
  rw [toNat_window_sub_board hfit]
  simp only
  rw [registerAt_above (by omega)]
  have hwin : inWindow c off (c.data32Base.toNat + off.toNat + 4 * k) = true := by
    simp only [inWindow, Bool.and_eq_true, decide_eq_true_eq]
    omega
  rcases hoff with rfl | rfl <;> simp [hwin]

/-- So is a cycle at the data port (R33, R80). -/
theorem busTarget_register (hc : s.cfg.wellFormed = true) (ha : s.cfg.aligned = true)
    (ht : s.regOffset = offsetTable s.cfg) (k : Fin 32) : busTarget s.cfg (s.regAddr k) = .register k := by
  have hoff := toNat_offset hc ha k
  obtain ⟨-, hstride, -⟩ := (aligned_iff s.cfg).mp ha
  have hreg := registerAt_exact (c := s.cfg) (by omega) k
  rw [hstride, ← hoff, ← ht] at hreg
  have hsub : (s.regAddr k - s.cfg.boardBase).toNat = s.regOffset[k].toNat := by
    have := s.regOffset[k].isLt
    simp only [State.regAddr, BitVec.toNat_sub, BitVec.toNat_add, BitVec.toNat_setWidth]
    omega
  simp only [busTarget, hsub, hreg]

/-- Every cycle of a bridge call moves stream bytes (R89). -/
theorem streamAddr_of_bridgeShape (hc : s.cfg.wellFormed = true) (ha : s.cfg.aligned = true)
    (ht : s.regOffset = offsetTable s.cfg) {window : Word} {count : Nat}
    (hwindow : window = s.cfg.readWindow ∨ window = s.cfg.writeWindow) {x : Word × Width}
    (hx : x ∈ bridgeShape s window count) : StreamAddr s.cfg x.1 := by
  have hport : StreamAddr s.cfg (s.regAddr nicDataport) := .inr (busTarget_register hc ha ht nicDataport)
  obtain ⟨-, hch⟩ := winSize_eq (winSizeOk_of_wellFormed hc)
  simp only [bridgeShape, List.mem_append, List.mem_map] at hx
  rcases hx with (⟨k, -, rfl⟩ | hx) | hx
  · have hk := Nat.mod_lt k hch
    rcases hwindow with rfl | rfl
    · exact .inl (busTarget_window hc (.inl rfl) hk)
    · exact .inl (busTarget_window hc (.inr rfl) hk)
  · split at hx
    · rw [List.mem_singleton.mp hx]
      exact hport
    · cases hx
  · split at hx
    · rw [List.mem_singleton.mp hx]
      exact hport
    · cases hx

/-! ### The bytes of WBLK's writes (R57) -/

theorem streamOf_wblkWindows (s : State) (byte : Nat → Byte) (n : Nat) :
    streamOf s.cfg ((List.range n).map (wblkWindow s byte)) = (List.range (4 * n)).map byte := by
  induction n with
  | zero => rfl
  | succ n ih =>
    have hbytes : (wblkWindow s byte n).bytes s.cfg.hostBigEndian
        = [byte (4 * n), byte (4 * n + 1), byte (4 * n + 2), byte (4 * n + 3)] := unlane32_lane32 ..
    rw [List.range_succ, List.map_append, List.map_singleton, streamOf_snoc, ih, hbytes,
      show 4 * (n + 1) = 4 * n + 1 + 1 + 1 + 1 by omega]
    simp [List.range_succ]

/-- A call's writes carry its bytes in order (R57, R90). -/
theorem streamOf_wblkCycles (s : State) (byte : Nat → Byte) (count : Nat) :
    streamOf s.cfg (wblkCycles s byte count) = (List.range count).map byte := by
  have hcount : count = 4 * (count / 4) + 2 * (count / 2 % 2) + count % 2 := by omega
  have hlast : count % 2 = 1 → byte (count - 1) = byte (4 * (count / 4) + 2 * (count / 2 % 2)) :=
    fun h => congrArg byte (by omega)
  have hwindows := streamOf_wblkWindows s byte (count / 4)
  unfold wblkWindow at hwindows
  rw [wblkCycles, streamOf_append, streamOf_append, hwindows]
  conv_rhs => rw [hcount, List.range_add, List.range_add, List.map_append, List.map_append]
  refine congrArg₂ _ (congrArg₂ _ rfl ?_) ?_
  · rcases Nat.mod_two_eq_zero_or_one (count / 2) with h | h
    · simp [h]
    · have hbytes (v : Half) (addr : Word) : (BusCycle.write addr .w16 (v.setWidth 32)).bytes s.cfg.hostBigEndian
          = unlane16 s.cfg.hostBigEndian v := by
        simp [BusCycle.bytes, BusCycle.width, BusCycle.value, streamBytes, BUnit.unlane]
      rw [h, if_pos rfl, streamOf_singleton, hbytes, unlane16_lane16, Nat.mul_comm (count / 4)]
      simp [List.range_succ]
  · rcases Nat.mod_two_eq_zero_or_one count with h | h
    · simp [h]
    · rw [h, if_pos rfl, hlast h, streamOf_singleton]
      simp [BusCycle.bytes, BusCycle.width, BusCycle.value, streamBytes, BUnit.unlane]

/-! ### The round trip (R97) -/

theorem atStart_latch_task (d : Desc) (hi : s.portIrq = .idle) (hp : s.preempted = false) :
    AtStart (s.latch .task d) .task :=
  ⟨d, running_task hi hp rfl⟩

theorem latch_env (s : State) (p : Port) (d : Desc) : (s.latch p d).env = s.env := by
  cases p <;> rfl

/-- A run that has issued the cycles `cs` has taken the simulator through them. -/
theorem execN_relays {n : Nat} (h : execN i n s = .next t) (hc : t.out.cycles = s.out.cycles ++ cs)
    (hn : s.env.nic = some f) : ∃ g, t.env.nic = some g ∧ Relays s.cfg f cs g := by
  obtain ⟨ds, g, hds, hg, hrel⟩ := execN_relayed h f hn
  rw [hc] at hds
  rw [← List.append_cancel_left hds] at hrel
  exact ⟨g, hg, hrel⟩

theorem streamAddr_of_shape (hc : s.cfg.wellFormed = true) (ha : s.cfg.aligned = true)
    (ht : s.regOffset = offsetTable s.cfg) {window : Word} {count : Nat}
    (hwindow : window = s.cfg.readWindow ∨ window = s.cfg.writeWindow)
    (hcs : cs.map BusCycle.shape = bridgeShape s window count) {x : BusCycle} (hx : x ∈ cs) :
    StreamAddr s.cfg x.addr :=
  streamAddr_of_bridgeShape (x := x.shape) hc ha ht hwindow (hcs ▸ List.mem_map_of_mem hx)

theorem isRead_wblkCycles {byte : Nat → Byte} {count : Nat} {x : BusCycle}
    (hx : x ∈ wblkCycles s byte count) : x.isRead = false := by
  simp only [wblkCycles, List.mem_append, List.mem_map] at hx
  rcases hx with (⟨k, -, rfl⟩ | hx) | hx
  · rfl
  · split at hx
    · rw [List.mem_singleton.mp hx]; rfl
    · cases hx
  · split at hx
    · rw [List.mem_singleton.mp hx]; rfl
    · cases hx

/-- Settles O26: the writes put the source's bytes into the empty queue, and the reads take them out again. -/
theorem bridgeRoundTrip : Obligations.BridgeRoundTrip := by
  intro src dst len s f hstart hc ha htable hm hnic hempty hsrc hdst
  have hw := winSizeOk_of_wellFormed hc
  obtain ⟨t, ht, hwrote, htrest⟩ := wblkMovesBuffer src len s .task hstart hw hsrc
  obtain ⟨g, hg, hrel⟩ := execN_relays ht hwrote.cycles hnic
  have hput := hrel.queue_writes fun x hx => ⟨isRead_wblkCycles hx,
    streamAddr_of_shape hc ha htable (.inr rfl) (shape_wblkCycles s _ _) hx⟩
  rw [streamOf_wblkCycles, hempty, List.nil_append] at hput
  have hlatched := (latch_rest t .task (encode (.rblk dst len))).trans htrest
  have hlatchedEnv := latch_env t .task (encode (.rblk dst len))
  have hstart' : AtStart (t.latch .task (encode (.rblk dst len))) .task := by
    obtain ⟨d, hr⟩ := hstart
    obtain ⟨hirq, hpre⟩ : Ready s .task := ready_of_running hr
    exact atStart_latch_task _ (hwrote.other.trans hirq) (hwrote.preempted.trans hpre)
  refine ⟨t, ?_⟩
  generalize t.latch .task (encode (.rblk dst len)) = v at hlatched hlatchedEnv hstart' ⊢
  obtain ⟨hcfg, hoff, hmem⟩ : v.cfg = s.cfg ∧ v.regOffset = s.regOffset ∧ v.mem = s.mem :=
    ⟨congrArg Rest.cfg hlatched, congrArg Rest.regOffset hlatched, congrArg Rest.mem hlatched⟩
  rw [← hcfg] at hc ha htable hw
  rw [← hoff] at htable
  obtain ⟨u, cs, hu, hread, hurest, hshape, hreads, hlen⟩ := rblk_runs hstart' hw hdst
  obtain ⟨g', hg', hrel'⟩ := execN_relays hu hread.cycles (hlatchedEnv ▸ hg)
  have htake := hrel'.queue_reads
    (fun x hx => ⟨hreads x hx, streamAddr_of_shape hc ha htable (.inl rfl) hshape hx⟩) (by simp [hput, hlen])
  obtain ⟨hbytes, hrest⟩ := List.append_inj (htake.symm.trans (hput.trans (List.append_nil _).symm))
    (by simp [hlen])
  refine ⟨u, g', ht, hu, fun j hj => ?_, hg', hrest⟩
  have humem : u.mem = v.mem.writeBytes dst.toNat (streamOf v.cfg cs) := congrArg Rest.mem hurest
  rw [humem, hbytes, hmem, Memory.read_writeBytes_same hm (by simpa using hdst) (by simpa using hj)]
  simp [hj]

end Sys2Proof.Machine
end

section
/-!
PROOF. BOUT whose completion wait sees `RDC` (R106-R109): the arming, the bridge's writes, the polls, the
acknowledge and the release.
-/

namespace Sys2Proof.Machine

open Sys2Proof

variable {p : Port} {a : Active} {s t u : State} {haddr : Word} {len : Half} {page : Byte}

/-- BOUT comes to its completion wait with no timeout marked, which `bout_comes_to_wait` does not say (R108). -/
theorem bout_comes_to_poll (h : AtStart s p) (hw : s.cfg.winSizeOk = true)
    (hc : roundedCount s.cfg len ≤ 0xFFFF) (hf : haddr.toNat + roundedCount s.cfg len ≤ 2 ^ 32)
    (hd : s.dmaing = 0x00) :
    Comes (.bout haddr len page) p s fun t b =>
      Since p s t (boutArmCycles s (BitVec.ofNat 16 (roundedCount s.cfg len)) page
        ++ wblkCycles s (fun j => if j = len.toNat then s.drawHost.1 else s.mem.read (haddr.toNat + j))
            (roundedCount s.cfg len)) { s.rest with dmaing := 0x01 }
      ∧ TapesKept s t ∧ ∃ a, a.locals.txTimedOut = false ∧ b = thenTxWait a := by
  obtain ⟨d, hr⟩ := h
  refine (bout_comes_to_arm hr hc hf hd).trans fun t b hr ⟨hacq, hb⟩ => ?_
  subst hb
  refine (bout_arms hacq hr rfl).trans fun t b hr ⟨harm, hb⟩ => ?_
  subst hb
  have hcfg := harm.since.cfg
  have hmem : t.mem = s.mem := congrArg Rest.mem harm.since.rest
  rw [← hcfg] at hr hw
  refine (wblk_comes (wblkCall_bout p t.cfg haddr len page) hw
    (fun q => roundedCount_of_padAddress) rfl hr).trans fun u b hr ⟨hs, ht, a, ha, hb⟩ => ?_
  refine .here hr ⟨?_, harm.tapes.trans ht, a, by rw [ha.locals], hb⟩
  have hall := harm.since.trans hs
  rw [harm.since.rest, wblkByte_congr hmem harm.draw, hcfg,
    wblkCycles_congr hcfg harm.since.regOffset fun j => wblkByte_padAddress s] at hall
  exact hall

/-- BOUT from its completion wait, which sees `RDC`, to its response (R101, R109). -/
theorem bout_completes {polls bus : List Word} {f : Nat} {more : List Nat} {reinit : List Bool}
    {cs : List BusCycle} {r : Rest} (hrun : pollRun isrRdc polls f = some false)
    (hr : t.running = some (p, thenTxWait a)) (hs : Since p s t cs r)
    (hl : Listed t (polls ++ bus) (f :: more) reinit) :
    Comes (.bout haddr len page) p t fun u b =>
      Since p s u (cs ++ (polls.map fun v => s.rd nicIsr (v.setWidth 8)) ++ [s.wr nicIsr isrRdc])
        { r with dmaing := clearBusy r.dmaing }
      ∧ b.pos = .respond ∧ b.locals.txTimedOut = a.locals.txTimedOut := by
  refine ((boutPollLoop p haddr len page).run polls hrun hr rfl hs hl (.inl ⟨.tx, rfl, rfl⟩)).trans
    fun t b hr hleft => ?_
  have hacked := hleft.since
  simp only [Bool.false_eq_true, if_false, List.append_nil] at hacked
  refine (bout_ends hacked hr hleft.pos).trans fun u c hr ⟨hs, hpos, hc⟩ => .here hr ⟨hs, hpos, ?_⟩
  obtain ⟨l, hlocals, hl⟩ := hleft.locals
  rw [hc, hlocals]
  exact hl

/-- Settles O30: the wait is left at the poll that sees `RDC`, and the release clears what the acquire set. -/
theorem boutTransmitsBlock : Obligations.BoutTransmitsBlock := by
  intro haddr len page s p polls rest f more hstart hw hc hf hd hnic hbus hexpired hrun
  have hlisted : Listed s (polls ++ rest) (f :: more) s.env.reinitTape := ⟨hnic, hbus, hexpired, rfl⟩
  have hcomes : Comes (.bout haddr len page) p s _ :=
    (bout_comes_to_poll hstart hw hc hf hd).trans fun t b hr ⟨hs, htapes, a, ha, hb⟩ =>
      (bout_completes hrun (hb ▸ hr) hs (hlisted.of_kept htapes)).trans fun u c hr ⟨hs, hpos, hc⟩ =>
        .here hr (And.intro hs (And.intro hpos (hc.trans ha)))
  have hreleased : { s.rest with dmaing := clearBusy 0x01 } = s.rest := by
    rw [show clearBusy 0x01 = s.dmaing by rw [hd]; decide]
    rfl
  obtain ⟨n, u, hn, hanswered, hrest⟩ := hcomes.finish (R := fun u => Answered s u p _ _ ∧ u.rest = _)
    fun t b hr ⟨hs, hpos, htx⟩ => ⟨_, execBout_respond hr hpos, by
      rw [boutCode, if_neg (by simp [htx])]
      exact respond_answers _ _ _ hs.cycles hs.responses hs.other hs.preempted,
      (rest_respond ..).trans (hs.rest.trans hreleased)⟩
  exact ⟨u, n, hn, hanswered, hrest⟩

end Sys2Proof.Machine
end

section
/-!
PROOF. The busy discipline of GETHDR, BIN and BOUT (R99-R101): the acquire, the conflict path and the release;
and BOUT's count (R106, R135).
-/

namespace Sys2Proof.Machine

open Sys2Proof

variable {i : Instr} {p : Port} {a : Active} {s t : State} {haddr : Word} {len : Half} {page : Byte}

/-! ### The acquire and the release (R99, R101) -/

theorem execGethdr_acquire (hr : s.running = some (p, a)) (hp : a.pos = .acquire) :
    exec (.gethdr haddr page) s = .next (s.busyAcquire p a 0x20) := by
  simp only [exec, execGethdr, micro_running hr, hp]

theorem execBin_acquire {roff : Half} (hr : s.running = some (p, a)) (hp : a.pos = .acquire) :
    exec (.bin haddr len roff) s = .next (s.busyAcquire p a 0x21) := by
  simp only [exec, execBin, micro_running hr, hp]

theorem execGethdr_release (hr : s.running = some (p, a)) (hp : a.pos = .release) :
    exec (.gethdr haddr page) s
      = .next (s.busyRelease p a (if s.cfg.hostBigEndian then .swap else .respond)) := by
  simp only [exec, execGethdr, micro_running hr, hp]

theorem execBin_release {roff : Half} (hr : s.running = some (p, a)) (hp : a.pos = .release) :
    exec (.bin haddr len roff) s = .next (s.busyRelease p a .respond) := by
  simp only [exec, execBin, micro_running hr, hp]

/-- The acquire of each request under the busy discipline, with its opcode for the conflict entry. -/
theorem exec_acquire (hi : isDma i = true) (hr : s.running = some (p, a)) (hp : a.pos = .acquire) :
    exec i s = .next (s.busyAcquire p a (opOf (encode i))) := by
  rw [opOf_encode]
  cases i with
  | gethdr haddr page => exact execGethdr_acquire hr hp
  | bin haddr len roff => exact execBin_acquire hr hp
  | bout haddr len page => exact execBout_acquire hr hp
  | _ => cases hi

theorem exec_release (hi : isDma i = true) (hr : s.running = some (p, a)) (hp : a.pos = .release) :
    ∃ next, exec i s = .next (s.busyRelease p a next) := by
  cases i with
  | gethdr haddr page => exact ⟨_, execGethdr_release hr hp⟩
  | bin haddr len roff => exact ⟨_, execBin_release hr hp⟩
  | bout haddr len page => exact ⟨_, execBout_release hr hp⟩
  | _ => cases hi

/-- Settles O33: the acquire of a free engine, and the release. -/
theorem busyAcquireAndRelease : Obligations.BusyAcquireAndRelease := by
  intro i s p a hi hr
  refine ⟨fun hp hd => ?_, fun hp => exec_release hi hr hp⟩
  rw [exec_acquire hi hr hp, busyAcquire_of_free hd]
  rfl

/-! ### The count (R106, R135) -/

/-- Settles O18: the count in numbers; 0xFFFF rounded up is past 16 bits, which the first micro-step finds. -/
theorem countOverflowRaised : Obligations.CountOverflowRaised := by
  refine ⟨roundedCount_eq, fun haddr page s p ⟨d, hr⟩ hw =>
    ⟨s.raise p .countOverflow (.length 0xFFFF), ?_, raise_answers s p _ _, rest_raise s p _ _⟩⟩
  have hover : 0xFFFF < roundedCount s.cfg 0xFFFF := by simp [roundedCount_eq, hw]
  rw [execBout_start hr rfl, boutCheck, if_pos hover]

/-! ### The conflict path (R99, R100) -/

theorem busyAcquire_of_busy (hd : s.dmaing ≠ 0x00) (op : Byte) : s.busyAcquire p a op
    = (s.logEvent (.conflict p op s.dmaing)).respond p .conflict .dmaConflict 0 :=
  if_pos (by simpa [engineBusy] using hd)

/-- `i` is a request under the busy discipline that moves `count` host bytes from `haddr` on (R94, R99). -/
def MovesByDma (c : Config) (i : Instr) (haddr : Word) (count : Nat) : Prop :=
  (count = c.hdrSize ∧ ∃ page, i = .gethdr haddr page)
    ∨ (∃ (len roff : Half), count = len.toNat ∧ i = .bin haddr len roff)
    ∨ (∃ (len : Half) (page : Byte), count ≤ 0xFFFF ∧ count = roundedCount c len ∧ i = .bout haddr len page)

theorem MovesByDma.isDma {c : Config} {count : Nat} (h : MovesByDma c i haddr count) : isDma i = true := by
  rcases h with ⟨-, _, rfl⟩ | ⟨_, _, -, rfl⟩ | ⟨_, _, -, -, rfl⟩ <;> rfl

/-- The range check of such a request passes, and it goes on to the acquire (R94). -/
theorem MovesByDma.exec_start {count : Nat} (h : MovesByDma s.cfg i haddr count)
    (hf : haddr.toNat + count ≤ 2 ^ 32) (hr : s.running = some (p, a)) (hp : a.pos = .start) :
    exec i s = .next (s.goto p a .acquire) := by
  rcases h with ⟨rfl, page, rfl⟩ | ⟨len, roff, rfl, rfl⟩ | ⟨len, page, hc, rfl, rfl⟩
  · rw [execGethdr_start hr hp, checkRange_of_fits hf]
  · rw [execBin_start hr hp, checkRange_of_fits hf]
  · rw [execBout_start hr hp, boutCheck_of_fits hc hf]

/-- Settles O20: the check, then the acquire that finds the engine busy. -/
theorem conflictPath : Obligations.ConflictPath := by
  intro i haddr count s p ⟨d, hr⟩ hd hf hi
  have hi : MovesByDma s.cfg i haddr count := hi
  have hr1 : (s.goto p (.fresh d) .acquire).running = some (p, { Active.fresh d with pos := .acquire }) :=
    running_setPort (ready_of_running hr)
  have hx := exec_acquire hi.isDma hr1 rfl
  rw [busyAcquire_of_busy (by simpa [goto_eq] using hd), goto_eq, setPort_logEvent, respond_setPort,
    setPort_dmaing] at hx
  refine ⟨_, ?_, respond_answers (s := s)
    (t := s.logEvent (.conflict p (opOf (encode i)) s.dmaing)) _ _ _ ?_ rfl ?_ rfl, ?_, ?_⟩
  · rw [execN_succ (hi.exec_start hf hr rfl), goto_eq, execN_succ hx, execN]
  · exact (List.append_nil _).symm
  · exact port_logEvent s _ _
  · simp
  · exact respond_env _ _ _ _ _

end Sys2Proof.Machine
end

section
/-!
PROOF. BOUT's two waits, one micro-step at a time: an iteration of `TxWait` (R109), and the handshake with the
collaborator (R110), during which no move but RST changes the block.
-/

namespace Sys2Proof.Machine

open Sys2Proof

variable {p : Port} {a : Active} {s t : State} {haddr : Word} {len : Half} {page : Byte}

/-! ### One iteration of `TxWait` (R109) -/

/-- `RDC` is bit 6 of `ISR` (R31). -/
theorem anyBit_isrRdc (v : Byte) : anyBit v isrRdc = v.getLsbD 6 := by
  revert v
  decide

/-- Settles O34: the poll and the draw of BOUT's `PollLoop`. -/
theorem txWaitIteration : Obligations.TxWaitIteration := by
  intro haddr len page s p a hr
  have hloop := boutPollLoop p haddr len page
  refine ⟨fun hp => ?_, fun hp => ?_⟩
  · refine ⟨_, (s.regRd8 nicIsr).1, _, hloop.poll hr hp, ?_, port_setPort_same _ _ _, ?_,
      fun hv => ?_, fun hv => ?_⟩
    · rw [gotoWith_eq, setPort_out, regRd8_cycles]
    · rw [gotoWith_eq, rest_setPort, regRd8_rest]
    · rw [anyBit_isrRdc, hv, if_pos rfl]
    · rw [anyBit_isrRdc, hv, if_neg (by simp)]
  · have hx := hloop.draw hr hp
    have hrest : (s.drawFor a.locals).2.1.rest = s.rest := (since_drawFor p s a.locals).rest
    cases hanswer : (s.drawFor a.locals).1 with
    | true =>
      rw [hanswer, if_pos rfl] at hx
      refine ⟨_, _, hx, ?_, port_setPort_same _ _ _, fun _ => ⟨rfl, ?_⟩, fun h => ?_⟩
      · rw [gotoWith_eq, setPort_out]
        exact drawWait_out s a.locals.wait
      · rw [gotoWith_eq, rest_setPort, rest_logEvent, hrest, ← rest_log, hrest, rest_log]
      · exact absurd (hanswer.symm.trans h) (by simp)
    | false =>
      rw [hanswer, if_neg (by simp)] at hx
      refine ⟨_, _, hx, ?_, port_setPort_same _ _ _, fun h => ?_, fun _ => ⟨rfl, ?_⟩⟩
      · rw [gotoWith_eq, setPort_out]
        exact drawWait_out s a.locals.wait
      · exact absurd (hanswer.symm.trans h) (by simp)
      · rw [gotoWith_eq, rest_setPort, hrest]

/-! ### The handshake, one micro-step (R110) -/

theorem execBout_reinitWait_low (hr : s.running = some (p, a)) (hp : a.pos = .reinitWait)
    (hlow : s.drawReinit.1 = false) : exec (.bout haddr len page) s = .next s.drawReinit.2 := by
  rw [execBout_reinitWait hr hp, reinitPoll, hlow]
  rfl

theorem execBout_reinitWait_high (hr : s.running = some (p, a)) (hp : a.pos = .reinitWait)
    (hhigh : s.drawReinit.1 = true) : exec (.bout haddr len page) s
      = .next ((s.drawReinit.2.withReinitReq false).setPort p (.active { a with pos := .ack })) := by
  rw [execBout_reinitWait hr hp, reinitPoll, hhigh]
  rfl

/-! ### Every move during the wait (R110) -/

/-- A block left as it was but for raced addresses has the same request running at the same place. -/
theorem SameBlock.running (h : SameBlock s t) (hr : s.running = some (p, a)) :
    ∃ b, t.running = some (p, b) ∧ b.desc = a.desc ∧ b.pos = a.pos ∧ b.xstate = a.xstate := by
  have hport := h.ports p
  rw [port_of_running hr] at hport
  generalize hx : t.port p = x at hport
  cases hport with
  | active _ raced =>
    refine ⟨{ a with locals := { a.locals with raced := raced } }, ?_, rfl, rfl, rfl⟩
    cases p with
    | irq => exact running_of_irq hx
    | task =>
      obtain ⟨hi, hpre⟩ : Ready s .task := ready_of_running hr
      exact running_task ((h.ports .irq).idle_iff.mpr hi) (h.preempted.trans hpre) hx

/-- The move `m` leaves the block as it was and sends nothing; only `EXT_SET_DMAING` may write `dmaing`. -/
structure HeldStill (m : Move) (s t : State) : Prop where
  block : SameBlock s t
  cycles : t.out.cycles = s.out.cycles
  responses : t.out.responses = s.out.responses
  fault : t.fault = s.fault
  refused : t.refused = s.refused
  log : t.log = s.log
  dmaing : (∀ v, m ≠ .extSetDmaing v) → t.dmaing = s.dmaing

theorem heldStill_withEnv (m : Move) (s : State) (e : Env) : HeldStill m s (s.withEnv e) :=
  ⟨.withEnv s e, rfl, rfl, rfl, rfl, rfl, fun _ => rfl⟩

theorem heldStill_of_agent {m : Move} (h : AgentFrame s t) : HeldStill m s t :=
  ⟨.of_agent h, h.cycles, h.responses, h.fault, h.refused, h.log, fun _ => h.dmaing⟩

theorem heldStill_extSetDmaing (s : State) (v : Byte) :
    HeldStill (.extSetDmaing v) s (s.extSetDmaing v) :=
  ⟨.extSetDmaing s v, rfl, rfl, rfl, rfl, rfl, fun h => absurd rfl (h v)⟩

theorem drawReinit_snd (s : State) : ∃ e, s.drawReinit.2 = s.withEnv e := by
  unfold State.drawReinit
  split <;> exact ⟨_, rfl⟩

/-- What is scheduled is no part of the coming draw. -/
theorem drawReinit_withMoves (s : State) (moves : List Move) :
    (s.withEnv { s.env with moves := moves }).drawReinit.1 = s.drawReinit.1 := by
  cases hs : s.env.reinitTape <;> simp [State.drawReinit, hs]

theorem present_eq_withEnv (s : State) (p : Port) (d : Desc) : ∃ e, s.present p d = s.withEnv e := by
  unfold State.present
  split
  · exact setPresented_eq_withEnv s p _
  · exact ⟨s.env, rfl⟩

/-- While the running request waits for `reinit_done` no port accepts (log 32). -/
theorem mayAccept_of_running_waits (hr : s.running = some (p, a)) (hp : a.pos = .reinitWait) (q : Port) :
    s.mayAccept q = false := by
  have hport := port_of_running hr
  have hbusy : s.port p ≠ .idle := by simp [hport]
  cases p with
  | task =>
    cases q with
    | task => exact mayAccept_of_busy (.inl hbusy)
    | irq => exact mayAccept_irq_of_waits hport hp
  | irq =>
    cases q with
    | task => exact mayAccept_of_busy (.inr ⟨rfl, hbusy⟩)
    | irq => exact mayAccept_of_busy (.inl hbusy)

/-- A poll that finds `reinit_done` low, and every other move but RST, leaves the block as it was. -/
theorem Took.heldStill {m : Move} (h : Took m s t) (hr : s.running = some (p, a))
    (hd : decode a.desc = .ok (.bout haddr len page)) (hp : a.pos = .reinitWait) (hm : m ≠ .rst)
    (hlow : s.drawReinit.1 = false) : HeldStill m s t := by
  cases h with
  | idle _ hnone => exact absurd (hnone.symm.trans hr) (by simp)
  | micro _ q b i hrb hdb hx =>
    cases hrb.symm.trans hr
    cases hdb.symm.trans hd
    rw [execBout_reinitWait_low hr hp hlow] at hx
    cases hx
    obtain ⟨e, he⟩ := drawReinit_snd s
    exact he ▸ heldStill_withEnv m s e
  | refused _ q b e hrb hdb =>
    cases hrb.symm.trans hr
    exact absurd (hdb.symm.trans hd) (by simp)
  | present q d =>
    obtain ⟨e, he⟩ := present_eq_withEnv s q d
    exact he ▸ heldStill_withEnv m s e
  | accept q =>
    rw [accept_of_not_mayAccept (mayAccept_of_running_waits hr hp q)]
    exact heldStill_withEnv m s s.env
  | extSetDmaing v hv => exact hv ▸ heldStill_extSetDmaing s v
  | agent _ hf => exact heldStill_of_agent hf
  | rst hrst => exact absurd hrst hm

/-- Settles O35 (by log 9, 19 and 32): the micro-steps of the handshake, then every move during the wait. -/
theorem reinitWaits : Obligations.ReinitWaits := by
  refine ⟨fun haddr len page s p a hr hp => ?_,
    fun haddr len page s t p a hr hd hp hstep hm hlow => ?_⟩
  · rcases hp with hp | hp
    · refine ⟨_, execBout_reinitReq hr hp, ?_⟩
      simp [goto_eq, hp]
    · cases hlevel : s.drawReinit.1 with
      | false =>
        refine ⟨_, execBout_reinitWait_low hr hp hlevel, ?_⟩
        simp [hp, port_of_running hr]
      | true =>
        refine ⟨_, execBout_reinitWait_high hr hp hlevel, ?_⟩
        simp [hp]
  · have htook := (step_took hstep).1
    obtain ⟨moves, hu⟩ := nextMove_snd s
    rw [hu] at htook
    obtain ⟨hblock, hcycles, hresponses, hfault, hrefused, hlog, hdmaing⟩ :=
      htook.heldStill hr hd hp hm ((drawReinit_withMoves s moves).trans hlow)
    obtain ⟨b, hrun, hdesc, hpos, hx⟩ := hblock.running hr
    exact ⟨⟨b, hrun, hdesc, hpos.trans hp, hx⟩, hblock.preempted, hcycles, hresponses, hblock.reinitReq,
      hblock.regOffset, hblock.memrShadow, hblock.mgPhase, hblock.mgBitpos, hblock.mgData, hblock.mgOwner,
      hfault, hrefused, hlog, hdmaing⟩

end Sys2Proof.Machine
end

section
/-!
PROOF. RESET as a whole (R111, R112, R149), and that its mark of a timeout is set exactly when the timeout is
logged.
-/

namespace Sys2Proof.Machine

open Sys2Proof

variable {i : Instr} {p : Port} {a b : Active} {s t u : State}

/-! ### What every micro-step of a request keeps -/

/-- A request whose micro-step does not end it is the running one after it (R36, R39). -/
theorem running_after_exec (hr : s.running = some (p, a)) (hx : exec i s = .next t)
    (ht : t.port p = .active b) : t.running = some (p, b) := by
  have hms := exec_microStep hr hx
  have hpre : t.preempted = s.preempted := by
    cases hms.progress hr with
    | on _ _ pre => exact pre
    | stays _ _ pre => exact pre
    | ended _ port => cases port.symm.trans ht
  cases p with
  | irq => exact running_of_irq ht
  | task =>
    obtain ⟨hi, hp⟩ : Ready s .task := ready_of_running hr
    exact running_task (hms.frame.other.trans hi) (hpre.trans hp) ht

/-- Each micro-step of the request that does not end it keeps `I`. -/
def KeptBy (i : Instr) (p : Port) (I : State → Active → Prop) : Prop :=
  ∀ {t u : State} {a b : Active}, t.running = some (p, a) → exec i t = .next u → u.port p = .active b →
    I t a → I u b

theorem execN_keeps {I : State → Active → Prop} (hI : KeptBy i p I) {n : Nat}
    (hr : s.running = some (p, a)) (hs : I s a) (hx : execN i n s = .next t)
    (ht : t.running = some (p, b)) : I t b := by
  induction n generalizing s a with
  | zero =>
    cases hx
    cases hr.symm.trans ht
    exact hs
  | succ n ih =>
    simp only [execN] at hx
    split at hx
    · next u hu =>
      cases hport : u.port p with
      | idle => cases (port_of_running ht).symm.trans (execN_idle hport hx)
      | active c => exact ih (running_after_exec hr hu hport) (hI hr hu hport hs) hx
    · cases hx
    · cases hx

theorem Comes.keeps {I P : State → Active → Prop} (hI : KeptBy i p I)
    (hr : s.running = some (p, a)) (hs : I s a) (h : Comes i p s P) :
    Comes i p s fun t b => P t b ∧ I t b := by
  obtain ⟨n, t, b, hn, hrt, hP⟩ := h
  exact ⟨n, t, b, hn, hrt, hP, execN_keeps hI hr hs hn hrt⟩

/-! ### RESET's mark (R112) -/

/-- Since the log was `l`: either the reset poll's timeout is neither marked nor logged, or it is marked and
something has been logged. -/
def MarkedAsLogged (l : List Event) (t : State) (a : Active) : Prop :=
  a.locals.rstTimedOut = false ∧ t.log = l ∨ a.locals.rstTimedOut = true ∧ l.length < t.log.length

/-- A micro-step that leads on to `c` and neither marks nor logs. -/
theorem MarkedAsLogged.goes_on {l : List Event} {c : Active} (h : MarkedAsLogged l s a)
    (ht : (u.setPort p (.active c)).port p = .active b)
    (hmark : c.locals.rstTimedOut = a.locals.rstTimedOut) (hlog : u.log = s.log) :
    MarkedAsLogged l (u.setPort p (.active c)) b := by
  rw [port_setPort_same] at ht
  cases ht
  simpa only [MarkedAsLogged, setPort_log, hmark, hlog] using h

/-- A micro-step that leads on to `c`, marked, and logs. -/
theorem MarkedAsLogged.times_out {l : List Event} {c : Active} {e : Event} (h : MarkedAsLogged l s a)
    (ht : (u.setPort p (.active c)).port p = .active b)
    (hmark : c.locals.rstTimedOut = true) (hlog : u.log = s.log ++ [e]) :
    MarkedAsLogged l (u.setPort p (.active c)) b := by
  rw [port_setPort_same] at ht
  cases ht
  have hle : l.length ≤ s.log.length := h.elim (fun h => (congrArg List.length h.2).ge) (fun h => h.2.le)
  refine .inr ⟨hmark, ?_⟩
  rw [setPort_log, hlog, List.length_append]
  exact Nat.lt_succ_of_le hle

/-- A micro-step of RESET marks a timeout exactly when it logs one (R111). -/
theorem reset_keeps_marked (p : Port) (l : List Event) : KeptBy .reset p (MarkedAsLogged l) := by
  intro s t a b hr hx ht h
  simp only [exec, execReset, micro_running hr] at hx
  split at hx
  · cases hx
    exact h.goes_on ht rfl (by simp)
  · cases hx
    exact h.goes_on ht rfl (by simp)
  · cases hx
    exact h.goes_on ht rfl (by simp)
  · cases hx
    exact h.goes_on ht rfl (by simp)
  · simp only [resetProc] at hx
    split at hx
    · cases hx
      exact h.times_out (e := .timeoutReset p) ht rfl (by simp [State.drawFor])
    · cases hx
      exact h.goes_on ht rfl (by simp [State.drawFor])
  · cases hx
    exact h.goes_on ht rfl (by simp)
  · cases hx
    cases (port_respond_same ..).symm.trans ht
  · cases hx

/-- The mark says whether the log has the timeout. -/
theorem MarkedAsLogged.rstTimedOut {l : List Event} {e : Event} {timedOut : Bool}
    (h : MarkedAsLogged l t a) (hlog : t.log = l ++ if timedOut then [e] else []) :
    a.locals.rstTimedOut = timedOut := by
  rcases h with ⟨hmark, hsame⟩ | ⟨hmark, hmore⟩
  · cases timedOut with
    | false => exact hmark
    | true => simp [hsame] at hlog
  · cases timedOut with
    | false => simp [hlog] at hmore
    | true => exact hmark

/-! ### RESET from acceptance to its response (R112) -/

/-- RESET comes to its response, with the answers of its poll listed. -/
theorem reset_comes_to_respond {d : Desc} {v : Word} {polls rest : List Word} {f : Nat} {more : List Nat}
    {reinit : List Bool} {timedOut : Bool} (hr : s.running = some (p, .fresh d))
    (hl : Listed s (v :: (polls ++ rest)) (f :: more) reinit)
    (hrun : pollRun isrRst polls f = some timedOut) :
    Comes .reset p s fun t b => b.pos = .respond ∧ b.locals.rstTimedOut = timedOut
      ∧ Since p s t ([s.rd nicReset (v.setWidth 8), s.wr nicReset (v.setWidth 8)]
          ++ (polls.map fun v => s.rd nicIsr (v.setWidth 8)) ++ [s.wr nicIsr isrRst])
        { s.rest with dmaing := 0x00, log := s.log ++ if timedOut then [.timeoutReset p] else [] } := by
  obtain ⟨hread, hl⟩ := hl.regRd8 nicReset
  have hx := execReset_start hr rfl
  have hs := since_regRd8 p s nicReset
  rw [hread] at hx hs
  have hcomes := Comes.step hx ((resetCall_reset p).run hrun
    (running_setPort (by simpa using ready_of_running hr)) rfl (hs.setPort _) (hl.setPort _ _))
  refine (hcomes.keeps (reset_keeps_marked p s.log) hr (.inl ⟨rfl, rfl⟩)).trans
    fun t b hr ⟨⟨hs, _, a, hb, _⟩, hmark⟩ => ?_
  refine .here hr ⟨by rw [hb, thenRespond], hmark.rstTimedOut (congrArg Rest.log hs.rest), ?_⟩
  simpa [rest_log] using hs

/-- Settles O32: `ResetProc` to its end, and the response with the code of its mark. -/
theorem resetPulsesAndPolls : Obligations.ResetPulsesAndPolls := by
  intro s p v polls rest f more timedOut ⟨d, hr⟩ hnic hbus hexpired hrun
  obtain ⟨n, u, hn, hanswered, hrest⟩ := (reset_comes_to_respond hr ⟨hnic, hbus, hexpired, rfl⟩ hrun).finish
    (R := fun u => Answered s u p _ _ ∧ u.rest = _) fun t b hr ⟨hpos, hmark, hs⟩ =>
      ⟨_, execReset_respond hr hpos, by
        rw [resetCode, hmark]
        exact respond_answers _ _ _ hs.cycles hs.responses hs.other hs.preempted,
        (rest_respond ..).trans hs.rest⟩
  exact ⟨u, n, hn, hanswered, hrest⟩

end Sys2Proof.Machine
end

section
/-!
PROOF. What GETHDR and BIN have in common (R99, R101, R102): the acquire, the arming writes, `Rblk` up to the
step to ACKNOWLEDGED, and the release.
-/

namespace Sys2Proof.Machine

open Sys2Proof

variable {i : Instr} {p : Port} {a : Active} {s t : State} {cs : List BusCycle} {r : Rest}

/-! ### Arming (R102) -/

/-- A request under the busy discipline that reads `count` bytes to `addr`: after its acquire it arms with `m`,
without clearing `RDC`, then calls `Rblk` and goes on to the step to ACKNOWLEDGED (R102, R104, R105). -/
structure DmaRead (i : Instr) (p : Port) (c : Config) (m : Arming) (addr count : Nat) (keep : Bool) :
    Prop where
  dma : isDma i = true
  keepsRdc : m.clearsRdc = false
  arm : ∀ {t : State} {a : Active} {w : ArmPos}, t.running = some (p, a) → t.cfg = c → a.pos = .arm w →
    exec i t = armStep m (enterRblk c addr count thenAck) w p a t
  rblk : RblkCall i p c keep thenAck

theorem dmaRead_gethdr (p : Port) (c : Config) (haddr : Word) (page : Byte) :
    DmaRead (.gethdr haddr page) p c (gethdrArming c page) haddr.toNat c.hdrSize true where
  dma := rfl
  keepsRdc := rfl
  arm hr hc hp := by simp only [exec, execGethdr, micro_running hr, hp, hc]
  rblk :=
    { bus := fun hr _ hp => by simp only [exec, execGethdr, micro_running hr, hp]
      host := fun hr _ hp => by simp only [exec, execGethdr, micro_running hr, hp] }

theorem dmaRead_bin (p : Port) (c : Config) (haddr : Word) (len roff : Half) :
    DmaRead (.bin haddr len roff) p c (binArming len roff) haddr.toNat len.toNat false where
  dma := rfl
  keepsRdc := rfl
  arm hr hc hp := by simp only [exec, execBin, micro_running hr, hp, hc]
  rblk :=
    { bus := fun hr _ hp => by simp only [exec, execBin, micro_running hr, hp]
      host := fun hr _ hp => by simp only [exec, execBin, micro_running hr, hp] }

section

variable {m : Arming} {addr count : Nat} {keep : Bool}

/-- An arming write that goes on to the next. -/
theorem DmaRead.arm_next {w w' : ArmPos} {k : Fin 32} {v : Byte}
    (hcall : DmaRead i p s.cfg m addr count keep) (h : Wrote p s t cs r) (hr : t.running = some (p, a))
    (hp : a.pos = .arm w)
    (harm : ∀ begin, armStep m begin w p a t = .next ((t.regWr8 k v).goto p a (.arm w'))) :
    Comes i p t fun t b => Wrote p s t (cs ++ [s.wr k v]) r ∧ b = { a with pos := .arm w' } :=
  h.comes hr (by rw [hcall.arm hr h.since.cfg hp, harm]; rfl)

/-- The arming from its first write to the bridge (R102). -/
theorem DmaRead.arms (hcall : DmaRead i p s.cfg m addr count keep) (h : Wrote p s t [] r)
    (hr : t.running = some (p, a)) (hp : a.pos = .arm .idle0) :
    Comes i p t fun t b => Wrote p s t (armCycles s m.count m.address m.command) r
      ∧ b = enterRblk s.cfg addr count thenAck { a with pos := .arm .start, xstate := .transferring } := by
  refine (hcall.arm_next h hr hp (w' := .cntLo) (k := nicCmd) (v := cmdIdle0) fun _ => by
    simp only [armStep, hcall.keepsRdc]; rfl).trans fun t _ hr ⟨h, hb⟩ => ?_
  subst hb
  refine (hcall.arm_next h hr rfl (w' := .cntHi) fun _ => rfl).trans fun t _ hr ⟨h, hb⟩ => ?_
  subst hb
  refine (hcall.arm_next h hr rfl (w' := .adrLo) fun _ => rfl).trans fun t _ hr ⟨h, hb⟩ => ?_
  subst hb
  refine (hcall.arm_next h hr rfl (w' := .adrHi) fun _ => rfl).trans fun t _ hr ⟨h, hb⟩ => ?_
  subst hb
  refine (hcall.arm_next h hr rfl (w' := .start) fun _ => rfl).trans fun t _ hr ⟨h, hb⟩ => ?_
  subst hb
  exact h.comes (k := nicCmd) (v := m.command) hr (by rw [hcall.arm hr h.since.cfg rfl]; rfl)

/-! ### From acceptance to the step to ACKNOWLEDGED -/

/-- The check passes and the engine is free: the request comes to its first arming write (R99). -/
theorem dma_comes_to_arm {d : Desc} (hi : isDma i = true) (hr : s.running = some (p, .fresh d))
    (hx : exec i s = .next (s.goto p (.fresh d) .acquire)) (hd : s.dmaing = 0x00) :
    Comes i p s fun t b =>
      Wrote p s t [] { s.rest with dmaing := 0x01 } ∧ b = ⟨d, .arm .idle0, .armed, {}⟩ := by
  have hready := ready_of_running hr
  have hr1 : (s.goto p (.fresh d) .acquire).running = some (p, ⟨d, .acquire, .idle, {}⟩) :=
    running_setPort hready
  have hx2 := exec_acquire hi hr1 rfl
  rw [busyAcquire_of_free (by simpa [goto_eq] using hd)] at hx2
  simp only [goto_eq, gotoX_eq, setPort_withDmaing, setPort_setPort] at hx hx2
  exact .step hx (.step hx2 (.here (running_setPort (by simpa using hready)) ⟨wrote_acquire p s _, rfl⟩))

/-- From `s` to `t` a request has acquired the engine, armed it with `m` and issued these reads, of the shape of
R92; host memory has their bytes from `addr` on, and nothing else has changed. -/
structure Received (p : Port) (s : State) (m : Arming) (addr count : Nat) (cs : List BusCycle) (t : State) :
    Prop where
  since : Since p s t (armCycles s m.count m.address m.command ++ cs)
    { s.rest with dmaing := 0x01, mem := s.mem.writeBytes addr (streamOf s.cfg cs) }
  shape : cs.map BusCycle.shape = bridgeShape s s.cfg.readWindow count
  reads : ∀ c ∈ cs, c.isRead = true
  length : (streamOf s.cfg cs).length = count

/-- The request comes to its step to ACKNOWLEDGED, its bytes received; it has them as header if it keeps them. -/
theorem DmaRead.receives {d : Desc} (hcall : DmaRead i p s.cfg m addr count keep)
    (hw : s.cfg.winSizeOk = true) (hr : s.running = some (p, .fresh d))
    (hx : exec i s = .next (s.goto p (.fresh d) .acquire)) (hd : s.dmaing = 0x00) :
    Comes i p s fun t b => ∃ cs, Received p s m addr count cs t ∧ b.pos = .ack ∧ b.locals.raced = []
      ∧ (keep = true → b.locals.header = streamOf s.cfg cs) := by
  refine (dma_comes_to_arm hcall.dma hr hx hd).trans fun t b hr ⟨hacq, hb⟩ => ?_
  subst hb
  refine (hcall.arms hacq hr rfl).trans fun t b hr ⟨harm, hb⟩ => ?_
  subst hb
  have hcfg := harm.since.cfg
  have hmem : t.mem = s.mem := congrArg Rest.mem harm.since.rest
  have hrblk := hcall.rblk
  rw [← hcfg] at hr hw hrblk
  refine (rblk_comes hrblk hw rfl hr).trans fun u b hr ⟨cs, a, hfill, hfetch, hb⟩ => ?_
  have hall := harm.since.trans hfill.since
  rw [harm.since.rest, hmem, hcfg] at hall
  refine .here hr ⟨cs, ⟨hall, ?_, hfill.reads, ?_⟩, by rw [hb, thenAck], ?_, fun hkeep => ?_⟩
  · rw [hfill.shape, hcfg, bridgeShape_congr hcfg harm.since.regOffset]
  · rw [← hcfg]
    exact hfill.length
  · rw [hb]
    exact hfetch.raced rfl
  · rw [hb, thenAck, hfetch.locals, if_pos hkeep, hcfg]
    exact List.nil_append _

end

/-! ### The release (R101) -/

theorem Since.busyRelease (h : Since p s t cs r) (a : Active) (pos : Pos) :
    Since p s (t.busyRelease p a pos) cs { r with dmaing := clearBusy r.dmaing } := by
  have hd : t.dmaing = r.dmaing := congrArg Rest.dmaing h.rest
  rw [← hd]
  exact (h.withDmaing _).setPort _

/-- The release leaves the engine as the acquire found it (R114). -/
theorem rest_released (hd : s.dmaing = 0x00) (mem : Memory) :
    { s.rest with dmaing := clearBusy 0x01, mem := mem } = { s.rest with mem := mem } := by
  rw [show clearBusy 0x01 = s.dmaing by rw [hd]; decide]
  rfl

end Sys2Proof.Machine
end

section
/-!
PROOF. BIN as a whole (R102, R105): from acceptance to its response, and the number of micro-steps that its cycles
say.
-/

namespace Sys2Proof.Machine

open Sys2Proof

variable {p : Port} {a b : Active} {s t : State} {haddr : Word} {len roff : Half} {cs : List BusCycle}
  {r : Rest}

/-! ### From the step to ACKNOWLEDGED to the response (R105) -/

theorem execBin_ack (hr : s.running = some (p, a)) (hp : a.pos = .ack) :
    exec (.bin haddr len roff) s = .next (s.gotoX p a .release .acknowledged) := by
  simp only [exec, execBin, micro_running hr, hp]

theorem execBin_respond (hr : s.running = some (p, a)) (hp : a.pos = .respond) :
    exec (.bin haddr len roff) s = .next (s.respond p .ok .none 0) := by
  simp only [exec, execBin, micro_running hr, hp]

/-- From the step to ACKNOWLEDGED, which has no cycle, BIN releases the engine and comes to its response. -/
theorem bin_ends (h : Since p s t cs r) (hr : t.running = some (p, a)) (hp : a.pos = .ack) :
    Comes (.bin haddr len roff) p t fun u b =>
      Since p s u cs { r with dmaing := clearBusy r.dmaing } ∧ b.pos = .respond := by
  have hready := ready_of_running hr
  have hr1 : (t.gotoX p a .release .acknowledged).running
      = some (p, { a with pos := .release, xstate := .acknowledged }) := running_setPort hready
  exact .step (execBin_ack hr hp) (.step (execBin_release hr1 rfl)
    (.here (running_setPort (by simpa [gotoX_eq] using hready)) ⟨(h.setPort _).busyRelease _ _, rfl⟩))

/-- BIN comes to its response, its buffer filled and the engine free again. -/
theorem bin_comes_to_respond (h : AtStart s p) (hw : s.cfg.winSizeOk = true)
    (hf : haddr.toNat + len.toNat ≤ 2 ^ 32) (hd : s.dmaing = 0x00) :
    Comes (.bin haddr len roff) p s fun t b => b.pos = .respond ∧ ∃ cs,
      Since p s t (armCycles s len roff cmdRread ++ cs)
        { s.rest with mem := s.mem.writeBytes haddr.toNat (streamOf s.cfg cs) }
      ∧ cs.map BusCycle.shape = bridgeShape s s.cfg.readWindow len.toNat
      ∧ (∀ c ∈ cs, c.isRead = true) ∧ (streamOf s.cfg cs).length = len.toNat := by
  obtain ⟨d, hr⟩ := h
  have hx : exec (.bin haddr len roff) s = _ :=
    MovesByDma.exec_start (.inr (.inl ⟨len, roff, rfl, rfl⟩)) hf hr rfl
  refine ((dmaRead_bin p s.cfg haddr len roff).receives hw hr hx hd).trans
    fun t b hr ⟨cs, hrec, hpos, _⟩ => ?_
  refine (bin_ends hrec.since hr hpos).trans fun u c hr ⟨hs, hpos⟩ => ?_
  rw [rest_released hd] at hs
  exact .here hr ⟨hpos, cs, hs, hrec.shape, hrec.reads, hrec.length⟩

/-! ### The micro-steps of BIN, counted -/

/-- How many arming writes of BIN are still to come, which never stands at `clearIsr`. -/
def armLeft : ArmPos → Nat
  | .idle0 => 6
  | .clearIsr => 0
  | .cntLo => 5
  | .cntHi => 4
  | .adrLo => 3
  | .adrHi => 2
  | .start => 1

/-- What a place of BIN adds to the measure that counts two for each cycle: an arming write and the host write
of a transfer take the micro-step off that their cycle has in excess. -/
def binPhase : Pos → Nat
  | .start => 5
  | .acquire => 6
  | .arm w => armLeft w + 1
  | .bus _ => 1
  | .ack => 1
  | .release => 2
  | .respond => 3
  | _ => 0

/-- Two micro-steps for each cycle, and what the place adds. -/
def binTicks (t : State) (a : Active) : Nat := 2 * t.out.cycles.length + binPhase a.pos

/-- A micro-step with these many new cycles that leads on to `b`. -/
theorem binTicked_setPort {k : Nat} (hr : s.running = some (p, a)) (hready : Ready t p = Ready s p)
    (hc : t.out.cycles.length = s.out.cycles.length + k)
    (hb : 2 * k + binPhase b.pos = binPhase a.pos + 1) :
    Ticked binTicks p s a (t.setPort p (.active b)) := by
  refine .inr ⟨b, running_setPort (hready.mpr (ready_of_running hr)), ?_⟩
  simp only [binTicks, setPort_out, hc]
  omega

theorem binPhase_bridgeTo (a : Active) (x : Xfer × Option BUnit) :
    binPhase (bridgeTo .bus thenAck a x).pos = 1 := by
  obtain ⟨x, o⟩ := x
  cases o <;> rfl

/-- Each arming write is one cycle and leaves one less. -/
theorem binTicked_arm {w : ArmPos} {addr count : Nat} (hr : s.running = some (p, a)) (hp : a.pos = .arm w)
    (hx : armStep (binArming len roff) (enterRblk s.cfg addr count thenAck) w p a s = .next t) :
    Ticked binTicks p s a t := by
  have hwrite : ∀ (k : Fin 32) (v : Byte) (b : Active), binPhase b.pos + 1 = binPhase a.pos →
      Ticked binTicks p s a ((s.regWr8 k v).setPort p (.active b)) := fun k v b hb =>
    binTicked_setPort (k := 1) hr (by simp) (by simp) (by omega)
  cases w with
  | clearIsr => cases hx
  | start =>
    cases hx
    refine hwrite _ _ _ ?_
    rw [enterRblk, binPhase_bridgeTo, hp]
    rfl
  | _ =>
    cases hx
    exact hwrite _ _ _ (by rw [hp]; rfl)

/-- Every micro-step of BIN raises the measure by one, or ends it. -/
theorem execBin_ticks (hr : s.running = some (p, a)) (hx : exec (.bin haddr len roff) s = .next t) :
    Ticked binTicks p s a t := by
  simp only [exec, execBin, micro_running hr] at hx
  split at hx
  · next hp =>
    cases hx
    unfold State.checkRange
    split
    · exact binTicked_setPort (k := 0) hr rfl rfl (by rw [hp]; rfl)
    · exact .inl (port_raise _ _ _ _)
  · next hp =>
    cases hx
    unfold State.busyAcquire
    split
    · exact .inl (port_respond_same _ _ _ _ _)
    · exact binTicked_setPort (k := 0) hr (by simp) rfl (by rw [hp]; rfl)
  · next hp => exact binTicked_arm hr hp hx
  · next hp =>
    cases hx
    exact binTicked_setPort (k := 1) hr (by simp) (by simp) (by rw [hp]; rfl)
  · next hp =>
    cases hx
    refine binTicked_setPort (k := 0) hr (by simp) (by simp [out_hostWrite]) ?_
    rw [binPhase_bridgeTo, hp]
    rfl
  · next hp =>
    cases hx
    exact binTicked_setPort (k := 0) hr rfl rfl (by rw [hp]; rfl)
  · next hp =>
    cases hx
    exact binTicked_setPort (k := 0) hr (by simp) rfl (by rw [hp]; rfl)
  · cases hx
    exact .inl (port_respond_same _ _ _ _ _)
  · cases hx

/-- BIN runs to its response in the micro-steps that its cycles say. -/
theorem bin_runs (hstart : AtStart s p) (hw : s.cfg.winSizeOk = true)
    (hf : haddr.toNat + len.toNat ≤ 2 ^ 32) (hd : s.dmaing = 0x00) :
    ∃ t cs, execN (.bin haddr len roff) (11 + 2 * bridgeCycles len.toNat) s = .next t
      ∧ Answered s t p (armCycles s len roff cmdRread ++ cs) (okResponse 0)
      ∧ t.rest = { s.rest with mem := s.mem.writeBytes haddr.toNat (streamOf s.cfg cs) }
      ∧ cs.map BusCycle.shape = bridgeShape s s.cfg.readWindow len.toNat
      ∧ (∀ c ∈ cs, c.isRead = true) ∧ (streamOf s.cfg cs).length = len.toNat := by
  have hcomes := bin_comes_to_respond (roff := roff) hstart hw hf hd
  obtain ⟨d, hr⟩ := hstart
  obtain ⟨n, t, b, hn, hrt, hpos, cs, hs, hshape, hreads, hlen⟩ := hcomes
  have hcount := execN_ticks execBin_ticks hr hn hrt
  have hk : cs.length = bridgeCycles len.toNat := by
    rw [← List.length_map BusCycle.shape, hshape, length_bridgeShape]
  have harm : (armCycles s len roff cmdRread).length = 6 := rfl
  simp only [binTicks, hs.cycles, hpos, List.length_append, harm, hk, binPhase, Active.fresh] at hcount
  refine ⟨_, cs, ?_, respond_answers .ok .none 0 hs.cycles hs.responses hs.other hs.preempted,
    (rest_respond ..).trans hs.rest, hshape, hreads, hlen⟩
  rw [show 11 + 2 * bridgeCycles len.toNat = n + 1 by omega, execN_add hn,
    execN_succ (execBin_respond hrt hpos), execN]

/-- Settles O29: the buffer is one write of the bytes read, whose bytes read back and which keeps the others. -/
theorem binTransfersBlock : Obligations.BinTransfersBlock := by
  intro haddr len roff s p hstart hw hf hd hm
  obtain ⟨t, cs, hn, hanswered, hrest, hshape, hreads, hlen⟩ := bin_runs (roff := roff) hstart hw hf hd
  have hmem : t.mem = s.mem.writeBytes haddr.toNat (streamOf s.cfg cs) := congrArg Rest.mem hrest
  refine ⟨t, cs, hn, hanswered, hshape, hreads, fun j hj => ?_, fun j hj hout => ?_, by rw [hrest, hmem]⟩
  · rw [hmem, Memory.read_writeBytes_same hm (by rw [hlen]; exact hf) (by rw [hlen]; exact hj)]
    rfl
  · rw [hmem, Memory.read_writeBytes_other (by rw [hlen]; exact hf) hj (by rw [hlen]; exact hout)]

end Sys2Proof.Machine
end

section
/-!
PROOF. GETHDR as a whole (R102-R104): the header read, the release, and the rewrite of the count in host byte
order.
-/

namespace Sys2Proof.Machine

open Sys2Proof

variable {p : Port} {a : Active} {s t : State} {haddr : Word} {page : Byte} {cs : List BusCycle} {r : Rest}

/-! ### From the step to ACKNOWLEDGED to the response (R101, R104) -/

theorem execGethdr_ack (hr : s.running = some (p, a)) (hp : a.pos = .ack) :
    exec (.gethdr haddr page) s
      = .next ((s.regWr8 nicIsr isrRdc).gotoX p a .release .acknowledged) := by
  simp only [exec, execGethdr, micro_running hr, hp]

theorem execGethdr_respond (hr : s.running = some (p, a)) (hp : a.pos = .respond) :
    exec (.gethdr haddr page) s = .next (s.respond p .ok .none (headerCount a.locals.header)) := by
  simp only [exec, execGethdr, micro_running hr, hp]

/-- From the step to ACKNOWLEDGED GETHDR clears `RDC`, releases the engine and comes to its rewrite, or with
`HOST_BIG_ENDIAN` = 0 to its response (R101, R104). -/
theorem gethdr_releases (h : Since p s t cs r) (hr : t.running = some (p, a)) (hp : a.pos = .ack) :
    Comes (.gethdr haddr page) p t fun u b =>
      Since p s u (cs ++ [s.wr nicIsr isrRdc]) { r with dmaing := clearBusy r.dmaing }
      ∧ b.pos = (if s.cfg.hostBigEndian then .swap else .respond) ∧ b.locals = a.locals := by
  have hready := ready_of_running hr
  have hr1 : ((t.regWr8 nicIsr isrRdc).gotoX p a .release .acknowledged).running
      = some (p, { a with pos := .release, xstate := .acknowledged }) :=
    running_setPort (by simpa using hready)
  have hwrite := (h.regWr8 nicIsr isrRdc).setPort (.active { a with pos := .release, xstate := .acknowledged })
  refine .step (execGethdr_ack hr hp) (.step (execGethdr_release hr1 rfl)
    (.here (running_setPort (by simpa [gotoX_eq] using hready)) ⟨hwrite.busyRelease _ _, ?_, rfl⟩))
  rw [← hwrite.cfg]
  rfl

/-- Host memory after GETHDR with the header in place: the count rewritten in host byte order (R58, R104). -/
def headerMem (bigEndian : Bool) (m : Memory) (addr : Nat) (header : List Byte) : Memory :=
  if bigEndian then m.writeBytes (addr + 2) [headerByte header 3, headerByte header 2] else m

/-- From there GETHDR comes to its response, the count in host byte order. -/
theorem gethdr_swaps (h : Since p s t cs r) (hr : t.running = some (p, a))
    (hp : a.pos = if s.cfg.hostBigEndian then .swap else .respond) (hraced : a.locals.raced = []) :
    Comes (.gethdr haddr page) p t fun u b =>
      Since p s u cs { r with mem := headerMem s.cfg.hostBigEndian r.mem haddr.toNat a.locals.header }
      ∧ b.pos = .respond ∧ b.locals = a.locals := by
  cases hbe : s.cfg.hostBigEndian with
  | false => exact .here hr ⟨h, by rw [hp, hbe]; rfl, rfl⟩
  | true =>
    have hx := execGethdr_swap (haddr := haddr) (page := page) hr (by rw [hp, hbe]; rfl)
    simp only [headerSwap, hraced, moved_nil, goto_eq] at hx
    have hw := h.trans (since_hostWrite p t (haddr.toNat + 2)
      [headerByte a.locals.header 3, headerByte a.locals.header 2])
    rw [List.append_nil, h.rest, show t.mem = r.mem from congrArg Rest.mem h.rest] at hw
    exact .step hx (.here (running_setPort (by simpa using ready_of_running hr)) ⟨hw.setPort _, rfl, rfl⟩)

/-! ### The header (R58, R89, R103) -/

/-- A read call of 4 bytes is one window cycle at offset 0 (R89, R103). -/
theorem bridgeShape_four (s : State) (window : Word) : bridgeShape s window 4 = [(window, .w32)] := by
  simp [bridgeShape]

/-- Reads of the shape of a header are one read-window cycle, whose bytes in stream order are the header. -/
theorem header_read {c : Config} {window : Word} (hshape : cs.map BusCycle.shape = [(window, .w32)])
    (hreads : ∀ x ∈ cs, x.isRead = true) :
    ∃ v, cs = [.read window .w32 v] ∧ streamOf c cs = unlane32 c.hostBigEndian v := by
  obtain ⟨x, rfl, hx⟩ := List.map_eq_singleton_iff.mp hshape
  cases x with
  | write addr w v => cases hreads _ (List.mem_singleton.mpr rfl)
  | read addr w v =>
    cases hx
    exact ⟨v, rfl, (streamOf_singleton c _).trans (bytes_read c.hostBigEndian _ .win v)⟩

/-- The four bytes of a value in stream order. -/
theorem unlane32_eq (be : Bool) (v : Word) : ∃ h0 h1 h2 h3, unlane32 be v = [h0, h1, h2, h3] := by
  cases be <;> exact ⟨_, _, _, _, rfl⟩

/-- GETHDR comes to its response with its header, host memory having it with the count in host byte order, and
the engine free again. -/
theorem gethdr_comes_to_respond (h : AtStart s p) (hw : s.cfg.winSizeOk = true) (hsize : s.cfg.hdrSize = 4)
    (hf : haddr.toNat + 4 ≤ 2 ^ 32) (hd : s.dmaing = 0x00) :
    Comes (.gethdr haddr page) p s fun t b => b.pos = .respond ∧ ∃ v,
      Since p s t (armCycles s 0x0004 (page ++ 0x00#8) cmdRread
          ++ [.read s.cfg.readWindow .w32 v] ++ [s.wr nicIsr isrRdc])
        { s.rest with
          mem := headerMem s.cfg.hostBigEndian
            (s.mem.writeBytes haddr.toNat (unlane32 s.cfg.hostBigEndian v)) haddr.toNat
            (unlane32 s.cfg.hostBigEndian v) }
      ∧ b.locals.header = unlane32 s.cfg.hostBigEndian v := by
  obtain ⟨d, hr⟩ := h
  have hx : exec (.gethdr haddr page) s = _ :=
    MovesByDma.exec_start (.inl ⟨rfl, page, rfl⟩) (by rw [hsize]; exact hf) hr rfl
  have hcount : (gethdrArming s.cfg page).count = 0x0004 := by rw [gethdrArming, hsize]; rfl
  refine ((dmaRead_gethdr p s.cfg haddr page).receives hw hr hx hd).trans
    fun t b hr ⟨cs, hrec, hpos, hraced, hheader⟩ => ?_
  obtain ⟨v, hcs, hstream⟩ := header_read (c := s.cfg)
    (by rw [hrec.shape, hsize, bridgeShape_four]) hrec.reads
  have hs := hrec.since
  rw [hcount, hstream, hcs] at hs
  refine (gethdr_releases hs hr hpos).trans fun t c hr ⟨hs, hpos, hc⟩ => ?_
  rw [rest_released hd] at hs
  refine (gethdr_swaps hs hr hpos (by rw [hc, hraced])).trans fun t e hr ⟨hs, hpos, he⟩ => ?_
  rw [hc, hheader rfl, hstream] at hs
  exact .here hr ⟨hpos, v, hs, by rw [he, hc, hheader rfl, hstream]⟩

/-! ### The header in host memory (R104) -/

/-- The rewrite touches no byte but the two of the count. -/
theorem read_headerMem_other (be : Bool) (m : Memory) (header : List Byte) {addr j : Nat}
    (hf : addr + 4 ≤ 2 ^ 32) (hj : j < 2 ^ 32) (hout : j < addr + 2 ∨ addr + 4 ≤ j) :
    (headerMem be m addr header).read j = m.read j := by
  cases be with
  | false => rfl
  | true => exact Memory.read_writeBytes_other hf hj hout

/-- Byte `k` of the count: its more significant one first when the host is big-endian, else as it was read. -/
theorem read_headerMem_count (be : Bool) {m : Memory} (header : List Byte) {addr k : Nat} (hm : m.wf = true)
    (hf : addr + 4 ≤ 2 ^ 32) (hk : k < 2) : (headerMem be m addr header).read (addr + 2 + k)
      = if be then [headerByte header 3, headerByte header 2].getD k 0 else m.read (addr + 2 + k) := by
  cases be with
  | false => rfl
  | true => exact Memory.read_writeBytes_same hm hf hk

/-- GETHDR runs to its response, whose value is the count of the header it has read. -/
theorem gethdr_runs (hstart : AtStart s p) (hw : s.cfg.winSizeOk = true) (hsize : s.cfg.hdrSize = 4)
    (hf : haddr.toNat + 4 ≤ 2 ^ 32) (hd : s.dmaing = 0x00) :
    ∃ t n v, execN (.gethdr haddr page) n s = .next t
      ∧ Answered s t p (armCycles s 0x0004 (page ++ 0x00#8) cmdRread
          ++ [.read s.cfg.readWindow .w32 v, s.wr nicIsr isrRdc])
          (okResponse (headerCount (unlane32 s.cfg.hostBigEndian v)))
      ∧ t.rest = { s.rest with
          mem := headerMem s.cfg.hostBigEndian
            (s.mem.writeBytes haddr.toNat (unlane32 s.cfg.hostBigEndian v)) haddr.toNat
            (unlane32 s.cfg.hostBigEndian v) } := by
  obtain ⟨n, t, b, hn, hr, hpos, v, hs, hheader⟩ :=
    gethdr_comes_to_respond (page := page) hstart hw hsize hf hd
  have hx := execGethdr_respond (haddr := haddr) (page := page) hr hpos
  rw [hheader] at hx
  have hcycles := hs.cycles
  rw [List.append_assoc (armCycles _ _ _ _)] at hcycles
  exact ⟨_, n + 1, v, by rw [execN_add hn, execN_succ hx, execN],
    respond_answers _ _ _ hcycles hs.responses hs.other hs.preempted, (rest_respond ..).trans hs.rest⟩

/-- Settles O28: the header lies in the buffer as it was read, but for its count. -/
theorem gethdrFetchesHeader : Obligations.GethdrFetchesHeader := by
  intro haddr page s p hstart hw hsize hf hd hm
  obtain ⟨t, n, v, hn, hanswered, hrest⟩ := gethdr_runs (page := page) hstart hw hsize hf hd
  obtain ⟨h0, h1, h2, h3, hv⟩ := unlane32_eq s.cfg.hostBigEndian v
  rw [hv] at hanswered hrest
  have hmem := congrArg Rest.mem hrest
  rw [rest_mem] at hmem
  have hwf := Memory.wf_writeBytes haddr.toNat [h0, h1, h2, h3] hm
  have hread : ∀ k, k < 4 → (s.mem.writeBytes haddr.toNat [h0, h1, h2, h3]).read (haddr.toNat + k)
      = [h0, h1, h2, h3].getD k 0 := fun k hk => Memory.read_writeBytes_same hm hf hk
  refine ⟨t, n, v, h0, h1, h2, h3, hn, hv, hanswered, ⟨?_, ?_, ?_, ?_⟩, fun j hj hout => ?_,
    by rw [hrest, hmem]⟩
  · rw [hmem, read_headerMem_other _ _ _ hf (by omega) (by omega)]
    exact hread 0 (by decide)
  · rw [hmem, read_headerMem_other _ _ _ hf (by omega) (by omega)]
    exact hread 1 (by decide)
  · rw [hmem, read_headerMem_count _ _ hwf hf (k := 0) (by decide), hread 2 (by decide)]
    rfl
  · rw [hmem, read_headerMem_count _ _ hwf hf (k := 1) (by decide), hread 3 (by decide)]
    rfl
  · rw [hmem, read_headerMem_other _ _ _ hf hj (by omega)]
    exact Memory.read_writeBytes_other hf hj hout

end Sys2Proof.Machine
end

section
/-!
PROOF. Management requests (R115): the first micro-step takes the interface, the last one leaves it; and what such
a request has done in between.
-/

namespace Sys2Proof.Machine

open Sys2Proof

variable {i : Instr} {p : Port} {a : Active} {s t u : State} {pos : Pos}

/-! ### The first and the last micro-step (R28, R115) -/

/-- Where a management request stands after `MgEnter`: the place of its first cycle, but MDIOWR loads `mg_data`
first (R117-R122, R126, R127). -/
def mgFirst (c : Config) : Instr → Pos
  | .eewr _ _ _ => eeFirst c
  | .mdiord _ _ => .mdOut
  | .mdiowr _ _ _ => .mdLoad
  | _ => .cycle

/-- What a management request answers, from `mg_data` and its locals (R120, R121, R127). -/
def mgAnswer (data : Half) (l : Locals) : Instr → Half
  | .mdi => (BitVec.ofBool (mdiBit (l.value.setWidth 8))).setWidth 16
  | .eerd => eepromLines (l.value.setWidth 8)
  | .mdiord _ _ => if l.ta then 0xFFFF else data
  | _ => 0

theorem mgFirst_ne_start (c : Config) (i : Instr) : mgFirst c i ≠ .start := by
  cases i <;> simp only [mgFirst, eeFirst, ne_eq, reduceCtorEq, not_false_eq_true]
  split <;> simp

theorem mgEnter_of_free (ho : ¬ (p = .irq ∧ s.mgOwner = some .task)) (a : Active) (op : Byte)
    (next : Pos) : s.mgEnter p a op next
      = (s.withMgOwner (some p)).setPort p (.active { a with pos := next }) :=
  if_neg ho

theorem exec_mgmt_start (hi : isMgmt i = true) (ho : ¬ (p = .irq ∧ s.mgOwner = some .task))
    (hr : s.running = some (p, a)) (hp : a.pos = .start) :
    exec i s = .next ((s.withMgOwner (some p)).setPort p
      (.active { a with pos := mgFirst s.cfg i })) := by
  cases i
  case rd8 | rd16 | wr8 | wr16 | wblk | rblk | gethdr | bin | bout | reset => cases hi
  all_goals simp only [exec, execMdc, execMdir, execMdo, execMdi, execEerd, execEewr, execMdiord, execMdiowr,
    micro_running hr, hp, mgEnter_of_free ho, mgFirst]

theorem exec_mgmt_respond (hi : isMgmt i = true) (hr : s.running = some (p, a)) (hp : a.pos = .respond) :
    exec i s = .next (s.mgRespond p (mgAnswer s.mgData a.locals i)) := by
  cases i
  case rd8 | rd16 | wr8 | wr16 | wblk | rblk | gethdr | bin | bout | reset => cases hi
  all_goals simp only [exec, execMdc, execMdir, execMdo, execMdi, execEerd, execEewr, execMdiord, execMdiowr,
    micro_running hr, hp, mgAnswer]

/-- Settles O36: the first micro-step of each request, as `MgEnter` leaves it. -/
theorem mgEnterTakesOwnership : Obligations.MgEnterTakesOwnership := by
  intro i s p hi ⟨d, hr⟩ ho
  refine ⟨_, _, exec_mgmt_start hi ho hr rfl, port_setPort_same _ p _, mgFirst_ne_start s.cfg i,
    fun a ha => ?_, ?_, ?_, ?_, ?_, ?_⟩
  · cases hr.symm.trans ha
    rfl
  · simp
  · simp
  · simp
  · simp
  · simp

end Sys2Proof.Machine
end

section
/-!
PROOF. A management request between its first and its last micro-step: the cycles it has issued, the samples it has
taken, the shadow and `mg_data`, and that the rest of the block is as it was but for the shift state (R115, R116).
-/

namespace Sys2Proof.Machine

open Sys2Proof

variable {i : Instr} {p : Port} {a b : Active} {s t u : State} {P Q I J : State → Prop} {m n : Nat}

/-! ### A counted run -/

/-- `n` micro-steps of the request lead from `s` to a state with `Q`, each of them to a state with `I`. -/
def RunsVia (I : State → Prop) (i : Instr) (n : Nat) (s : State) (Q : State → Prop) : Prop :=
  (∀ k, k < n → ∃ c, execN i (k + 1) s = .next c ∧ I c) ∧ ∃ t, execN i n s = .next t ∧ Q t

/-- No condition on the states on the way. -/
def AnyState (_ : State) : Prop := True

/-- `n` micro-steps of the request lead from `s` to a state with `Q`. -/
abbrev Runs (i : Instr) (n : Nat) (s : State) (Q : State → Prop) : Prop := RunsVia AnyState i n s Q

theorem RunsVia.here (h : Q s) : RunsVia I i 0 s Q :=
  ⟨fun _ hk => absurd hk (Nat.not_lt_zero _), s, rfl, h⟩

theorem RunsVia.one (hx : exec i s = .next t) (hI : I t) (hQ : Q t) : RunsVia I i 1 s Q := by
  have hx1 : execN i 1 s = .next t := by rw [execN_succ hx, execN]
  refine ⟨fun k hk => ⟨t, ?_, hI⟩, t, hx1, hQ⟩
  rwa [Nat.lt_one_iff.mp hk]

theorem RunsVia.trans (h : RunsVia I i m s P) (k : ∀ t, P t → RunsVia I i n t Q) :
    RunsVia I i (m + n) s Q := by
  obtain ⟨hbefore, t, hm, hP⟩ := h
  obtain ⟨hafter, u, hn, hQ⟩ := k t hP
  refine ⟨fun j hj => ?_, u, (execN_add hm).trans hn, hQ⟩
  by_cases hjm : j < m
  · exact hbefore j hjm
  · obtain ⟨c, hc, hI⟩ := hafter (j - m) (by omega)
    refine ⟨c, ?_, hI⟩
    rw [show j + 1 = m + (j - m + 1) by omega, execN_add hm, hc]

theorem RunsVia.mono (h : RunsVia I i n s P) (k : ∀ t, P t → Q t) : RunsVia I i n s Q :=
  ⟨h.1, let ⟨t, hx, hP⟩ := h.2; ⟨t, hx, k t hP⟩⟩

theorem RunsVia.weaken (h : RunsVia I i n s Q) (k : ∀ c, I c → J c) : RunsVia J i n s Q :=
  ⟨fun j hj => let ⟨c, hc, hI⟩ := h.1 j hj; ⟨c, hc, k c hI⟩, h.2⟩

/-- The last state on the way is the one the run ends in. -/
theorem RunsVia.atEnd (h : RunsVia I i (n + 1) s Q) : RunsVia I i (n + 1) s fun t => Q t ∧ I t := by
  obtain ⟨hway, t, ht, hQ⟩ := h
  obtain ⟨c, hc, hI⟩ := hway n (Nat.lt_succ_self n)
  cases hc.symm.trans ht
  exact ⟨hway, t, hc, hQ, hI⟩

/-! ### The samples taken -/

/-- From `s` to `t` the card bus has answered reads with the bytes `vs`: the first listed answers, if answers are
listed (R68). -/
def Heard (s t : State) (vs : List Byte) : Prop :=
  ∀ (bus rest : List Word) (expired : List Nat) (reinit : List Bool), bus.length = vs.length →
    Listed s (bus ++ rest) expired reinit →
    vs = bus.map (BitVec.setWidth 8) ∧ Listed t rest expired reinit

theorem Heard.refl (s : State) : Heard s s [] := fun bus _ _ _ hlen hl => by
  obtain rfl : bus = [] := List.length_eq_zero_iff.mp hlen
  exact ⟨rfl, hl⟩

theorem Heard.of_kept {vs : List Byte} (h : Heard s t vs) (k : TapesKept t u) : Heard s u vs :=
  fun bus rest expired reinit hlen hl => (h bus rest expired reinit hlen hl).imp_right fun hl => hl.of_kept k

theorem Heard.regRd8 {vs : List Byte} (h : Heard s t vs) (k : Fin 32) :
    Heard s (t.regRd8 k).2 (vs ++ [(t.regRd8 k).1]) := by
  intro bus rest expired reinit hlen hl
  rcases List.eq_nil_or_concat bus with rfl | ⟨before, v, rfl⟩
  · simp at hlen
  · obtain ⟨hvs, hl⟩ := h before (v :: rest) expired reinit (by simpa using hlen) (by simpa using hl)
    obtain ⟨hv, hl⟩ := hl.regRd8 k
    exact ⟨by rw [hv, hvs, List.concat_eq_append, List.map_append, List.map_singleton], hl⟩

/-! ### What has been done so far -/

/-- What a management request in progress has done, and where it stands. -/
structure Drive where
  cycles : List BusCycle
  samples : List Byte
  shadow : Byte
  data : Half
  pos : Pos
  locals : Locals

/-- Since `s` the request on port `p` has done `d`, has not answered, and has changed nothing but the shadow and
the shift state (R26, R27). -/
structure Stands (p : Port) (s : State) (d : Drive) (t : State) : Prop where
  active : ∃ a, t.running = some (p, a) ∧ a.pos = d.pos ∧ a.locals = d.locals
  since : Since p s t d.cycles t.rest
  rest : t.rest.mgLeft = { s.rest.mgLeft with memrShadow := d.shadow }
  data : t.mgData = d.data
  heard : Heard s t d.samples

variable {d : Drive}

theorem Stands.memrShadow (h : Stands p s d t) : t.memrShadow = d.shadow :=
  congrArg Rest.memrShadow h.rest

theorem Stands.locals (h : Stands p s d t) (hr : t.running = some (p, a)) : a.locals = d.locals := by
  obtain ⟨b, hb, -, hlocals⟩ := h.active
  cases hr.symm.trans hb
  exact hlocals

/-- Just accepted, a request has done nothing (R37, R39). -/
theorem stands_fresh {desc : Desc} (hr : s.running = some (p, .fresh desc)) :
    Stands p s ⟨[], [], s.memrShadow, s.mgData, .start, {}⟩ s :=
  ⟨⟨_, hr, rfl, rfl⟩, .refl p s, rfl, rfl, .refl s⟩

/-- Moving on to `u` after these cycles, the rest of the block but the shadow and the shift state being kept. -/
theorem Stands.after (h : Stands p s d t) (hr : t.running = some (p, a)) {cs : List BusCycle} {r : Rest}
    (hs : Since p t u cs r) {shadow : Byte} (hrest : r.mgLeft = { s.rest.mgLeft with memrShadow := shadow })
    {vs : List Byte} (hheard : Heard s u vs) (b : Active) :
    Stands p s ⟨d.cycles ++ cs, vs, shadow, r.mgData, b.pos, b.locals⟩ (u.setPort p (.active b)) := by
  refine ⟨⟨b, running_setPort (hs.ready.mpr (ready_of_running hr)), rfl, rfl⟩, ?_, ?_, ?_,
    hheard.of_kept (.of_env (setPort_env ..))⟩
  · rw [rest_setPort, hs.rest]
    exact (h.since.trans hs).setPort _
  · rw [rest_setPort, hs.rest, hrest]
  · rw [setPort_mgData, ← rest_mgData, hs.rest]

theorem since_push (p : Port) (s : State) (phase : MgPhase) (bitpos : BitVec 5) (data : Half) (shadow : Byte) :
    Since p s ((((s.withMgPhase phase).withMgBitpos bitpos).withMgData data).push shadow)
      [s.wr nicMemr shadow]
      { s.rest with mgPhase := phase, mgBitpos := bitpos, mgData := data, memrShadow := shadow } where
  cycles := by simp
  responses := by simp
  other := by simp
  preempted := by simp
  rest := by simp
  cfg := by simp
  regOffset := by simp

theorem Since.withMgData {cs : List BusCycle} {r : Rest} (h : Since p s t cs r) (data : Half) :
    Since p s (t.withMgData data) cs { r with mgData := data } :=
  ⟨h.cycles, h.responses, (port_withMgData t _ data).trans h.other, h.preempted,
    by rw [rest_withMgData, h.rest], h.cfg, h.regOffset⟩

theorem tapesKept_push (s : State) (shadow : Byte) : TapesKept s (s.push shadow) :=
  (TapesKept.of_env (s := s) (t := s.withShadow shadow) rfl).trans
    (memWrite_tapes (s.withShadow shadow) _ _ _)

/-- One push, with the shift state it is made in: one MEMR write of the whole shadow (R116). -/
theorem Stands.push (h : Stands p s d t) (hr : t.running = some (p, a)) {phase : MgPhase}
    {bitpos : BitVec 5} {data : Half} {shadow : Byte} {pos : Pos}
    (hx : exec i t = .next (((((t.withMgPhase phase).withMgBitpos bitpos).withMgData data).push shadow).setPort p
      (.active { a with pos := pos })))
    (hI : ∀ c : State, c.mgPhase = phase → I c) :
    RunsVia I i 1 t (Stands p s { d with
      cycles := d.cycles ++ [s.wr nicMemr shadow], shadow := shadow, data := data, pos := pos }) := by
  have hheard := h.heard.of_kept (u := ((t.withMgPhase phase).withMgBitpos bitpos).withMgData data) (.of_env rfl)
  have hrun := RunsVia.one hx (hI _ (by simp)) (h.after hr (since_push p t phase bitpos data shadow)
    (congrArg (fun r : Rest => { r with memrShadow := shadow }) h.rest)
    (hheard.of_kept (tapesKept_push _ shadow)) { a with pos := pos })
  rwa [h.since.wr, h.locals hr] at hrun

/-- A push that leaves the shift state as it is. -/
theorem Stands.pushOnly (h : Stands p s d t) (hr : t.running = some (p, a)) {shadow : Byte} {pos : Pos}
    (hx : exec i t = .next ((t.push shadow).setPort p (.active { a with pos := pos })))
    (hI : ∀ c : State, c.mgPhase = t.mgPhase → I c) :
    RunsVia I i 1 t (Stands p s { d with
      cycles := d.cycles ++ [s.wr nicMemr shadow], shadow := shadow, pos := pos }) := by
  have hrun := h.push (phase := t.mgPhase) (bitpos := t.mgBitpos) (data := t.mgData) hr hx hI
  rwa [h.data] at hrun

/-- One sample: one MEMR read, the shadow kept (R120). -/
theorem Stands.sample (h : Stands p s d t) (hr : t.running = some (p, a)) {data : Half} {pos : Pos}
    {l : Locals}
    (hx : exec i t = .next (((t.regRd8 nicMemr).2.withMgData data).setPort p
      (.active { a with pos := pos, locals := l }))) :
    Runs i 1 t (Stands p s { d with
      cycles := d.cycles ++ [s.rd nicMemr (t.regRd8 nicMemr).1]
      samples := d.samples ++ [(t.regRd8 nicMemr).1], data := data, pos := pos, locals := l }) := by
  have hrun := RunsVia.one (I := AnyState) hx trivial (h.after hr
    ((since_regRd8 p t nicMemr).withMgData data) h.rest ((h.heard.regRd8 nicMemr).of_kept (.of_env rfl))
    { a with pos := pos, locals := l })
  rwa [h.since.rd] at hrun

/-- A sample that keeps `mg_data`. -/
theorem Stands.sampleOnly (h : Stands p s d t) (hr : t.running = some (p, a)) {pos : Pos} {l : Locals}
    (hx : exec i t = .next ((t.regRd8 nicMemr).2.setPort p (.active { a with pos := pos, locals := l }))) :
    Runs i 1 t (Stands p s { d with
      cycles := d.cycles ++ [s.rd nicMemr (t.regRd8 nicMemr).1]
      samples := d.samples ++ [(t.regRd8 nicMemr).1], pos := pos, locals := l }) := by
  have hrun := h.sample (data := (t.regRd8 nicMemr).2.mgData) hr hx
  rwa [regRd8_mgData, h.data] at hrun

/-- A MEMR write of a byte other than the shadow, which is kept (R122). -/
theorem Stands.writeOnly (h : Stands p s d t) (hr : t.running = some (p, a)) {b : Byte} {pos : Pos}
    (hx : exec i t = .next ((t.regWr8 nicMemr b).setPort p (.active { a with pos := pos }))) :
    Runs i 1 t (Stands p s { d with cycles := d.cycles ++ [s.wr nicMemr b], pos := pos }) := by
  have hrun := RunsVia.one (I := AnyState) hx trivial (h.after hr (since_regWr8 p t nicMemr b) h.rest
    (h.heard.of_kept (memWrite_tapes ..)) { a with pos := pos })
  rwa [h.since.wr, rest_mgData, h.data, h.locals hr] at hrun

/-- A micro-step with no cycle that changes at most `mg_data` and the place (R123, R126). -/
theorem Stands.quiet (h : Stands p s d t) (hr : t.running = some (p, a)) {data : Half} {pos : Pos}
    (hx : exec i t = .next ((t.withMgData data).setPort p (.active { a with pos := pos }))) :
    Runs i 1 t (Stands p s { d with data := data, pos := pos }) := by
  have hrun := RunsVia.one (I := AnyState) hx trivial (h.after hr ((Since.refl p t).withMgData data) h.rest
    (h.heard.of_kept (.of_env rfl)) { a with pos := pos })
  rwa [List.append_nil, h.locals hr] at hrun

end Sys2Proof.Machine
end

section
/-!
PROOF. The line primitives MDC, MDIR, MDO, MDI and EERD (R116-R121) and EEWR (R122, R123).
-/

namespace Sys2Proof.Machine

open Sys2Proof

variable {i : Instr} {p : Port} {a : Active} {s t : State} {d : Drive}

/-! ### From acceptance to the response (R115) -/

/-- What a management request has done after `MgEnter`. -/
def Drive.entered (s : State) (i : Instr) : Drive := ⟨[], [], s.memrShadow, s.mgData, mgFirst s.cfg i, {}⟩

theorem mgmt_enters (hi : isMgmt i = true) (hstart : AtStart s p)
    (ho : ¬ (p = .irq ∧ s.mgOwner = some .task)) :
    Runs i 1 s fun t => Stands p s (.entered s i) t ∧ t.env = s.env := by
  obtain ⟨desc, hr⟩ := hstart
  have hs : Since p s (s.withMgOwner (some p)) [] { s.rest with mgOwner := some p } :=
    ⟨(List.append_nil _).symm, rfl, port_withMgOwner .., rfl, rfl, rfl, rfl⟩
  exact .one (exec_mgmt_start hi ho hr rfl) trivial
    ⟨(stands_fresh hr).after hr hs rfl ((Heard.refl s).of_kept (.of_env rfl)) { Active.fresh desc with
      pos := mgFirst s.cfg i }, by simp⟩

/-- The last micro-step answers, and leaves the shift state at its idle values (R27, R115). -/
theorem Stands.answers (h : Stands p s d t) (hi : isMgmt i = true) (hp : d.pos = .respond) :
    ∃ u, exec i t = .next u ∧ Answered s u p d.cycles (okResponse (mgAnswer d.data d.locals i))
      ∧ u.rest = { s.rest.mgLeft with memrShadow := d.shadow } := by
  obtain ⟨a, hr, hpos, hlocals⟩ := h.active
  have hx := exec_mgmt_respond hi hr (hpos.trans hp)
  rw [hlocals, h.data] at hx
  refine ⟨_, hx, ?_, (rest_mgRespond ..).trans h.rest⟩
  refine respond_answers _ _ _ h.since.cycles h.since.responses ?_ h.since.preempted
  rw [← h.since.other]
  cases p <;> rfl

/-- A request that comes to its response answers in one micro-step more. -/
theorem mgmt_answers {n : Nat} (h : Runs i n s (Stands p s d)) (hi : isMgmt i = true)
    (hp : d.pos = .respond) :
    ∃ t, execN i (n + 1) s = .next t ∧ Answered s t p d.cycles (okResponse (mgAnswer d.data d.locals i))
      ∧ t.rest = { s.rest.mgLeft with memrShadow := d.shadow } := by
  obtain ⟨-, t, hn, hstands⟩ := h
  obtain ⟨u, hx, hu⟩ := hstands.answers hi hp
  exact ⟨u, by rw [execN_add hn, execN_succ hx, execN], hu⟩

/-! ### MDC, MDIR and MDO (R116-R119) -/

/-- A request that is one push of the shadow as `f` makes it (R116). -/
structure LinePush (i : Instr) (f : Byte → Byte) : Prop where
  mgmt : isMgmt i = true
  entry : ∀ c, mgFirst c i = .cycle
  cycle : ∀ {t : State} {p : Port} {a : Active}, t.running = some (p, a) → a.pos = .cycle →
    exec i t = pushCycle (f t.memrShadow) p a t
  answer : ∀ data l, mgAnswer data l i = 0

theorem linePush_mdc (lv : Bool) : LinePush (.mdc lv) (setClock lv) :=
  ⟨rfl, fun _ => rfl, fun hr hp => by simp only [exec, execMdc, micro_running hr, hp], fun _ _ => rfl⟩

theorem linePush_mdir (lv : Bool) : LinePush (.mdir lv) (setInput !lv) :=
  ⟨rfl, fun _ => rfl, fun hr hp => by simp only [exec, execMdir, micro_running hr, hp], fun _ _ => rfl⟩

theorem linePush_mdo (lv : Bool) : LinePush (.mdo lv) (setData lv) :=
  ⟨rfl, fun _ => rfl, fun hr hp => by simp only [exec, execMdo, micro_running hr, hp], fun _ _ => rfl⟩

theorem LinePush.runs {f : Byte → Byte} (hline : LinePush i f) (hstart : AtStart s p)
    (ho : ¬ (p = .irq ∧ s.mgOwner = some .task)) :
    ∃ t, execN i 3 s = .next t ∧ Answered s t p [s.wr nicMemr (f s.memrShadow)] (okResponse 0)
      ∧ t.rest = { s.rest.mgLeft with memrShadow := f s.memrShadow } := by
  have hcome := (mgmt_enters hline.mgmt hstart ho).trans fun t ⟨h, _⟩ => by
    obtain ⟨a, hr, hpos, -⟩ := h.active
    have hx := hline.cycle hr (hpos.trans (hline.entry _))
    rw [h.memrShadow] at hx
    exact h.pushOnly hr hx fun _ _ => trivial
  rw [← hline.answer]
  exact mgmt_answers hcome hline.mgmt rfl

/-- Settles O38: each is one push, of the byte the line gives. -/
theorem linePrimitives : Obligations.LinePrimitives := by
  intro lv s p hstart ho
  refine ⟨fun b hb => ?_, fun b hb => ?_, fun b hb => ?_⟩
  · rw [hb]
    exact (linePush_mdc lv).runs hstart ho
  · have hinverted : b = setInput (!lv) s.memrShadow := by cases lv <;> exact hb
    rw [hinverted]
    exact (linePush_mdir lv).runs hstart ho
  · rw [hb]
    exact (linePush_mdo lv).runs hstart ho

/-! ### MDI and EERD (R120, R121) -/

theorem drawBus_congr (he : t.env = s.env) (hc : t.cfg = s.cfg) (addr : Word) (w : Width) :
    (t.drawBus addr w).1 = (s.drawBus addr w).1 := by
  unfold State.drawBus
  rw [he, hc]
  split
  · rfl
  · split <;> rfl

/-- The first sample of a request is the answer the card bus gives to `s` (R68). -/
theorem Stands.first_sample (h : Stands p s d t) (he : t.env = s.env) :
    ((t.regRd8 nicMemr).1).setWidth 32 = (s.drawBus (s.regAddr nicMemr) .w8).1 := by
  rw [regRd8_fst, drawBus_w8, h.since.regAddr, drawBus_congr he h.since.cfg]

/-- A request that is one MEMR read (R120, R121). -/
structure LineRead (i : Instr) : Prop where
  mgmt : isMgmt i = true
  entry : ∀ c, mgFirst c i = .cycle
  cycle : ∀ {t : State} {p : Port} {a : Active}, t.running = some (p, a) → a.pos = .cycle →
    exec i t = memrCycle p a t

theorem lineRead_mdi : LineRead .mdi :=
  ⟨rfl, fun _ => rfl, fun hr hp => by simp only [exec, execMdi, micro_running hr, hp]⟩

theorem lineRead_eerd : LineRead .eerd :=
  ⟨rfl, fun _ => rfl, fun hr hp => by simp only [exec, execEerd, micro_running hr, hp]⟩

theorem LineRead.runs (hline : LineRead i) (hstart : AtStart s p)
    (ho : ¬ (p = .irq ∧ s.mgOwner = some .task)) :
    ∃ (t : State) (v : Byte), execN i 3 s = .next t
      ∧ v.setWidth 32 = (s.drawBus (s.regAddr nicMemr) .w8).1
      ∧ Answered s t p [s.rd nicMemr v] (okResponse (mgAnswer s.mgData { value := v.setWidth 32 } i))
      ∧ t.rest = s.rest.mgLeft := by
  have hcome := (mgmt_enters hline.mgmt hstart ho).trans (Q := fun u => ∃ v : Byte,
      v.setWidth 32 = (s.drawBus (s.regAddr nicMemr) .w8).1
      ∧ Stands p s ⟨[s.rd nicMemr v], [v], s.memrShadow, s.mgData, .respond, { value := v.setWidth 32 }⟩ u)
    fun t ⟨h, henv⟩ => by
      obtain ⟨a, hr, hpos, -⟩ := h.active
      have hx := hline.cycle hr (hpos.trans (hline.entry _))
      rw [memrCycle, h.locals hr] at hx
      exact (h.sampleOnly hr hx).mono fun u hu => ⟨_, h.first_sample henv, hu⟩
  obtain ⟨hway, u, hn, v, hv, hstands⟩ := hcome
  obtain ⟨t, ht, hanswered, hrest⟩ := mgmt_answers ⟨hway, u, hn, hstands⟩ hline.mgmt rfl
  exact ⟨t, v, ht, hv, hanswered, hrest⟩

theorem mdiAnswer_eq (v : Byte) :
    (BitVec.ofBool (mdiBit v)).setWidth 16 = if v.getLsbD 2 then 1#16 else 0#16 := by
  unfold mdiBit
  cases v.getLsbD 2 <;> rfl

/-- The four levels are the digits of EERD's answer (R121). -/
theorem toNat_eepromLines (v : Byte) : (eepromLines v).toNat
    = 8 * (v.getLsbD 4).toNat + 4 * (v.getLsbD 7).toNat + 2 * (v.getLsbD 6).toNat + (v.getLsbD 5).toNat := by
  unfold eepromLines
  generalize v.getLsbD 4 = cs, v.getLsbD 7 = clk, v.getLsbD 6 = dout, v.getLsbD 5 = di
  revert cs clk dout di
  decide

/-- Settles O39: the sample is the answer of the card bus, and the answer is its line or lines. -/
theorem lineReads : Obligations.LineReads := by
  intro s p hstart ho
  refine ⟨?_, ?_⟩
  · obtain ⟨t, v, ht, hv, hanswered, hrest⟩ := lineRead_mdi.runs hstart ho
    rw [mgAnswer, BitVec.setWidth_setWidth_of_le _ (by decide), BitVec.setWidth_eq, mdiAnswer_eq] at hanswered
    exact ⟨t, v, ht, hv, hanswered, hrest⟩
  · obtain ⟨t, v, ht, hv, hanswered, hrest⟩ := lineRead_eerd.runs hstart ho
    rw [mgAnswer, BitVec.setWidth_setWidth_of_le _ (by decide), BitVec.setWidth_eq] at hanswered
    exact ⟨t, v, _, ht, hv, toNat_eepromLines v, hanswered, hrest⟩

/-! ### EEWR (R122, R123) -/

section

variable {cs clk di : Bool}

theorem execEewr_hold (hr : s.running = some (p, a)) (hp : a.pos = .eeHold) :
    exec (.eewr cs clk di) s = .next (s.setPort p (.active { a with pos := .respond })) := by
  simp only [exec, execEewr, micro_running hr, hp, goto_eq]

theorem execEewr_read (hr : s.running = some (p, a)) (hp : a.pos = .eeRead) :
    exec (.eewr cs clk di) s = eeRead p a s := by
  simp only [exec, execEewr, micro_running hr, hp]

theorem execEewr_write (hr : s.running = some (p, a)) (hp : a.pos = .eeWrite) :
    exec (.eewr cs clk di) s = eeWrite cs clk di p a s := by
  simp only [exec, execEewr, micro_running hr, hp]

theorem getLsbD_lineMask (level : Bool) (mask : Byte) (k : Nat) :
    (if level then mask else 0).getLsbD k = (level && mask.getLsbD k) := by
  cases level <;> simp

theorem lineMask_and {mask other : Byte} (h : mask &&& other = 0) (level : Bool) :
    (if level then mask else 0) &&& other = 0 := by
  cases level
  · simp
  · exact h

/-- Each bit of EEWR's byte (R122). -/
theorem getLsbD_eepromByte (cs clk di : Bool) (base : Byte) (k : Nat) :
    (eepromByte cs clk di base).getLsbD k = (base.getLsbD k && (0x4F : Byte).getLsbD k
      || di && (0x20 : Byte).getLsbD k || clk && (0x80 : Byte).getLsbD k || cs && (0x10 : Byte).getLsbD k) := by
  simp only [eepromByte, BitVec.getLsbD_or, BitVec.getLsbD_and, getLsbD_lineMask]
  rfl

/-- EEWR's byte: the three lines, and the base's other bits (R122). -/
theorem eepromByte_spec (cs clk di : Bool) (base : Byte) :
    (eepromByte cs clk di base).getLsbD 4 = cs ∧ (eepromByte cs clk di base).getLsbD 5 = di
      ∧ (eepromByte cs clk di base).getLsbD 7 = clk
      ∧ eepromByte cs clk di base &&& 0x4F = base &&& 0x4F := by
  refine ⟨?_, ?_, ?_, ?_⟩
  · rw [getLsbD_eepromByte]
    simp
  · rw [getLsbD_eepromByte]
    simp
  · rw [getLsbD_eepromByte]
    simp
  · rw [eepromByte, BitVec.and_or_distrib_right, BitVec.and_or_distrib_right, BitVec.and_or_distrib_right,
      lineMask_and (by decide), lineMask_and (by decide), lineMask_and (by decide), BitVec.and_assoc]
    simp

/-- The hold is a micro-step without effect (R123). -/
theorem eewr_holds (h : Stands p s d t) (hp : d.pos = .eeHold) :
    Runs (.eewr cs clk di) 1 t (Stands p s { d with pos := .respond }) := by
  obtain ⟨a, hr, hpos, -⟩ := h.active
  have hx : exec (.eewr cs clk di) t = _ := execEewr_hold hr (hpos.trans hp)
  have hrun := h.quiet (data := t.mgData) hr hx
  rwa [h.data] at hrun

/-- Under SHADOW the base is the shadow, which is updated (R122). -/
theorem eewr_runs_shadow (hsource : s.cfg.eeRmwSource = .shadow) (hstart : AtStart s p)
    (ho : ¬ (p = .irq ∧ s.mgOwner = some .task)) :
    ∃ t, execN (.eewr cs clk di) 4 s = .next t
      ∧ Answered s t p [s.wr nicMemr (eepromByte cs clk di s.memrShadow)] (okResponse 0)
      ∧ t.rest = { s.rest.mgLeft with memrShadow := eepromByte cs clk di s.memrShadow } := by
  have hwritten := (mgmt_enters (i := .eewr cs clk di) rfl hstart ho).trans fun t ⟨h, _⟩ => by
    obtain ⟨a, hr, hpos, -⟩ := h.active
    rw [Drive.entered, mgFirst, eeFirst, hsource] at hpos
    have hx : exec (.eewr cs clk di) t = _ := execEewr_write hr hpos
    simp only [eeWrite, h.since.cfg, hsource, h.memrShadow] at hx
    exact h.pushOnly hr hx fun _ _ => trivial
  exact mgmt_answers (hwritten.trans fun t h => eewr_holds h rfl) rfl rfl

/-- Under BUS EEWR writes the byte made of its sample, and keeps the shadow (R122). -/
theorem eewr_writes_bus (hsource : s.cfg.eeRmwSource = .bus) (h : Stands p s d t) (hp : d.pos = .eeWrite)
    {v : Byte} (hv : d.locals.value = v.setWidth 32) :
    Runs (.eewr cs clk di) 1 t (Stands p s
      { d with cycles := d.cycles ++ [s.wr nicMemr (eepromByte cs clk di v)], pos := .eeHold }) := by
  obtain ⟨a, hr, hpos, -⟩ := h.active
  have hx : exec (.eewr cs clk di) t = _ := execEewr_write hr (hpos.trans hp)
  simp only [eeWrite, h.since.cfg, hsource, h.locals hr, hv,
    BitVec.setWidth_setWidth_of_le v (show 8 ≤ 32 by decide), BitVec.setWidth_eq] at hx
  exact h.writeOnly hr hx

/-- Under BUS the base is a fresh sample (R122). -/
theorem eewr_runs_bus (hsource : s.cfg.eeRmwSource = .bus) (hstart : AtStart s p)
    (ho : ¬ (p = .irq ∧ s.mgOwner = some .task)) :
    ∃ (t : State) (v : Byte), execN (.eewr cs clk di) 5 s = .next t
      ∧ v.setWidth 32 = (s.drawBus (s.regAddr nicMemr) .w8).1
      ∧ Answered s t p [s.rd nicMemr v, s.wr nicMemr (eepromByte cs clk di v)] (okResponse 0)
      ∧ t.rest = s.rest.mgLeft := by
  have hread := (mgmt_enters (i := .eewr cs clk di) rfl hstart ho).trans (Q := fun u => ∃ v : Byte,
      v.setWidth 32 = (s.drawBus (s.regAddr nicMemr) .w8).1
      ∧ Stands p s ⟨[s.rd nicMemr v], [v], s.memrShadow, s.mgData, .eeWrite, { value := v.setWidth 32 }⟩ u)
    fun t ⟨h, henv⟩ => by
      obtain ⟨a, hr, hpos, -⟩ := h.active
      rw [Drive.entered, mgFirst, eeFirst, hsource] at hpos
      have hx : exec (.eewr cs clk di) t = _ := execEewr_read hr hpos
      rw [eeRead, h.locals hr] at hx
      exact (h.sampleOnly hr hx).mono fun u hu => ⟨_, h.first_sample henv, hu⟩
  obtain ⟨hway, u, hn, v, hv, hstands⟩ := hread.trans (Q := fun u => ∃ v : Byte,
      v.setWidth 32 = (s.drawBus (s.regAddr nicMemr) .w8).1
      ∧ Stands p s ⟨[s.rd nicMemr v, s.wr nicMemr (eepromByte cs clk di v)], [v], s.memrShadow, s.mgData,
          .respond, { value := v.setWidth 32 }⟩ u)
    fun t ⟨v, hv, h⟩ => ((eewr_writes_bus hsource h rfl rfl).trans fun t h => eewr_holds h rfl).mono
      fun u hu => ⟨v, hv, hu⟩
  obtain ⟨t, ht, hanswered, hrest⟩ := mgmt_answers ⟨hway, u, hn, hstands⟩ rfl rfl
  exact ⟨t, v, ht, hv, hanswered, hrest⟩

end

/-- Settles O40: the byte written is EEWR's, of the shadow or of the sample. -/
theorem eepromWrite : Obligations.EepromWrite := by
  intro cs clk di s p hstart ho
  refine ⟨fun hsource => ?_, fun hsource => ?_⟩
  · obtain ⟨t, ht, hanswered, hrest⟩ := eewr_runs_shadow (cs := cs) (clk := clk) (di := di) hsource hstart ho
    obtain ⟨hcs, hdi, hclk, hkept⟩ := eepromByte_spec cs clk di s.memrShadow
    exact ⟨t, _, ht, hcs, hdi, hclk, hkept, hanswered, hrest⟩
  · obtain ⟨t, v, ht, hv, hanswered, hrest⟩ := eewr_runs_bus (cs := cs) (clk := clk) (di := di) hsource hstart ho
    obtain ⟨hcs, hdi, hclk, hkept⟩ := eepromByte_spec cs clk di v
    exact ⟨t, v, _, ht, hv, hcs, hdi, hclk, hkept, hanswered, hrest⟩

end Sys2Proof.Machine
end

section
/-!
PROOF. The bits of a management frame (R124-R127): `SendBit` and `GetBit`, one after another.
-/

namespace Sys2Proof.Machine

open Sys2Proof

variable {i : Instr} {p : Port} {a : Active} {s t : State} {d : Drive} {I : State → Prop} {n : Nat}

/-! ### The clock bit of the shadow (R124) -/

theorem clockLow_clockLow (b : Byte) : b &&& ~~~0x01 &&& ~~~0x01 = b &&& ~~~0x01 := by
  rw [BitVec.and_assoc, BitVec.and_self]

theorem clockLow_clockHigh (b : Byte) : (b ||| 0x01) &&& ~~~0x01 = b &&& ~~~0x01 := by
  rw [BitVec.and_or_distrib_right]
  simp

theorem clockHigh_clockLow (b : Byte) : b &&& ~~~0x01 ||| 0x01 = b ||| 0x01 := by
  ext k hk
  simp only [BitVec.getElem_or, BitVec.getElem_and, BitVec.getElem_not]
  cases (0x01#8)[k] <;> simp

/-! ### Sending (R124, R125) -/

/-- What the micro-steps of a frame are up to its first `GetBit`: the bits it sends, which may be bits of
`mg_data`, the last of them, and the stage that takes the first bit. -/
structure FrameCall (i : Instr) (bit : Half → Nat → Bool) (last : Nat) (g : GetStage) : Prop where
  out : ∀ {t : State} {p : Port} {a : Active}, t.running = some (p, a) → a.pos = .mdOut →
    exec i t = frameOutput p a t
  send : ∀ {t : State} {p : Port} {a : Active} {n : Nat} {e : SendEdge}, t.running = some (p, a) →
    a.pos = .send n e → exec i t = sendBit (bit t.mgData n) n last .mdIn e p a t
  input : ∀ {t : State} {p : Port} {a : Active}, t.running = some (p, a) → a.pos = .mdIn →
    exec i t = frameInput g p a t

theorem frameCall_mdiowr (phyad regad : BitVec 5) (val : Half) :
    FrameCall (.mdiowr phyad regad val) (frameBit false phyad regad) 63 .tail where
  out hr hp := by simp only [exec, execMdiowr, micro_running hr, hp]
  send hr hp := by simp only [exec, execMdiowr, micro_running hr, hp]
  input hr hp := by simp only [exec, execMdiowr, micro_running hr, hp]

theorem frameCall_mdiord (phyad regad : BitVec 5) :
    FrameCall (.mdiord phyad regad) (fun _ => frameBit true phyad regad 0) 45 .ta where
  out hr hp := by simp only [exec, execMdiord, micro_running hr, hp]
  send hr hp := by simp only [exec, execMdiord, micro_running hr, hp]
  input hr hp := by simp only [exec, execMdiord, micro_running hr, hp]

/-- Where frame bit `n` of a frame whose last sent bit is `last` is sent: after the last one the direction turns to
input. -/
def sendPos (last n : Nat) : Pos := if n ≤ last then .send n .set else .mdIn

/-- What has been done after sending bits as well. -/
def Drive.sent (d : Drive) (s : State) (bits : List Bool) (pos : Pos) : Drive :=
  { d with
    cycles := d.cycles ++ (sendBytes d.shadow bits).map (s.wr nicMemr)
    shadow := sendShadow d.shadow bits
    pos := pos }

theorem Drive.sent_sent (d : Drive) (s : State) (b : Bool) (bits : List Bool) (pos pos' : Pos) :
    (d.sent s [b] pos).sent s bits pos' = d.sent s (b :: bits) pos' := by
  simp [Drive.sent, sendBytes, sendShadow]

variable {bit : Half → Nat → Bool} {last : Nat} {g : GetStage}

theorem sendBit_set (b : Bool) (n last : Nat) (after : Pos) (p : Port) (a : Active) (t : State) :
    sendBit b n last after .set p a t
      = .next (((((t.withMgPhase (framePhase n)).withMgBitpos (frameBitpos t.mgBitpos n)).withMgData
          t.mgData).push (withMdo t.memrShadow b)).setPort p (.active { a with pos := .send n .high })) := rfl

theorem sendBit_high (b : Bool) (n last : Nat) (after : Pos) (p : Port) (a : Active) (t : State) :
    sendBit b n last after .high p a t
      = .next ((t.push (t.memrShadow ||| 0x01)).setPort p (.active { a with pos := .send n .low })) := rfl

theorem sendBit_low (b : Bool) (n last : Nat) (after : Pos) (p : Port) (a : Active) (t : State) :
    sendBit b n last after .low p a t
      = .next ((t.push (t.memrShadow &&& ~~~0x01)).setPort p
          (.active { a with pos := if n < last then .send (n + 1) .set else after })) := rfl

/-- One `SendBit`, all of it in the phase of its bit (R124, R125). -/
theorem FrameCall.sends_bit (hcall : FrameCall i bit last g) (h : Stands p s d t)
    (hp : d.pos = .send n .set) :
    RunsVia (fun c => c.mgPhase = framePhase n) i 3 t
      (Stands p s (d.sent s [bit d.data n] (sendPos last (n + 1)))) := by
  obtain ⟨a, hr, hpos, -⟩ := h.active
  have hset := hcall.send hr (hpos.trans hp)
  have hlow := h.push (data := t.mgData) hr (hset.trans (sendBit_set ..)) fun _ hc => hc
  rw [h.data, h.memrShadow] at hlow
  refine hlow.atEnd.trans (m := 1) (n := 2) fun u ⟨h, hphase⟩ => ?_
  obtain ⟨a, hr, hpos, -⟩ := h.active
  have hhigh := h.pushOnly hr ((hcall.send hr hpos).trans (sendBit_high ..)) fun _ hc => hc.trans hphase
  rw [h.memrShadow] at hhigh
  refine hhigh.atEnd.trans (m := 1) (n := 1) fun u ⟨h, hphase⟩ => ?_
  obtain ⟨a, hr, hpos, -⟩ := h.active
  have hend := h.pushOnly hr ((hcall.send hr hpos).trans (sendBit_low ..)) fun _ hc => hc.trans hphase
  rw [h.memrShadow, clockLow_clockHigh] at hend
  simpa [Drive.sent, sendBytes, sendShadow, sendPos, Nat.succ_le_iff] using hend

/-- `m` `SendBit`s from bit `n` on. -/
theorem FrameCall.sends (hcall : FrameCall i bit last g) (m : Nat) :
    ∀ {n : Nat} {t : State} {d : Drive}, Stands p s d t → d.pos = sendPos last n → n + m ≤ last + 1 →
      (∀ k, n ≤ k → k < n + m → ∀ c : State, c.mgPhase = framePhase k → I c) →
      RunsVia I i (3 * m) t
        (Stands p s (d.sent s ((List.range' n m).map (bit d.data)) (sendPos last (n + m)))) := by
  induction m with
  | zero =>
    intro n t d h hp _ _
    refine .here ?_
    rw [Nat.add_zero, ← hp]
    simpa [Drive.sent, sendBytes, sendShadow] using h
  | succ m ih =>
    intro n t d h hp hn hI
    have hbit := (hcall.sends_bit h (by rw [hp, sendPos, if_pos (by omega)])).weaken
      (hI n (Nat.le_refl n) (by omega))
    have hall := hbit.trans fun u h => ih h rfl (by omega) fun k hk hk' => hI k (by omega) (by omega)
    rw [Drive.sent_sent, show n + 1 + m = n + (m + 1) by omega, show 3 + 3 * m = 3 * (m + 1) by omega] at hall
    rwa [List.range'_succ, List.map_cons]

/-! ### A frame up to its first `GetBit` (R126, R127) -/

/-- The shadow with the direction turned to input after sending these bits (R126, R127). -/
def inputShadow (shadow : Byte) (bits : List Bool) : Byte := sendShadow (shadow &&& ~~~0x02) bits ||| 0x02

/-- The cycles of a frame up to its first `GetBit`: the direction push, the bits sent, the input push. -/
def frameCycles (s : State) (shadow : Byte) (bits : List Bool) : List BusCycle :=
  s.wr nicMemr (shadow &&& ~~~0x02) :: (sendBytes (shadow &&& ~~~0x02) bits).map (s.wr nicMemr)
    ++ [s.wr nicMemr (inputShadow shadow bits)]

/-- The direction push. -/
theorem FrameCall.turns_out (hcall : FrameCall i bit last g) (h : Stands p s d t) (hp : d.pos = .mdOut) :
    Runs i 1 t (Stands p s { d with
      cycles := d.cycles ++ [s.wr nicMemr (d.shadow &&& ~~~0x02)]
      shadow := d.shadow &&& ~~~0x02, pos := .send 0 .set }) := by
  obtain ⟨a, hr, hpos, -⟩ := h.active
  have hx := hcall.out hr (hpos.trans hp)
  rw [frameOutput, h.memrShadow] at hx
  exact h.pushOnly hr hx fun _ _ => trivial

theorem frameInput_eq (g : GetStage) (p : Port) (a : Active) (t : State) : frameInput g p a t
    = .next (((((t.withMgPhase (stagePhase g)).withMgBitpos t.mgBitpos).withMgData t.mgData).push
        (t.memrShadow ||| 0x02)).setPort p (.active { a with pos := .get g 0 .high })) := rfl

/-- The input push opens the stage that takes the first bit. -/
theorem FrameCall.turns_in (hcall : FrameCall i bit last g) (h : Stands p s d t) (hp : d.pos = .mdIn) :
    RunsVia (fun c => c.mgPhase = stagePhase g) i 1 t (Stands p s { d with
      cycles := d.cycles ++ [s.wr nicMemr (d.shadow ||| 0x02)]
      shadow := d.shadow ||| 0x02, pos := .get g 0 .high }) := by
  obtain ⟨a, hr, hpos, -⟩ := h.active
  have hrun := h.push hr ((hcall.input hr (hpos.trans hp)).trans (frameInput_eq ..)) fun _ hc => hc
  rwa [h.data, h.memrShadow] at hrun

theorem FrameCall.comes_to_get (hcall : FrameCall i bit last g) (h : Stands p s d t) (hp : d.pos = .mdOut)
    {bits : List Bool} (hbits : (List.range' 0 (last + 1)).map (bit d.data) = bits) :
    Runs i (1 + 3 * (last + 1) + 1) t (Stands p s { d with
      cycles := d.cycles ++ frameCycles s d.shadow bits
      shadow := inputShadow d.shadow bits, pos := .get g 0 .high }) := by
  have hsent := (hcall.turns_out h hp).trans fun u h =>
    hcall.sends (last + 1) (n := 0) h (by simp [sendPos]) (by omega) fun _ _ _ _ _ => trivial
  have hall := hsent.trans fun u h => (hcall.turns_in h (by simp [Drive.sent, sendPos])).weaken fun _ _ => trivial
  subst hbits
  simpa [Drive.sent, frameCycles, inputShadow] using hall

/-! ### Taking bits (R124, R125) -/

/-- A request that takes bits in stage `g` clocks them by `GetBit` (R124). -/
structure GetCall (i : Instr) (g : GetStage) : Prop where
  high : ∀ {t : State} {p : Port} {a : Active} {n : Nat}, t.running = some (p, a) → a.pos = .get g n .high →
    exec i t = getBitClock g n true p a t
  low : ∀ {t : State} {p : Port} {a : Active} {n : Nat}, t.running = some (p, a) → a.pos = .get g n .low →
    exec i t = getBitClock g n false p a t

theorem getCall_mdiowr (phyad regad : BitVec 5) (val : Half) : GetCall (.mdiowr phyad regad val) .tail :=
  ⟨execMdiowr_high, execMdiowr_low⟩

theorem getCall_mdiord (phyad regad : BitVec 5) (g : GetStage) : GetCall (.mdiord phyad regad) g :=
  ⟨execMdiord_high, execMdiord_low⟩

theorem getBitClock_high (g : GetStage) (n : Nat) (p : Port) (a : Active) (t : State) :
    getBitClock g n true p a t
      = .next (((((t.withMgPhase (stagePhase g)).withMgBitpos (stageBitpos t.mgBitpos n g)).withMgData
          (stageData t.mgData n g)).push (t.memrShadow ||| 0x01)).setPort p
            (.active { a with pos := .get g n .low })) := rfl

theorem getBitClock_low (g : GetStage) (n : Nat) (p : Port) (a : Active) (t : State) :
    getBitClock g n false p a t
      = .next ((t.push (t.memrShadow &&& ~~~0x01)).setPort p
          (.active { a with pos := .get g n .sample })) := rfl

/-- The two writes of a `GetBit`. -/
theorem GetCall.clocks (hcall : GetCall i g) (h : Stands p s d t) (hp : d.pos = .get g n .high) :
    Runs i 2 t (Stands p s { d with
      cycles := d.cycles ++ [s.wr nicMemr (d.shadow ||| 0x01), s.wr nicMemr (d.shadow &&& ~~~0x01)]
      shadow := d.shadow &&& ~~~0x01, data := stageData d.data n g, pos := .get g n .sample }) := by
  obtain ⟨a, hr, hpos, -⟩ := h.active
  have hhigh := h.push (I := AnyState) hr ((hcall.high hr (hpos.trans hp)).trans (getBitClock_high ..))
    fun _ _ => trivial
  rw [h.data, h.memrShadow] at hhigh
  refine hhigh.trans (m := 1) (n := 1) fun u h => ?_
  obtain ⟨a, hr, hpos, -⟩ := h.active
  have hlow := h.pushOnly (I := AnyState) hr ((hcall.low hr hpos).trans (getBitClock_low ..))
    fun _ _ => trivial
  rw [h.memrShadow, clockLow_clockHigh] at hlow
  simpa using hlow

/-- Where MDIORD goes after the sample of bit `n` of a stage (R127). -/
def sampleNext (g : GetStage) (n : Nat) (bit : Bool) : Pos :=
  match g with
  | .ta => if bit then .get .flush 0 .high else .get .data 0 .high
  | .data => if n < 15 then .get .data (n + 1) .high else .get .tail 0 .high
  | .tail => .respond
  | .flush => if n < 31 then .get .flush (n + 1) .high else .respond

/-- MDIORD keeps the turnaround sample (R127). -/
def sampleLocals (g : GetStage) (l : Locals) (bit : Bool) : Locals :=
  match g with
  | .ta => { l with ta := bit }
  | _ => l

/-- MDIORD shifts a data sample into `mg_data` (R127). -/
def sampleData (g : GetStage) (data : Half) (bit : Bool) : Half :=
  match g with
  | .data => shiftIn data bit
  | _ => data

theorem readSample_eq (g : GetStage) (n : Nat) (p : Port) (a : Active) (t : State) :
    readSample g n p a t = .next (((t.regRd8 nicMemr).2.withMgData
      (sampleData g t.mgData (mdiBit (t.regRd8 nicMemr).1))).setPort p (.active { a with
        pos := sampleNext g n (mdiBit (t.regRd8 nicMemr).1)
        locals := sampleLocals g a.locals (mdiBit (t.regRd8 nicMemr).1) })) := by
  cases g with
  | data => rfl
  | _ => rw [← regRd8_mgData t nicMemr]; rfl

/-- What has been done after one more `GetBit` of MDIORD, whose sample was `v` (R124, R127). -/
def Drive.got (d : Drive) (s : State) (g : GetStage) (n : Nat) (v : Byte) : Drive where
  cycles := d.cycles ++ getCycles s d.shadow v
  samples := d.samples ++ [v]
  shadow := d.shadow &&& ~~~0x01
  data := sampleData g (stageData d.data n g) (mdiBit v)
  pos := sampleNext g n (mdiBit v)
  locals := sampleLocals g d.locals (mdiBit v)

/-- What has been done after the `GetBit`s of a stage from bit `n` on. -/
def Drive.gotAll (d : Drive) (s : State) (g : GetStage) (n : Nat) : List Byte → Drive
  | [] => d
  | v :: vs => (d.got s g n v).gotAll s g (n + 1) vs

variable {phyad regad : BitVec 5}

/-- One `GetBit` of MDIORD. -/
theorem mdiord_gets_bit (h : Stands p s d t) (hp : d.pos = .get g n .high) :
    Runs (.mdiord phyad regad) 3 t fun u => ∃ v, Stands p s (d.got s g n v) u := by
  refine ((getCall_mdiord phyad regad g).clocks h hp).trans (m := 2) (n := 1) fun u h => ?_
  obtain ⟨a, hr, hpos, -⟩ := h.active
  have hrun := h.sample hr ((execMdiord_sample (phyad := phyad) (regad := regad) hr hpos).trans (readSample_eq ..))
  rw [h.data, h.locals hr] at hrun
  exact hrun.mono fun u hu => ⟨_, by simpa [Drive.got, getCycles] using hu⟩

/-- `m` `GetBit`s of a stage that goes on until the last of them. -/
theorem mdiord_gets (m : Nat) :
    ∀ {n : Nat} {t : State} {d : Drive}, Stands p s d t → (0 < m → d.pos = .get g n .high) →
      (∀ k bit, n ≤ k → k + 1 < n + m → sampleNext g k bit = .get g (k + 1) .high) →
      Runs (.mdiord phyad regad) (3 * m) t fun u =>
        ∃ vs, vs.length = m ∧ Stands p s (d.gotAll s g n vs) u := by
  induction m with
  | zero => exact fun h _ _ => .here ⟨[], rfl, h⟩
  | succ m ih =>
    intro n t d h hp hnext
    have hall := (mdiord_gets_bit (phyad := phyad) (regad := regad) h (hp (Nat.succ_pos m))).trans
      (Q := fun u => ∃ vs, vs.length = m + 1 ∧ Stands p s (d.gotAll s g n vs) u) fun u ⟨v, h⟩ =>
        (ih h (fun hm => hnext n _ (Nat.le_refl n) (by omega)) fun k bit hk hk' =>
          hnext k bit (by omega) (by omega)).mono fun w ⟨vs, hlen, hw⟩ =>
            ⟨v :: vs, congrArg Nat.succ hlen, hw⟩
    rwa [show 3 + 3 * m = 3 * (m + 1) by omega] at hall

end Sys2Proof.Machine
end

section
/-!
PROOF. MDIOWR as a whole (R126): the direction push, the 64 bits of its frame, the input push and one discarded
`GetBit`.
-/

namespace Sys2Proof.Machine

open Sys2Proof

variable {p : Port} {s t : State} {d : Drive} {phyad regad : BitVec 5} {val : Half}

/-- The bits sent, by position, are the write frame of R125. -/
theorem map_frameBit_write (phyad regad : BitVec 5) (val : Half) :
    (List.range' 0 64).map (frameBit false phyad regad val) = writeFrame phyad regad val := by
  rfl

/-- MDIOWR takes the interface and loads `mg_data`, before its first cycle (R126). -/
theorem mdiowr_loads (hstart : AtStart s p) (ho : ¬ (p = .irq ∧ s.mgOwner = some .task)) :
    Runs (.mdiowr phyad regad val) 2 s (Stands p s ⟨[], [], s.memrShadow, val, .mdOut, {}⟩) :=
  (mgmt_enters rfl hstart ho).trans (m := 1) (n := 1) fun t ⟨h, _⟩ => by
    obtain ⟨a, hr, hpos, -⟩ := h.active
    exact h.quiet hr (execMdiowr_load hr hpos)

/-- The `GetBit` of TAIL, whose sample is discarded (R126). -/
theorem mdiowr_discards (h : Stands p s d t) (hp : d.pos = .get .tail 0 .high) :
    Runs (.mdiowr phyad regad val) 3 t fun u => ∃ v, Stands p s { d with
      cycles := d.cycles ++ getCycles s d.shadow v, samples := d.samples ++ [v]
      shadow := d.shadow &&& ~~~0x01, pos := .respond } u := by
  refine ((getCall_mdiowr phyad regad val).clocks h hp).trans (m := 2) (n := 1) fun u h => ?_
  obtain ⟨a, hr, hpos, -⟩ := h.active
  have hrun := h.sampleOnly hr (execMdiowr_sample (phyad := phyad) (regad := regad) (val := val) hr hpos)
  rw [h.locals hr] at hrun
  exact hrun.mono fun u hu => ⟨_, by simpa [getCycles, stageData] using hu⟩

/-- Settles O41: the frame, the input push and the discarded bit follow each other. -/
theorem mdiowrSendsFrame : Obligations.MdiowrSendsFrame := by
  intro phyad regad val s p hstart ho out last hout hlast
  have hframe := (mdiowr_loads (phyad := phyad) (regad := regad) (val := val) hstart ho).trans fun t h =>
    (frameCall_mdiowr phyad regad val).comes_to_get h rfl (map_frameBit_write phyad regad val)
  obtain ⟨hway, t, hn, v, h⟩ := hframe.trans (Q := fun u => ∃ v, Stands p s _ u) fun t h =>
    mdiowr_discards h rfl
  obtain ⟨u, hu, hanswered, hrest⟩ := mgmt_answers ⟨hway, t, hn, h⟩ rfl rfl
  subst hout
  subst hlast
  exact ⟨u, v, hu, hanswered, hrest⟩

end Sys2Proof.Machine
end

section
/-!
PROOF. MDIORD as a whole (R127): the bits it sends, the turnaround, and then the data samples or, when the turnaround
has failed, the flush.
-/

namespace Sys2Proof.Machine

open Sys2Proof

variable {p : Port} {s t : State} {d : Drive} {g : GetStage} {n : Nat} {phyad regad : BitVec 5}

/-! ### The samples of a stage -/

theorem getCycles_clockLow (s : State) (shadow v : Byte) :
    getCycles s (shadow &&& ~~~0x01) v = getCycles s shadow v := by
  rw [getCycles, getCycles, clockHigh_clockLow, clockLow_clockLow]

/-- From `d` to `e` the samples `vs` have been taken, each by a `GetBit` (R124). -/
structure Sampled (s : State) (d : Drive) (vs : List Byte) (e : Drive) : Prop where
  cycles : e.cycles = d.cycles ++ getAllCycles s d.shadow vs
  samples : e.samples = d.samples ++ vs
  clockLow : e.shadow &&& ~~~0x01 = d.shadow &&& ~~~0x01
  shadow : vs ≠ [] → e.shadow = d.shadow &&& ~~~0x01

theorem Sampled.refl (s : State) (d : Drive) : Sampled s d [] d :=
  ⟨(List.append_nil _).symm, (List.append_nil _).symm, rfl, absurd rfl⟩

theorem Sampled.got {vs : List Byte} {e : Drive} (h : Sampled s d vs e) (g : GetStage) (n : Nat) (v : Byte) :
    Sampled s d (vs ++ [v]) (e.got s g n v) where
  cycles := by
    rw [Drive.got, h.cycles, ← getCycles_clockLow s e.shadow, h.clockLow]
    simp [getAllCycles]
  samples := by rw [Drive.got, h.samples, List.append_assoc]
  clockLow := by rw [Drive.got, clockLow_clockLow, h.clockLow]
  shadow _ := by rw [Drive.got, h.clockLow]

theorem Sampled.gotAll {vs : List Byte} (ws : List Byte) : ∀ {e : Drive}, Sampled s d vs e →
    ∀ (g : GetStage) (n : Nat), Sampled s d (vs ++ ws) (e.gotAll s g n ws) := by
  induction ws generalizing vs with
  | nil =>
    intro e h g n
    rwa [List.append_nil]
  | cons w ws ih =>
    intro e h g n
    rw [List.append_cons]
    exact ih (h.got g n w) g (n + 1)

theorem gotAll_locals (hg : g ≠ .ta) (vs : List Byte) : ∀ (d : Drive) (n : Nat),
    (d.gotAll s g n vs).locals = d.locals := by
  induction vs with
  | nil => exact fun d n => rfl
  | cons v vs ih =>
    intro d n
    rw [Drive.gotAll, ih, Drive.got]
    cases g with
    | ta => exact absurd rfl hg
    | _ => rfl

/-- A stage ends as its last sample leads on. -/
theorem gotAll_pos (m : Nat) : ∀ (d : Drive) (n : Nat) (vs : List Byte), vs.length = m + 1 →
    ∃ bit, (d.gotAll s g n vs).pos = sampleNext g (n + m) bit := by
  induction m with
  | zero =>
    intro d n vs hlen
    obtain ⟨v, rfl⟩ := List.length_eq_one_iff.mp hlen
    exact ⟨mdiBit v, rfl⟩
  | succ m ih =>
    intro d n vs hlen
    match vs, hlen with
    | v :: vs, hlen =>
      rw [Drive.gotAll, Nat.add_comm m, ← Nat.add_assoc]
      exact ih _ _ vs (Nat.succ.inj hlen)

/-- After bit 0 the data samples are shifted into `mg_data` one after another (R127). -/
theorem gotAll_data (vs : List Byte) : ∀ (d : Drive) (n : Nat),
    (d.gotAll s .data (n + 1) vs).data = (vs.map mdiBit).foldl shiftIn d.data := by
  induction vs with
  | nil => exact fun d n => rfl
  | cons v vs ih =>
    intro d n
    rw [Drive.gotAll, ih, Drive.got]
    rfl

/-- `mg_data` starts from 0, so the samples of DATA are its bits, most significant first (R127). -/
theorem gotAll_data_zero (d : Drive) (v : Byte) (vs : List Byte) :
    (d.gotAll s .data 0 (v :: vs)).data = assembleMsbFirst ((v :: vs).map mdiBit) := by
  rw [Drive.gotAll, gotAll_data]
  rfl

/-! ### The stages -/

/-- The bits sent, by position, are the read frame of R125. -/
theorem map_frameBit_read (phyad regad : BitVec 5) :
    (List.range' 0 46).map (frameBit true phyad regad 0) = readFrame phyad regad := by
  rfl

/-- What MDIORD has done up to its first `GetBit`: the direction push, its 46 bits and the input push (R127). -/
def Drive.turned (s : State) (phyad regad : BitVec 5) : Drive where
  cycles := frameCycles s s.memrShadow (readFrame phyad regad)
  samples := []
  shadow := inputShadow s.memrShadow (readFrame phyad regad)
  data := s.mgData
  pos := .get .ta 0 .high
  locals := {}

theorem mdiord_comes_to_ta (hstart : AtStart s p) (ho : ¬ (p = .irq ∧ s.mgOwner = some .task)) :
    Runs (.mdiord phyad regad) 144 s fun t =>
      ∃ ta, Stands p s ((Drive.turned s phyad regad).got s .ta 0 ta) t := by
  have hframe := (mgmt_enters (i := .mdiord phyad regad) rfl hstart ho).trans fun t ⟨h, _⟩ =>
    (frameCall_mdiord phyad regad).comes_to_get h rfl (map_frameBit_read phyad regad)
  exact hframe.trans (n := 3) fun t h => mdiord_gets_bit h rfl

/-- DATA and TAIL: 16 bits and one more (R127). -/
theorem mdiord_takes_data (h : Stands p s d t) (hp : d.pos = .get .data 0 .high) :
    Runs (.mdiord phyad regad) 51 t fun u => ∃ vs tail, vs.length = 16
      ∧ Stands p s ((d.gotAll s .data 0 vs).got s .tail 0 tail) u := by
  refine (mdiord_gets 16 h (fun _ => hp) fun k bit _ hk => if_pos (by omega)).trans (n := 3)
    fun u ⟨vs, hlen, h⟩ => ?_
  obtain ⟨bit, hpos⟩ := gotAll_pos (s := s) (g := .data) 15 d 0 vs hlen
  exact (mdiord_gets_bit h (hpos.trans rfl)).mono fun w ⟨tail, hw⟩ => ⟨vs, tail, hlen, hw⟩

/-- FLUSH: 32 bits (R127). -/
theorem mdiord_flushes (h : Stands p s d t) (hp : d.pos = .get .flush 0 .high) :
    Runs (.mdiord phyad regad) 96 t fun u => ∃ vs, vs.length = 32
      ∧ (d.gotAll s .flush 0 vs).pos = .respond ∧ Stands p s (d.gotAll s .flush 0 vs) u := by
  refine (mdiord_gets 32 h (fun _ => hp) fun k bit _ hk => if_pos (by omega)).mono fun u ⟨vs, hlen, h⟩ => ?_
  obtain ⟨bit, hpos⟩ := gotAll_pos (s := s) (g := .flush) 31 d 0 vs hlen
  exact ⟨vs, hlen, hpos.trans rfl, h⟩

/-! ### From acceptance to the response -/

/-- MDIORD's cycles when it takes these samples (R127). -/
def readCycles (s : State) (phyad regad : BitVec 5) (samples : List Byte) : List BusCycle :=
  frameCycles s s.memrShadow (readFrame phyad regad)
    ++ getAllCycles s (inputShadow s.memrShadow (readFrame phyad regad)) samples

/-- MDIORD runs from `s` to its response in `n` micro-steps, with these samples and this answer. -/
def ReadsAs (p : Port) (s : State) (phyad regad : BitVec 5) (n : Nat) (samples : List Byte) (v : Half) : Prop :=
  (∃ u, Heard s u samples) ∧ ∃ t, execN (.mdiord phyad regad) n s = .next t
    ∧ Answered s t p (readCycles s phyad regad samples) (okResponse v)
    ∧ t.rest = { s.rest.mgLeft with
        memrShadow := inputShadow s.memrShadow (readFrame phyad regad) &&& ~~~0x01 }

/-- MDIORD's response, once it has taken its samples; the clock is low then. -/
theorem readsAs_of_sampled {e : Drive} {vs : List Byte} (h : Runs (.mdiord phyad regad) n s (Stands p s e))
    (hs : Sampled s (.turned s phyad regad) vs e) (hvs : vs ≠ []) (hp : e.pos = .respond) :
    ReadsAs p s phyad regad (n + 1) vs (if e.locals.ta then 0xFFFF else e.data) := by
  obtain ⟨t, hn, hanswered, hrest⟩ := mgmt_answers h rfl hp
  obtain ⟨-, u, -, hstands⟩ := h
  rw [hs.cycles] at hanswered
  rw [hs.shadow hvs] at hrest
  refine ⟨⟨u, ?_⟩, t, hn, hanswered, hrest⟩
  have hheard := hstands.heard
  rwa [hs.samples] at hheard

/-- Whatever the card bus answers, the turnaround sample decides between DATA and FLUSH (R127). -/
theorem mdiord_runs (hstart : AtStart s p) (ho : ¬ (p = .irq ∧ s.mgOwner = some .task)) :
    ∃ ta u, Heard s u [ta]
      ∧ (mdiBit ta = false → ∃ vs tail, vs.length = 16
          ∧ ReadsAs p s phyad regad 196 (ta :: (vs ++ [tail])) (assembleMsbFirst (vs.map mdiBit)))
      ∧ (mdiBit ta = true → ∃ vs, vs.length = 32 ∧ ReadsAs p s phyad regad 241 (ta :: vs) 0xFFFF) := by
  obtain ⟨hway, u, hn, ta, h⟩ := mdiord_comes_to_ta (phyad := phyad) (regad := regad) hstart ho
  have hta : Runs (.mdiord phyad regad) 144 s (Stands p s ((Drive.turned s phyad regad).got s .ta 0 ta)) :=
    ⟨hway, u, hn, h⟩
  have hsampled := (Sampled.refl s (.turned s phyad regad)).got .ta 0 ta
  refine ⟨ta, u, h.heard, fun hbit => ?_, fun hbit => ?_⟩
  · obtain ⟨hway, t, hn, vs, tail, hlen, h⟩ := hta.trans fun t h =>
      mdiord_takes_data h (by rw [Drive.got, hbit]; rfl)
    have hreads := readsAs_of_sampled ⟨hway, t, hn, h⟩ ((hsampled.gotAll vs .data 0).got .tail 0 tail)
      (by simp) rfl
    refine ⟨vs, tail, hlen, ?_⟩
    have hlocals : ((((Drive.turned s phyad regad).got s .ta 0 ta).gotAll s .data 0 vs).got s .tail 0
        tail).locals.ta = false := by
      simp only [Drive.got, sampleLocals]
      rw [gotAll_locals (by simp)]
      exact hbit
    rw [hlocals] at hreads
    match vs, hlen with
    | v :: vs, _ =>
      rw [← gotAll_data_zero (s := s) ((Drive.turned s phyad regad).got s .ta 0 ta)]
      exact hreads
  · obtain ⟨hway, t, hn, vs, hlen, hpos, h⟩ := hta.trans fun t h =>
      mdiord_flushes h (by rw [Drive.got, hbit]; rfl)
    have hreads := readsAs_of_sampled ⟨hway, t, hn, h⟩ (hsampled.gotAll vs .flush 0) (by simp) hpos
    rw [gotAll_locals (by simp), show ((Drive.turned s phyad regad).got s .ta 0 ta).locals.ta = true from hbit]
      at hreads
    exact ⟨vs, hlen, hreads⟩

/-! ### With the samples listed -/

theorem mdiBit_setWidth (v : Word) : mdiBit (v.setWidth 8) = v.getLsbD 2 := by
  simp [mdiBit]

/-- The samples of a request are the listed answers (R68). -/
theorem Heard.eq_listed {u : State} {vs : List Byte} (h : Heard s u vs) {bus rest : List Word}
    (hlen : bus.length = vs.length) (hnic : s.env.nic = none) (hbus : s.env.busTape = bus ++ rest) :
    vs = bus.map (BitVec.setWidth 8) :=
  (h bus rest s.env.expiredTape s.env.reinitTape hlen ⟨hnic, hbus, rfl, rfl⟩).1

/-- Settles O42: the turnaround sample is the first listed answer, the data samples the next 16. -/
theorem mdiordReadsRegister : Obligations.MdiordReadsRegister := by
  intro phyad regad s p ta tail data rest hstart ho hnic hdata hbus hta out last hout hlast
  obtain ⟨ta', u, hheard, hreads, -⟩ := mdiord_runs (phyad := phyad) (regad := regad) hstart ho
  have hturn := hheard.eq_listed (bus := [ta]) rfl hnic hbus
  obtain rfl : ta' = ta.setWidth 8 := by simpa using hturn
  obtain ⟨vs, tail', hlen, ⟨w, hall⟩, t, ht, hanswered, hrest⟩ := hreads ((mdiBit_setWidth ta).trans hta)
  have hsamples := hall.eq_listed (bus := ta :: (data ++ [tail])) (rest := rest) (by simp [hdata, hlen]) hnic
    (by simp [hbus])
  have hvs : vs = data.map (BitVec.setWidth 8) := by
    rw [List.map_cons, List.map_append] at hsamples
    exact (List.append_inj' (List.cons.inj hsamples).2 rfl).1
  have hbits : vs.map mdiBit = data.map fun v => v.getLsbD 2 := by
    rw [hvs, List.map_map]
    exact List.map_congr_left fun v _ => mdiBit_setWidth v
  rw [hsamples, hbits] at hanswered
  subst hout
  subst hlast
  exact ⟨t, ht, hanswered, hrest⟩

/-- Settles O43: the turnaround sample is the first listed answer, the flushed samples the next 32. -/
theorem mdiordTurnaroundFailure : Obligations.MdiordTurnaroundFailure := by
  intro phyad regad s p ta flush rest hstart ho hnic hflush hbus hta out last hout hlast
  obtain ⟨ta', u, hheard, -, hflushes⟩ := mdiord_runs (phyad := phyad) (regad := regad) hstart ho
  have hturn := hheard.eq_listed (bus := [ta]) rfl hnic hbus
  obtain rfl : ta' = ta.setWidth 8 := by simpa using hturn
  obtain ⟨vs, hlen, ⟨w, hall⟩, t, ht, hanswered, hrest⟩ := hflushes ((mdiBit_setWidth ta).trans hta)
  rw [hall.eq_listed (bus := ta :: flush) (by simp [hflush, hlen]) hnic hbus] at hanswered
  subst hout
  subst hlast
  exact ⟨t, ht, hanswered, hrest⟩

end Sys2Proof.Machine
end

section
/-!
PROOF. Rising edges of `MDC` (R128): one for each bit sent or taken, and what the line primitives and EEWR add.
-/

namespace Sys2Proof.Machine

open Sys2Proof

variable {i : Instr} {p : Port} {s t : State} {d : Drive} {cs ds : List BusCycle} {m n : Nat}
  {phyad regad : BitVec 5} {val : Half}

/-! ### Pulses in a list of cycles -/

/-- Cycles that find the clock low, make `n` rising edges and leave the clock low. -/
def Pulses (cs : List BusCycle) (n : Nat) : Prop :=
  ∀ ds, risingEdges false (cs ++ ds) = n + risingEdges false ds

theorem Pulses.nil : Pulses [] 0 := fun _ => (Nat.zero_add _).symm

theorem Pulses.append (h : Pulses cs m) (k : Pulses ds n) : Pulses (cs ++ ds) (m + n) := fun es => by
  rw [List.append_assoc, h, k, Nat.add_assoc]

theorem Pulses.risingEdges (h : Pulses cs n) : risingEdges false cs = n := by
  have hend := h []
  rwa [List.append_nil] at hend

theorem risingEdges_wr (level : Bool) (s : State) (k : Fin 32) (b : Byte) (cs : List BusCycle) :
    risingEdges level (s.wr k b :: cs)
      = (if b.getLsbD 0 && !level then 1 else 0) + risingEdges (b.getLsbD 0) cs := by
  simp [State.wr, risingEdges]

theorem risingEdges_rd (level : Bool) (s : State) (k : Fin 32) (v : Byte) (cs : List BusCycle) :
    risingEdges level (s.rd k v :: cs) = risingEdges level cs := rfl

/-- A write with the clock low. -/
theorem pulses_wr_low (s : State) {b : Byte} (hb : b.getLsbD 0 = false) : Pulses [s.wr nicMemr b] 0 := fun ds => by
  rw [List.singleton_append, risingEdges_wr, hb]
  rfl

/-- The clock raised and lowered. -/
theorem pulses_clock (s : State) (b : Byte) :
    Pulses [s.wr nicMemr (b ||| 0x01), s.wr nicMemr (b &&& ~~~0x01)] 1 := fun ds => by
  simp [State.wr, risingEdges]

/-! ### `SendBit` and `GetBit` (R124, R128) -/

theorem clock_withMdo (shadow : Byte) (b : Bool) : (withMdo shadow b).getLsbD 0 = shadow.getLsbD 0 := by
  cases b <;> simp [withMdo]

theorem clock_clockLow (b : Byte) : (b &&& ~~~0x01).getLsbD 0 = false := by simp

theorem sendShadow_clock (bits : List Bool) : ∀ {shadow : Byte}, shadow.getLsbD 0 = false →
    (sendShadow shadow bits).getLsbD 0 = false := by
  induction bits with
  | nil => exact id
  | cons b bits ih => exact fun _ => ih (clock_clockLow _)

/-- Each bit sent is one pulse. -/
theorem pulses_sendBytes (s : State) (bits : List Bool) : ∀ {shadow : Byte}, shadow.getLsbD 0 = false →
    Pulses ((sendBytes shadow bits).map (s.wr nicMemr)) bits.length := by
  induction bits with
  | nil => exact fun _ => .nil
  | cons b bits ih =>
    intro shadow hlow
    have hset := pulses_wr_low s (b := withMdo shadow b) ((clock_withMdo shadow b).trans hlow)
    have hall := (hset.append (pulses_clock s (withMdo shadow b))).append (ih (clock_clockLow (withMdo shadow b)))
    rw [Nat.zero_add, Nat.add_comm] at hall
    exact hall

/-- Each bit taken is one pulse. -/
theorem pulses_getCycles (s : State) (shadow v : Byte) : Pulses (getCycles s shadow v) 1 :=
  (pulses_clock s shadow).append (n := 0) fun _ => (Nat.zero_add _).symm

theorem getAllCycles_cons (s : State) (shadow v : Byte) (vs : List Byte) :
    getAllCycles s shadow (v :: vs) = getCycles s shadow v ++ getAllCycles s shadow vs := by
  rw [getAllCycles, List.flatMap_cons, getCycles_clockLow, getAllCycles]

theorem pulses_getAllCycles (s : State) (shadow : Byte) (vs : List Byte) :
    Pulses (getAllCycles s shadow vs) vs.length := by
  induction vs with
  | nil => exact .nil
  | cons v vs ih =>
    rw [getAllCycles_cons, List.length_cons, Nat.add_comm]
    exact (pulses_getCycles s shadow v).append ih

/-- The bits sent are the only pulses of a frame up to its first `GetBit`. -/
theorem pulses_frameCycles (s : State) {shadow : Byte} (bits : List Bool) (hlow : shadow.getLsbD 0 = false) :
    Pulses (frameCycles s shadow bits) bits.length := by
  have hout : (shadow &&& ~~~0x02).getLsbD 0 = false := by
    rw [BitVec.getLsbD_and, hlow, Bool.false_and]
  have hin : (inputShadow shadow bits).getLsbD 0 = false := by
    rw [inputShadow, BitVec.getLsbD_or, sendShadow_clock bits hout]
    rfl
  have hall := ((pulses_wr_low s hout).append (pulses_sendBytes s bits hout)).append (pulses_wr_low s hin)
  rwa [Nat.zero_add, Nat.add_zero] at hall

/-! ### The frames (R128) -/

theorem length_writeFrame (phyad regad : BitVec 5) (val : Half) : (writeFrame phyad regad val).length = 64 := by
  simp [writeFrame, msbFirst]

theorem length_readFrame (phyad regad : BitVec 5) : (readFrame phyad regad).length = 46 := by
  simp [readFrame, msbFirst]

/-- MDIOWR: 64 bits sent and one taken (R128). -/
theorem pulses_mdiowr (s : State) (v : Byte) (hlow : s.memrShadow.getLsbD 0 = false) :
    Pulses (frameCycles s s.memrShadow (writeFrame phyad regad val)
      ++ getCycles s (inputShadow s.memrShadow (writeFrame phyad regad val)) v) 65 := by
  have hall := (pulses_frameCycles s (writeFrame phyad regad val) hlow).append (pulses_getCycles s
    (inputShadow s.memrShadow (writeFrame phyad regad val)) v)
  rwa [length_writeFrame] at hall

/-- MDIORD: 46 bits sent and the samples taken (R128). -/
theorem pulses_readCycles (s : State) (vs : List Byte) (hlow : s.memrShadow.getLsbD 0 = false) :
    Pulses (readCycles s phyad regad vs) (46 + vs.length) := by
  have hall := (pulses_frameCycles s (readFrame phyad regad) hlow).append (pulses_getAllCycles s
    (inputShadow s.memrShadow (readFrame phyad regad)) vs)
  rwa [length_readFrame] at hall

theorem filter_isRead_writes (s : State) (bs : List Byte) :
    (bs.map (s.wr nicMemr)).filter BusCycle.isRead = [] := by
  simp [List.filter_eq_nil_iff, State.wr, BusCycle.isRead]

theorem filter_isRead_getAllCycles (s : State) (shadow : Byte) (vs : List Byte) :
    (getAllCycles s shadow vs).filter BusCycle.isRead = vs.map (s.rd nicMemr) := by
  induction vs with
  | nil => rfl
  | cons v vs ih =>
    rw [getAllCycles_cons, List.filter_append, ih]
    rfl

/-- The reads of MDIORD are its samples. -/
theorem filter_isRead_readCycles (s : State) (vs : List Byte) :
    (readCycles s phyad regad vs).filter BusCycle.isRead = vs.map (s.rd nicMemr) := by
  have hframe := filter_isRead_writes s ((s.memrShadow &&& ~~~0x02)
    :: sendBytes (s.memrShadow &&& ~~~0x02) (readFrame phyad regad)
      ++ [inputShadow s.memrShadow (readFrame phyad regad)])
  rw [List.map_append, List.map_cons] at hframe
  rw [readCycles, List.filter_append, filter_isRead_getAllCycles]
  exact congrArg (· ++ vs.map (s.rd nicMemr)) hframe

/-- MDIORD's reads start with the turnaround, and its pulses are its 46 bits and its samples (R128). -/
theorem ReadsAs.pulses {ta : Byte} {vs : List Byte} {v : Half} (h : ReadsAs p s phyad regad n (ta :: vs) v)
    (hlow : s.memrShadow.getLsbD 0 = false) :
    ∃ (t : State) (cs samples : List BusCycle), execN (.mdiord phyad regad) n s = .next t ∧ t.port p = .idle
      ∧ t.out.cycles = s.out.cycles ++ cs ∧ cs.filter BusCycle.isRead = s.rd nicMemr ta :: samples
      ∧ risingEdges false cs = 47 + vs.length := by
  obtain ⟨-, t, ht, hanswered, -⟩ := h
  refine ⟨t, _, _, ht, hanswered.idle, hanswered.cycles, filter_isRead_readCycles s (ta :: vs), ?_⟩
  rw [(pulses_readCycles s (ta :: vs) hlow).risingEdges, List.length_cons]
  omega

theorem mdiBit_rd (s : State) (v : Byte) : (s.rd nicMemr v).value.getLsbD 2 = mdiBit v := by
  simp [State.rd, BusCycle.value, mdiBit]

/-- MDIORD makes 64 pulses, or 79 when the turnaround sample is 1 (R128). -/
theorem mdiord_pulses (hstart : AtStart s p) (ho : ¬ (p = .irq ∧ s.mgOwner = some .task))
    (hlow : s.memrShadow.getLsbD 0 = false) :
    ∃ (n : Nat) (t : State) (cs samples : List BusCycle) (ta : BusCycle),
      execN (.mdiord phyad regad) n s = .next t ∧ t.port p = .idle
      ∧ t.out.cycles = s.out.cycles ++ cs ∧ cs.filter BusCycle.isRead = ta :: samples
      ∧ risingEdges false cs = if ta.value.getLsbD 2 then 79 else 64 := by
  obtain ⟨ta, u, -, hreads, hflushes⟩ := mdiord_runs (phyad := phyad) (regad := regad) hstart ho
  cases hbit : mdiBit ta with
  | false =>
    obtain ⟨vs, tail, hlen, h⟩ := hreads hbit
    obtain ⟨t, cs, samples, ht, hidle, hcycles, hfilter, hedges⟩ := h.pulses hlow
    refine ⟨196, t, cs, samples, _, ht, hidle, hcycles, hfilter, ?_⟩
    rw [mdiBit_rd, hbit, hedges, List.length_append, hlen]
    rfl
  | true =>
    obtain ⟨vs, hlen, h⟩ := hflushes hbit
    obtain ⟨t, cs, samples, ht, hidle, hcycles, hfilter, hedges⟩ := h.pulses hlow
    refine ⟨241, t, cs, samples, _, ht, hidle, hcycles, hfilter, ?_⟩
    rw [mdiBit_rd, hbit, hedges, hlen]
    rfl

/-! ### MDIOWR's data phase (R125) -/

/-- MDIOWR up to frame bit 48, the first of its data (R126). -/
theorem mdiowr_comes_to_data (hstart : AtStart s p) (ho : ¬ (p = .irq ∧ s.mgOwner = some .task))
    (hlow : s.memrShadow.getLsbD 0 = false) :
    Runs (.mdiowr phyad regad val) 147 s fun t => ∃ d, Stands p s d t ∧ d.pos = .send 48 .set
      ∧ d.shadow.getLsbD 0 = false := by
  have hout := (mdiowr_loads (phyad := phyad) (regad := regad) (val := val) hstart ho).trans fun t h =>
    (frameCall_mdiowr phyad regad val).turns_out h rfl
  have hsent := hout.trans fun t h => (frameCall_mdiowr phyad regad val).sends 48 (I := AnyState) (n := 0) h rfl
    (by decide) fun _ _ _ _ _ => trivial
  exact hsent.mono fun t h => ⟨_, h, rfl, sendShadow_clock _ (by simp only [BitVec.getLsbD_and, hlow]; rfl)⟩

theorem framePhase_data (h : 48 ≤ n) : framePhase n = .data := by
  simp (disch := omega) only [framePhase, if_neg]

/-- From frame bit 48 on MDIOWR sends 16 bits in DATA, and then opens TAIL (R125, R126). -/
theorem mdiowr_sends_data (h : Stands p s d t) (hp : d.pos = .send 48 .set) :
    RunsVia (fun c => c.mgPhase = .data) (.mdiowr phyad regad val) 48 t fun u => ∃ bits : List Bool,
      bits.length = 16 ∧ Stands p s (d.sent s bits .mdIn) u :=
  ((frameCall_mdiowr phyad regad val).sends 16 (n := 48) h hp (by decide)
    fun k hk _ _ hc => hc.trans (framePhase_data hk)).mono fun u h => ⟨_, by simp, h⟩

/-- In MDIOWR's data phase, 48 micro-steps from the 148th on, the clock rises 16 times (R128). -/
theorem mdiowr_data_pulses (hstart : AtStart s p) (ho : ¬ (p = .irq ∧ s.mgOwner = some .task))
    (hlow : s.memrShadow.getLsbD 0 = false) :
    ∃ (a b : State) (data : List BusCycle), execN (.mdiowr phyad regad val) 147 s = .next a
      ∧ (∀ k, k < 48 → ∃ c, execN (.mdiowr phyad regad val) (k + 1) a = .next c ∧ c.mgPhase = .data)
      ∧ execN (.mdiowr phyad regad val) 48 a = .next b
      ∧ (∃ c, exec (.mdiowr phyad regad val) b = .next c ∧ c.mgPhase = .tail)
      ∧ b.out.cycles = a.out.cycles ++ data ∧ risingEdges false data = 16 := by
  obtain ⟨-, a, ha, d, h, hpos, hclock⟩ :=
    mdiowr_comes_to_data (phyad := phyad) (regad := regad) (val := val) hstart ho hlow
  obtain ⟨hway, b, hb, bits, hlen, hsent⟩ :=
    mdiowr_sends_data (phyad := phyad) (regad := regad) (val := val) h hpos
  obtain ⟨e, hr, hin, -⟩ := hsent.active
  obtain ⟨c, hc, hphase, -⟩ := frameInput_shifts (s := b) (p := p) (a := e) .tail
  refine ⟨a, b, _, ha, hway, hb, ⟨c, ((frameCall_mdiowr phyad regad val).input hr hin).trans hc, hphase⟩, ?_,
    (hlen ▸ pulses_sendBytes s bits hclock).risingEdges⟩
  rw [hsent.since.cycles, h.since.cycles, Drive.sent, List.append_assoc]

/-! ### The line primitives and EEWR (R128) -/

/-- One write makes an edge exactly when it sets a clear clock bit. -/
theorem risingEdges_one (level : Bool) (s : State) (b : Byte) :
    risingEdges level [s.wr nicMemr b] = if b.getLsbD 0 = true ∧ level = false then 1 else 0 := by
  rw [risingEdges_wr]
  cases b.getLsbD 0 <;> cases level <;> rfl

/-- A write that keeps the clock bit makes no edge. -/
theorem risingEdges_same (s : State) {b : Byte} {level : Bool} (hb : b.getLsbD 0 = level) :
    risingEdges level [s.wr nicMemr b] = 0 := by
  rw [risingEdges_one, hb]
  cases level <;> rfl

theorem clock_setClock (lv : Bool) (b : Byte) : (setClock lv b).getLsbD 0 = lv := by
  cases lv
  · exact clock_clockLow b
  · rw [setClock, setLine, if_pos rfl, BitVec.getLsbD_or]
    simp

theorem clock_setLine {mask : Byte} (hm : mask.getLsbD 0 = false) (level : Bool) (b : Byte) :
    (setLine mask level b).getLsbD 0 = b.getLsbD 0 := by
  cases level
  · rw [setLine, if_neg Bool.false_ne_true, BitVec.getLsbD_and, BitVec.getLsbD_not, hm]
    simp
  · rw [setLine, if_pos rfl, BitVec.getLsbD_or, hm, Bool.or_false]

theorem clock_setInput (input : Bool) (b : Byte) : (setInput input b).getLsbD 0 = b.getLsbD 0 :=
  clock_setLine (by decide) input b

theorem clock_setData (level : Bool) (b : Byte) : (setData level b).getLsbD 0 = b.getLsbD 0 :=
  clock_setLine (by decide) level b

/-- EEWR keeps the clock bit of its base (R122). -/
theorem clock_eepromByte (cs clk di : Bool) (base : Byte) :
    (eepromByte cs clk di base).getLsbD 0 = base.getLsbD 0 := by
  rw [getLsbD_eepromByte]
  simp

/-- A request of three micro-steps, with the edges of its cycles. -/
def EdgesInThree (p : Port) (s : State) (i : Instr) (n : Nat) : Prop :=
  ∃ (t : State) (cs : List BusCycle), execN i 3 s = .next t ∧ t.port p = .idle
    ∧ t.out.cycles = s.out.cycles ++ cs ∧ risingEdges (s.memrShadow.getLsbD 0) cs = n

theorem LinePush.edges {f : Byte → Byte} (hline : LinePush i f) (hstart : AtStart s p)
    (ho : ¬ (p = .irq ∧ s.mgOwner = some .task)) :
    EdgesInThree p s i (risingEdges (s.memrShadow.getLsbD 0) [s.wr nicMemr (f s.memrShadow)]) := by
  obtain ⟨t, ht, hanswered, -⟩ := hline.runs hstart ho
  exact ⟨t, _, ht, hanswered.idle, hanswered.cycles, rfl⟩

theorem LineRead.edges (hline : LineRead i) (hstart : AtStart s p)
    (ho : ¬ (p = .irq ∧ s.mgOwner = some .task)) : EdgesInThree p s i 0 := by
  obtain ⟨t, v, ht, -, hanswered, -⟩ := hline.runs hstart ho
  exact ⟨t, _, ht, hanswered.idle, hanswered.cycles, rfl⟩

/-- Settles O44: the pulses of each request's cycles. -/
theorem clockPulses : Obligations.ClockPulses := by
  intro s p hstart ho
  refine ⟨fun phyad regad val hlow => ?_, fun phyad regad hlow => ?_, fun lv => ?_, fun i hi => ?_,
    fun chip clk di => ?_⟩
  · obtain ⟨t, v, ht, hanswered, -⟩ := mdiowrSendsFrame phyad regad val s p hstart ho _ _ rfl rfl
    obtain ⟨a, b, data, hdata⟩ :=
      mdiowr_data_pulses (phyad := phyad) (regad := regad) (val := val) hstart ho hlow
    exact ⟨t, a, b, _, data, ht, hanswered.idle, hanswered.cycles, (pulses_mdiowr s v hlow).risingEdges, hdata⟩
  · exact mdiord_pulses hstart ho hlow
  · have hedges := (linePush_mdc lv).edges hstart ho
    rwa [risingEdges_one, clock_setClock] at hedges
  · rcases hi with ⟨lv, rfl | rfl⟩ | rfl | rfl
    · have hedges := (linePush_mdir lv).edges hstart ho
      rwa [risingEdges_same s (clock_setInput _ _)] at hedges
    · have hedges := (linePush_mdo lv).edges hstart ho
      rwa [risingEdges_same s (clock_setData _ _)] at hedges
    · exact lineRead_mdi.edges hstart ho
    · exact lineRead_eerd.edges hstart ho
  · cases hsource : s.cfg.eeRmwSource with
    | shadow =>
      obtain ⟨t, ht, hanswered, -⟩ := eewr_runs_shadow (cs := chip) (clk := clk) (di := di) hsource hstart ho
      exact ⟨4, t, _, ht, hanswered.idle, hanswered.cycles,
        fun _ => risingEdges_same s (clock_eepromByte chip clk di _), nofun⟩
    | bus =>
      obtain ⟨t, v, ht, -, hanswered, -⟩ := eewr_runs_bus (cs := chip) (clk := clk) (di := di) hsource hstart ho
      refine ⟨5, t, _, ht, hanswered.idle, hanswered.cycles, nofun, fun _ => ⟨v, _, rfl, ?_⟩⟩
      rw [risingEdges_rd, risingEdges_one, clock_eepromByte]

end Sys2Proof.Machine
end

section
/-!
PROOF. A management request on the IRQ port that finds TASK the owner of the interface (R115, R133).
-/

namespace Sys2Proof.Machine

open Sys2Proof

variable {i : Instr} {a : Active} {s : State}

theorem mgEnter_of_task_owner (ho : s.mgOwner = some .task) (a : Active) (op : Byte) (next : Pos) :
    s.mgEnter .irq a op next = s.raise .irq .mgmtReentry (.opcode op) :=
  if_pos ⟨rfl, ho⟩

/-- Each of the eight hands its own `OP` to `MgEnter`, which finds TASK the owner (R115). -/
theorem exec_mgmt_reentry (hi : isMgmt i = true) (ho : s.mgOwner = some .task)
    (hr : s.running = some (.irq, a)) (hp : a.pos = .start) :
    exec i s = .next (s.raise .irq .mgmtReentry (.opcode (opOf (encode i)))) := by
  rw [opOf_encode]
  cases i
  case rd8 | rd16 | wr8 | wr16 | wblk | rblk | gethdr | bin | bout | reset => cases hi
  all_goals simp only [exec, execMdc, execMdir, execMdo, execMdi, execEerd, execEewr, execMdiord, execMdiowr,
    micro_running hr, hp, mgEnter_of_task_owner ho, Instr.op]

/-- Settles O19: the first micro-step raises, and a raised fault answers with no cycle. -/
theorem mgmtReentryRaised : Obligations.MgmtReentryRaised := by
  intro i s hi ⟨d, hr⟩ ho
  exact ⟨_, exec_mgmt_reentry hi ho hr rfl, raise_answers s .irq _ _, rest_raise s .irq _ _⟩

end Sys2Proof.Machine
end

section
/-!
PROOF. What RST leaves of the block, and that a block with `fault` set takes no other move (R50, R138, R147).
-/

namespace Sys2Proof.Machine

open Sys2Proof

variable {s t : State}

theorem step_of_scheduled_rst {rest : List Move} (h : s.env.moves = .rst :: rest) :
    step s = .next (s.withEnv { s.env with moves := rest }).rst := by
  rw [step_of_rst (nextMove_fst_of_scheduled h), nextMove_of_scheduled h]

theorem getElem_rst_regOffset (s : State) (k : Fin 32) :
    s.rst.regOffset[k] = s.cfg.regBase + BitVec.ofNat 16 (s.cfg.regStride * k.val) :=
  getElem_offsetTable s.cfg k

theorem cycles_rst (s : State) : s.rst.out.cycles = s.out.cycles := by rw [rst_out]

theorem responses_rst (s : State) : s.rst.out.responses = s.out.responses := by rw [rst_out]

/-- With both ports idle no rule of R36 holds a request back. -/
theorem mayAccept_of_idle (ht : s.portTask = .idle) (hi : s.portIrq = .idle) (p : Port) :
    s.mayAccept p = true := by
  cases p with
  | task => exact mayAccept_task.mpr ⟨ht, hi⟩
  | irq => exact mayAccept_irq.mpr ⟨hi, by rw [ht]; rfl⟩

theorem nextMove_rst_of_fault (hf : s.fault ≠ none) (h : step s = .next t) : s.nextMove.1 = .rst := by
  obtain ⟨-, hfree⟩ := step_took h
  by_contra hm
  exact hf (hfree hm)

/-- The only exit from a fault is RST, so the next state is RST's (R138). -/
theorem eq_rst_of_fault (hf : s.fault ≠ none) (h : step s = .next t) : t = s.nextMove.2.rst := by
  rw [step_of_rst (nextMove_rst_of_fault hf h)] at h
  cases h
  rfl

/-- Settles O11: RST is `resetWith` field by field with the trace kept, and both ports are idle after it; a
step that answers with `fault` set is RST's. -/
theorem rstResetsTheBlock : Obligations.RstResetsTheBlock := by
  refine ⟨fun s rest hmoves => ?_, fun s t hf h => ⟨nextMove_rst_of_fault hf h, ?_⟩⟩
  · exact ⟨_, step_of_scheduled_rst hmoves, rfl, rfl, rfl, rfl, rfl, rfl, rfl, rfl, rfl, rfl, rfl, rfl,
      getElem_rst_regOffset _, rst_cfg _, cycles_rst _, responses_rst _, mayAccept_of_idle rfl rfl⟩
  · rw [eq_rst_of_fault hf h]
    rfl

end Sys2Proof.Machine
end
